-- ==== Sys2Proof/Word.lean ====
section
/-! DEFINITION. The word types of the block: 00_scope.md R14, R17. -/

namespace Sys2Proof

/-- A 32-bit word: a FIFO word, a buffer address, half a command (R14). -/
abbrev Word := BitVec 32

/-- One byte of caller buffer memory (20_memory.md R71). -/
abbrev Byte := BitVec 8

/-- A command word, `CMD[63:0]` (30_encoding.md R100). -/
abbrev CmdWord := BitVec 64

/-- An endpoint number: the 4-bit `ep` field (30_encoding.md R100). Which of the sixteen exist is
`Config.maxEndpoints` (00_scope.md R6). -/
abbrev EpNum := Fin 16

end Sys2Proof
end

