-- ==== Sys2Proof/Syntax.lean ====
section
/-! DEFINITION. The commands: one constructor per row of spec/opcode_table.json (30_encoding.md
R101), operands as R104 assembles them. -/

namespace Sys2Proof

/-- Direction: 0 OUT, 1 IN (30_encoding.md R102). -/
inductive Dir where
  | out
  | inn
  deriving DecidableEq, Repr

/-- Transfer type: 0 CONTROL, 1 ISOCHRONOUS, 2 BULK, 3 INTERRUPT (30_encoding.md R103). -/
inductive XferType where
  | control
  | isochronous
  | bulk
  | interrupt
  deriving DecidableEq, Repr

/-- The fourteen commands and the two reserved opcodes. Packet sizes, lengths and counts are
quantities (`Nat`), bounded by their fields in WellFormed.lean; a reserved opcode keeps its other
sixty bits, which may be anything (R106). -/
inductive Instr where
  | init
  | connect
  | disconnect
  | setAddress (addr : BitVec 7)
  | remoteWakeup
  | irqEnable
  | irqDisable
  | irqEntry
  | openEp (ep : EpNum) (dir : Dir) (ty : XferType) (mps : Nat)
  | closeEp (ep : EpNum) (dir : Dir)
  | xfer (ep : EpNum) (dir : Dir) (buffer : Word) (length : Nat)
  | stall (ep : EpNum) (dir : Dir)
  | clearStall (ep : EpNum) (dir : Dir)
  | cfgAlloc (table : Word) (count : Nat)
  | reservedE (high : Word) (low : BitVec 28)
  | reservedF (high : Word) (low : BitVec 28)
  deriving DecidableEq, Repr

end Sys2Proof
end

