-- ==== Sys2Proof/WellFormed.lean ====
section
/-! DEFINITION. Which commands have an encoding: every quantity fits its field (30_encoding.md R100,
R104). The other operands are of their field's width by type. -/

namespace Sys2Proof

/-- The well-formed commands: max packet size in `imm16[10:0]`, length and count in `imm16` (R104). -/
def Instr.wellFormed : Instr → Bool
  | .init => true
  | .connect => true
  | .disconnect => true
  | .setAddress _ => true
  | .remoteWakeup => true
  | .irqEnable => true
  | .irqDisable => true
  | .irqEntry => true
  | .openEp _ _ _ mps => decide (mps < 2 ^ 11)
  | .closeEp _ _ => true
  | .xfer _ _ _ length => decide (length < 2 ^ 16)
  | .stall _ _ => true
  | .clearStall _ _ => true
  | .cfgAlloc _ count => decide (count < 2 ^ 16)
  | .reservedE _ _ => true
  | .reservedF _ _ => true

end Sys2Proof
end

