-- ==== Sys2Proof/Decode.lean ====
section
/-! DEFINITION. The command decoder and encoder (30_encoding.md R100 to R107). -/

namespace Sys2Proof

/-! ## Field codes -/

/-- R102. -/
def Dir.code : Dir → BitVec 1
  | .out => 0
  | .inn => 1

/-- R102. -/
def Dir.ofCode (b : BitVec 1) : Dir :=
  if b = 0 then .out else .inn

/-- R103. -/
def XferType.code : XferType → BitVec 2
  | .control => 0
  | .isochronous => 1
  | .bulk => 2
  | .interrupt => 3

/-- R103. -/
def XferType.ofCode (b : BitVec 2) : XferType :=
  if b = 0 then .control else if b = 1 then .isochronous else if b = 2 then .bulk else .interrupt

/-! ## The fields of a command word (R100) -/

/-- `op`, bits [31:28]. -/
def fieldOp (w : CmdWord) : BitVec 4 := w.extractLsb' 28 4
/-- `dir`, bit [27]. -/
def fieldDir (w : CmdWord) : BitVec 1 := w.extractLsb' 27 1
/-- `ep`, bits [26:23]. -/
def fieldEp (w : CmdWord) : BitVec 4 := w.extractLsb' 23 4
/-- `xtype`, bits [22:21]. -/
def fieldType (w : CmdWord) : BitVec 2 := w.extractLsb' 21 2
/-- `rsv`, bits [20:16]. -/
def fieldRsv (w : CmdWord) : BitVec 5 := w.extractLsb' 16 5
/-- `imm16`, bits [15:0]. -/
def fieldImm (w : CmdWord) : BitVec 16 := w.extractLsb' 0 16
/-- `addr`, bits [63:32]. -/
def fieldAddr (w : CmdWord) : Word := w.extractLsb' 32 32

/-- The command word with these fields (R100). -/
def commandWord (addr : Word) (op : BitVec 4) (dir : BitVec 1) (ep : BitVec 4) (ty : BitVec 2)
    (rsv : BitVec 5) (imm : BitVec 16) : CmdWord :=
  addr ++ (op ++ (dir ++ (ep ++ (ty ++ (rsv ++ imm)))))

/-! ## The opcode map (R101) -/

/-- One row of the opcode map: a word `w` spells the row when `w &&& mask = value`. -/
structure OpcodeRow where
  value : CmdWord
  mask  : CmdWord
  deriving DecidableEq, Repr

/-- Whether `w` spells the row (R101). -/
def OpcodeRow.spells (r : OpcodeRow) (w : CmdWord) : Bool :=
  w &&& r.mask == r.value

/-- The mask of a command with no operand: every bit is fixed. -/
def maskN : CmdWord := 0xFFFFFFFFFFFFFFFF
/-- The mask of formats E: `op`, `dir`, `ep` carry meaning, the rest is zero. -/
def maskE : CmdWord := 0xFFFFFFFFF07FFFFF

/-- The match and mask columns of R101, by opcode. -/
def opcodeRow (op : BitVec 4) : OpcodeRow :=
  match op.toNat with
  | 0x0 => ⟨0x0000000000000000, maskN⟩
  | 0x1 => ⟨0x0000000010000000, maskN⟩
  | 0x2 => ⟨0x0000000020000000, maskN⟩
  | 0x3 => ⟨0x0000000030000000, 0xFFFFFFFFFFFFFF80⟩
  | 0x4 => ⟨0x0000000040000000, maskN⟩
  | 0x5 => ⟨0x0000000050000000, maskN⟩
  | 0x6 => ⟨0x0000000060000000, maskN⟩
  | 0x7 => ⟨0x0000000070000000, maskN⟩
  | 0x8 => ⟨0x0000000080000000, 0xFFFFFFFFF01FF800⟩
  | 0x9 => ⟨0x0000000090000000, maskE⟩
  | 0xA => ⟨0x00000000A0000000, 0x00000000F07F0000⟩
  | 0xB => ⟨0x00000000B0000000, maskE⟩
  | 0xC => ⟨0x00000000C0000000, maskE⟩
  | 0xD => ⟨0x00000000D0000000, 0x00000000FFFF0000⟩
  | 0xE => ⟨0x00000000E0000000, 0x00000000F0000000⟩
  | _   => ⟨0x00000000F0000000, 0x00000000F0000000⟩

/-- The operands of a word by its opcode (R104), whatever its unused fields hold. -/
def operandsOf (w : CmdWord) : Instr :=
  let ep  : EpNum := (fieldEp w).toFin
  let dir : Dir := Dir.ofCode (fieldDir w)
  match (fieldOp w).toNat with
  | 0x0 => .init
  | 0x1 => .connect
  | 0x2 => .disconnect
  | 0x3 => .setAddress (w.extractLsb' 0 7)
  | 0x4 => .remoteWakeup
  | 0x5 => .irqEnable
  | 0x6 => .irqDisable
  | 0x7 => .irqEntry
  | 0x8 => .openEp ep dir (XferType.ofCode (fieldType w)) (w.extractLsb' 0 11).toNat
  | 0x9 => .closeEp ep dir
  | 0xA => .xfer ep dir (fieldAddr w) (fieldImm w).toNat
  | 0xB => .stall ep dir
  | 0xC => .clearStall ep dir
  | 0xD => .cfgAlloc (fieldAddr w) (fieldImm w).toNat
  | 0xE => .reservedE (fieldAddr w) (w.extractLsb' 0 28)
  | _   => .reservedF (fieldAddr w) (w.extractLsb' 0 28)

/-- Strict decode (R105): the command a word spells, or none when an unused field is not zero. The
reserved opcodes decode to their own constructors, whose meaning is the fault R106 gives them. -/
def decode (w : CmdWord) : Option Instr :=
  if (opcodeRow (fieldOp w)).spells w then some (operandsOf w) else none

/-- The decoder on a row of spec/opcode_table.json, whose bits are numbered as the command's are
(R17): `w` is the whole command word, the bits above `nbits` being zero. -/
def decodeTableWord (_nbits w : Nat) : Option Instr :=
  if w < 2 ^ 64 then decode (BitVec.ofNat 64 w) else none

/-! ## The encoder -/

/-- A word with no address half (formats N, A, E, O). -/
def shortWord (op : BitVec 4) (dir : BitVec 1) (ep : BitVec 4) (ty : BitVec 2) (imm : BitVec 16) :
    CmdWord :=
  commandWord 0 op dir ep ty 0 imm

/-- The word of a well-formed command (R100, R101, R104). -/
def encode : Instr → CmdWord
  | .init => shortWord 0x0 0 0 0 0
  | .connect => shortWord 0x1 0 0 0 0
  | .disconnect => shortWord 0x2 0 0 0 0
  | .setAddress a => shortWord 0x3 0 0 0 (a.zeroExtend 16)
  | .remoteWakeup => shortWord 0x4 0 0 0 0
  | .irqEnable => shortWord 0x5 0 0 0 0
  | .irqDisable => shortWord 0x6 0 0 0 0
  | .irqEntry => shortWord 0x7 0 0 0 0
  | .openEp ep dir ty mps => shortWord 0x8 dir.code (BitVec.ofFin ep) ty.code (BitVec.ofNat 16 mps)
  | .closeEp ep dir => shortWord 0x9 dir.code (BitVec.ofFin ep) 0 0
  | .xfer ep dir buffer length =>
      commandWord buffer 0xA dir.code (BitVec.ofFin ep) 0 0 (BitVec.ofNat 16 length)
  | .stall ep dir => shortWord 0xB dir.code (BitVec.ofFin ep) 0 0
  | .clearStall ep dir => shortWord 0xC dir.code (BitVec.ofFin ep) 0 0
  | .cfgAlloc table count => commandWord table 0xD 0 0 0 0 (BitVec.ofNat 16 count)
  | .reservedE high low => high ++ ((0xE : BitVec 4) ++ low)
  | .reservedF high low => high ++ ((0xF : BitVec 4) ++ low)

end Sys2Proof
end

