-- ==== Sys2Proof/Config.lean ====
section
/-! DEFINITION. The implementation parameters of 00_scope.md section 3 (R6 to R16). `State` carries
one `Config` that no step writes (A1); the defaults are the spec's. -/

namespace Sys2Proof

/-- The two speeds (00_scope.md R13); codes 30_encoding.md R124. -/
inductive Speed where
  | full
  | high
  deriving DecidableEq, Repr

/-- One arm of the turn-around function: the value for a clock of at least `clkHz` hertz. -/
structure TrdtRange where
  clkHz : Nat
  value : BitVec 4
  deriving DecidableEq, Repr

/-- `TRDT(speed, ·)` as data (00_scope.md R12): the ranges are tested in order, `below` is the value
when none applies. Every function of a 32-bit clock rate has this form. -/
structure TrdtTable where
  ranges : List TrdtRange
  below  : BitVec 4
  deriving DecidableEq, Repr

/-- The parameters R6 to R16, and one the spec leaves open (A37). -/
structure Config where
  /-- `MAX_ENDPOINTS` (R6). -/
  maxEndpoints      : Nat
  /-- `FIFO_CAPACITY_WORDS` (R7). -/
  fifoCapacityWords : Nat
  /-- `RX_OVERHEAD_WORDS` (R8). -/
  rxOverheadWords   : Nat
  /-- `RX_BRINGUP_WORDS` (R9). -/
  rxBringupWords    : Nat
  /-- `EP0_TX_WORDS` (R10). -/
  ep0TxWords        : Nat
  /-- `EP0_MPS(FULL)` (R11). -/
  ep0MpsFull        : Nat
  /-- `EP0_MPS(HIGH)` (R11). -/
  ep0MpsHigh        : Nat
  /-- `TRDT(FULL, ·)` (R12). -/
  trdtFull          : TrdtTable
  /-- `TRDT(HIGH, ·)` (R12). -/
  trdtHigh          : TrdtTable
  /-- `STALL_POLL_LIMIT` (R15). -/
  stallPollLimit    : Option Nat
  /-- `CMD_PREEMPTIBLE` (R16). -/
  cmdPreemptible    : Bool
  /-- Not a parameter of the spec. Whether a completion that stands for an abandoned transfer is reported
  (44_dispatcher.md R225, R241) or only acknowledged (70_reset_and_hazards.md R355, 42_ep0_mux.md R204 e).
  DESIGN CHOICE (A37): both are shown. -/
  reportAbandoned   : Bool
  deriving DecidableEq, Repr

namespace Config

/-- The default turn-around ranges at full speed (93_implementation_defined.md U12). -/
def defaultTrdtFull : TrdtTable where
  ranges := [⟨32000000, 6⟩, ⟨27500000, 7⟩, ⟨24000000, 8⟩, ⟨21800000, 9⟩, ⟨20000000, 10⟩,
             ⟨18500000, 11⟩, ⟨17200000, 12⟩, ⟨16000000, 13⟩, ⟨15000000, 14⟩]
  below  := 15

/-- The defaults of R6 to R16. DESIGN CHOICE (A1): the spec's own defaults, held in the reset state; that
of `reportAbandoned` is R355's reading (A37). -/
def default : Config where
  maxEndpoints      := 4
  fifoCapacityWords := 320
  rxOverheadWords   := 15
  rxBringupWords    := 15 + 2 * 16 + 2 * 4
  ep0TxWords        := 16
  ep0MpsFull        := 64
  ep0MpsHigh        := 64
  trdtFull          := defaultTrdtFull
  trdtHigh          := ⟨[], 9⟩
  stallPollLimit    := none
  cmdPreemptible    := true
  reportAbandoned   := false

/-- What the spec requires of the parameters: R6 (1 to 16 endpoints), R14 (FIFO offsets and depths
fit 16 bits), and that endpoint 0's size is a packet size (R24). R7's bound is not here: INIT faults
when it fails (40_fifo_allocator.md R142). -/
def ok (c : Config) : Bool :=
  decide (1 ≤ c.maxEndpoints) && decide (c.maxEndpoints ≤ 16) && decide (c.fifoCapacityWords ≤ 65535)
    && decide (c.ep0MpsFull ≤ 1024) && decide (c.ep0MpsHigh ≤ 1024)

end Config
end Sys2Proof
end

