-- ==== Sys2Proof/Machine/State.lean ====
section
/-! DEFINITION. The state of the machine as plain data: the block's own state (10_state.md section
2), the peripheral-interface fields and queues (sections 3 and 4), caller buffer memory
(20_memory.md R71), the control state CTX (R35), and the model's own fields (INVENTORY.md). -/

namespace Sys2Proof.Machine

open Sys2Proof

/-! ## Building blocks -/

/-- One value for each direction; index 0 is OUT, index 1 IN (30_encoding.md R102). -/
structure Both (α : Type) where
  out : α
  inn : α
  deriving DecidableEq, Repr

/-- One value for each endpoint number the encoding can name. -/
abbrev Bank (α : Type) := Vector α 16

/-- The transfer record `XFER[n][d]` (R21 to R24). -/
structure Record where
  buffer   : Word
  totalLen : Nat
  maxSize  : Nat
  deriving DecidableEq, Repr

/-- The dispatcher's bus state (R32). -/
inductive BusState where
  | disconnected
  | resetInProgress
  | enumerating
  | active
  | suspended
  deriving DecidableEq, Repr

/-- The response codes (30_encoding.md R112). -/
inductive Resp where
  | ok
  | declined
  | timeout
  deriving DecidableEq, Repr

/-- The fault causes (60_exceptions.md R302). `outOfContract` is the model's own terminal state
(93_implementation_defined.md U6 to U9). -/
inductive FaultCause where
  | noFault
  | invalidEndpoint
  | packetSize
  | unknownRxStatus
  | fifoOverflow
  | illegalCommand
  | endpointNotOpen
  | xferTooLarge
  | outOfContract
  deriving DecidableEq, Repr

/-- The kinds of bus signal (30_encoding.md R116). -/
inductive Signal where
  | suspend
  | resume
  | unplugged
  deriving DecidableEq, Repr

/-- The upward events (30_encoding.md R115, R116); the only result is SUCCESS. -/
inductive Event where
  | busReset (speed : Speed)
  | busSignal (kind : Signal)
  | setupReceived (w0 w1 : Word)
  | xferComplete (ep : EpNum) (dir : Dir) (count : Nat)
  deriving DecidableEq, Repr

/-! ## The peripheral interface -/

/-- The five write-1-to-clear bits of `P.GINT` (R41); the other three are levels (Flags.lean). -/
structure GintStored where
  reset      : Bool
  enumDone   : Bool
  suspend    : Bool
  resume     : Bool
  disconnect : Bool
  deriving DecidableEq, Repr

/-- The eight named bits of `P.GINT` or `P.GMSK` (R41, R42). 30_encoding.md R120 lets a model keep
them as named booleans (A20). -/
structure GlobalBits where
  reset      : Bool
  enumDone   : Bool
  suspend    : Bool
  resume     : Bool
  disconnect : Bool
  rxne       : Bool
  oep        : Bool
  iep        : Bool
  deriving DecidableEq, Repr

/-- `P.OEP_SRC_MSK` (R44). -/
structure OepSrcMask where
  setupDone : Bool
  xferDone  : Bool
  deriving DecidableEq, Repr

/-- The data toggle (R61). -/
inductive Toggle where
  | data0
  | data1
  deriving DecidableEq, Repr

/-- One endpoint and direction of the peripheral: the control, size and interrupt-status fields OUT
and IN share (R53 to R58). -/
structure EpRegs where
  active   : Bool
  ty       : XferType
  mps      : Nat
  stall    : Bool
  nak      : Bool
  ena      : Bool
  disreq   : Bool
  pktcnt   : Nat
  xfrsiz   : Nat
  xferDone : Bool
  nakEff   : Bool
  dpid     : Toggle
  deriving DecidableEq, Repr

/-- `P.TXF[n]` (R50). -/
structure TxfRegs where
  start : Nat
  depth : Nat
  deriving DecidableEq, Repr

/-- A complete packet in a transmit FIFO (R60). -/
structure TxPacket where
  bytes : Nat
  words : List Word
  deriving DecidableEq, Repr

/-- `TXQ[n]` (R60): complete packets, oldest first, and the words pushed since the last packet
boundary (46_environment.md R288). -/
structure TxFifo where
  packets : List TxPacket
  open_   : List Word
  deriving DecidableEq, Repr

/-- The peripheral-interface fields and queues. Levels are not stored (Flags.lean). -/
structure Pi where
  gint       : GintStored
  gmsk       : GlobalBits
  epintMsk   : Both (Bank Bool)
  oepSrcMsk  : OepSrcMask
  iepSrcMsk  : Bool
  txeMsk     : Bank Bool
  speed      : Speed
  turnaround : BitVec 4
  devaddr    : BitVec 7
  softdisc   : Bool
  rxfDepth   : Nat
  txf        : Bank TxfRegs
  flushNum   : EpNum
  flushBusy  : Bool
  clkHz      : Word
  ep         : Both (Bank EpRegs)
  setupDone  : Bank Bool
  setupcnt   : Nat
  txfnum     : Bank EpNum
  rxq        : List Word
  txq        : Bank TxFifo
  deriving DecidableEq, Repr

/-! ## What the environment remembers (46_environment.md; A12, A29) -/

/-- How far the link is between a USB reset and the end of enumeration (R281). -/
inductive LinkPhase where
  | untouched
  | resetSeen
  | speedKnown
  | enumerated
  deriving DecidableEq, Repr

/-- A NAK confirmation the environment owes after STALL step 4 (R292): directly, or after a
GLOBAL_OUT_NAK entry has been popped. -/
inductive NakReq where
  | none
  | asked
  | queued
  | popped
  deriving DecidableEq, Repr

/-- The environment's memory of its own contract. `setupSeen`: SETUP packets accepted with no
SETUP_DONE pushed after them yet (R283). `setupSent`: a SETUP_DONE was pushed since SETUPCNT was last
armed (R295). `ending n`: OUT transfer n has ended and its OUT_DONE entry is not pushed yet (R286).
`armedZero n`: IN endpoint n was armed with byte count 0 (R289). `flushOld n`: the flush of TXQ[n]
was under way when a later STALL wrote P.FLUSH.NUM again (R293, A35). The next three say which transfer a
completion is for (A8): `armed`: the endpoint was armed since the last XFER on it or abandonment of it;
`late`: the XFERDONE that stands is of a transfer before that; `lateEntries n`: so many OUT_DONE entries
of endpoint n in RXQ are. `silent`: that transfer was abandoned by something other than STALL, with no
event to come (70_reset_and_hazards.md R355, A37). `parked`: what is armed was so at DISCONNECT
(45_system_ops.md R265, A38). -/
structure EnvMem where
  link        : LinkPhase
  setupSeen   : Nat
  setupSent   : Bool
  ending      : Bank Bool
  armedZero   : Bank Bool
  nakReq      : Both (Bank NakReq)
  flushOld    : Bank Bool
  armed       : Both (Bank Bool)
  late        : Both (Bank Bool)
  lateEntries : Bank Nat
  silent      : Both (Bank Bool)
  parked      : Both (Bank Bool)
  deriving DecidableEq, Repr

/-! ## The numbered steps (00_scope.md R18) -/

/-- The five steps of `BringUp` (40_fifo_allocator.md R141). -/
inductive BringUpStep where
  | check
  | rxDepth
  | ep0Fifo
  | count
  | valid
  deriving DecidableEq, Repr

/-- The eleven steps of `HandleBusReset` (44_dispatcher.md R224); step 6 is `BringUp`. -/
inductive BusResetStep where
  | clearRecords
  | ep0Size
  | nakAll
  | clearTxe
  | clearAddr
  | bringUp (k : BringUpStep)
  | setupCount
  | epMasks
  | srcMasks
  | globalMask
  | busState
  deriving DecidableEq, Repr

/-- The bus events of `P.GINT` (44_dispatcher.md R221 steps 2 to 6). -/
inductive BusEvent where
  | reset
  | enumDone
  | suspend
  | resume
  | disconnect
  deriving DecidableEq, Repr

/-- The numbered steps of a dispatcher run after its first (44_dispatcher.md). -/
inductive IrqOp where
  /-- R222: the acknowledgement before the handler. -/
  | ack (e : BusEvent)
  /-- R224. -/
  | busReset (k : BusResetStep)
  /-- R227 steps 1 to 5. -/
  | readSpeed
  | setTurnaround
  | setEp0Size
  | emitBusReset
  | setEnumerating
  /-- R228, R229, R230. -/
  | signal (k : Signal)
  /-- R231 steps 1 to 3; the loop stays at its step until the FIFO is empty. -/
  | drainMask
  | drainLoop
  | drainUnmask
  /-- R239 a and b for endpoint n. -/
  | outSetup (n : EpNum)
  | outDone (n : EpNum)
  /-- R243 a, the test of b, and R245's loop and last step for endpoint n. -/
  | inDone (n : EpNum)
  | inTest (n : EpNum)
  | inFeed (n : EpNum)
  | inFeedEnd (n : EpNum)
  deriving DecidableEq, Repr

/-- The local values of a run (R321): the speed of R227 step 1, whether the endpoint under way was
signalled (R239, R243), and whether its FIFO-empty handler runs (R243 b). -/
structure IrqLocals where
  speed : Speed := .full
  pend  : Bool := false
  feed  : Bool := false
  deriving DecidableEq, Repr

/-- The numbered steps of the commands, with their operands. -/
inductive CmdOp where
  /-- 41_endpoint_ops.md R170: step 1 of every endpoint command. -/
  | checkEp (ep : EpNum)
  /-- The last step `respond OK` of most commands. -/
  | respondOk
  /-- 45_system_ops.md R261 steps 1 to 9. -/
  | initBlock
  | initMaskAll
  | initDisconnect
  | initMasks
  | initHolds
  | initAddr
  | bringUp (k : BringUpStep)
  | initAck
  | initUnmask
  /-- R264, R265 step 1. -/
  | softDisconnect (v : Bool)
  /-- R265 step 2. -/
  | busDisconnected
  /-- R267 step 1. -/
  | setAddr (a : BitVec 7)
  /-- R270, R271 step 1. -/
  | setIrqEn (v : Bool)
  /-- R272 step 1. -/
  | runDispatcher
  /-- R171 steps 2 to 7; step 5 is `TxFifoBind` (40_fifo_allocator.md R145), two steps. -/
  | openCeiling (ty : XferType) (mps : Nat)
  | openSize (ep : EpNum) (dir : Dir) (mps : Nat)
  | openProgram (ep : EpNum) (dir : Dir) (ty : XferType) (mps : Nat)
  | txBindFifo (ep : EpNum) (mps : Nat)
  | txBindNum (ep : EpNum)
  | openEpint (ep : EpNum) (dir : Dir)
  | openRespond (ep : EpNum)
  /-- R173 steps 2 and 3. -/
  | closeActive (ep : EpNum) (dir : Dir)
  | closeEpint (ep : EpNum) (dir : Dir)
  /-- R175 steps 2 to 4; `Arm` is R176 a, b, c, `Ep0Schedule` 42_ep0_mux.md R201. -/
  | xferCheck (ep : EpNum) (dir : Dir) (length : Nat)
  | xferRecord (ep : EpNum) (dir : Dir) (buffer : Word) (length : Nat)
  | ep0Pending (dir : Dir) (length : Nat)
  | ep0Take (dir : Dir)
  | armSize (ep : EpNum) (dir : Dir)
  | armEnable (ep : EpNum) (dir : Dir)
  | armTxe (ep : EpNum) (dir : Dir)
  /-- R181 steps 2 to 9. -/
  | stallTest (ep : EpNum) (dir : Dir)
  | stallIdle (ep : EpNum) (dir : Dir)
  | stallNak (ep : EpNum) (dir : Dir)
  | stallWaitNak (ep : EpNum) (dir : Dir)
  | stallAckNak (ep : EpNum) (dir : Dir)
  | stallDisable (ep : EpNum) (dir : Dir)
  | stallFlush (ep : EpNum)
  | stallWaitFlush
  /-- R188 steps 2 to 4. -/
  | clearTest (ep : EpNum) (dir : Dir)
  | clearBit (ep : EpNum) (dir : Dir)
  | clearToggle (ep : EpNum) (dir : Dir)
  /-- 40_fifo_allocator.md R151 steps 1 to 4, R158's lines, R151 step 6. -/
  | cfgBegin
  | cfgRead (table : Word) (count : Nat)
  | cfgPlan
  | cfgCapacity
  | commitStart
  | commitRx
  | commitEp0
  | commitEp (n : EpNum)
  | commitCount
  | cfgRespond
  deriving DecidableEq, Repr

/-- A demand-table entry (40_fifo_allocator.md R150). -/
structure DemandEntry where
  ep    : EpNum
  dir   : Dir
  types : BitVec 4
  size  : Nat
  deriving DecidableEq, Repr

/-- The layout CFG_ALLOC computes before it writes anything (40_fifo_allocator.md R153 to R155). -/
structure AllocPlan where
  rx      : Nat
  present : Bank Bool
  base    : Bank Nat
  depth   : Bank Nat
  deriving DecidableEq, Repr

/-- The local values of a command, part of CMD(c, k) (60_exceptions.md R321). `pk`, `by_`: the
packet and byte counts of the `Arm` under way; `idle`: what STALL read at step 2; `polls`: failed
evaluations of the wait under way (41_endpoint_ops.md R186); `entries`, `plan`, `next`: CFG_ALLOC's
table, layout and running offset `a` (40_fifo_allocator.md R158). -/
structure CmdLocals where
  pk      : Nat := 0
  by_     : Nat := 0
  idle    : Bool := false
  polls   : Nat := 0
  entries : List DemandEntry := []
  plan    : AllocPlan :=
    ⟨0, Vector.replicate 16 false, Vector.replicate 16 0, Vector.replicate 16 0⟩
  next    : Nat := 0
  deriving DecidableEq, Repr

/-- CMD(c, k) (R35): the command, the numbered steps still to run (the first is step k), and its
locals. -/
structure CmdPos where
  cmd    : Instr
  todo   : List CmdOp
  locals : CmdLocals
  deriving DecidableEq, Repr

/-- Where a dispatcher run stands (R35): before step 1 of `Dispatch`, or with these steps to run. -/
inductive IrqPos where
  | entry
  | steps (todo : List IrqOp) (locals : IrqLocals)
  deriving DecidableEq, Repr

/-- The control state CTX (R35). `ret` is the control state the run returns to: `none` is IDLE. -/
inductive Ctx where
  | idle
  | cmd (p : CmdPos)
  | irq (p : IrqPos) (ret : Option CmdPos)
  deriving DecidableEq, Repr

/-! ## Whose move it is (A4) -/

/-- The environment's moves (46_environment.md), with every choice R299 lists as an argument. -/
inductive EnvMove where
  /-- R281: a USB reset, and what it draws: endpoint 0 forced active, the other ACTIVE bits cleared,
  ENA and DISREQ cleared, the toggles set to DATA0, the transmit FIFOs emptied (R296), an open setup
  stage ended without SETUP_DONE (A33). -/
  | usbReset (ep0Active clearActive clearEna clearDpid emptyTx endSetup : Bool)
  /-- R281, R46: P.SPEED takes a value. -/
  | setSpeed (v : Speed)
  /-- R281. -/
  | enumDone
  /-- R281. -/
  | suspend
  | resume
  | sessionEnd
  /-- R283: a SETUP packet, as its two words. -/
  | setupPacket (w0 w1 : Word)
  /-- R283: the setup stage is over. -/
  | setupOver
  /-- R285: an OUT data packet; `fill` supplies the unused high bytes of its last word. -/
  | outPacket (n : EpNum) (bytes : List Byte) (dpid : BitVec 2) (fill : List Byte)
  /-- R286: the OUT_DONE entry of an ended transfer. -/
  | outEnd (n : EpNum)
  /-- R289. -/
  | sendIn (n : EpNum)
  /-- R292: the GLOBAL_OUT_NAK form of the confirmation, and the confirmation. -/
  | globalOutNak (n : EpNum)
  | nakEffective (n : EpNum) (dir : Dir)
  /-- R293; `also`: which queues of overtaken flushes are emptied too (A35). -/
  | flushDone (also : List EpNum)
  /-- R294; `complete` is the drawn XFERDONE. -/
  | disableDone (n : EpNum) (dir : Dir) (complete : Bool)
  /-- R61, R289: the toggle the environment keeps. -/
  | dataToggle (n : EpNum) (dir : Dir) (v : Toggle)
  /-- R52: the clock input. -/
  | clock (hz : Word)
  /-- R298: an entry no contract allows, so that the fault paths stay reachable (A25). -/
  | breakContract (words : List Word)
  deriving DecidableEq, Repr

/-- Who is offered the next move. -/
inductive Turn where
  /-- The context that holds the block takes one numbered step; an idle block accepts a command. -/
  | block
  /-- An idle block accepts a command and runs it with nothing in between. -/
  | command
  /-- A dispatcher run starts (60_exceptions.md R320 a). -/
  | irq
  /-- A dispatcher run starts and runs to its return with nothing in between. -/
  | irqRun
  /-- The environment moves. -/
  | env (m : EnvMove)
  /-- The upper stack presents a command (30_encoding.md R110). -/
  | present (w : CmdWord)
  /-- The upper stack stores a byte to buffer memory (20_memory.md R74). -/
  | store (a : Word) (v : Byte)
  /-- The upper stack consumes the oldest event (R36). -/
  | consume
  /-- Power is cycled; `p` draws the peripheral's fields (70_reset_and_hazards.md R340, R64). -/
  | powerOn (p : Pi)
  deriving DecidableEq, Repr

/-! ## The state -/

/-- The machine. Fields up to `resp` are the block's (10_state.md R21 to R37); `pi` is the
peripheral interface with its queues; `mem` is caller buffer memory; the rest is the model's own. -/
structure State where
  cfg        : Config
  xfer       : Both (Bank Record)
  ep0Pending : Both Nat
  allocWords : Nat
  txfValid   : Bank Bool
  setupBuf0  : Word
  setupBuf1  : Word
  busState   : BusState
  irqEn      : Bool
  halted     : Bool
  faultCause : FaultCause
  ctx        : Ctx
  events     : List Event
  resp       : Resp
  pi         : Pi
  mem        : List Host.Cell
  env        : EnvMem
  inFlight   : Both (Bank Bool)
  irqDue     : Bool
  port       : List CmdWord
  turns      : List Turn
  deriving DecidableEq, Repr

/-! ## Reasons a step can stop -/

/-- Why the machine has stopped. -/
inductive Fault where
  /-- Raised by a step of a halted block when no other agent is offered a move: neither context
  takes another step (60_exceptions.md R301). Safe: nothing is claimed past it. -/
  | halted (cause : FaultCause)
  deriving DecidableEq, Repr

/-- Why the model gives a run no meaning. -/
inductive Refusal where
  /-- Raised by an arm of `exec` whose instruction has no meaning yet; no arm is left so. Safe. -/
  | notModelled (mnemonic : String)
  /-- Raised by XFER at step 3 while the previous transfer of the same endpoint and direction is in
  flight: the spec calls it undefined and asks for a refusal (10_state.md R25,
  93_implementation_defined.md U1). Safe. -/
  | xferInFlight
  /-- Raised by CFG_ALLOC at step 1 while an IN endpoint is enabled or RXQ is not empty
  (40_fifo_allocator.md R160, 93_implementation_defined.md U3). Safe. -/
  | cfgAllocNotQuiescent
  deriving DecidableEq, Repr

/-! ## Reset -/

/-- The record of an endpoint that is not open (R63). -/
def Record.zero : Record := ⟨0, 0, 0⟩

/-- The power-on fields of one endpoint. DESIGN CHOICE (A2): R64 leaves them unspecified. -/
def EpRegs.zero : EpRegs where
  active := false
  ty := .control
  mps := 0
  stall := false
  nak := false
  ena := false
  disreq := false
  pktcnt := 0
  xfrsiz := 0
  xferDone := false
  nakEff := false
  dpid := .data0

/-- An empty transmit FIFO (R64). -/
def TxFifo.empty : TxFifo := ⟨[], []⟩

/-- The same value in every cell. -/
def Bank.all {α : Type} (x : α) : Bank α := Vector.replicate 16 x

/-- The same value in both directions. -/
def Both.same {α : Type} (x : α) : Both α := ⟨x, x⟩

/-- The peripheral's fields in the reset state. R64: unspecified but for empty queues and an idle
flush. DESIGN CHOICE (A2, A24): zero everywhere. -/
def Pi.reset : Pi where
  gint := ⟨false, false, false, false, false⟩
  gmsk := ⟨false, false, false, false, false, false, false, false⟩
  epintMsk := Both.same (Bank.all false)
  oepSrcMsk := ⟨false, false⟩
  iepSrcMsk := false
  txeMsk := Bank.all false
  speed := .full
  turnaround := 0
  devaddr := 0
  softdisc := false
  rxfDepth := 0
  txf := Bank.all ⟨0, 0⟩
  flushNum := 0
  flushBusy := false
  clkHz := 0
  ep := Both.same (Bank.all EpRegs.zero)
  setupDone := Bank.all false
  setupcnt := 0
  txfnum := Bank.all 0
  rxq := []
  txq := Bank.all TxFifo.empty

/-- The environment before its first move. -/
def EnvMem.reset : EnvMem where
  link := .untouched
  setupSeen := 0
  setupSent := false
  ending := Bank.all false
  armedZero := Bank.all false
  nakReq := Both.same (Bank.all .none)
  flushOld := Bank.all false
  armed := Both.same (Bank.all false)
  late := Both.same (Bank.all false)
  lateEntries := Bank.all 0
  silent := Both.same (Bank.all false)
  parked := Both.same (Bank.all false)

/-- The machine right after power-on (10_state.md R63, R64), with the default configuration. -/
def State.reset : State where
  cfg := Config.default
  xfer := Both.same (Bank.all Record.zero)
  ep0Pending := ⟨0, 0⟩
  allocWords := 0
  txfValid := Bank.all false
  setupBuf0 := 0
  setupBuf1 := 0
  busState := .disconnected
  irqEn := false
  halted := false
  faultCause := .noFault
  ctx := .idle
  events := []
  resp := .ok
  pi := Pi.reset
  mem := []
  env := EnvMem.reset
  inFlight := Both.same (Bank.all false)
  irqDue := false
  port := []
  turns := []

end Sys2Proof.Machine
end

