-- ==== Sys2Proof/Machine/Operands.lean ====
section
/-! DEFINITION. Operand arithmetic and the codes and layouts of 30_encoding.md and 00_scope.md:
counts, ceilings, byte packing, status words, event words, demand-table entries. -/

namespace Sys2Proof.Machine

open Sys2Proof

/-! ## Endpoints and directions -/

/-- The endpoint numbers that exist, ascending (00_scope.md R6). -/
def endpoints (maxEndpoints : Nat) : List EpNum :=
  ([0, 1, 2, 3, 4, 5, 6, 7, 8, 9, 10, 11, 12, 13, 14, 15] : List EpNum).filter
    (fun n => decide (n.val < maxEndpoints))

/-- The value of one direction. -/
def Both.get {α : Type} (b : Both α) : Dir → α
  | .out => b.out
  | .inn => b.inn

/-- Replace the value of one direction. -/
def Both.set {α : Type} (b : Both α) (d : Dir) (x : α) : Both α :=
  match d with
  | .out => { b with out := x }
  | .inn => { b with inn := x }

/-- `for every n`: change the cells of the endpoints that exist, leave the others. -/
def Bank.mapBelow {α : Type} (maxEndpoints : Nat) (f : EpNum → α → α) (b : Bank α) : Bank α :=
  Vector.ofFn fun n : EpNum => if n.val < maxEndpoints then f n b[n] else b[n]

/-- The bank pair with these cells. -/
def Both.tab {α : Type} (f : EpNum → Dir → α) : Both (Bank α) :=
  ⟨Vector.ofFn fun n => f n .out, Vector.ofFn fun n => f n .inn⟩

/-- Change every cell. -/
def Bank.each {α : Type} (f : α → α) (b : Bank α) : Bank α := Vector.ofFn fun n : EpNum => f b[n]

/-! ## Counts (00_scope.md R17) -/

/-- `ceil_div(a, b)`. -/
def ceilDiv (a b : Nat) : Nat := (a + b - 1) / b

/-- `words(n)`: the 32-bit words that hold n bytes. -/
def wordsFor (n : Nat) : Nat := ceilDiv n 4

/-- `PacketCount(length, m)` (41_endpoint_ops.md R177). -/
def packetCount (length m : Nat) : Nat :=
  if length = 0 then 1 else ceilDiv length m

/-- The largest packet count `P.x[n].PKTCNT` holds, `2^PKTCNT_W - 1` (R14, 41_endpoint_ops.md R179). -/
def maxPktcnt : Nat := 2 ^ 10 - 1

/-- `CEILING(type, speed)` (00_scope.md R13). -/
def ceiling : XferType → Speed → Nat
  | .isochronous, .high => 1024
  | .isochronous, .full => 1023
  | .control, .high => 512
  | .control, .full => 64
  | .bulk, .high => 512
  | .bulk, .full => 64
  | .interrupt, .high => 512
  | .interrupt, .full => 64

/-- `EP0_MPS(speed)` (00_scope.md R11). -/
def ep0Mps (c : Config) : Speed → Nat
  | .full => c.ep0MpsFull
  | .high => c.ep0MpsHigh

/-- One turn-around table at a clock rate: the first range the clock reaches. -/
def trdtLookup (t : TrdtTable) (clkHz : Nat) : BitVec 4 :=
  match t.ranges.find? (fun r => decide (r.clkHz ≤ clkHz)) with
  | some r => r.value
  | none => t.below

/-- `TRDT(speed, clk_hz)` (00_scope.md R12). -/
def trdt (c : Config) (s : Speed) (clkHz : Nat) : BitVec 4 :=
  match s with
  | .full => trdtLookup c.trdtFull clkHz
  | .high => trdtLookup c.trdtHigh clkHz

/-! ## Bytes and FIFO words (20_memory.md R77) -/

/-- The word of four bytes, the first at bits [7:0]. -/
def wordOfBytes (b0 b1 b2 b3 : Byte) : Word := b3 ++ (b2 ++ (b1 ++ b0))

/-- The four bytes of a word, low byte first. -/
def bytesOfWord (w : Word) : List Byte :=
  [w.extractLsb' 0 8, w.extractLsb' 8 8, w.extractLsb' 16 8, w.extractLsb' 24 8]

/-- Words from bytes, four at a time in ascending order; unused high bytes of a final partial word
are zero (43_packet_io.md R212). -/
def packWords : List Byte → List Word
  | b0 :: b1 :: b2 :: b3 :: rest => wordOfBytes b0 b1 b2 b3 :: packWords rest
  | [b0, b1, b2] => [wordOfBytes b0 b1 b2 0]
  | [b0, b1] => [wordOfBytes b0 b1 0 0]
  | [b0] => [wordOfBytes b0 0 0 0]
  | [] => []

/-- Words to bytes, in ascending order (43_packet_io.md R211). -/
def unpackWords : List Word → List Byte
  | [] => []
  | w :: ws => bytesOfWord w ++ unpackWords ws

/-! ## The receive status word (30_encoding.md R117, R118) -/

/-- `epnum`, bits [3:0]. -/
def statusEp (w : Word) : EpNum := (w.extractLsb' 0 4).toFin
/-- `bcnt`, bits [14:4]. -/
def statusCount (w : Word) : Nat := (w.extractLsb' 4 11).toNat
/-- `pktsts`, bits [20:17]. -/
def statusCode (w : Word) : BitVec 4 := w.extractLsb' 17 4

/-- The status word with these fields; bits [31:21] are 0. -/
def statusWord (ep : EpNum) (count : Nat) (dpid : BitVec 2) (code : BitVec 4) : Word :=
  (0 : BitVec 11) ++ (code ++ (dpid ++ (BitVec.ofNat 11 count ++ (BitVec.ofFin ep : BitVec 4))))

/-- The classes of R118. -/
inductive RxClass where
  | globalOutNak
  | outData
  | outDone
  | setupDone
  | setupData
  | unrecognised
  deriving DecidableEq, Repr

/-- R118. -/
def rxClass (code : BitVec 4) : RxClass :=
  match code.toNat with
  | 1 => .globalOutNak
  | 2 => .outData
  | 3 => .outDone
  | 4 => .setupDone
  | 6 => .setupData
  | _ => .unrecognised

/-- The OUT_DONE entries for endpoint n in a receive queue, which is a sequence of entries: a status
word and its data words (10_state.md R59). `skip`: data words still to pass over. -/
def outDoneEntries (n : EpNum) : Nat → List Word → Nat
  | _, [] => 0
  | skip + 1, _ :: ws => outDoneEntries n skip ws
  | 0, w :: ws =>
      match rxClass (statusCode w) with
      | .outDone => (if statusEp w = n then 1 else 0) + outDoneEntries n 0 ws
      | .outData => outDoneEntries n (wordsFor (statusCount w)) ws
      | .setupData => outDoneEntries n 2 ws
      | .globalOutNak => outDoneEntries n 0 ws
      | .setupDone => outDoneEntries n 0 ws
      | .unrecognised => outDoneEntries n 0 ws

/-! ## Codes -/

/-- 30_encoding.md R124. -/
def speedCode : Speed → BitVec 1
  | .full => 0
  | .high => 1

/-- 30_encoding.md R116. -/
def signalCode : Signal → BitVec 2
  | .suspend => 0
  | .resume => 1
  | .unplugged => 2

/-- 30_encoding.md R112. -/
def respCode : Resp → BitVec 2
  | .ok => 0
  | .declined => 1
  | .timeout => 2

/-- 60_exceptions.md R302. -/
def faultCode : FaultCause → BitVec 4
  | .noFault => 0
  | .invalidEndpoint => 1
  | .packetSize => 2
  | .unknownRxStatus => 3
  | .fifoOverflow => 4
  | .illegalCommand => 5
  | .endpointNotOpen => 6
  | .xferTooLarge => 7
  | .outOfContract => 15

/-- The three words `E0`, `E1`, `E2` of an event (30_encoding.md R115, R116). -/
def eventWords : Event → Word × Word × Word
  | .busReset s => ((0 : BitVec 2) ++ ((0 : BitVec 29) ++ speedCode s), 0, 0)
  | .busSignal k => ((1 : BitVec 2) ++ ((0 : BitVec 28) ++ signalCode k), 0, 0)
  | .setupReceived w0 w1 => ((2 : BitVec 2) ++ (0 : BitVec 30), w0, w1)
  | .xferComplete ep dir count =>
      ((3 : BitVec 2) ++ ((0 : BitVec 2) ++ (dir.code ++ ((BitVec.ofFin ep : BitVec 4) ++
        ((0 : BitVec 5) ++ ((0 : BitVec 2) ++ BitVec.ofNat 16 count))))), 0, 0)

/-! ## The demand table (40_fifo_allocator.md R150, R152, R153) -/

/-- The fields of an entry word: `ep` [3:0], `dir` [7], `types` [11:8], `size` [26:16]. -/
def demandEntry (w : Word) : DemandEntry where
  ep := (w.extractLsb' 0 4).toFin
  dir := Dir.ofCode (w.extractLsb' 7 1)
  types := w.extractLsb' 8 4
  size := (w.extractLsb' 16 11).toNat

/-- The entries that name (n, d). -/
def demandFor (t : List DemandEntry) (n : EpNum) (d : Dir) : List DemandEntry :=
  t.filter (fun e => e.ep == n && e.dir == d)

/-- `present[n][d]` (R152), for n >= 1. -/
def demandPresent (t : List DemandEntry) (n : EpNum) (d : Dir) : Bool :=
  decide (n ≠ 0) && (demandFor t n d).length != 0

/-- `size[n][d]`: the largest size of the entries, 0 if none (R152). -/
def demandSize (t : List DemandEntry) (n : EpNum) (d : Dir) : Nat :=
  ((demandFor t n d).map (·.size)).foldl max 0

/-- `types[n][d]`: the union of the entries' types (R152). -/
def demandTypes (t : List DemandEntry) (n : EpNum) (d : Dir) : BitVec 4 :=
  ((demandFor t n d).map (·.types)).foldl (· ||| ·) 0

/-- The list `S` of OUT sizes (R153): endpoint 0 with 64, then the present OUT endpoints. -/
def outSizes (t : List DemandEntry) (maxEndpoints : Nat) : List Nat :=
  64 :: ((endpoints maxEndpoints).filter (fun n => demandPresent t n .out)).map
    (fun n => demandSize t n .out)

/-- Put a size into a descending pair of the two largest so far. -/
def insertLargest (p : Nat × Nat) (x : Nat) : Nat × Nat :=
  if p.1 ≤ x then (x, p.1) else if p.2 ≤ x then (p.1, x) else p

/-- `L1` and `L2`: the two largest elements, 0 where the list is too short (R153). -/
def twoLargest (l : List Nat) : Nat × Nat := l.foldl insertLargest (0, 0)

end Sys2Proof.Machine
end

