-- ==== Sys2Proof/Machine/Flags.lean ====
section
/-! DEFINITION. The levels and the interrupt line, functions of other state (10_state.md R41 to R45,
R57, R58), and the word views of the status and mask bits (30_encoding.md R120 to R123). -/

namespace Sys2Proof.Machine

open Sys2Proof

/-! ## Transmit FIFO levels -/

/-- The words a transmit FIFO holds: complete packets and the packet being built. -/
def TxFifo.held (q : TxFifo) : Nat :=
  (q.packets.map (fun p => p.words.length)).sum + q.open_.length

/-- `P.IN[n].TXFREE = P.TXF[n].DEPTH - (words held in TXQ[n])` (R57). DESIGN CHOICE (A13): 0 when
more words are held than the depth, which only a layout change over a full FIFO can bring about. -/
def txFree (p : Pi) (n : EpNum) : Nat := p.txf[n].depth - p.txq[n].held

/-- `P.IN[n].INT.TXEMPTY`: 1 exactly while TXQ[n] holds no word (R58, 46_environment.md R290). -/
def txEmpty (p : Pi) (n : EpNum) : Bool := p.txq[n].held == 0

/-! ## Endpoint conditions -/

/-- `P.EPINT_PEND.OUT[n]` (R43). -/
def epPendOut (p : Pi) (n : EpNum) : Bool :=
  p.epintMsk.out[n] &&
    ((p.ep.out[n].xferDone && p.oepSrcMsk.xferDone) || (p.setupDone[n] && p.oepSrcMsk.setupDone))

/-- `P.EPINT_PEND.IN[n]` (R41, R43). -/
def epPendIn (p : Pi) (n : EpNum) : Bool :=
  p.epintMsk.inn[n] &&
    ((p.ep.inn[n].xferDone && p.iepSrcMsk) || (txEmpty p n && p.txeMsk[n]))

/-! ## The global status -/

/-- `P.GINT`: the five stored bits and the three levels (R41). -/
def gint (maxEndpoints : Nat) (p : Pi) : GlobalBits where
  reset := p.gint.reset
  enumDone := p.gint.enumDone
  suspend := p.gint.suspend
  resume := p.gint.resume
  disconnect := p.gint.disconnect
  rxne := !p.rxq.isEmpty
  oep := (endpoints maxEndpoints).any (epPendOut p)
  iep := (endpoints maxEndpoints).any (epPendIn p)

/-- Bitwise and of two global words. -/
def GlobalBits.and (a b : GlobalBits) : GlobalBits where
  reset := a.reset && b.reset
  enumDone := a.enumDone && b.enumDone
  suspend := a.suspend && b.suspend
  resume := a.resume && b.resume
  disconnect := a.disconnect && b.disconnect
  rxne := a.rxne && b.rxne
  oep := a.oep && b.oep
  iep := a.iep && b.iep

/-- Whether some bit is set. -/
def GlobalBits.any (a : GlobalBits) : Bool :=
  a.reset || a.enumDone || a.suspend || a.resume || a.disconnect || a.rxne || a.oep || a.iep

/-- `P.GINT and P.GMSK`, what `Dispatch` step 1 latches (44_dispatcher.md R221). -/
def State.pending (s : State) : GlobalBits :=
  (gint s.cfg.maxEndpoints s.pi).and s.pi.gmsk

/-- `P.irq` (R42). -/
def State.irqLine (s : State) : Bool := s.pending.any

/-! ## Word views -/

/-- A bit at a position of a 32-bit word. -/
def bitAt (b : Bool) (i : Nat) : Word := if b then 1#32 <<< i else 0

/-- The word of the eight global bits (30_encoding.md R120). -/
def globalWord (g : GlobalBits) : Word :=
  bitAt g.disconnect 2 ||| bitAt g.rxne 4 ||| bitAt g.suspend 11 ||| bitAt g.reset 12 |||
    bitAt g.enumDone 13 ||| bitAt g.iep 18 ||| bitAt g.oep 19 ||| bitAt g.resume 31

/-- `P.OUT[n].INT` (30_encoding.md R121). -/
def outIntWord (p : Pi) (n : EpNum) : Word :=
  bitAt p.ep.out[n].xferDone 0 ||| bitAt p.setupDone[n] 3 ||| bitAt p.ep.out[n].nakEff 4

/-- `P.IN[n].INT` (30_encoding.md R122). -/
def inIntWord (p : Pi) (n : EpNum) : Word :=
  bitAt p.ep.inn[n].xferDone 0 ||| bitAt p.ep.inn[n].nakEff 6 ||| bitAt (txEmpty p n) 7

/-- `P.OEP_SRC_MSK` (30_encoding.md R121, 10_state.md R44). -/
def oepSrcMskWord (p : Pi) : Word :=
  bitAt p.oepSrcMsk.xferDone 0 ||| bitAt p.oepSrcMsk.setupDone 3

/-- `P.IEP_SRC_MSK` (30_encoding.md R122, 10_state.md R44). -/
def iepSrcMskWord (p : Pi) : Word := bitAt p.iepSrcMsk 0

/-- One per-endpoint bit pair as a word: bit n for IN, bit 16+n for OUT (30_encoding.md R123). -/
def endpointWord (inn out : EpNum → Bool) : Word :=
  (endpoints 16).foldl (fun w n => w ||| bitAt (inn n) n.val ||| bitAt (out n) (16 + n.val)) 0

/-- `P.EPINT_MSK` (30_encoding.md R123). The bits of endpoints that do not exist show their cells, which the
block never writes (A20). -/
def epintMskWord (p : Pi) : Word :=
  endpointWord (fun n => p.epintMsk.inn[n]) (fun n => p.epintMsk.out[n])

/-- `P.EPINT_PEND` (30_encoding.md R123), computed alike for endpoints that do not exist (A20). -/
def epintPendWord (p : Pi) : Word := endpointWord (epPendIn p) (epPendOut p)

end Sys2Proof.Machine
end

