-- ==== Sys2Proof/Machine/Ops.lean ====
section
/-! DEFINITION. The named operations over memory, registers and FIFO ports (00_scope.md R18,
20_memory.md), raising a fault (60_exceptions.md R301), entering and leaving the interrupt context
(R321, R324), and arming an endpoint (41_endpoint_ops.md R176). -/

namespace Sys2Proof.Machine

open Sys2Proof

/-! ## What an action of the block gives -/

/-- An action completes, or raises a fault with the writes made before it (60_exceptions.md R301). -/
inductive Act where
  | ok (s : State)
  | bad (c : FaultCause) (s : State)
  deriving DecidableEq, Repr

/-- Go on with the next action unless a fault was raised. -/
def Act.andThen (a : Act) (f : State → Act) : Act :=
  match a with
  | .ok s => f s
  | .bad c s => .bad c s

/-! ## Caller buffer memory (20_memory.md R71 to R73) -/

/-- What a byte that nothing has written reads as. DESIGN CHOICE (A3): the spec gives none. -/
def Memory.unlisted : Byte := 0

/-- The byte a list of cells holds at an address. -/
def Memory.lookup : List Host.Cell → Nat → Byte
  | [], _ => Memory.unlisted
  | (b, x) :: rest, a => if a = b then x else Memory.lookup rest a

/-- The cells with one byte changed; the canonical form is kept. -/
def Memory.update : List Host.Cell → Nat → Byte → List Host.Cell
  | [], a, v => if v = Memory.unlisted then [] else [(a, v)]
  | (b, x) :: rest, a, v =>
      if a < b then (if v = Memory.unlisted then (b, x) :: rest else (a, v) :: (b, x) :: rest)
      else if a = b then (if v = Memory.unlisted then rest else (a, v) :: rest)
      else (b, x) :: Memory.update rest a v

/-- The canonical form: addresses strictly rising from `low`, below 2^32, no cell equal to an
unlisted byte. -/
def Memory.wfFrom : Nat → List Host.Cell → Bool
  | _, [] => true
  | low, (a, v) :: rest =>
      decide (low ≤ a) && decide (a < 2 ^ 32) && decide (v ≠ Memory.unlisted) &&
        Memory.wfFrom (a + 1) rest

/-- The canonical form of buffer memory. -/
def Memory.wf (m : List Host.Cell) : Bool := Memory.wfFrom 0 m

/-- `MemRead(a, 1)` (R72). -/
def memRead (m : List Host.Cell) (a : Word) : Byte := Memory.lookup m a.toNat

/-- `MemWrite(a, 1, v)` (R72). -/
def memWrite (m : List Host.Cell) (a : Word) (v : Byte) : List Host.Cell :=
  Memory.update m a.toNat v

/-- `n` bytes from `a`, ascending, addresses modulo 2^32 (R73, 43_packet_io.md R210). -/
def memReadBytes (m : List Host.Cell) (a : Word) : Nat → List Byte
  | 0 => []
  | n + 1 => memRead m a :: memReadBytes m (a + 1) n

/-- Write bytes from `a`, ascending, addresses modulo 2^32. -/
def memWriteBytes (m : List Host.Cell) (a : Word) : List Byte → List Host.Cell
  | [] => m
  | b :: bs => memWriteBytes (memWrite m a b) (a + 1) bs

/-- A 32-bit little-endian word of buffer memory (40_fifo_allocator.md R150). -/
def memReadWord (m : List Host.Cell) (a : Word) : Word :=
  wordOfBytes (memRead m a) (memRead m (a + 1)) (memRead m (a + 2)) (memRead m (a + 3))

/-! ## Transfer records and endpoint fields -/

/-- `XFER[n][d]` (10_state.md R21). -/
def State.recAt (s : State) (n : EpNum) (d : Dir) : Record := (s.xfer.get d)[n]

/-- Write `XFER[n][d]`. -/
def State.setRec (s : State) (n : EpNum) (d : Dir) (r : Record) : State :=
  { s with xfer := s.xfer.set d ((s.xfer.get d).set n r) }

/-- The fields of `P.x[n]` (10_state.md R53, R56). -/
def Pi.epAt (p : Pi) (n : EpNum) (d : Dir) : EpRegs := (p.ep.get d)[n]

/-- Write the fields of `P.x[n]`. -/
def Pi.setEp (p : Pi) (n : EpNum) (d : Dir) (r : EpRegs) : Pi :=
  { p with ep := p.ep.set d ((p.ep.get d).set n r) }

/-- The fields of `P.x[n]`, from the state. -/
def State.epAt (s : State) (n : EpNum) (d : Dir) : EpRegs := s.pi.epAt n d

/-- Write the fields of `P.x[n]`, from the state. -/
def State.setEp (s : State) (n : EpNum) (d : Dir) (r : EpRegs) : State :=
  { s with pi := s.pi.setEp n d r }

/-- Write `P.EPINT_MSK.x[n]` (10_state.md R43). -/
def State.setEpint (s : State) (n : EpNum) (d : Dir) (v : Bool) : State :=
  { s with pi := { s.pi with epintMsk := s.pi.epintMsk.set d ((s.pi.epintMsk.get d).set n v) } }

/-- Write `P.TXE_MSK[n]` (10_state.md R45). -/
def State.setTxe (s : State) (n : EpNum) (v : Bool) : State :=
  { s with pi := { s.pi with txeMsk := s.pi.txeMsk.set n v } }

/-- Whether a transfer is in flight (10_state.md R25, 70_reset_and_hazards.md R350; A8). -/
def State.inFlightAt (s : State) (n : EpNum) (d : Dir) : Bool := (s.inFlight.get d)[n]

/-- Note that a transfer starts or ends (A8). -/
def State.setInFlight (s : State) (n : EpNum) (d : Dir) (v : Bool) : State :=
  { s with inFlight := s.inFlight.set d ((s.inFlight.get d).set n v) }

/-- `EP0_PENDING[d] <- v` (10_state.md R26). -/
def State.setPending (s : State) (d : Dir) (v : Nat) : State :=
  { s with ep0Pending := s.ep0Pending.set d v }

/-- Write the transmit FIFO registers of endpoint n and mark them valid (10_state.md R28, R50). Words
that TXQ[n] holds stay in it, which 46_environment.md R296 leaves undefined (A32). -/
def State.assignTxFifo (s : State) (n : EpNum) (start depth : Nat) : State :=
  { s with
    pi := { s.pi with txf := s.pi.txf.set n ⟨start, depth⟩ }
    txfValid := s.txfValid.set n true }

/-- Write `P.RXF_DEPTH` (10_state.md R50). Words that RXQ holds stay in it (A32). -/
def State.setRxDepth (s : State) (v : Nat) : State := { s with pi := { s.pi with rxfDepth := v } }

/-- Write `P.TXF[n]` (10_state.md R50). Words that TXQ[n] holds stay in it (A32). -/
def State.setTxf (s : State) (n : EpNum) (start depth : Nat) : State :=
  { s with pi := { s.pi with txf := s.pi.txf.set n ⟨start, depth⟩ } }

/-- Write `ALLOC_WORDS` (10_state.md R27). -/
def State.setAllocWords (s : State) (v : Nat) : State := { s with allocWords := v }

/-- Write `BUS_STATE` (10_state.md R32). -/
def State.setBusState (s : State) (b : BusState) : State := { s with busState := b }

/-- Write `P.DEVADDR` (10_state.md R48). -/
def State.setDevaddr (s : State) (a : BitVec 7) : State := { s with pi := { s.pi with devaddr := a } }

/-- Write `P.SOFTDISC` (10_state.md R49). -/
def State.setSoftdisc (s : State) (v : Bool) : State := { s with pi := { s.pi with softdisc := v } }

/-! ## Events, faults, the interrupt context -/

/-- `emit e` (10_state.md R36). -/
def State.emit (s : State) (e : Event) : State := { s with events := s.events ++ [e] }

/-- Whether the XFERDONE of (n, d) is that of a transfer before the one in flight (A8). -/
def State.lateAt (s : State) (n : EpNum) (d : Dir) : Bool := (s.env.late.get d)[n]

/-- Whether the endpoint was armed since the last XFER on it or abandonment of it (A8). -/
def State.armedAt (s : State) (n : EpNum) (d : Dir) : Bool := (s.env.armed.get d)[n]

/-- Whether the transfers before that have no event to come (A37). -/
def State.silentAt (s : State) (n : EpNum) (d : Dir) : Bool := (s.env.silent.get d)[n]

/-- Whether what is armed was so at DISCONNECT (45_system_ops.md R265, A38). -/
def State.parkedAt (s : State) (n : EpNum) (d : Dir) : Bool := (s.env.parked.get d)[n]

/-- Until it is armed again a completion of these endpoints is an earlier transfer's: an XFERDONE that
stands, an OUT_DONE entry in RXQ, and what the environment gives from now on (A8). -/
def State.agedEnv (who : EpNum → Dir → Bool) (s : State) : EnvMem :=
  { s.env with
    armed := Both.tab fun n d => s.armedAt n d && !who n d
    late := Both.tab fun n d => if who n d then (s.epAt n d).xferDone else s.lateAt n d
    lateEntries := Vector.ofFn fun n =>
      if who n .out then outDoneEntries n 0 s.pi.rxq else s.env.lateEntries[n] }

/-- The same, on the state. -/
def State.ageDone (who : EpNum → Dir → Bool) (s : State) : State := { s with env := s.agedEnv who }

/-- The transfers in flight on these endpoints are abandoned with no event to come
(70_reset_and_hazards.md R355, A37). -/
def State.hush (who : EpNum → Dir → Bool) (s : State) : State :=
  State.ageDone who
    { s with
      env := { s.env with
        silent := Both.tab fun n d => s.silentAt n d || (who n d && s.inFlightAt n d) } }

/-- Whether a transfer-complete condition of (n, d) is only acknowledged: it is of an abandoned transfer
with no event to come (A37). -/
def State.dropsDone (s : State) (n : EpNum) (d : Dir) : Bool :=
  !s.cfg.reportAbandoned && s.silentAt n d && s.lateAt n d

/-- The environment sets XFERDONE of (n, d), `late` for a transfer before the one in flight (A8). A
bit that already stands for the transfer in flight goes on standing for it. -/
def State.signalDone (s : State) (n : EpNum) (d : Dir) (late : Bool) : State :=
  let r := s.epAt n d
  let s1 := s.setEp n d { r with xferDone := true }
  { s1 with
    env := { s1.env with
      late := s1.env.late.set d
        ((s1.env.late.get d).set n (late && (!r.xferDone || s.lateAt n d))) } }

/-- `emit XFER_COMPLETE(n, d, total_len, SUCCESS)`; the transfer it is for is no longer in flight
(70_reset_and_hazards.md R350): the event of an earlier, cancelled transfer ends no later one (A8). -/
def State.emitComplete (s : State) (n : EpNum) (d : Dir) : State :=
  (s.emit (.xferComplete n d (s.recAt n d).totalLen)).setInFlight n d
    (s.inFlightAt n d && s.lateAt n d)

/-- `raise Fault(cause)`: the block halts; nothing else is written (60_exceptions.md R301). -/
def State.raiseFault (s : State) (c : FaultCause) : State :=
  { s with halted := true, faultCause := c }

/-- Entry to the interrupt context: only the control state to return to is saved
(60_exceptions.md R321). The run an IRQ_ENABLE owed has started (A15). -/
def State.enterRun (s : State) (ret : Option CmdPos) : State :=
  { s with ctx := .irq .entry ret, irqDue := false }

/-- The control state a run returns to. -/
def retCtx : Option CmdPos → Ctx
  | none => .idle
  | some p => .cmd p

/-- Return from the interrupt context: nothing is restored but CTX (60_exceptions.md R324). -/
def State.leaveRun (s : State) (ret : Option CmdPos) : State := { s with ctx := retCtx ret }

/-- A command can be accepted: CTX is IDLE and the block is not halted (30_encoding.md R110). -/
def State.accepts (s : State) : Bool :=
  match s.ctx with
  | .idle => !s.halted
  | .cmd _ => false
  | .irq _ _ => false

/-- `respond r`: the command ends (30_encoding.md R110, R112). -/
def State.respond (s : State) (r : Resp) : State := { s with resp := r, ctx := .idle }

/-! ## FIFO ports -/

/-- `RxPop()` (20_memory.md R75): the front word, or none when the queue is empty (U6). -/
def State.rxPop (s : State) : Option (Word × State) :=
  match s.pi.rxq with
  | [] => none
  | w :: ws => some (w, { s with pi := { s.pi with rxq := ws } })

/-- The environment's accounting at a push (46_environment.md R288): the word joins the packet being
built; when that makes `words(k)` words, `k = min(XFRSIZ, MPS)`, the packet is closed and XFRSIZ
lowered by k. -/
def Pi.pushWord (p : Pi) (n : EpNum) (w : Word) : Pi :=
  let q := p.txq[n]
  let r := p.epAt n .inn
  let k := min r.xfrsiz r.mps
  let built := q.open_ ++ [w]
  if built.length = wordsFor k then
    { (p.setEp n .inn { r with xfrsiz := r.xfrsiz - k }) with
      txq := p.txq.set n ⟨q.packets ++ [⟨k, built⟩], []⟩ }
  else { p with txq := p.txq.set n ⟨q.packets, built⟩ }

/-- `TxPush(n, w)` (20_memory.md R76); without room it is out of contract (U7). -/
def State.txPush (s : State) (n : EpNum) (w : Word) : Act :=
  if txFree s.pi n = 0 then .bad .outOfContract s
  else .ok { s with pi := s.pi.pushWord n w }

/-! ## Acknowledgement (44_dispatcher.md R222) -/

/-- `ack P.GINT.e`. -/
def GintStored.ack (g : GintStored) : BusEvent → GintStored
  | .reset => { g with reset := false }
  | .enumDone => { g with enumDone := false }
  | .suspend => { g with suspend := false }
  | .resume => { g with resume := false }
  | .disconnect => { g with disconnect := false }

/-- `ack P.GINT.e`, on the state. -/
def State.ackGlobal (s : State) (e : BusEvent) : State :=
  { s with pi := { s.pi with gint := s.pi.gint.ack e } }

/-! ## Arming (41_endpoint_ops.md R176) -/

/-- Step a: the packet and byte counts. For IN the environment notes whether the byte count is 0
(46_environment.md R289). -/
def State.armSize (s : State) (n : EpNum) (d : Dir) (pk by_ : Nat) : State :=
  let s1 := s.setEp n d { s.epAt n d with pktcnt := pk, xfrsiz := by_ }
  match d with
  | .out => s1
  | .inn => { s1 with env := { s1.env with armedZero := s1.env.armedZero.set n (by_ == 0) } }

/-- Step b: both holds cleared, the endpoint enabled. For OUT a fresh transfer has not ended: an
OUT_DONE the environment still owed an earlier one is not pushed any more (A34). From here on a
completion is the transfer's whose XFER wrote the record last, also where endpoint 0 is armed for bytes
a cancelled transfer left pending, in the middle of that XFER (A8). -/
def State.armEnable (s : State) (n : EpNum) (d : Dir) : State :=
  let s1 := s.setEp n d { s.epAt n d with stall := false, nak := false, ena := true }
  { s1 with
    env := { s1.env with
      armed := s1.env.armed.set d ((s1.env.armed.get d).set n true)
      ending := match d with
        | .out => s1.env.ending.set n false
        | .inn => s1.env.ending
      parked := s1.env.parked.set d ((s1.env.parked.get d).set n false) } }

/-- Step c: the FIFO-empty enable of an IN endpoint with bytes to send. -/
def State.armTxe (s : State) (n : EpNum) (d : Dir) (by_ : Nat) : State :=
  match d with
  | .out => s
  | .inn => if by_ = 0 then s else s.setTxe n true

/-- `Arm(n, d, pk, by)`, its three steps in order. -/
def State.arm (s : State) (n : EpNum) (d : Dir) (pk by_ : Nat) : State :=
  ((s.armSize n d pk by_).armEnable n d).armTxe n d by_

end Sys2Proof.Machine
end

