-- ==== Sys2Proof/Machine/AllocatorSteps.lean ====
section
/-! DEFINITION. The FIFO allocator's procedures: `BringUp` (40_fifo_allocator.md R141), `TxFifoBind`
(R145) and the layout CFG_ALLOC computes (R152 to R158). -/

namespace Sys2Proof.Machine

open Sys2Proof

/-! ## Bring-up layout (R141) -/

/-- The words of the bring-up layout. -/
def bringUpWords (c : Config) : Nat := c.rxBringupWords + c.ep0TxWords

/-- `TXF_VALID[0] <- 1`, the others 0 (step 5). -/
def bringUpValid (s : State) : State :=
  { s with txfValid := Bank.mapBelow s.cfg.maxEndpoints (fun n _ => n == 0) s.txfValid }

/-- What one numbered step of `BringUp` writes. -/
def bringUpWrite (k : BringUpStep) (s : State) : State :=
  match k with
  | .check => s
  | .rxDepth => s.setRxDepth s.cfg.rxBringupWords
  | .ep0Fifo => s.setTxf 0 s.cfg.rxBringupWords s.cfg.ep0TxWords
  | .count => s.setAllocWords (bringUpWords s.cfg)
  | .valid => bringUpValid s

/-- One numbered step of `BringUp`: the first is the capacity check. -/
def bringUpStep (k : BringUpStep) (s : State) : Act :=
  if k = .check ∧ bringUpWords s.cfg > s.cfg.fifoCapacityWords then .bad .fifoOverflow s
  else .ok (bringUpWrite k s)

/-- The steps of `BringUp` in order. -/
def bringUpOrder : List BringUpStep := [.check, .rxDepth, .ep0Fifo, .count, .valid]

/-! ## Binding at OPEN (R145) -/

/-- `TxFifoBind` step 1: a valid FIFO must hold one packet, an invalid one is allocated at the
counter. A fault comes before any write (R146 d). -/
def txBindFifo (n : EpNum) (mps : Nat) (s : State) : Act :=
  let need := wordsFor mps
  if s.txfValid[n] then
    if s.pi.txf[n].depth < need then .bad .fifoOverflow s else .ok s
  else if s.allocWords + need > s.cfg.fifoCapacityWords then .bad .fifoOverflow s
  else .ok { (s.assignTxFifo n s.allocWords need) with allocWords := s.allocWords + need }

/-- `TxFifoBind` step 2. -/
def txBindNum (n : EpNum) (s : State) : State :=
  { s with pi := { s.pi with txfnum := s.pi.txfnum.set n n } }

/-! ## Configuration-time layout (R150 to R155) -/

/-- `T_i` for `i` in 0..count-1, ascending (R150). -/
def readTable (m : List Host.Cell) (table : Word) : Nat → List DemandEntry
  | 0 => []
  | count + 1 => demandEntry (memReadWord m table) :: readTable m (table + 4) count

/-- Whether every entry names an endpoint that exists (R151 step 2). -/
def tableValid (maxEndpoints : Nat) (t : List DemandEntry) : Bool :=
  t.all (fun e => decide (e.ep.val < maxEndpoints))

/-- `RX` (R153). -/
def planRx (c : Config) (t : List DemandEntry) : Nat :=
  let sizes := outSizes t c.maxEndpoints
  let two := twoLargest sizes
  c.rxOverheadWords + wordsFor two.1 + wordsFor two.2 + 2 * sizes.length

/-- The IN endpoints of the table: `present[n][IN]`, n >= 1 (R154). -/
def presentIn (c : Config) (t : List DemandEntry) : List EpNum :=
  (endpoints c.maxEndpoints).filter (fun n => demandPresent t n .inn)

/-- `base[n]` (R154). -/
def baseIn (t : List DemandEntry) (n : EpNum) : Nat := wordsFor (demandSize t n .inn)

/-- `RX + EP0_TX_WORDS + sum(base[n])`, the demand of R151 step 4. -/
def planDemand (c : Config) (t : List DemandEntry) : Nat :=
  planRx c t + c.ep0TxWords + ((presentIn c t).map (baseIn t)).sum

/-- Whether endpoint n is eligible for spare words: used as control or bulk in some setting (R155). -/
def eligible (t : List DemandEntry) (n : EpNum) : Bool :=
  demandTypes t n .inn &&& 0b0101#4 != 0#4

/-- `share` (R155): the policy that splits the words left over. -/
def spareShare (c : Config) (t : List DemandEntry) : Nat :=
  let n := ((presentIn c t).filter (eligible t)).length
  if n = 0 then 0 else (c.fifoCapacityWords - planDemand c t) / n

/-- `depth[n]` (R155). -/
def depthIn (c : Config) (t : List DemandEntry) (n : EpNum) : Nat :=
  baseIn t n + (if eligible t n then spareShare c t else 0)

/-- The layout (R151 step 3). -/
def allocPlan (c : Config) (t : List DemandEntry) : AllocPlan where
  rx := planRx c t
  present := Vector.ofFn fun n : EpNum => decide (n.val < c.maxEndpoints) && demandPresent t n .inn
  base := Vector.ofFn fun n : EpNum => baseIn t n
  depth := Vector.ofFn fun n : EpNum => depthIn c t n

/-- One line of the commit loop (R158): endpoint n gets its FIFO at `a`, or loses it. Words that TXQ[n]
holds stay in it (A32). -/
def commitEndpoint (p : AllocPlan) (n : EpNum) (a : Nat) (s : State) : State × Nat :=
  if p.present[n] then (s.assignTxFifo n a p.depth[n], a + p.depth[n])
  else ({ s with txfValid := s.txfValid.set n false }, a)

end Sys2Proof.Machine
end

