-- ==== Sys2Proof/Machine/Ep0.lean ====
section
/-! DEFINITION. The EP0 multiplexer (42_ep0_mux.md R200 to R205). -/

namespace Sys2Proof.Machine

open Sys2Proof

/-- The bytes of the next packet: `min(EP0_PENDING[d], XFER[0][d].max_size)` (R201 step 1); none, without a
fault, where OPEN has made the size 0 in the middle of a transfer (A39). -/
def ep0Bytes (s : State) (d : Dir) : Nat := min (s.ep0Pending.get d) (s.recAt 0 d).maxSize

/-- `Ep0Schedule` step 1: take the bytes from the pending counter. -/
def ep0Take (s : State) (d : Dir) : State :=
  s.setPending d (s.ep0Pending.get d - ep0Bytes s d)

/-- `Ep0Schedule(d)`, its steps in order (R201). -/
def ep0Schedule (s : State) (d : Dir) : State := (ep0Take s d).arm 0 d 1 (ep0Bytes s d)

/-- `Ep0Continue(d)` (R202). -/
def ep0Continue (s : State) (d : Dir) : State :=
  if s.ep0Pending.get d = 0 then s.emitComplete 0 d else ep0Schedule s d

end Sys2Proof.Machine
end

