-- ==== Sys2Proof/Machine/PacketIo.lean ====
section
/-! DEFINITION. The packet I/O engine (43_packet_io.md R210 to R215). -/

namespace Sys2Proof.Machine

open Sys2Proof

/-- `FifoReadPacket(dst, len)` (R211): pop `words(len)` words, store their first `len` bytes from
`dst` up. When the queue runs short the words it had are popped and their bytes stored, and the pop
that finds no word is out of contract (U6, 60_exceptions.md R301). -/
def fifoReadPacket (dst : Word) (len : Nat) (s : State) : Act :=
  let ws := s.pi.rxq.take (wordsFor len)
  let s1 : State :=
    { s with
      pi := { s.pi with rxq := s.pi.rxq.drop (wordsFor len) }
      mem := memWriteBytes s.mem dst ((unpackWords ws).take len) }
  if ws.length < wordsFor len then .bad .outOfContract s1 else .ok s1

/-- Push words in order; the first push without room is out of contract (U7). -/
def txPushAll (n : EpNum) : List Word → State → Act
  | [], s => .ok s
  | w :: ws, s => (s.txPush n w).andThen (txPushAll n ws)

/-- `FifoWritePacket(n, src, len)` (R212): each byte is read once, ascending, and pushes do not
change memory, so reading the bytes first gives the same words. -/
def fifoWritePacket (n : EpNum) (src : Word) (len : Nat) (s : State) : Act :=
  txPushAll n (packWords (memReadBytes s.mem src len)) s

end Sys2Proof.Machine
end

