-- ==== Sys2Proof/Machine/Dispatcher.lean ====
section
/-! DEFINITION. The interrupt dispatcher and its handlers (44_dispatcher.md), one numbered step at a
time, and a whole run with nothing in between. -/

namespace Sys2Proof.Machine

open Sys2Proof

/-! ## Bus events -/

/-- `HandleBusReset` step 1 (R224); INIT step 1 clears the same records (45_system_ops.md R261). Every
transfer is abandoned, with no event to come (A37). -/
def clearRecords (s : State) : State :=
  let m := s.cfg.maxEndpoints
  { s.hush (fun n _ => decide (n.val < m)) with
    xfer :=
      ⟨Bank.mapBelow m (fun _ _ => Record.zero) s.xfer.out,
       Bank.mapBelow m (fun _ _ => Record.zero) s.xfer.inn⟩
    inFlight :=
      ⟨Bank.mapBelow m (fun _ _ => false) s.inFlight.out,
       Bank.mapBelow m (fun _ _ => false) s.inFlight.inn⟩
    ep0Pending := ⟨0, 0⟩ }

/-- Endpoint 0's recorded packet size, both directions (R224 step 2, R227 step 3). -/
def setEp0MaxSize (m : Nat) (s : State) : State :=
  let s1 := s.setRec 0 .out { s.recAt 0 .out with maxSize := m }
  s1.setRec 0 .inn { s1.recAt 0 .inn with maxSize := m }

/-- `HandleBusReset` step 3. -/
def nakAll (s : State) : State :=
  let m := s.cfg.maxEndpoints
  { s with
    pi := { s.pi with
      ep :=
        ⟨Bank.mapBelow m (fun _ r => { r with nak := true }) s.pi.ep.out,
         Bank.mapBelow m (fun _ r => { r with nak := true }) s.pi.ep.inn⟩ } }

/-- `HandleBusReset` step 4. -/
def clearTxe (s : State) : State :=
  { s with
    pi := { s.pi with txeMsk := Bank.mapBelow s.cfg.maxEndpoints (fun _ _ => false) s.pi.txeMsk } }

/-- `P.OUT[0].SETUPCNT <- 3` (R224 step 7). A SETUP_DONE may follow this arming (46_environment.md
R295). -/
def rearmSetup (s : State) : State :=
  { s with pi := { s.pi with setupcnt := 3 }, env := { s.env with setupSent := false } }

/-- `HandleBusReset` step 8. -/
def resetEpMasks (s : State) : State :=
  let m := s.cfg.maxEndpoints
  { s with
    pi := { s.pi with
      epintMsk :=
        ⟨Bank.mapBelow m (fun n _ => n == 0) s.pi.epintMsk.out,
         Bank.mapBelow m (fun n _ => n == 0) s.pi.epintMsk.inn⟩ } }

/-- `HandleBusReset` step 9. -/
def unmaskSources (s : State) : State :=
  { s with pi := { s.pi with oepSrcMsk := ⟨true, true⟩, iepSrcMsk := true } }

/-- `HandleBusReset` step 10. -/
def unmaskEndpoints (s : State) : State :=
  { s with pi := { s.pi with gmsk := { s.pi.gmsk with oep := true, iep := true } } }

/-- One numbered step of `HandleBusReset` (R224). -/
def busResetStep (k : BusResetStep) (s : State) : Act :=
  match k with
  | .clearRecords => .ok (clearRecords s)
  | .ep0Size => .ok (setEp0MaxSize 64 s)
  | .nakAll => .ok (nakAll s)
  | .clearTxe => .ok (clearTxe s)
  | .clearAddr => .ok (s.setDevaddr 0)
  | .bringUp b => bringUpStep b s
  | .setupCount => .ok (rearmSetup s)
  | .epMasks => .ok (resetEpMasks s)
  | .srcMasks => .ok (unmaskSources s)
  | .globalMask => .ok (unmaskEndpoints s)
  | .busState => .ok (s.setBusState .resetInProgress)

/-- The steps of `HandleBusReset` in order; step 6 is the five of `BringUp`. -/
def busResetOrder : List BusResetStep :=
  [.clearRecords, .ep0Size, .nakAll, .clearTxe, .clearAddr] ++
    bringUpOrder.map BusResetStep.bringUp ++
    [.setupCount, .epMasks, .srcMasks, .globalMask, .busState]

/-- `HandleEnumDone` step 2 (R227). -/
def setTurnaround (sp : Speed) (s : State) : State :=
  { s with pi := { s.pi with turnaround := trdt s.cfg sp s.pi.clkHz.toNat } }

/-- `HandleEnumDone` step 3 (R227). -/
def setEp0Size (sp : Speed) (s : State) : State :=
  let m := ep0Mps s.cfg sp
  let s1 := setEp0MaxSize m s
  let s2 := s1.setEp 0 .out { s1.epAt 0 .out with mps := m }
  s2.setEp 0 .inn { s2.epAt 0 .inn with mps := m }

/-- `HandleSuspend`, `HandleResume`, `HandleDisconnect` (R228, R229, R230), each one step (A16). -/
def handleSignal (k : Signal) (s : State) : State :=
  let s1 := s.emit (.busSignal k)
  match k with
  | .suspend => if s.busState = .active then s1.setBusState .suspended else s1
  | .resume => if s.busState = .suspended then s1.setBusState .active else s1
  | .unplugged => s1.setBusState .disconnected

/-! ## Receive drain (R231 to R238) -/

/-- `P.GMSK.RXNE <- v` (R231 steps 1 and 3). -/
def setRxneMask (v : Bool) (s : State) : State :=
  { s with pi := { s.pi with gmsk := { s.pi.gmsk with rxne := v } } }

/-- `ShortPacketTrim(n)` (R234); a subtraction below zero is out of contract (U8). -/
def shortPacketTrim (n : EpNum) (s : State) : Act :=
  let r := s.recAt n .out
  let left := (s.epAt n .out).xfrsiz
  if r.totalLen < left then .bad .outOfContract s
  else
    let s1 := s.setRec n .out { r with totalLen := r.totalLen - left }
    if n = 0 then
      let pending := s1.ep0Pending.get .out
      let r1 := s1.recAt 0 .out
      if r1.totalLen < pending then .bad .outOfContract s1
      else .ok ((s1.setRec 0 .out { r1 with totalLen := r1.totalLen - pending }).setPending .out 0)
    else .ok s1

/-- Status OUT_DATA (R233). -/
def rxOutData (n : EpNum) (bcnt : Nat) (s : State) : Act :=
  if s.cfg.maxEndpoints ≤ n.val then .bad .invalidEndpoint s
  else
    (fifoReadPacket (s.recAt n .out).buffer bcnt s).andThen fun s1 =>
      let r := s1.recAt n .out
      let s2 := s1.setRec n .out { r with buffer := r.buffer + BitVec.ofNat 32 bcnt }
      if bcnt < r.maxSize then shortPacketTrim n s2 else .ok s2

/-- The environment's answer to the pop of OUT_DONE: the transfer-complete condition
(46_environment.md R286), of an earlier transfer while entries of one are left (A8). It has no such
field for an endpoint that does not exist (A26). -/
def rxOutDone (n : EpNum) (s : State) : State :=
  if s.cfg.maxEndpoints ≤ n.val then s
  else
    let k := s.env.lateEntries[n]
    let s1 := s.signalDone n .out (k != 0)
    { s1 with env := { s1.env with lateEntries := s1.env.lateEntries.set n (k - 1) } }

/-- Status SETUP_DATA (R236): two words are popped whatever `bcnt` says. -/
def rxSetupData (s : State) : Act :=
  match s.rxPop with
  | none => .bad .outOfContract s
  | some (w0, s1) =>
      let s2 := { s1 with setupBuf0 := w0 }
      match s2.rxPop with
      | none => .bad .outOfContract s2
      | some (w1, s3) => .ok { s3 with setupBuf1 := w1 }

/-- Status SETUP_DONE (R237), and the environment's answer to its pop (46_environment.md R283). -/
def rxSetupDone (s : State) : State :=
  let s1 := rearmSetup s
  { s1 with pi := { s1.pi with setupDone := s1.pi.setupDone.set 0 true } }

/-- The environment's answer to the pop of GLOBAL_OUT_NAK: the confirmations that waited for it may
now be given (46_environment.md R292; A29). -/
def rxGlobalOutNak (s : State) : State :=
  { s with
    env := { s.env with
      nakReq := { s.env.nakReq with
        out := Bank.each (fun q => if q = .queued then .popped else q) s.env.nakReq.out } } }

/-- One iteration of the drain loop (R231 step 2): the pop, the decode and the handling of an entry. -/
def drainEntry (s : State) : Act :=
  match s.rxPop with
  | none => .ok s
  | some (sw, s1) =>
      match rxClass (statusCode sw) with
      | .globalOutNak => .ok (rxGlobalOutNak s1)
      | .outData => rxOutData (statusEp sw) (statusCount sw) s1
      | .outDone => .ok (rxOutDone (statusEp sw) s1)
      | .setupDone => .ok (rxSetupDone s1)
      | .setupData => rxSetupData s1
      | .unrecognised => .bad .unknownRxStatus s1

/-! ## Endpoint conditions -/

/-- R239 a: the SETUP-phase-done condition (R240). -/
def outSetupPhase (n : EpNum) (s : State) : State :=
  if s.pi.setupDone[n] then
    { s with pi := { s.pi with setupDone := s.pi.setupDone.set n false } }.emit
      (.setupReceived s.setupBuf0 s.setupBuf1)
  else s

/-- R239 b and R243 a: the transfer-complete condition of either direction (R241, R244). Of
a transfer abandoned by anything but STALL it is acknowledged and no event follows (R204 e, R355), or is
handled as any other (R225, R241), as the configuration has it (A37). -/
def transferComplete (n : EpNum) (d : Dir) (s : State) : State :=
  if (s.epAt n d).xferDone then
    let s1 := s.setEp n d { s.epAt n d with xferDone := false }
    if s.dropsDone n d then s1
    else if n = 0 then ep0Continue s1 d else s1.emitComplete n d
  else s

/-- What one evaluation of the FIFO-empty loop does (R245). -/
inductive Feed where
  | stop
  | pushed (s : State)
  | bad (c : FaultCause) (s : State)
  deriving DecidableEq, Repr

/-- One iteration of the FIFO-empty loop (R245); max_size 0 is out of contract (U9). -/
def feedStep (n : EpNum) (s : State) : Feed :=
  let rem := (s.epAt n .inn).xfrsiz
  let r := s.recAt n .inn
  let k := min rem r.maxSize
  if rem = 0 then .stop
  else if r.maxSize = 0 then .bad .outOfContract s
  else if 4 * txFree s.pi n < k then .stop
  else
    match fifoWritePacket n r.buffer k s with
    | .bad c s1 => .bad c s1
    | .ok s1 =>
        let r1 := s1.recAt n .inn
        .pushed (s1.setRec n .inn { r1 with buffer := r1.buffer + BitVec.ofNat 32 k })

/-- The last step of the FIFO-empty handler (R245). -/
def feedEnd (n : EpNum) (s : State) : State :=
  if (s.epAt n .inn).xfrsiz = 0 then s.setTxe n false else s

/-! ## The numbered steps of a run -/

/-- What a numbered step of a run gives: done, still at this step, or a fault. -/
inductive IrqRes where
  | go (l : IrqLocals) (s : State)
  | again (l : IrqLocals) (s : State)
  | bad (c : FaultCause) (s : State)
  deriving DecidableEq, Repr

/-- An action as a numbered step. -/
def IrqRes.ofAct (l : IrqLocals) : Act → IrqRes
  | .ok s => .go l s
  | .bad c s => .bad c s

/-- One numbered step of a run. -/
def irqStep (op : IrqOp) (l : IrqLocals) (s : State) : IrqRes :=
  match op with
  | .ack e => .go l (s.ackGlobal e)
  | .busReset k => IrqRes.ofAct l (busResetStep k s)
  | .readSpeed => .go { l with speed := s.pi.speed } s
  | .setTurnaround => .go l (setTurnaround l.speed s)
  | .setEp0Size => .go l (setEp0Size l.speed s)
  | .emitBusReset => .go l (s.emit (.busReset l.speed))
  | .setEnumerating => .go l (s.setBusState .enumerating)
  | .signal k => .go l (handleSignal k s)
  | .drainMask => .go l (setRxneMask false s)
  | .drainLoop =>
      if s.pi.rxq.isEmpty then .go l s
      else
        match drainEntry s with
        | .ok s1 => .again l s1
        | .bad c s1 => .bad c s1
  | .drainUnmask => .go l (setRxneMask true s)
  | .outSetup n =>
      let p := epPendOut s.pi n
      .go { l with pend := p } (if p then outSetupPhase n s else s)
  | .outDone n => .go l (if l.pend then transferComplete n .out s else s)
  | .inDone n =>
      let p := epPendIn s.pi n
      .go { l with pend := p } (if p then transferComplete n .inn s else s)
  | .inTest n => .go { l with feed := l.pend && txEmpty s.pi n && s.pi.txeMsk[n] } s
  | .inFeed n =>
      if l.feed then
        match feedStep n s with
        | .stop => .go l s
        | .pushed s1 => .again l s1
        | .bad c s1 => .bad c s1
      else .go l s
  | .inFeedEnd n => .go l (if l.feed then feedEnd n s else s)

/-- The steps of `Dispatch` after the latch (R221 steps 2 to 9), for the latched bits. -/
def dispatchOps (latched : GlobalBits) (maxEndpoints : Nat) : List IrqOp :=
  (if latched.reset then .ack .reset :: busResetOrder.map IrqOp.busReset else []) ++
  (if latched.enumDone then
    [.ack .enumDone, .readSpeed, .setTurnaround, .setEp0Size, .emitBusReset, .setEnumerating]
   else []) ++
  (if latched.suspend then [.ack .suspend, .signal .suspend] else []) ++
  (if latched.resume then [.ack .resume, .signal .resume] else []) ++
  (if latched.disconnect then [.ack .disconnect, .signal .unplugged] else []) ++
  (if latched.rxne then [.drainMask, .drainLoop, .drainUnmask] else []) ++
  (if latched.oep then (endpoints maxEndpoints).flatMap (fun n => [.outSetup n, .outDone n]) else []) ++
  (if latched.iep then
    (endpoints maxEndpoints).flatMap (fun n => [.inDone n, .inTest n, .inFeed n, .inFeedEnd n])
   else [])

/-! ## A run with nothing in between -/

/-- How often a step can repeat when nothing else moves: every drain iteration pops a word, every
FIFO-empty iteration pushes one. -/
def repeatBound (op : IrqOp) (s : State) : Nat :=
  match op with
  | .drainLoop => s.pi.rxq.length + 1
  | .inFeed n => txFree s.pi n + 1
  | .ack _ => 1
  | .busReset _ => 1
  | .readSpeed => 1
  | .setTurnaround => 1
  | .setEp0Size => 1
  | .emitBusReset => 1
  | .setEnumerating => 1
  | .signal _ => 1
  | .drainMask => 1
  | .drainUnmask => 1
  | .outSetup _ => 1
  | .outDone _ => 1
  | .inDone _ => 1
  | .inTest _ => 1
  | .inFeedEnd _ => 1

/-- Take a step until it is done. -/
def repeatStep : Nat → IrqOp → IrqLocals → State → IrqRes
  | 0, _, l, s => .again l s
  | k + 1, op, l, s =>
      match irqStep op l s with
      | .go l1 s1 => .go l1 s1
      | .again l1 s1 => repeatStep k op l1 s1
      | .bad c s1 => .bad c s1

/-- How a run ends when nothing else moves: at its return, at a fault, or (never, by `repeatBound`)
part way. -/
inductive IrqRun where
  | done (s : State)
  | held (todo : List IrqOp) (l : IrqLocals) (s : State)
  | bad (c : FaultCause) (todo : List IrqOp) (l : IrqLocals) (s : State)
  deriving DecidableEq, Repr

/-- Take the steps of a run in order. -/
def runOps : List IrqOp → IrqLocals → State → IrqRun
  | [], _, s => .done s
  | op :: rest, l, s =>
      match repeatStep (repeatBound op s) op l s with
      | .go l1 s1 => runOps rest l1 s1
      | .again l1 s1 => .held (op :: rest) l1 s1
      | .bad c s1 => .bad c (op :: rest) l s1

/-- `Dispatch()` from its first step to its last (R220, R221): the latch, then the steps. -/
def dispatchRun (s : State) : IrqRun :=
  runOps (dispatchOps s.pending s.cfg.maxEndpoints) {} s

end Sys2Proof.Machine
end

