-- ==== Sys2Proof/Machine/CommandSteps.lean ====
section
/-! DEFINITION. The numbered steps of the commands (40_fifo_allocator.md R151, 41_endpoint_ops.md,
45_system_ops.md), and a command run with nothing in between. -/

namespace Sys2Proof.Machine

open Sys2Proof

/-- What a numbered step of a command gives. `hold`: a wait whose condition is not true. `enter`:
the step is a dispatcher run (45_system_ops.md R272). -/
inductive CmdRes where
  | go (l : CmdLocals) (s : State)
  | hold (l : CmdLocals) (s : State)
  | respond (r : Resp) (s : State)
  | raise (c : FaultCause) (s : State)
  | enter (s : State)
  | refuse (r : Refusal)
  deriving DecidableEq, Repr

/-- An action as a numbered step. -/
def CmdRes.ofAct (l : CmdLocals) : Act → CmdRes
  | .ok s => .go l s
  | .bad c s => .raise c s

/-! ## INIT (45_system_ops.md R261) -/

/-- Step 1: the block's own state. Every transfer is abandoned (R262 a). -/
def initBlock (s : State) : State :=
  clearRecords
    { s with
      allocWords := 0
      txfValid := Bank.mapBelow s.cfg.maxEndpoints (fun _ _ => false) s.txfValid
      setupBuf0 := 0
      setupBuf1 := 0
      busState := .disconnected }

/-- Step 2: every source masked. -/
def initMaskAll (s : State) : State :=
  { s with pi := { s.pi with gmsk := ⟨false, false, false, false, false, false, false, false⟩ } }

/-- Step 4: the per-endpoint enables. -/
def initMasks (s : State) : State :=
  let m := s.cfg.maxEndpoints
  { s with
    pi := { s.pi with
      epintMsk :=
        ⟨Bank.mapBelow m (fun _ _ => false) s.pi.epintMsk.out,
         Bank.mapBelow m (fun _ _ => false) s.pi.epintMsk.inn⟩
      txeMsk := Bank.mapBelow m (fun _ _ => false) s.pi.txeMsk
      oepSrcMsk := ⟨false, false⟩
      iepSrcMsk := false } }

/-- Step 5: no STALL, every NAK. -/
def initHolds (s : State) : State :=
  let m := s.cfg.maxEndpoints
  { s with
    pi := { s.pi with
      ep :=
        ⟨Bank.mapBelow m (fun _ r => { r with stall := false, nak := true }) s.pi.ep.out,
         Bank.mapBelow m (fun _ r => { r with stall := false, nak := true }) s.pi.ep.inn⟩ } }

/-- Step 8: the five bus events acknowledged. -/
def initAck (s : State) : State :=
  { s with pi := { s.pi with gint := ⟨false, false, false, false, false⟩ } }

/-- Step 9: the sources that need no endpoint unmasked. -/
def initUnmask (s : State) : State :=
  { s with pi := { s.pi with gmsk := ⟨true, true, true, true, true, true, false, false⟩ } }

/-! ## CONNECT, DISCONNECT (45_system_ops.md R264, R265) -/

/-- Transfers in flight stay armed and never complete until they are armed again, after a bus reset
(R265), and are abandoned with no event to come (70_reset_and_hazards.md R355; A37, A38). -/
def park (s : State) : State :=
  State.hush (fun _ _ => true)
    { s with
      env := { s.env with
        parked := Both.tab fun n d => s.parkedAt n d || s.inFlightAt n d || s.armedAt n d } }

/-- Step 1. -/
def softDisconnect (v : Bool) (s : State) : State :=
  let s1 := s.setSoftdisc v
  if v then park s1 else s1

/-! ## IRQ_ENABLE, IRQ_DISABLE (45_system_ops.md R270, R271) -/

/-- Step 1. When P.irq is already 1 as IRQ_EN becomes 1, a run is owed before the next command
(A15); with IRQ_EN 0 none is. -/
def setIrqEn (v : Bool) (s : State) : State :=
  { s with irqEn := v, irqDue := v && s.irqLine }

/-! ## OPEN, CLOSE (41_endpoint_ops.md R171, R173) -/

/-- OPEN step 3, of endpoint 0 in the middle of a transfer too (R172 d, e; against 42_ep0_mux.md R204 g,
A39). -/
def openSize (n : EpNum) (d : Dir) (mps : Nat) (s : State) : State :=
  s.setRec n d { s.recAt n d with maxSize := mps }

/-- OPEN step 4. -/
def openProgram (n : EpNum) (d : Dir) (ty : XferType) (mps : Nat) (s : State) : State :=
  s.setEp n d { s.epAt n d with active := true, ty := ty, mps := mps }

/-- OPEN step 7: the bus state moves with the first endpoint other than 0 (44_dispatcher.md R250). -/
def openBusState (n : EpNum) (s : State) : State :=
  if n ≠ 0 ∧ s.busState = .enumerating then s.setBusState .active else s

/-- CLOSE step 2; the transfer is cancelled (R174 b), with no event to come (A37). -/
def closeActive (n : EpNum) (d : Dir) (s : State) : State :=
  ((s.setEp n d { s.epAt n d with active := false }).hush
    fun m e => decide (m = n ∧ e = d)).setInFlight n d false

/-! ## XFER (R175) -/

/-- Step 2: the checks R178 and R179, and the packet count of an endpoint other than 0. -/
def xferCheck (n : EpNum) (d : Dir) (length : Nat) (l : CmdLocals) (s : State) : CmdRes :=
  let m := (s.recAt n d).maxSize
  if m = 0 then .raise .endpointNotOpen s
  else if n ≠ 0 ∧ packetCount length m > maxPktcnt then .raise .xferTooLarge s
  else .go { l with pk := packetCount length m, by_ := length } s

/-- A transfer starts (70_reset_and_hazards.md R350): a completion that already stands or is already in
RXQ is an earlier one's (A8). -/
def startFlight (n : EpNum) (d : Dir) (s : State) : State :=
  (s.setInFlight n d true).ageDone fun m e => decide (m = n ∧ e = d)

/-- Step 3: the record. A transfer already in flight is the run the spec does not admit (U1). -/
def xferRecord (n : EpNum) (d : Dir) (buffer : Word) (length : Nat) (l : CmdLocals) (s : State) :
    CmdRes :=
  if s.inFlightAt n d then .refuse .xferInFlight
  else
    .go l (startFlight n d (s.setRec n d { s.recAt n d with buffer := buffer, totalLen := length }))

/-! ## STALL (R181) -/

/-- STALL cancels the transfer of (n, d), which may still complete (46_environment.md R294, R355; A37). -/
def stallCancel (n : EpNum) (d : Dir) (s : State) : State :=
  let quiet := s.silentAt n d && !s.inFlightAt n d && !s.armedAt n d
  let s1 := s.setInFlight n d false
  { s1 with env := { s1.env with silent := s1.env.silent.set d ((s1.env.silent.get d).set n quiet) } }

/-- Step 3: the idle path's writes. -/
def stallIdle (n : EpNum) (d : Dir) (s : State) : State :=
  stallCancel n d (s.setEp n d { s.epAt n d with nak := true, stall := true })

/-- What the environment owes when a NAK is forced again: a confirmation that waits for its
GLOBAL_OUT_NAK entry goes on waiting for it (A29). -/
def NakReq.ask : NakReq → NakReq
  | .none => .asked
  | .asked => .asked
  | .queued => .queued
  | .popped => .popped

/-- Step 4: force NAK; the environment owes a confirmation (46_environment.md R292). -/
def stallNak (n : EpNum) (d : Dir) (s : State) : State :=
  let s1 := s.setEp n d { s.epAt n d with nak := true }
  let q := s1.env.nakReq.get d
  { s1 with env := { s1.env with nakReq := s1.env.nakReq.set d (q.set n q[n].ask) } }

/-- One evaluation of a wait (R186). Without a limit a failed evaluation holds; with `some n` the
n-th failed evaluation ends the command with TIMEOUT. -/
def waitFor (cond : Bool) (l : CmdLocals) (s : State) : CmdRes :=
  match s.cfg.stallPollLimit with
  | none => if cond then .go l s else .hold l s
  | some limit =>
      if limit ≤ l.polls then .respond .timeout s
      else if cond then .go { l with polls := 0 } s
      else if l.polls + 1 = limit then .respond .timeout s
      else .hold { l with polls := l.polls + 1 } s

/-- Step 7: disable and mark STALL; the transfer is cancelled (R174 b). -/
def stallDisable (n : EpNum) (d : Dir) (s : State) : State :=
  stallCancel n d (s.setEp n d { s.epAt n d with disreq := true, stall := true })

/-- Step 8: flush the FIFO the endpoint is bound to. A flush still under way, after a time-out of step
9, is overtaken (A35). -/
def stallFlush (n : EpNum) (s : State) : State :=
  { s with
    pi := { s.pi with flushNum := s.pi.txfnum[n], flushBusy := true }
    env := { s.env with
      flushOld := if s.pi.flushBusy then s.env.flushOld.set s.pi.flushNum true else s.env.flushOld } }

/-! ## CLEAR_STALL (R188) -/

/-- Step 4: the toggle of bulk and interrupt endpoints. -/
def clearToggle (n : EpNum) (d : Dir) (s : State) : State :=
  match (s.epAt n d).ty with
  | .control => s
  | .isochronous => s
  | .bulk => s.setEp n d { s.epAt n d with dpid := .data0 }
  | .interrupt => s.setEp n d { s.epAt n d with dpid := .data0 }

/-! ## CFG_ALLOC (40_fifo_allocator.md R151) -/

/-- R160's test: no IN endpoint enabled and the receive FIFO empty (U3). -/
def quiescent (s : State) : Bool :=
  s.pi.rxq.isEmpty && (endpoints s.cfg.maxEndpoints).all (fun n => !(s.epAt n .inn).ena)

/-- Step 2: the table is read once; an entry for an endpoint that does not exist is a fault. -/
def cfgRead (table : Word) (count : Nat) (l : CmdLocals) (s : State) : CmdRes :=
  let t := readTable s.mem table count
  if tableValid s.cfg.maxEndpoints t then .go { l with entries := t } s
  else .raise .invalidEndpoint s

/-- Step 4: the capacity test. -/
def cfgCapacity (l : CmdLocals) (s : State) : CmdRes :=
  if planDemand s.cfg l.entries > s.cfg.fifoCapacityWords then .respond .declined s else .go l s

/-- R158: the transmit FIFO of endpoint 0. -/
def commitEp0 (l : CmdLocals) (s : State) : CmdRes :=
  .go { l with next := l.next + s.cfg.ep0TxWords } (s.assignTxFifo 0 l.next s.cfg.ep0TxWords)

/-- R158: one endpoint of the loop. -/
def commitEpStep (n : EpNum) (l : CmdLocals) (s : State) : CmdRes :=
  let r := commitEndpoint l.plan n l.next s
  .go { l with next := r.2 } r.1

/-- Step 6. -/
def cfgBusState (s : State) : State :=
  if s.busState = .enumerating then s.setBusState .active else s

/-! ## One numbered step -/

/-- One numbered step of a command. -/
def cmdStep (op : CmdOp) (l : CmdLocals) (s : State) : CmdRes :=
  match op with
  | .checkEp n => if s.cfg.maxEndpoints ≤ n.val then .raise .invalidEndpoint s else .go l s
  | .respondOk => .respond .ok s
  | .initBlock => .go l (initBlock s)
  | .initMaskAll => .go l (initMaskAll s)
  | .initDisconnect => .go l (s.setSoftdisc true)
  | .initMasks => .go l (initMasks s)
  | .initHolds => .go l (initHolds s)
  | .initAddr => .go l (s.setDevaddr 0)
  | .bringUp k => CmdRes.ofAct l (bringUpStep k s)
  | .initAck => .go l (initAck s)
  | .initUnmask => .go l (initUnmask s)
  | .softDisconnect v => .go l (softDisconnect v s)
  | .busDisconnected => .go l (s.setBusState .disconnected)
  | .setAddr a => .go l (s.setDevaddr a)
  | .setIrqEn v => .go l (setIrqEn v s)
  | .runDispatcher => .enter s
  | .openCeiling ty mps => if mps > ceiling ty s.pi.speed then .raise .packetSize s else .go l s
  | .openSize n d mps => .go l (openSize n d mps s)
  | .openProgram n d ty mps => .go l (openProgram n d ty mps s)
  | .txBindFifo n mps => CmdRes.ofAct l (txBindFifo n mps s)
  | .txBindNum n => .go l (txBindNum n s)
  | .openEpint n d => .go l (s.setEpint n d true)
  | .openRespond n => .respond .ok (openBusState n s)
  | .closeActive n d => .go l (closeActive n d s)
  | .closeEpint n d => .go l (s.setEpint n d false)
  | .xferCheck n d length => xferCheck n d length l s
  | .xferRecord n d buffer length => xferRecord n d buffer length l s
  | .ep0Pending d length => .go l (s.setPending d length)
  | .ep0Take d => .go { l with pk := 1, by_ := ep0Bytes s d } (ep0Take s d)
  | .armSize n d => .go l (s.armSize n d l.pk l.by_)
  | .armEnable n d => .go l (s.armEnable n d)
  | .armTxe n d => .go l (s.armTxe n d l.by_)
  | .stallTest n d => .go { l with idle := !(s.epAt n d).ena } s
  | .stallIdle n d => if l.idle then .respond .ok (stallIdle n d s) else .go l s
  | .stallNak n d => .go l (stallNak n d s)
  | .stallWaitNak n d => waitFor (s.epAt n d).nakEff l s
  | .stallAckNak n d => .go l (s.setEp n d { s.epAt n d with nakEff := false })
  | .stallDisable n d => .go l (stallDisable n d s)
  | .stallFlush n => .go l (stallFlush n s)
  | .stallWaitFlush => waitFor (!s.pi.flushBusy) l s
  | .clearTest n d => if (s.epAt n d).stall then .go l s else .respond .ok s
  | .clearBit n d => .go l (s.setEp n d { s.epAt n d with stall := false })
  | .clearToggle n d => .go l (clearToggle n d s)
  | .cfgBegin => if quiescent s then .go l s else .refuse .cfgAllocNotQuiescent
  | .cfgRead table count => cfgRead table count l s
  | .cfgPlan => .go { l with plan := allocPlan s.cfg l.entries } s
  | .cfgCapacity => cfgCapacity l s
  | .commitStart => .go { l with next := l.plan.rx } s
  | .commitRx => .go l (s.setRxDepth l.plan.rx)
  | .commitEp0 => commitEp0 l s
  | .commitEp n => commitEpStep n l s
  | .commitCount => .go l (s.setAllocWords l.next)
  | .cfgRespond => .respond .ok (cfgBusState s)

/-! ## A command with nothing in between -/

/-- Take the numbered steps of a command in order until it responds, faults or holds
(00_scope.md R18, 30_encoding.md R110). A fault leaves CTX at the step that raised it (A7). -/
def runCmd (c : Instr) : List CmdOp → CmdLocals → State → Host.Outcome State Fault Refusal
  | [], _, s => .next { s with ctx := .idle }
  | op :: rest, l, s =>
      match cmdStep op l s with
      | .go l1 s1 => runCmd c rest l1 s1
      | .hold l1 s1 => .next { s1 with ctx := .cmd ⟨c, op :: rest, l1⟩ }
      | .respond r s1 => .next (s1.respond r)
      | .raise f s1 => .next ({ s1 with ctx := .cmd ⟨c, op :: rest, l⟩ }.raiseFault f)
      | .refuse r => .refused r
      | .enter s1 =>
          match dispatchRun { s1 with irqDue := false } with
          | .done s2 => runCmd c rest l s2
          | .held todo il s2 => .next { s2 with ctx := .irq (.steps todo il) (some ⟨c, rest, l⟩) }
          | .bad f todo il s2 =>
              .next ({ s2 with ctx := .irq (.steps todo il) (some ⟨c, rest, l⟩) }.raiseFault f)

/-- A command presented to the port: accepted only at CTX = IDLE and HALTED = 0 (30_encoding.md
R110), then run; otherwise nothing changes. -/
def runCommand (c : Instr) (ops : List CmdOp) (s : State) : Host.Outcome State Fault Refusal :=
  if s.accepts then runCmd c ops {} s else .next s

end Sys2Proof.Machine
end

