-- ==== Sys2Proof/Machine/Endpoint.lean ====
section
/-! DEFINITION. The endpoint commands (41_endpoint_ops.md) and CFG_ALLOC (40_fifo_allocator.md
R151): each its numbered steps in order, and its meaning. -/

namespace Sys2Proof.Machine

open Sys2Proof

/-- R171; step 5 only for IN. -/
def openOps (n : EpNum) (d : Dir) (ty : XferType) (mps : Nat) : List CmdOp :=
  [.checkEp n, .openCeiling ty mps, .openSize n d mps, .openProgram n d ty mps] ++
    (match d with
     | .out => []
     | .inn => [.txBindFifo n mps, .txBindNum n]) ++
    [.openEpint n d, .openRespond n]

/-- OPEN (R171). -/
def execOpen (n : EpNum) (d : Dir) (ty : XferType) (mps : Nat) (s : State) :
    Host.Outcome State Fault Refusal :=
  runCommand (.openEp n d ty mps) (openOps n d ty mps) s

/-- R173. -/
def closeOps (n : EpNum) (d : Dir) : List CmdOp :=
  [.checkEp n, .closeActive n d, .closeEpint n d, .respondOk]

/-- CLOSE (R173). -/
def execClose (n : EpNum) (d : Dir) (s : State) : Host.Outcome State Fault Refusal :=
  runCommand (.closeEp n d) (closeOps n d) s

/-- `Arm`, three steps (R176). -/
def armOps (n : EpNum) (d : Dir) : List CmdOp := [.armSize n d, .armEnable n d, .armTxe n d]

/-- R175; endpoint 0 schedules one packet (42_ep0_mux.md R201). -/
def xferOps (n : EpNum) (d : Dir) (buffer : Word) (length : Nat) : List CmdOp :=
  [.checkEp n, .xferCheck n d length, .xferRecord n d buffer length] ++
    (if n = 0 then [.ep0Pending d length, .ep0Take d] else []) ++
    armOps n d ++ [.respondOk]

/-- XFER (R175). -/
def execXfer (n : EpNum) (d : Dir) (buffer : Word) (length : Nat) (s : State) :
    Host.Outcome State Fault Refusal :=
  runCommand (.xfer n d buffer length) (xferOps n d buffer length) s

/-- R181; steps 8 and 9 only for IN. -/
def stallOps (n : EpNum) (d : Dir) : List CmdOp :=
  [.checkEp n, .stallTest n d, .stallIdle n d, .stallNak n d, .stallWaitNak n d, .stallAckNak n d,
   .stallDisable n d] ++
    (match d with
     | .out => []
     | .inn => [.stallFlush n, .stallWaitFlush]) ++
    [.respondOk]

/-- STALL (R181). -/
def execStall (n : EpNum) (d : Dir) (s : State) : Host.Outcome State Fault Refusal :=
  runCommand (.stall n d) (stallOps n d) s

/-- R188. -/
def clearStallOps (n : EpNum) (d : Dir) : List CmdOp :=
  [.checkEp n, .clearTest n d, .clearBit n d, .clearToggle n d, .respondOk]

/-- CLEAR_STALL (R188). -/
def execClearStall (n : EpNum) (d : Dir) (s : State) : Host.Outcome State Fault Refusal :=
  runCommand (.clearStall n d) (clearStallOps n d) s

/-- R151, R158. -/
def cfgAllocOps (maxEndpoints : Nat) (table : Word) (count : Nat) : List CmdOp :=
  [.cfgBegin, .cfgRead table count, .cfgPlan, .cfgCapacity, .commitStart, .commitRx, .commitEp0] ++
    ((endpoints maxEndpoints).filter (fun n => n != 0)).map CmdOp.commitEp ++
    [.commitCount, .cfgRespond]

/-- CFG_ALLOC (R151). -/
def execCfgAlloc (table : Word) (count : Nat) (s : State) : Host.Outcome State Fault Refusal :=
  runCommand (.cfgAlloc table count) (cfgAllocOps s.cfg.maxEndpoints table count) s

end Sys2Proof.Machine
end

