-- ==== Sys2Proof/Machine/System.lean ====
section
/-! DEFINITION. The system commands (45_system_ops.md) and the reserved opcodes (30_encoding.md
R106): each its numbered steps in order, and its meaning. -/

namespace Sys2Proof.Machine

open Sys2Proof

/-- R261. -/
def initOps : List CmdOp :=
  [.initBlock, .initMaskAll, .initDisconnect, .initMasks, .initHolds, .initAddr] ++
    bringUpOrder.map CmdOp.bringUp ++ [.initAck, .initUnmask, .respondOk]

/-- INIT (R261). -/
def execInit (s : State) : Host.Outcome State Fault Refusal := runCommand .init initOps s

/-- R264. -/
def connectOps : List CmdOp := [.softDisconnect false, .respondOk]

/-- CONNECT (R264). -/
def execConnect (s : State) : Host.Outcome State Fault Refusal := runCommand .connect connectOps s

/-- R265. -/
def disconnectOps : List CmdOp := [.softDisconnect true, .busDisconnected, .respondOk]

/-- DISCONNECT (R265). -/
def execDisconnect (s : State) : Host.Outcome State Fault Refusal :=
  runCommand .disconnect disconnectOps s

/-- R267. -/
def setAddressOps (a : BitVec 7) : List CmdOp := [.setAddr a, .respondOk]

/-- SET_ADDRESS (R267). -/
def execSetAddress (a : BitVec 7) (s : State) : Host.Outcome State Fault Refusal :=
  runCommand (.setAddress a) (setAddressOps a) s

/-- R269. -/
def remoteWakeupOps : List CmdOp := [.respondOk]

/-- REMOTE_WAKEUP (R269): no effect but the response. -/
def execRemoteWakeup (s : State) : Host.Outcome State Fault Refusal :=
  runCommand .remoteWakeup remoteWakeupOps s

/-- R270. -/
def irqEnableOps : List CmdOp := [.setIrqEn true, .respondOk]

/-- IRQ_ENABLE (R270). -/
def execIrqEnable (s : State) : Host.Outcome State Fault Refusal :=
  runCommand .irqEnable irqEnableOps s

/-- R271. -/
def irqDisableOps : List CmdOp := [.setIrqEn false, .respondOk]

/-- IRQ_DISABLE (R271). -/
def execIrqDisable (s : State) : Host.Outcome State Fault Refusal :=
  runCommand .irqDisable irqDisableOps s

/-- R272. -/
def irqEntryOps : List CmdOp := [.runDispatcher, .respondOk]

/-- IRQ_ENTRY (R272): one dispatcher run, whatever IRQ_EN is. -/
def execIrqEntry (s : State) : Host.Outcome State Fault Refusal :=
  runCommand .irqEntry irqEntryOps s

/-- A word that is no command (30_encoding.md R105): Fault(ILLEGAL_COMMAND) before any step. -/
def illegalCommand (s : State) : Host.Outcome State Fault Refusal :=
  if s.accepts then .next (s.raiseFault .illegalCommand) else .next s

/-- Opcode 0xE (R106), whatever its other bits. -/
def execReservedE (_high : Word) (_low : BitVec 28) (s : State) : Host.Outcome State Fault Refusal :=
  illegalCommand s

/-- Opcode 0xF (R106), whatever its other bits. -/
def execReservedF (_high : Word) (_low : BitVec 28) (s : State) : Host.Outcome State Fault Refusal :=
  illegalCommand s

end Sys2Proof.Machine
end

