-- ==== Sys2Proof/Machine/Dispatch.lean ====
section
/-! DEFINITION. What each command does: one arm per constructor. -/

namespace Sys2Proof.Machine

open Sys2Proof

def exec (i : Instr) (s : State) : Host.Outcome State Fault Refusal :=
  match i with
  | .init => Sys2Proof.Machine.execInit s
  | .connect => Sys2Proof.Machine.execConnect s
  | .disconnect => Sys2Proof.Machine.execDisconnect s
  | .setAddress a => Sys2Proof.Machine.execSetAddress a s
  | .remoteWakeup => Sys2Proof.Machine.execRemoteWakeup s
  | .irqEnable => Sys2Proof.Machine.execIrqEnable s
  | .irqDisable => Sys2Proof.Machine.execIrqDisable s
  | .irqEntry => Sys2Proof.Machine.execIrqEntry s
  | .openEp n d ty mps => Sys2Proof.Machine.execOpen n d ty mps s
  | .closeEp n d => Sys2Proof.Machine.execClose n d s
  | .xfer n d buffer length => Sys2Proof.Machine.execXfer n d buffer length s
  | .stall n d => Sys2Proof.Machine.execStall n d s
  | .clearStall n d => Sys2Proof.Machine.execClearStall n d s
  | .cfgAlloc table count => Sys2Proof.Machine.execCfgAlloc table count s
  | .reservedE high low => Sys2Proof.Machine.execReservedE high low s
  | .reservedF high low => Sys2Proof.Machine.execReservedF high low s

end Sys2Proof.Machine
end

