-- ==== Sys2Proof/Machine/Environment.lean ====
section
/-! DEFINITION. The environment's moves (46_environment.md R280 to R299) and power-on
(70_reset_and_hazards.md R340). A move the contract does not allow leaves the state as it is (A4). -/

namespace Sys2Proof.Machine

open Sys2Proof

/-! ## Helpers -/

/-- Free words of the receive FIFO (R295: RXQ never holds more than P.RXF_DEPTH words). -/
def rxFree (p : Pi) : Nat := p.rxfDepth - p.rxq.length

/-- Push a whole RXQ entry in one move (R280). -/
def rxPush (ws : List Word) (p : Pi) : Pi := { p with rxq := p.rxq ++ ws }

/-- The data words of a packet: the bytes little-endian, the unused high bytes of the last word
taken from `fill` (R285, 93_implementation_defined.md U17). -/
def packetWords (bytes fill : List Byte) : List Word :=
  packWords (bytes ++ fill.take ((4 - bytes.length % 4) % 4))

/-- Change `P.x[n]` and, with it, nothing else. -/
def setEpIf (s : State) (n : EpNum) (d : Dir) (allowed : Bool) (r : EpRegs) : State :=
  if allowed then s.setEp n d r else s

/-- Whether endpoint n exists (00_scope.md R6). -/
def epExists (s : State) (n : EpNum) : Bool := decide (n.val < s.cfg.maxEndpoints)

/-! ## Bus events (R281) -/

/-- What a USB reset may do to one endpoint and direction. -/
def usbResetEp (ep0Active clearActive clearEna clearDpid : Bool) (n : EpNum) (r : EpRegs) : EpRegs :=
  { r with
    active := if n = 0 then r.active || ep0Active else r.active && !clearActive
    ena := r.ena && !clearEna
    disreq := r.disreq && !clearEna
    dpid := if clearDpid then .data0 else r.dpid }

/-- A USB reset, while the device is connected (R281, R296, R297). An OUT_DONE still owed by a transfer
whose ENA it clears is not pushed any more (A34). A setup stage left open stays open or, with
`endSetup`, ends without SETUP_DONE (A33). -/
def envUsbReset (ep0Active clearActive clearEna clearDpid emptyTx endSetup : Bool) (s : State) :
    State :=
  if s.pi.softdisc then s
  else
    let m := s.cfg.maxEndpoints
    let f := usbResetEp ep0Active clearActive clearEna clearDpid
    { s with
      pi := { s.pi with
        gint := { s.pi.gint with reset := true }
        ep := ⟨Bank.mapBelow m f s.pi.ep.out, Bank.mapBelow m f s.pi.ep.inn⟩
        txq := if emptyTx then Bank.mapBelow m (fun _ _ => TxFifo.empty) s.pi.txq else s.pi.txq }
      env := { s.env with
        link := .resetSeen
        setupSeen := if endSetup then 0 else s.env.setupSeen
        ending := if clearEna then Bank.mapBelow m (fun _ _ => false) s.env.ending
                  else s.env.ending } }

/-- P.SPEED takes a value: a draw before the first USB reset (R46, A30), the negotiated speed between
a USB reset and the end of enumeration; fixed afterwards (R281). -/
def envSetSpeed (v : Speed) (s : State) : State :=
  let s1 := { s with pi := { s.pi with speed := v } }
  match s.env.link with
  | .untouched => s1
  | .resetSeen => { s1 with env := { s.env with link := .speedKnown } }
  | .speedKnown => s1
  | .enumerated => s

/-- ENUMDONE, once the speed is known (R281). -/
def envEnumDone (s : State) : State :=
  match s.env.link with
  | .untouched => s
  | .resetSeen => s
  | .speedKnown =>
      { s with
        pi := { s.pi with gint := { s.pi.gint with enumDone := true } }
        env := { s.env with link := .enumerated } }
  | .enumerated => s

/-! ## SETUP reception (R283, R284) -/

/-- A SETUP packet on endpoint 0: SETUPCNT goes down, both STALL bits of endpoint 0 clear. At most three
come before one SETUP_DONE. The status word's dpid is 0 (A31). -/
def envSetupPacket (w0 w1 : Word) (s : State) : State :=
  if s.pi.softdisc || s.pi.setupcnt == 0 || decide (rxFree s.pi < 3) || decide (3 ≤ s.env.setupSeen)
  then s
  else
    let s1 := s.setEp 0 .out { s.epAt 0 .out with stall := false }
    let s2 := s1.setEp 0 .inn { s1.epAt 0 .inn with stall := false }
    { s2 with
      pi := { rxPush [statusWord 0 8 0 6, w0, w1] s2.pi with setupcnt := s.pi.setupcnt - 1 }
      env := { s.env with setupSeen := s.env.setupSeen + 1 } }

/-- The end of the setup stage: one SETUP_DONE entry (R283), while the device is connected (R297), at
most one for each arming of SETUPCNT (R295). The status word's dpid is 0 (A31). -/
def envSetupOver (s : State) : State :=
  if decide (0 < s.env.setupSeen) && !s.env.setupSent && !s.pi.softdisc && decide (1 ≤ rxFree s.pi)
  then
    { s with
      pi := rxPush [statusWord 0 0 0 4] s.pi
      env := { s.env with setupSeen := 0, setupSent := true } }
  else s

/-! ## OUT data (R285, R286) -/

/-- Whether the environment may accept an OUT packet of `bc` bytes on endpoint n (R285, R291, and
45_system_ops.md R265: A38). -/
def outAllowed (s : State) (n : EpNum) (bc : Nat) : Bool :=
  let r := s.epAt n .out
  epExists s n && !s.pi.softdisc && !s.parkedAt n .out && !s.env.ending[n] && r.ena && !r.nak && !r.stall &&
    decide (0 < r.pktcnt) && decide (bc ≤ r.mps) && decide (bc ≤ r.xfrsiz) &&
    decide (1 + wordsFor bc ≤ rxFree s.pi)

/-- An OUT data packet (R285); a short packet or the last one ends the transfer (R286). -/
def envOutPacket (n : EpNum) (bytes : List Byte) (dpid : BitVec 2) (fill : List Byte) (s : State) :
    State :=
  let bc := bytes.length
  if outAllowed s n bc then
    let r := s.epAt n .out
    let s1 := s.setEp n .out { r with pktcnt := r.pktcnt - 1, xfrsiz := r.xfrsiz - bc }
    { s1 with
      pi := rxPush (statusWord n bc dpid 2 :: packetWords bytes fill) s1.pi
      env := { s.env with
        ending := s.env.ending.set n (decide (bc < r.mps) || r.pktcnt - 1 == 0) } }
  else s

/-- The OUT_DONE entry of an ended transfer; the endpoint is no longer enabled and answers NAK
(R286). The status word's dpid is 0 (A31). A transfer in flight at
DISCONNECT gets none (45_system_ops.md R265, A38). -/
def envOutEnd (n : EpNum) (s : State) : State :=
  if s.env.ending[n] && !s.parkedAt n .out && decide (1 ≤ rxFree s.pi) then
    let s1 := s.setEp n .out { s.epAt n .out with ena := false, nak := true }
    let k := s.env.lateEntries[n]
    { s1 with
      pi := rxPush [statusWord n 0 0 3] s1.pi
      env := { s.env with
        ending := s.env.ending.set n false
        lateEntries := s.env.lateEntries.set n (if s.env.armed.out[n] then k else k + 1) } }
  else s

/-! ## IN transmission (R289) -/

/-- Whether a packet can be sent on IN endpoint n: a complete packet is at the front, or the
transfer was armed with byte count 0 (R289, R291, and 45_system_ops.md R265: A38). -/
def sendAllowed (s : State) (n : EpNum) : Bool :=
  let r := s.epAt n .inn
  epExists s n && !s.pi.softdisc && !s.parkedAt n .inn && r.ena && !r.nak && !r.stall &&
    decide (0 < r.pktcnt) && (!s.pi.txq[n].packets.isEmpty || s.env.armedZero[n])

/-- Send one packet; the last one completes the transfer (R289). -/
def envSendIn (n : EpNum) (s : State) : State :=
  if sendAllowed s n then
    let r := s.epAt n .inn
    let q := s.pi.txq[n]
    let r1 := { r with pktcnt := r.pktcnt - 1 }
    let s1 :=
      if r1.pktcnt = 0 ∧ r1.xfrsiz = 0 then
        (s.setEp n .inn { r1 with ena := false, nak := true }).signalDone n .inn !s.env.armed.inn[n]
      else s.setEp n .inn r1
    { s1 with
      pi := { s1.pi with txq := s1.pi.txq.set n ⟨q.packets.tail, q.open_⟩ }
      env := { s1.env with armedZero := s1.env.armedZero.set n false } }
  else s

/-! ## STALL's confirmations (R292 to R294) -/

/-- The GLOBAL_OUT_NAK form of a confirmation: the entry is pushed first. At most one such entry is
outstanding, its endpoint number and dpid 0 (A29, A31). -/
def envGlobalOutNak (n : EpNum) (s : State) : State :=
  if s.env.nakReq.out[n] = .asked ∧ ¬ .queued ∈ s.env.nakReq.out.toList ∧ 1 ≤ rxFree s.pi then
    { s with
      pi := rxPush [statusWord 0 0 0 1] s.pi
      env := { s.env with nakReq := s.env.nakReq.set .out (s.env.nakReq.out.set n .queued) } }
  else s

/-- The confirmation of a forced NAK (R292). An endpoint armed again since the NAK was forced keeps moving
packets, its NAK being 0 (R287, A40). -/
def envNakEffective (n : EpNum) (d : Dir) (s : State) : State :=
  let q := (s.env.nakReq.get d)[n]
  if q = .asked ∨ q = .popped then
    let s1 := s.setEp n d { s.epAt n d with nakEff := true }
    { s1 with env := { s.env with nakReq := s.env.nakReq.set d ((s.env.nakReq.get d).set n .none) } }
  else s

/-- Flush completion (R293) of the queue P.FLUSH.NUM names. Of the flushes that a later write of NUM
overtook, `also` draws which empty their queues with it (A35). -/
def envFlushDone (also : List EpNum) (s : State) : State :=
  if s.pi.flushBusy then
    let flushed (n : EpNum) : Bool := n == s.pi.flushNum || s.env.flushOld[n] && also.contains n
    { s with
      pi := { s.pi with
        txq := Bank.mapBelow 16 (fun n q => if flushed n then TxFifo.empty else q) s.pi.txq
        flushBusy := false }
      env := { s.env with flushOld := Bank.all false } }
  else s

/-- A transfer of (n, d) is still to be cut off: ENA is 1 and the transfer has not ended, which an OUT
transfer with its OUT_DONE entry owed has (R286; A36). -/
def canCutOff (s : State) (n : EpNum) (d : Dir) : Bool :=
  (s.epAt n d).ena &&
    (match d with
     | .out => !s.env.ending[n]
     | .inn => true)

/-- Disable completion (R294); `complete` is the drawn XFERDONE, for the transfer it cut off, if there
is one: a transfer that has ended completes by its own OUT_DONE entry and by nothing else (R286, A36).
The transfer cut off was cancelled by the STALL that asked for the disable (A8). -/
def envDisableDone (n : EpNum) (d : Dir) (complete : Bool) (s : State) : State :=
  let r := s.epAt n d
  let s1 := setEpIf s n d r.disreq { r with ena := false, disreq := false }
  if r.disreq && canCutOff s n d && complete then s1.signalDone n d true else s1

/-! ## A broken contract (R298; A25) -/

/-- Whether a status word and what follows it is an entry R298 says is never pushed: an unknown code, an
endpoint that does not exist, or fewer or more data words than `words(bcnt)`. -/
def breaksR298 (maxEndpoints : Nat) : List Word → Bool
  | [] => false
  | w :: data =>
      decide (maxEndpoints ≤ (statusEp w).val) ||
        (match rxClass (statusCode w) with
         | .unrecognised => true
         | .outData => data.length != wordsFor (statusCount w)
         | .setupData => data.length != wordsFor (statusCount w)
         | .globalOutNak => data.length != 0
         | .outDone => data.length != 0
         | .setupDone => data.length != 0)

/-- Push such an entry, if RXQ has room for it (R295). -/
def envBreak (ws : List Word) (s : State) : State :=
  if breaksR298 s.cfg.maxEndpoints ws && decide (ws.length ≤ rxFree s.pi) then
    { s with pi := rxPush ws s.pi }
  else s

/-! ## One move -/

/-- One move of the environment (R280). -/
def envMove (m : EnvMove) (s : State) : State :=
  match m with
  | .usbReset a b c d e f => envUsbReset a b c d e f s
  | .setSpeed v => envSetSpeed v s
  | .enumDone => envEnumDone s
  | .suspend => { s with pi := { s.pi with gint := { s.pi.gint with suspend := true } } }
  | .resume => { s with pi := { s.pi with gint := { s.pi.gint with resume := true } } }
  | .sessionEnd => { s with pi := { s.pi with gint := { s.pi.gint with disconnect := true } } }
  | .setupPacket w0 w1 => envSetupPacket w0 w1 s
  | .setupOver => envSetupOver s
  | .outPacket n bytes dpid fill => envOutPacket n bytes dpid fill s
  | .outEnd n => envOutEnd n s
  | .sendIn n => envSendIn n s
  | .globalOutNak n => envGlobalOutNak n s
  | .nakEffective n d => envNakEffective n d s
  | .flushDone also => envFlushDone also s
  | .disableDone n d complete => envDisableDone n d complete s
  | .dataToggle n d v => setEpIf s n d (epExists s n) { s.epAt n d with dpid := v }
  | .clock hz => { s with pi := { s.pi with clkHz := hz } }
  | .breakContract ws => envBreak ws s

/-! ## Power -/

/-- One endpoint's quantities cut to the widths of their fields (00_scope.md R14). -/
def EpRegs.cut (r : EpRegs) : EpRegs :=
  { r with mps := r.mps % 2 ^ 11, pktcnt := r.pktcnt % 2 ^ 10, xfrsiz := r.xfrsiz % 2 ^ 19 }

/-- FIFO registers cut to the width of their fields (00_scope.md R14). -/
def TxfRegs.cut (r : TxfRegs) : TxfRegs := ⟨r.start % 2 ^ 16, r.depth % 2 ^ 16⟩

/-- The peripheral's fields at power-on: drawn, each a value its field can hold (00_scope.md R14, 10_state.md
R54), but for empty queues and an idle flush (R64). -/
def Pi.atPowerOn (p : Pi) : Pi :=
  { p with
    rxfDepth := p.rxfDepth % 2 ^ 16
    txf := Bank.each TxfRegs.cut p.txf
    ep := ⟨Bank.each EpRegs.cut p.ep.out, Bank.each EpRegs.cut p.ep.inn⟩
    setupcnt := p.setupcnt % 4
    rxq := []
    txq := Bank.all TxFifo.empty
    flushBusy := false }

/-- Power-on reset: the block's state takes R63's values, the peripheral's fields are `p`'s; the
configuration, buffer memory (not the block's) and the schedule stay (70_reset_and_hazards.md R340). -/
def State.powerOn (s : State) (p : Pi) : State :=
  { State.reset with cfg := s.cfg, pi := p.atPowerOn, mem := s.mem, turns := s.turns }

end Sys2Proof.Machine
end

