-- ==== Sys2Proof/Machine/Schedule.lean ====
section
/-! DEFINITION. One step of the machine: the numbered steps of the two contexts, when the interrupt
context is entered (60_exceptions.md R320 to R325), the command port (30_encoding.md R110), and whose
move it is (A4). -/

namespace Sys2Proof.Machine

open Sys2Proof

/-! ## The caller context, one numbered step at a time -/

/-- The numbered steps of a command; a reserved opcode has none (its fault comes before any step). -/
def opsOf (maxEndpoints : Nat) (i : Instr) : List CmdOp :=
  match i with
  | .init => initOps
  | .connect => connectOps
  | .disconnect => disconnectOps
  | .setAddress a => setAddressOps a
  | .remoteWakeup => remoteWakeupOps
  | .irqEnable => irqEnableOps
  | .irqDisable => irqDisableOps
  | .irqEntry => irqEntryOps
  | .openEp n d ty mps => openOps n d ty mps
  | .closeEp n d => closeOps n d
  | .xfer n d buffer length => xferOps n d buffer length
  | .stall n d => stallOps n d
  | .clearStall n d => clearStallOps n d
  | .cfgAlloc table count => cfgAllocOps maxEndpoints table count
  | .reservedE _ _ => []
  | .reservedF _ _ => []

/-- Acceptance alone: CTX becomes CMD(c, 1) (30_encoding.md R110). -/
def acceptCommand (i : Instr) (s : State) : State :=
  match opsOf s.cfg.maxEndpoints i with
  | [] => s.raiseFault .illegalCommand
  | op :: ops => { s with ctx := .cmd ⟨i, op :: ops, {}⟩ }

/-- The command at CMD(c, k) takes step k. -/
def cmdMicro (p : CmdPos) (s : State) : Host.Outcome State Fault Refusal :=
  match p.todo with
  | [] => .next { s with ctx := .idle }
  | op :: rest =>
      match cmdStep op p.locals s with
      | .go l s1 => .next { s1 with ctx := .cmd { p with todo := rest, locals := l } }
      | .hold l s1 => .next { s1 with ctx := .cmd { p with locals := l } }
      | .respond r s1 => .next (s1.respond r)
      | .raise f s1 => .next (s1.raiseFault f)
      | .refuse r => .refused r
      | .enter s1 => .next (s1.enterRun (some { p with todo := rest }))

/-! ## The interrupt context, one numbered step at a time -/

/-- A run takes its next step: the latch, a step of a handler, or the return (44_dispatcher.md R221). -/
def irqMicro (p : IrqPos) (ret : Option CmdPos) (s : State) : State :=
  match p with
  | .entry =>
      { s with ctx := .irq (.steps (dispatchOps s.pending s.cfg.maxEndpoints) {}) ret }
  | .steps [] _ => s.leaveRun ret
  | .steps (op :: rest) l =>
      match irqStep op l s with
      | .go l1 s1 => { s1 with ctx := .irq (.steps rest l1) ret }
      | .again l1 s1 => { s1 with ctx := .irq (.steps (op :: rest) l1) ret }
      | .bad c s1 => s1.raiseFault c

/-- The control state is one a run may interrupt: IDLE, or with CMD_PREEMPTIBLE a command other than
IRQ_ENTRY (60_exceptions.md R320, R322, R325). -/
def interruptible (s : State) : Bool :=
  match s.ctx with
  | .idle => true
  | .cmd p => s.cfg.cmdPreemptible && decide (p.cmd ≠ .irqEntry)
  | .irq _ _ => false

/-- The entry condition (R320 a). -/
def canEnterRun (s : State) : Bool :=
  !s.halted && s.irqEn && s.irqLine && interruptible s

/-- The control state as a return address (R321). -/
def retOf : Ctx → Option CmdPos
  | .idle => none
  | .cmd p => some p
  | .irq _ ret => ret

/-- A run starts, if it may (R320, R321). -/
def startRun (s : State) : State :=
  if canEnterRun s then s.enterRun (retOf s.ctx) else s

/-- A run starts and goes to its return with nothing in between, if it may start. -/
def runInterrupt (s : State) : State :=
  if canEnterRun s then
    match dispatchRun { s with irqDue := false } with
    | .done s1 => s1
    | .held todo l s1 => { s1 with ctx := .irq (.steps todo l) (retOf s.ctx) }
    | .bad c todo l s1 => { s1 with ctx := .irq (.steps todo l) (retOf s.ctx) }.raiseFault c
  else s

/-! ## The command port -/

/-- IRQ_ENABLE found P.irq already 1: the run starts before the next command is accepted
(45_system_ops.md R270; A15). -/
def runOwed (s : State) : Bool := s.irqDue && canEnterRun s

/-- An idle block takes the oldest presented command: `run` says what becomes of a command that
decodes; a word that does not is illegal (30_encoding.md R105). -/
def takeCommand (run : Instr → State → Host.Outcome State Fault Refusal) (s : State) :
    Host.Outcome State Fault Refusal :=
  match s.port with
  | [] => .next s
  | w :: ws =>
      if s.accepts then
        match decode w with
        | some i => run i { s with port := ws }
        | none => illegalCommand { s with port := ws }
      else .next s

/-- One numbered step of the context that holds the block; an idle block accepts a command. -/
def blockMove (s : State) : Host.Outcome State Fault Refusal :=
  if s.halted then .next s
  else
    match s.ctx with
    | .idle => if runOwed s then .next (startRun s) else takeCommand (fun i t => .next (acceptCommand i t)) s
    | .cmd p => cmdMicro p s
    | .irq p ret => .next (irqMicro p ret s)

/-! ## Whose move it is -/

/-- The agent whose turn it is moves, or lets the turn pass if it cannot (A4). -/
def takeTurn (t : Turn) (s : State) : Host.Outcome State Fault Refusal :=
  match t with
  | .block => blockMove s
  | .command =>
      if runOwed s then .next (startRun { s with turns := .command :: s.turns }) else takeCommand exec s
  | .irq => .next (startRun s)
  | .irqRun => .next (runInterrupt s)
  | .env m => .next (envMove m s)
  | .present w => .next { s with port := s.port ++ [w] }
  | .store a v => .next { s with mem := memWrite s.mem a v }
  | .consume => .next { s with events := s.events.tail }
  | .powerOn p => .next (s.powerOn p)

/-- The command waits for another agent: its step holds, and nothing counts the evaluations
(41_endpoint_ops.md R186). -/
def waitsForOthers (p : CmdPos) (s : State) : Bool :=
  match p.todo with
  | [] => false
  | op :: _ =>
      match cmdStep op p.locals s with
      | .hold l _ => decide (l = p.locals)
      | .go _ _ => false
      | .respond _ _ => false
      | .raise _ _ => false
      | .enter _ => false
      | .refuse _ => false

/-- When nobody is offered a move the block moves by itself: a run that is owed, the step of the
context that holds it, a presented command run whole, a run that may start, in place of a wait that
holds too, so that it starts at last while it may (60_exceptions.md R320); else it waits. A halted
block has stopped (R301). -/
def moveAlone (s : State) : Host.Outcome State Fault Refusal :=
  if s.halted then .fault (.halted s.faultCause)
  else
    match s.ctx with
    | .idle =>
        if runOwed s then .next (startRun s)
        else if s.port.isEmpty then .next (startRun s)
        else takeCommand exec s
    | .cmd p => if waitsForOthers p s && canEnterRun s then .next (startRun s) else cmdMicro p s
    | .irq p ret => .next (irqMicro p ret s)

/-- One move of the machine. -/
def nextMove (s : State) : Host.Outcome State Fault Refusal :=
  match s.turns with
  | [] => moveAlone s
  | t :: ts => takeTurn t { s with turns := ts }

/-- Place a command where the next step takes it: the port's oldest word, with the turn to run it, in
an idle block that is not halted and owes no run (A22). -/
def placeCommand (s : State) (w : CmdWord) : State :=
  { s with
    ctx := .idle
    halted := false
    irqDue := false
    port := w :: s.port
    turns := .command :: s.turns }

end Sys2Proof.Machine
end

