-- ==== Sys2Proof/Machine/Step.lean ====
section
/-! DEFINITION. The step of the machine, and placing a command where the next step runs it. -/

namespace Sys2Proof.Machine

open Sys2Proof

/-- One step of the machine. -/
def step (s : State) : Host.Outcome State Fault Refusal := nextMove s

/-- The state with the command word `w` placed so that the next step runs exactly it (A22). A
command is 64 bits whatever `nbits` the table gives (30_encoding.md R100). -/
def State.withFetchWord (s : State) (_nbits w : Nat) : State := placeCommand s (BitVec.ofNat 64 w)

end Sys2Proof.Machine
end

