-- ==== Sys2Proof/Safety.lean ====
section
/-! DEFINITION. What the claims about the machine say: when two states agree, the layout and width
invariants of the spec, the bytes a step may store, and runs of numbered steps. -/

namespace Sys2Proof.Machine

open Sys2Proof

/-! ## When two states agree -/

/-- The state with the model's own bookkeeping (A8, A12, A15) put to its reset value: what is left is
what the spec gives the machine. -/
def State.spec (s : State) : State :=
  { s with inFlight := Both.same (Bank.all false), irqDue := false, env := EnvMem.reset }

/-- Two states are equal in everything the spec names. -/
def SpecEq (s t : State) : Prop := s.spec = t.spec

/-- The state with BUS_STATE put to its reset value. -/
def State.forgetBus (s : State) : State := { s with busState := .disconnected }

/-- An outcome seen without BUS_STATE. -/
def forgetBusOutcome : Host.Outcome State Fault Refusal → Host.Outcome State Fault Refusal
  | .next s => .next s.forgetBus
  | .fault r => .fault r
  | .refused r => .refused r

/-- The block's own state but EVENTS (10_state.md R21 to R35, R37) is the same. -/
structure SameBlock (s t : State) : Prop where
  xfer : t.xfer = s.xfer
  ep0Pending : t.ep0Pending = s.ep0Pending
  allocWords : t.allocWords = s.allocWords
  txfValid : t.txfValid = s.txfValid
  setupBuf : t.setupBuf0 = s.setupBuf0 ∧ t.setupBuf1 = s.setupBuf1
  busState : t.busState = s.busState
  irqEn : t.irqEn = s.irqEn
  halted : t.halted = s.halted ∧ t.faultCause = s.faultCause
  ctx : t.ctx = s.ctx
  resp : t.resp = s.resp

/-- The peripheral fields only the block writes (owner B in 10_state.md R42 to R57) are the same. -/
structure SameOwned (p q : Pi) : Prop where
  gmsk : q.gmsk = p.gmsk
  epintMsk : q.epintMsk = p.epintMsk
  srcMsk : q.oepSrcMsk = p.oepSrcMsk ∧ q.iepSrcMsk = p.iepSrcMsk
  txeMsk : q.txeMsk = p.txeMsk
  turnaround : q.turnaround = p.turnaround
  devaddr : q.devaddr = p.devaddr
  softdisc : q.softdisc = p.softdisc
  rxfDepth : q.rxfDepth = p.rxfDepth
  txf : q.txf = p.txf
  flushNum : q.flushNum = p.flushNum
  txfnum : q.txfnum = p.txfnum
  ty : ∀ n d, (q.epAt n d).ty = (p.epAt n d).ty
  mps : ∀ n d, (q.epAt n d).mps = (p.epAt n d).mps

/-- The fault cause is recorded exactly while the block is halted (10_state.md R34). -/
def FaultRecorded (s : State) : Prop := s.halted = true ↔ s.faultCause ≠ .noFault

/-- No source. -/
def GlobalBits.none : GlobalBits := ⟨false, false, false, false, false, false, false, false⟩

/-! ## The FIFO layout (10_state.md R29) -/

/-- Word `w` of FIFO RAM belongs to the transmit FIFO of endpoint n. -/
def State.inTxFifo (s : State) (n : EpNum) (w : Nat) : Prop :=
  n.val < s.cfg.maxEndpoints ∧ s.txfValid[n] = true ∧
    s.pi.txf[n].start ≤ w ∧ w < s.pi.txf[n].start + s.pi.txf[n].depth

/-- The layout invariant: the receive FIFO lowest, all FIFOs disjoint, their union exactly the words
below ALLOC_WORDS, which never pass the capacity. -/
structure LayoutOk (s : State) : Prop where
  capacity : s.allocWords ≤ s.cfg.fifoCapacityWords
  covered : ∀ w, w < s.allocWords ↔ w < s.pi.rxfDepth ∨ ∃ n, s.inTxFifo n w
  rxLowest : ∀ n w, s.inTxFifo n w → s.pi.rxfDepth ≤ w
  disjoint : ∀ m n w, s.inTxFifo m w → s.inTxFifo n w → m = n

/-! ## Widths (00_scope.md R14, 41_endpoint_ops.md R199) -/

/-- Every quantity kept as a number fits the width the spec gives its field. -/
structure Fits (s : State) : Prop where
  totalLen : ∀ n d, (s.recAt n d).totalLen < 2 ^ 16
  maxSize : ∀ n d, (s.recAt n d).maxSize ≤ 1024
  pending : ∀ d, s.ep0Pending.get d < 2 ^ 16
  allocWords : s.allocWords < 2 ^ 16
  rxfDepth : s.pi.rxfDepth < 2 ^ 16
  txf : ∀ n : EpNum, s.pi.txf[n].start < 2 ^ 16 ∧ s.pi.txf[n].depth < 2 ^ 16
  pktcnt : ∀ n d, (s.epAt n d).pktcnt < 2 ^ 10
  xfrsiz : ∀ n d, (s.epAt n d).xfrsiz < 2 ^ 19
  mps : ∀ n d, (s.epAt n d).mps < 2 ^ 11
  setupcnt : s.pi.setupcnt < 4

/-! ## The bytes a step stores -/

/-- Address `a` is one of the `len` bytes from `base` up, addresses modulo 2^32 (20_memory.md R73). -/
def inBytes (base : Word) (len : Nat) (a : Word) : Prop := (a - base).toNat < len

/-- What the next drain iteration stores (44_dispatcher.md R233): the cursor of the endpoint its
status word names and the byte count, for an OUT_DATA entry; nothing otherwise. -/
def drainStore (s : State) : Word × Nat :=
  match s.pi.rxq with
  | [] => (0, 0)
  | sw :: _ =>
      match rxClass (statusCode sw) with
      | .outData => ((s.recAt (statusEp sw) .out).buffer, statusCount sw)
      | .globalOutNak => (0, 0)
      | .outDone => (0, 0)
      | .setupDone => (0, 0)
      | .setupData => (0, 0)
      | .unrecognised => (0, 0)

/-- The state an action leaves, faulting or not. -/
def Act.state : Act → State
  | .ok s => s
  | .bad _ s => s

/-- The state a numbered step of a run leaves, faulting or not. -/
def IrqRes.state : IrqRes → State
  | .go _ s => s
  | .again _ s => s
  | .bad _ s => s

/-- The words a transmit FIFO holds, oldest first. -/
def TxFifo.content (q : TxFifo) : List Word :=
  q.packets.flatMap (fun p => p.words) ++ q.open_

/-- Where the transmit FIFO of endpoint n starts in the layout of a demand table (40_fifo_allocator.md
R158): the FIFOs of the present IN endpoints lie in ascending order above endpoint 0's. -/
def txStart (c : Config) (t : List DemandEntry) (n : EpNum) : Nat :=
  planRx c t + c.ep0TxWords +
    (((presentIn c t).filter (fun m => decide (m < n))).map (depthIn c t)).sum

/-- ALLOC_WORDS after the commit of a demand table (40_fifo_allocator.md R158). -/
def txEnd (c : Config) (t : List DemandEntry) : Nat :=
  planRx c t + c.ep0TxWords + ((presentIn c t).map (depthIn c t)).sum

/-- The fault causes a command can raise (60_exceptions.md R303); OUT_OF_CONTRACT is no behaviour of
the hardware and only the dispatcher meets it (R302). -/
def causesOf : Instr → List FaultCause
  | .init => [.fifoOverflow]
  | .connect => []
  | .disconnect => []
  | .setAddress _ => []
  | .remoteWakeup => []
  | .irqEnable => []
  | .irqDisable => []
  | .irqEntry => [.invalidEndpoint, .unknownRxStatus, .fifoOverflow, .outOfContract]
  | .openEp _ _ _ _ => [.invalidEndpoint, .packetSize, .fifoOverflow]
  | .closeEp _ _ => [.invalidEndpoint]
  | .xfer _ _ _ _ => [.invalidEndpoint, .endpointNotOpen, .xferTooLarge]
  | .stall _ _ => [.invalidEndpoint]
  | .clearStall _ _ => [.invalidEndpoint]
  | .cfgAlloc _ _ => [.invalidEndpoint]
  | .reservedE _ _ => [.illegalCommand]
  | .reservedF _ _ => [.illegalCommand]

/-! ## Runs of numbered steps -/

/-- `k` moves of the block alone, stopping at the first fault or refusal. -/
def blockMoves : Nat → State → Host.Outcome State Fault Refusal
  | 0, s => .next s
  | k + 1, s =>
      match blockMove s with
      | .next t => blockMoves k t
      | .fault r => .fault r
      | .refused r => .refused r

/-- `k` single-packet schedules of endpoint 0 (42_ep0_mux.md R201). -/
def ep0Schedules : Nat → Dir → State → State
  | 0, _, s => s
  | k + 1, d, s => ep0Schedules k d (ep0Schedule s d)

/-- Receive-queue entries of SETUP packets, each a status word and two data words (44_dispatcher.md
R236). -/
def setupEntries : List (Word × Word × Word) → List Word
  | [] => []
  | (sw, w0, w1) :: rest => sw :: w0 :: w1 :: setupEntries rest

/-- BUS_STATE after a command other than IRQ_ENTRY that ended with response `r` (44_dispatcher.md
R250). -/
def busAfter (i : Instr) (b : BusState) (r : Resp) : BusState :=
  match i with
  | .init => .disconnected
  | .disconnect => .disconnected
  | .openEp n _ _ _ => if n ≠ 0 ∧ b = .enumerating then .active else b
  | .cfgAlloc _ _ => if r = .ok ∧ b = .enumerating then .active else b
  | .connect => b
  | .setAddress _ => b
  | .remoteWakeup => b
  | .irqEnable => b
  | .irqDisable => b
  | .irqEntry => b
  | .closeEp _ _ => b
  | .xfer _ _ _ _ => b
  | .stall _ _ => b
  | .clearStall _ _ => b
  | .reservedE _ _ => b
  | .reservedF _ _ => b

/-- The block can take a command, and the endpoint exists. -/
def State.ready (s : State) (n : EpNum) : Prop :=
  s.accepts = true ∧ n.val < s.cfg.maxEndpoints

end Sys2Proof.Machine
end

