-- ==== Sys2Proof/Certificates/Slice0/Obligations.lean ====
section
/-! DEFINITION. The statements about the machine, for the provers. `OBLIGATIONS.json` lists them with
the rules of spec/ they formalise. -/

section Obligations

open Sys2Proof Sys2Proof.Machine

/-! ## Encoding -/

/-- Every well-formed command is decoded from its word, with every operand at every value. -/
def Obligations.DecodeEncode : Prop :=
  ∀ i : Instr, i.wellFormed = true → decode (encode i) = some i

/-- A word that decodes is the word of the command it decodes to, and that command is well-formed. -/
def Obligations.EncodeDecode : Prop :=
  ∀ (w : CmdWord) (i : Instr), decode w = some i → i.wellFormed = true ∧ encode i = w

/-- R105, R106. A word that spells none of the fourteen command rows decodes to no command, and a word
that spells one decodes to one; presented to an idle block, the former faults and nothing else
happens. The reserved opcodes fault so whatever their other bits. The model's choices in it: the port
and its turn (log entries 4, 22), the word taken from the port (14), CTX left IDLE (7). -/
def Obligations.StrictDecode : Prop :=
  (∀ (s : State) (h : Word) (l : BitVec 28), s.accepts = true →
    exec (.reservedE h l) s = .next { s with halted := true, faultCause := .illegalCommand } ∧
    exec (.reservedF h l) s = .next { s with halted := true, faultCause := .illegalCommand }) ∧
  ∀ w : CmdWord,
    ((∀ op : BitVec 4, op.toNat < 14 → (opcodeRow op).spells w = false) ↔
      (decode w = none ∨ (∃ h l, decode w = some (.reservedE h l)) ∨
        (∃ h l, decode w = some (.reservedF h l)))) ∧
    ((∀ op : BitVec 4, op.toNat < 14 → (opcodeRow op).spells w = false) →
      ∀ (s : State) (ws : List CmdWord) (ts : List Turn),
        s.turns = .command :: ts → s.port = w :: ws → s.accepts = true → runOwed s = false →
        step s = .next
          { s with turns := ts, port := ws, halted := true, faultCause := .illegalCommand })

/-- Words written out from R100 to R104 decode to the commands they stand for. -/
def Obligations.DecodedWords : Prop :=
  decode 0x0000000000000000 = some .init ∧
  decode 0x000000003000007F = some (.setAddress 127) ∧
  decode 0x0000000070000000 = some .irqEntry ∧
  decode 0x0000000089A003FF = some (.openEp 3 .inn .isochronous 1023) ∧
  decode 0x0000000098800000 = some (.closeEp 1 .inn) ∧
  decode 0xFFFFFFFEA8800006 = some (.xfer 1 .inn 0xFFFFFFFE 6) ∧
  decode 0x00000000B0800000 = some (.stall 1 .out) ∧
  decode 0x00000000C8800000 = some (.clearStall 1 .inn) ∧
  decode 0x20004000D0000004 = some (.cfgAlloc 0x20004000 4) ∧
  decode 0x0000000080C10040 = none ∧
  decode 0x20000000A0C00096 = none

/-- R116, R117. The words of the four kinds of event; and the fields of a receive status word, read from
the bits the layout gives them whatever the ignored bits hold. -/
def Obligations.EventAndStatusWords : Prop :=
  (∀ sp : Speed, eventWords (.busReset sp) = (match sp with | .full => 0 | .high => 1, 0, 0)) ∧
  (∀ k : Signal, eventWords (.busSignal k) =
    (match k with | .suspend => 0x40000000 | .resume => 0x40000001 | .unplugged => 0x40000002, 0, 0)) ∧
  (∀ w0 w1 : Word, eventWords (.setupReceived w0 w1) = (0x80000000, w0, w1)) ∧
  (∀ (n : EpNum) (d : Dir) (count : Nat), count < 2 ^ 16 →
    eventWords (.xferComplete n d count) =
      (BitVec.ofNat 32 (0xC0000000 + (match d with | .out => 0 | .inn => 1) * 2 ^ 27 +
        n.val * 2 ^ 23 + count), 0, 0)) ∧
  (∀ w : Word,
    (statusEp w).val = w.toNat % 2 ^ 4 ∧
    statusCount w = w.toNat / 2 ^ 4 % 2 ^ 11 ∧
    (statusCode w).toNat = w.toNat / 2 ^ 17 % 2 ^ 4)

/-! ## The step -/

/-- A turn of the command port runs the command the oldest word decodes to, with nothing around it but
the turn and the word taken; so does an idle block left to itself; and so does a command placed by
`withFetchWord`, in whatever state. The model's choices in it: the turns, and what an idle block does
when nobody is offered one (log entry 4), one step for a whole command (5), the port and the placing of
a command (22). -/
def Obligations.StepRunsCommand : Prop :=
  (∀ (s : State) (w : CmdWord) (ws : List CmdWord) (i : Instr),
    s.port = w :: ws → s.accepts = true → runOwed s = false → decode w = some i →
    (∀ ts, s.turns = .command :: ts → step s = exec i { s with turns := ts, port := ws }) ∧
    (s.turns = [] → step s = exec i { s with port := ws })) ∧
  (∀ (s : State) (nbits w : Nat) (i : Instr), decodeTableWord nbits w = some i →
    step (s.withFetchWord nbits w) =
      exec i { s with ctx := .idle, halted := false, irqDue := false })

/-- R110. A busy or halted block accepts no command: the command does nothing and the turn of the port
takes no word. Accepting a command puts an idle block at its first numbered step and changes nothing
else; a reserved opcode faults there. The model's choices in it: the turn that passes (log entry 4), and
of the reserved opcodes that they are commands without a step, whose word is taken from the port (14),
and that CTX stays IDLE (7). -/
def Obligations.Acceptance : Prop :=
  (∀ s : State, s.accepts = false →
    (∀ i : Instr, exec i s = .next s) ∧
    (∀ ts, s.turns = .command :: ts → runOwed s = false → step s = .next { s with turns := ts })) ∧
  (∀ (s : State) (w : CmdWord) (ws : List CmdWord) (ts : List Turn) (i : Instr),
    s.turns = .block :: ts → s.port = w :: ws → s.accepts = true → runOwed s = false →
    decode w = some i →
    (∀ op ops, opsOf s.cfg.maxEndpoints i = op :: ops →
      step s = .next { s with turns := ts, port := ws, ctx := .cmd ⟨i, op :: ops, {}⟩ }) ∧
    (opsOf s.cfg.maxEndpoints i = [] ↔
      (∃ h l, i = .reservedE h l) ∨ (∃ h l, i = .reservedF h l)) ∧
    (opsOf s.cfg.maxEndpoints i = [] →
      step s = .next
        { s with turns := ts, port := ws, halted := true, faultCause := .illegalCommand }))

/-- A command run whole (log entry 5) is its numbered steps, taken one at a time by the block alone. -/
def Obligations.CommandIsItsSteps : Prop :=
  ∀ (i : Instr) (s : State), s.accepts = true →
    (∀ t, exec i s = .next t → ∃ k, blockMoves k (acceptCommand i s) = .next t) ∧
    (∀ r, exec i s = .refused r → ∃ k, blockMoves k (acceptCommand i s) = .refused r)

/-! ## System commands -/

/-- R342. The state after INIT has responded, row by row; buffer memory is not touched. -/
def Obligations.InitState : Prop :=
  ∀ s : State, s.accepts = true → FaultRecorded s →
    bringUpWords s.cfg ≤ s.cfg.fifoCapacityWords →
    ∃ t, exec .init s = .next t ∧
      (∀ n d, n.val < s.cfg.maxEndpoints → t.recAt n d = ⟨0, 0, 0⟩) ∧
      t.ep0Pending = ⟨0, 0⟩ ∧
      t.allocWords = s.cfg.rxBringupWords + s.cfg.ep0TxWords ∧
      (∀ n : EpNum, n.val < s.cfg.maxEndpoints → t.txfValid[n] = decide (n = 0)) ∧
      t.setupBuf0 = 0 ∧ t.setupBuf1 = 0 ∧ t.busState = .disconnected ∧
      t.irqEn = s.irqEn ∧ t.events = s.events ∧ t.halted = false ∧ t.faultCause = .noFault ∧
      t.ctx = .idle ∧ t.resp = .ok ∧
      globalWord t.pi.gmsk = 0x80003814 ∧
      t.pi.gint = ⟨false, false, false, false, false⟩ ∧
      t.pi.softdisc = true ∧
      (∀ n : EpNum, n.val < s.cfg.maxEndpoints →
        t.pi.epintMsk.out[n] = false ∧ t.pi.epintMsk.inn[n] = false ∧ t.pi.txeMsk[n] = false) ∧
      t.pi.oepSrcMsk = ⟨false, false⟩ ∧ t.pi.iepSrcMsk = false ∧
      (∀ n d, n.val < s.cfg.maxEndpoints →
        t.epAt n d = { s.epAt n d with stall := false, nak := true }) ∧
      t.pi.devaddr = 0 ∧ t.pi.rxfDepth = s.cfg.rxBringupWords ∧
      t.pi.txf[(0 : EpNum)] = ⟨s.cfg.rxBringupWords, s.cfg.ep0TxWords⟩ ∧
      (∀ n : EpNum, n ≠ 0 → t.pi.txf[n] = s.pi.txf[n]) ∧
      t.pi.speed = s.pi.speed ∧ t.pi.clkHz = s.pi.clkHz ∧ t.pi.turnaround = s.pi.turnaround ∧
      t.pi.txfnum = s.pi.txfnum ∧ t.pi.setupcnt = s.pi.setupcnt ∧
      t.pi.setupDone = s.pi.setupDone ∧ t.pi.flushNum = s.pi.flushNum ∧
      t.pi.flushBusy = s.pi.flushBusy ∧ t.pi.rxq = s.pi.rxq ∧ t.pi.txq = s.pi.txq ∧
      (∀ a, memRead t.mem a = memRead s.mem a)

/-- R142. INIT over a capacity the bring-up layout does not fit halts with FIFO_OVERFLOW, gives no
response and leaves the layout registers, the events and buffer memory as they were. -/
def Obligations.InitOverflow : Prop :=
  ∀ s : State, s.accepts = true → s.cfg.fifoCapacityWords < bringUpWords s.cfg →
    ∃ t, exec .init s = .next t ∧ t.halted = true ∧ t.faultCause = .fifoOverflow ∧
      t.resp = s.resp ∧ t.events = s.events ∧ t.pi.rxfDepth = s.pi.rxfDepth ∧
      t.pi.txf = s.pi.txf ∧ t.pi.gint = s.pi.gint ∧ (∀ a, memRead t.mem a = memRead s.mem a)

/-- R264, R265. CONNECT and DISCONNECT, their whole effect. -/
def Obligations.ConnectDisconnect : Prop :=
  ∀ s : State, s.accepts = true →
    exec .connect s = .next { s with pi := { s.pi with softdisc := false }, resp := .ok } ∧
    ∃ t, exec .disconnect s = .next t ∧
      SpecEq t
        { s with pi := { s.pi with softdisc := true }, busState := .disconnected, resp := .ok }

/-- R267. SET_ADDRESS writes the address field and responds, for every address; bits imm16[15:7] of its
word must be zero. -/
def Obligations.SetAddress : Prop :=
  (∀ (s : State) (a : BitVec 7), s.accepts = true →
    exec (.setAddress a) s = .next { s with pi := { s.pi with devaddr := a }, resp := .ok }) ∧
  (∀ imm : BitVec 16, decode (commandWord 0 0x3 0 0 0 0 imm) =
    if imm.toNat < 128 then some (.setAddress (imm.extractLsb' 0 7)) else none)

/-- R269. REMOTE_WAKEUP responds and does nothing else. -/
def Obligations.RemoteWakeup : Prop :=
  ∀ s : State, s.accepts = true → exec .remoteWakeup s = .next { s with resp := .ok }

/-- R270, R271. IRQ_ENABLE and IRQ_DISABLE write IRQ_EN and respond; when the line is already 1 as
IRQ_EN becomes 1, a run starts before the next command is accepted. -/
def Obligations.IrqEnableDisable : Prop :=
  ∀ s : State, s.accepts = true →
    (∃ t, exec .irqEnable s = .next t ∧ SpecEq t { s with irqEn := true, resp := .ok } ∧
      (s.irqLine = true → ∀ ts,
        step { t with turns := .command :: ts } =
          .next { t with
            turns := .command :: ts, ctx := .irq .entry none, irqDue := false })) ∧
    (∃ t, exec .irqDisable s = .next t ∧ SpecEq t { s with irqEn := false, resp := .ok } ∧
      canEnterRun t = false)

/-! ## The dispatcher, run by IRQ_ENTRY -/

/-- R272. A dispatcher run with nothing in between (log entry 5; the environment can keep a drain going,
R231, R323) ends. In every accepting state IRQ_ENTRY answers a next state: the run has ended and the
command has responded OK, or the block has halted with one of the dispatcher's causes. With nothing
pending and unmasked the run changes nothing. -/
def Obligations.IrqEntryEnds : Prop :=
  ∀ s : State, s.accepts = true →
    ∃ t, exec .irqEntry s = .next t ∧
      (t.halted = false → t.ctx = .idle ∧ t.resp = .ok) ∧
      (t.halted = true → t.resp = s.resp ∧ t.faultCause ∈ causesOf .irqEntry) ∧
      (s.irqLine = false → SpecEq t { s with resp := .ok })

/-- R343. The state after the bus-reset handler, row by row. -/
def Obligations.BusResetState : Prop :=
  ∀ s : State, s.accepts = true → s.pending = { GlobalBits.none with reset := true } →
    bringUpWords s.cfg ≤ s.cfg.fifoCapacityWords → 1 ≤ s.cfg.maxEndpoints →
    ∃ t, exec .irqEntry s = .next t ∧ t.resp = .ok ∧
      (∀ d, t.recAt 0 d = ⟨0, 0, 64⟩) ∧
      (∀ n d, n ≠ 0 → n.val < s.cfg.maxEndpoints → t.recAt n d = ⟨0, 0, 0⟩) ∧
      t.ep0Pending = ⟨0, 0⟩ ∧
      t.allocWords = s.cfg.rxBringupWords + s.cfg.ep0TxWords ∧
      (∀ n : EpNum, n.val < s.cfg.maxEndpoints → t.txfValid[n] = decide (n = 0)) ∧
      t.pi.rxfDepth = s.cfg.rxBringupWords ∧
      t.pi.txf[(0 : EpNum)] = ⟨s.cfg.rxBringupWords, s.cfg.ep0TxWords⟩ ∧
      (∀ n : EpNum, n ≠ 0 → t.pi.txf[n] = s.pi.txf[n]) ∧
      t.setupBuf0 = s.setupBuf0 ∧ t.setupBuf1 = s.setupBuf1 ∧ t.irqEn = s.irqEn ∧
      t.events = s.events ∧ t.busState = .resetInProgress ∧
      (∀ n d, n.val < s.cfg.maxEndpoints → t.epAt n d = { s.epAt n d with nak := true }) ∧
      (∀ n : EpNum, n.val < s.cfg.maxEndpoints → t.pi.txeMsk[n] = false) ∧
      t.pi.devaddr = 0 ∧ t.pi.setupcnt = 3 ∧
      (∀ n : EpNum, n.val < s.cfg.maxEndpoints →
        t.pi.epintMsk.out[n] = decide (n = 0) ∧ t.pi.epintMsk.inn[n] = decide (n = 0)) ∧
      t.pi.oepSrcMsk = ⟨true, true⟩ ∧ t.pi.iepSrcMsk = true ∧
      t.pi.gmsk = { s.pi.gmsk with oep := true, iep := true } ∧
      t.pi.gint = { s.pi.gint with reset := false } ∧
      t.pi.txfnum = s.pi.txfnum ∧ t.pi.setupDone = s.pi.setupDone ∧ t.pi.speed = s.pi.speed ∧
      t.pi.turnaround = s.pi.turnaround ∧ t.pi.softdisc = s.pi.softdisc ∧
      t.pi.flushNum = s.pi.flushNum ∧ t.pi.flushBusy = s.pi.flushBusy ∧
      t.pi.rxq = s.pi.rxq ∧ t.pi.txq = s.pi.txq ∧ (∀ a, memRead t.mem a = memRead s.mem a)

/-- R227. What enumeration done writes, and that it writes nothing else. -/
def Obligations.EnumDoneState : Prop :=
  ∀ s : State, s.accepts = true → s.pending = { GlobalBits.none with enumDone := true } →
    ∃ t, exec .irqEntry s = .next t ∧
      (∀ d, t.recAt 0 d = { s.recAt 0 d with maxSize := ep0Mps s.cfg s.pi.speed }) ∧
      (∀ d, t.epAt 0 d = { s.epAt 0 d with mps := ep0Mps s.cfg s.pi.speed }) ∧
      (∀ n d, n ≠ 0 → t.recAt n d = s.recAt n d ∧ t.epAt n d = s.epAt n d) ∧
      SpecEq t
        { s with
          xfer := t.xfer
          pi := { s.pi with
            gint := { s.pi.gint with enumDone := false }
            turnaround := trdt s.cfg s.pi.speed s.pi.clkHz.toNat
            ep := t.pi.ep }
          events := s.events ++ [.busReset s.pi.speed]
          busState := .enumerating
          resp := .ok }

/-- R228, R229, R230. Suspend, resume and session end, alone or together in one run: one event each in
that order, BUS_STATE as each handler says, the bits acknowledged, and nothing else. -/
def Obligations.BusSignals : Prop :=
  ∀ (s : State) (a b c : Bool), s.accepts = true →
    s.pending = { GlobalBits.none with suspend := a, resume := b, disconnect := c } →
    ∃ t, exec .irqEntry s = .next t ∧
      SpecEq t
        { s with
          pi := { s.pi with
            gint := { s.pi.gint with
              suspend := s.pi.gint.suspend && !a
              resume := s.pi.gint.resume && !b
              disconnect := s.pi.gint.disconnect && !c } }
          events := s.events ++ (if a then [.busSignal .suspend] else []) ++
            (if b then [.busSignal .resume] else []) ++
            (if c then [.busSignal .unplugged] else [])
          busState :=
            let b1 := if a = true ∧ s.busState = .active then .suspended else s.busState
            let b2 := if b = true ∧ b1 = .suspended then .active else b1
            if c = true then .disconnected else b2
          resp := .ok }

/-- R233, R211. Draining one OUT_DATA entry whose packet is not short: its bytes go to the buffer cursor
in ascending order, the cursor advances, and no other byte and nothing else changes. -/
def Obligations.DrainOutPacket : Prop :=
  ∀ (s : State) (n : EpNum) (bc : Nat) (dpid : BitVec 2) (ws : List Word),
    s.accepts = true → s.pending = { GlobalBits.none with rxne := true } →
    n.val < s.cfg.maxEndpoints → bc < 2 ^ 11 → ws.length = wordsFor bc →
    s.pi.rxq = statusWord n bc dpid 2 :: ws → (s.recAt n .out).maxSize ≤ bc →
    Memory.wf s.mem = true →
    ∃ t, exec .irqEntry s = .next t ∧
      (∀ i, i < bc → some (memRead t.mem ((s.recAt n .out).buffer + BitVec.ofNat 32 i)) =
        (unpackWords ws)[i]?) ∧
      (∀ a, ¬ inBytes (s.recAt n .out).buffer bc a → memRead t.mem a = memRead s.mem a) ∧
      SpecEq t
        { (s.setRec n .out
            { s.recAt n .out with
              buffer := (s.recAt n .out).buffer + BitVec.ofNat 32 bc }) with
          pi := { s.pi with rxq := [] }, mem := t.mem, resp := .ok }

/-- R233, R234. Draining one OUT_DATA entry whose packet is short: as above, and the recorded length is
trimmed by the bytes still outstanding (for endpoint 0 also by those never scheduled, which are
forgotten). -/
def Obligations.DrainShortPacket : Prop :=
  ∀ (s : State) (n : EpNum) (bc : Nat) (dpid : BitVec 2) (ws : List Word),
    s.accepts = true → s.pending = { GlobalBits.none with rxne := true } →
    n.val < s.cfg.maxEndpoints → bc < 2 ^ 11 → ws.length = wordsFor bc →
    s.pi.rxq = statusWord n bc dpid 2 :: ws → bc < (s.recAt n .out).maxSize →
    (s.epAt n .out).xfrsiz + (if n = 0 then s.ep0Pending.out else 0) ≤
      (s.recAt n .out).totalLen →
    Memory.wf s.mem = true →
    ∃ t, exec .irqEntry s = .next t ∧
      (∀ i, i < bc → some (memRead t.mem ((s.recAt n .out).buffer + BitVec.ofNat 32 i)) =
        (unpackWords ws)[i]?) ∧
      (∀ a, ¬ inBytes (s.recAt n .out).buffer bc a → memRead t.mem a = memRead s.mem a) ∧
      SpecEq t
        { (s.setRec n .out
            { s.recAt n .out with
              buffer := (s.recAt n .out).buffer + BitVec.ofNat 32 bc
              totalLen := (s.recAt n .out).totalLen - (s.epAt n .out).xfrsiz -
                (if n = 0 then s.ep0Pending.out else 0) }) with
          ep0Pending := if n = 0 then ⟨0, s.ep0Pending.inn⟩ else s.ep0Pending
          pi := { s.pi with rxq := [] }, mem := t.mem, resp := .ok }

/-- R232, R235. GLOBAL_OUT_NAK and OUT_DONE entries are only consumed; the environment answers the pop
of OUT_DONE with the transfer-complete condition of the endpoint it names, in the same step (log entry
11, DEDUCED). -/
def Obligations.DrainNakAndDone : Prop :=
  ∀ (s : State) (sw : Word), s.accepts = true →
    s.pending = { GlobalBits.none with rxne := true } → s.pi.rxq = [sw] →
    (rxClass (statusCode sw) = .globalOutNak →
      ∃ t, exec .irqEntry s = .next t ∧
        SpecEq t { s with pi := { s.pi with rxq := [] }, resp := .ok }) ∧
    (rxClass (statusCode sw) = .outDone → (statusEp sw).val < s.cfg.maxEndpoints →
      ∃ t, exec .irqEntry s = .next t ∧
        SpecEq t
          { s with
            pi := { (s.pi.setEp (statusEp sw) .out
              { s.epAt (statusEp sw) .out with xferDone := true }) with rxq := [] }
            resp := .ok })

/-- R236, R237. A run that drains any number of SETUP packets and then SETUP_DONE keeps the last packet
only and re-arms the SETUP count; the environment answers with SETUPDONE in the same step (log entry
11, DEDUCED). -/
def Obligations.DrainSetup : Prop :=
  ∀ (s : State) (before : List (Word × Word × Word)) (sw w0 w1 done : Word), s.accepts = true →
    s.pending = { GlobalBits.none with rxne := true } →
    (∀ e ∈ before ++ [(sw, w0, w1)], rxClass (statusCode e.1) = .setupData) →
    rxClass (statusCode done) = .setupDone →
    s.pi.rxq = setupEntries (before ++ [(sw, w0, w1)]) ++ [done] →
    ∃ t, exec .irqEntry s = .next t ∧
      SpecEq t
        { s with
          setupBuf0 := w0, setupBuf1 := w1
          pi := { s.pi with rxq := [], setupcnt := 3, setupDone := s.pi.setupDone.set 0 true }
          resp := .ok }

/-- R233, R238, R305. A drain that meets an unrecognised status, or an OUT_DATA entry for an endpoint
that does not exist, halts: the status word popped, RXNE left masked, and nothing else changed. -/
def Obligations.DrainFaults : Prop :=
  ∀ (s : State) (sw : Word) (ws : List Word), s.accepts = true →
    s.pending = { GlobalBits.none with rxne := true } → s.pi.rxq = sw :: ws →
    ∀ c : FaultCause,
      (rxClass (statusCode sw) = .unrecognised ∧ c = .unknownRxStatus) ∨
        (rxClass (statusCode sw) = .outData ∧ s.cfg.maxEndpoints ≤ (statusEp sw).val ∧
          c = .invalidEndpoint) →
      ∃ t, exec .irqEntry s = .next t ∧
        SpecEq t
          { s with
            pi := { s.pi with rxq := ws, gmsk := { s.pi.gmsk with rxne := false } }
            halted := true, faultCause := c, ctx := t.ctx }

/-- What a step of a run stores: one drain iteration only the bytes of its packet, from the cursor of
the endpoint its status word names; any other numbered step not one byte. -/
def Obligations.RunStores : Prop :=
  (∀ (s : State) (a : Word), Memory.wf s.mem = true →
    ¬ inBytes (drainStore s).1 (drainStore s).2 a →
    memRead (drainEntry s).state.mem a = memRead s.mem a) ∧
  (∀ (op : IrqOp) (l : IrqLocals) (s : State) (a : Word), op ≠ .drainLoop →
    memRead (irqStep op l s).state.mem a = memRead s.mem a)

/-- R239, R240, R241. One OUT endpoint signals: the staged SETUP words, then the transfer with its recorded
length, are reported and both conditions acknowledged; nothing else changes. For endpoint 0 with bytes
pending (R202) the transfer is not reported: one more packet is armed. A completion of an abandoned
transfer with no event to come (R355; `State.dropsDone`, the model's choice of log entry 37) is only
acknowledged. -/
def Obligations.OutCompletion : Prop :=
  ∀ (s : State) (n : EpNum), s.accepts = true →
    s.pending = { GlobalBits.none with oep := true } → n.val < s.cfg.maxEndpoints →
    (∀ m : EpNum, m.val < s.cfg.maxEndpoints → (epPendOut s.pi m = true ↔ m = n)) →
    let setup : List Event :=
      if s.pi.setupDone[n] = true then [.setupReceived s.setupBuf0 s.setupBuf1] else []
    (n ≠ 0 ∨ (s.epAt n .out).xferDone = false ∨ s.ep0Pending.out = 0 ∨
        s.dropsDone n .out = true →
      ∃ t, exec .irqEntry s = .next t ∧
        SpecEq t
          { s with
            pi := { (s.pi.setEp n .out { s.epAt n .out with xferDone := false }) with
              setupDone := s.pi.setupDone.set n false }
            events := s.events ++ setup ++
              (if (s.epAt n .out).xferDone = true ∧ s.dropsDone n .out = false then
                [.xferComplete n .out (s.recAt n .out).totalLen] else [])
            resp := .ok }) ∧
    (n = 0 → (s.epAt n .out).xferDone = true → s.ep0Pending.out ≠ 0 →
      s.dropsDone n .out = false →
      let k := min s.ep0Pending.out (s.recAt 0 .out).maxSize
      ∃ t, exec .irqEntry s = .next t ∧
        SpecEq t
          { (s.setPending .out (s.ep0Pending.out - k)) with
            pi := { (s.pi.setEp 0 .out
                { s.epAt 0 .out with
                  xferDone := false, pktcnt := 1, xfrsiz := k
                  stall := false, nak := false, ena := true }) with
              setupDone := s.pi.setupDone.set 0 false }
            events := s.events ++ setup
            resp := .ok })

/-- R241, R244, R202. The transfer-complete condition of either direction: acknowledged, and reported
with the recorded length for an endpoint other than 0, or for endpoint 0 with nothing pending; with
bytes pending endpoint 0 is armed for exactly one more packet and nothing is reported. A completion of
an abandoned transfer with no event to come (R355; `State.dropsDone`, the model's choice of log entry
37) is only acknowledged. -/
def Obligations.TransferComplete : Prop :=
  ∀ (s : State) (n : EpNum) (d : Dir), (s.epAt n d).xferDone = true →
    let done := { s.epAt n d with xferDone := false }
    let k := min (s.ep0Pending.get d) (s.recAt 0 d).maxSize
    (s.dropsDone n d = true → SpecEq (transferComplete n d s) (s.setEp n d done)) ∧
    (s.dropsDone n d = false → n ≠ 0 ∨ s.ep0Pending.get d = 0 →
      SpecEq (transferComplete n d s)
        { (s.setEp n d done) with
          events := s.events ++ [.xferComplete n d (s.recAt n d).totalLen] }) ∧
    (s.dropsDone n d = false → n = 0 → s.ep0Pending.get d ≠ 0 →
      SpecEq (transferComplete n d s)
        (let t := (s.setEp n d
            { done with pktcnt := 1, xfrsiz := k, stall := false, nak := false, ena := true
            }).setPending d (s.ep0Pending.get d - k)
         if d = .inn ∧ k ≠ 0 then t.setTxe 0 true else t))

/-- The recorded length of a transfer is what XFER recorded: no other command but INIT and IRQ_ENTRY
changes it, and of the steps of a run only those of a bus reset and, for OUT, the receive drain do. So
an IN completion reports the length requested. -/
def Obligations.RequestedLengthKept : Prop :=
  (∀ (i : Instr) (s t : State) (n : EpNum) (d : Dir), exec i s = .next t →
    i ≠ .init → i ≠ .irqEntry → (∀ buffer length, i ≠ .xfer n d buffer length) →
    (t.recAt n d).totalLen = (s.recAt n d).totalLen) ∧
  (∀ (op : IrqOp) (l : IrqLocals) (s : State) (n : EpNum) (d : Dir),
    (∀ k, op ≠ .busReset k) → (d = .inn ∨ op ≠ .drainLoop) →
    ((irqStep op l s).state.recAt n d).totalLen = (s.recAt n d).totalLen)

/-- R245, R212, R288. One FIFO-empty iteration with room for the packet: the packet's words, packed from
buffer memory at the cursor, stand complete in the transmit FIFO; the byte count falls and the cursor
advances by the packet; nothing else changes. -/
def Obligations.FeedPushesPacket : Prop :=
  ∀ (s : State) (n : EpNum) (k : Nat),
    s.pi.txq[n].open_ = [] → (s.epAt n .inn).mps = (s.recAt n .inn).maxSize →
    k = min (s.epAt n .inn).xfrsiz (s.recAt n .inn).maxSize → 0 < k →
    k ≤ 4 * txFree s.pi n →
    ∃ t, feedStep n s = .pushed t ∧
      t = { (s.setRec n .inn
              { s.recAt n .inn with
                buffer := (s.recAt n .inn).buffer + BitVec.ofNat 32 k }) with
            pi := { (s.pi.setEp n .inn
                { s.epAt n .inn with xfrsiz := (s.epAt n .inn).xfrsiz - k }) with
              txq := s.pi.txq.set n
                ⟨s.pi.txq[n].packets ++
                  [⟨k, packWords (memReadBytes s.mem (s.recAt n .inn).buffer k)⟩], []⟩ } }

/-- R243, R245, R246. A run with one IN endpoint signalling an empty FIFO. With one packet left to feed
and room for it: the packet is pushed, the byte count reaches zero and the FIFO-empty enable is cleared.
With bytes left and no room for the next packet: nothing is pushed and the enable stays. -/
def Obligations.FeedLastPacket : Prop :=
  ∀ (s : State) (n : EpNum), s.accepts = true →
    s.pending = { GlobalBits.none with iep := true } → n.val < s.cfg.maxEndpoints →
    (∀ m : EpNum, m.val < s.cfg.maxEndpoints → (epPendIn s.pi m = true ↔ m = n)) →
    (s.epAt n .inn).xferDone = false →
    (s.pi.txq[n].open_ = [] → (s.epAt n .inn).mps = (s.recAt n .inn).maxSize →
      0 < (s.epAt n .inn).xfrsiz → (s.epAt n .inn).xfrsiz ≤ (s.recAt n .inn).maxSize →
      (s.epAt n .inn).xfrsiz ≤ 4 * txFree s.pi n →
      ∃ t, exec .irqEntry s = .next t ∧
        SpecEq t
          { ((s.setRec n .inn
                { s.recAt n .inn with
                  buffer := (s.recAt n .inn).buffer +
                    BitVec.ofNat 32 (s.epAt n .inn).xfrsiz })) with
            pi := { (s.pi.setEp n .inn { s.epAt n .inn with xfrsiz := 0 }) with
              txq := s.pi.txq.set n
                ⟨s.pi.txq[n].packets ++ [⟨(s.epAt n .inn).xfrsiz,
                  packWords (memReadBytes s.mem (s.recAt n .inn).buffer
                    (s.epAt n .inn).xfrsiz)⟩], []⟩
              txeMsk := s.pi.txeMsk.set n false }
            resp := .ok }) ∧
    (4 * txFree s.pi n < min (s.epAt n .inn).xfrsiz (s.recAt n .inn).maxSize →
      ∃ t, exec .irqEntry s = .next t ∧ t.pi.txeMsk[n] = true ∧ SpecEq t { s with resp := .ok })

/-! ## Endpoint commands -/

/-- R171. OPEN of an OUT endpoint within the ceiling, its whole effect. -/
def Obligations.OpenOut : Prop :=
  ∀ (s : State) (n : EpNum) (ty : XferType) (mps : Nat), s.ready n →
    mps ≤ ceiling ty s.pi.speed →
    exec (.openEp n .out ty mps) s = .next
      { (((s.setRec n .out { s.recAt n .out with maxSize := mps }).setEp n .out
            { s.epAt n .out with active := true, ty := ty, mps := mps }).setEpint n .out true) with
        busState := if n ≠ 0 ∧ s.busState = .enumerating then .active else s.busState
        resp := .ok }

/-- R171, R145. OPEN of an IN endpoint within the ceiling: a valid transmit FIFO that holds one packet
is used again, and an endpoint without one gets exactly one packet at the allocation counter. -/
def Obligations.OpenIn : Prop :=
  ∀ (s : State) (n : EpNum) (ty : XferType) (mps : Nat), s.ready n →
    mps ≤ ceiling ty s.pi.speed →
    let opened := (((s.setRec n .inn { s.recAt n .inn with maxSize := mps }).setEp n .inn
        { s.epAt n .inn with active := true, ty := ty, mps := mps }).setEpint n .inn true)
    let bus := if n ≠ 0 ∧ s.busState = .enumerating then .active else s.busState
    (s.txfValid[n] = true → wordsFor mps ≤ s.pi.txf[n].depth →
      exec (.openEp n .inn ty mps) s = .next
        { opened with
          pi := { opened.pi with txfnum := s.pi.txfnum.set n n }
          busState := bus, resp := .ok }) ∧
    (s.txfValid[n] = false → s.allocWords + wordsFor mps ≤ s.cfg.fifoCapacityWords →
      exec (.openEp n .inn ty mps) s = .next
        { opened with
          pi := { opened.pi with
            txfnum := s.pi.txfnum.set n n
            txf := s.pi.txf.set n ⟨s.allocWords, wordsFor mps⟩ }
          txfValid := s.txfValid.set n true
          allocWords := s.allocWords + wordsFor mps
          busState := bus, resp := .ok })

/-- R304, R305, R146. The faults of OPEN in their order: an endpoint that does not exist, then a size
over the ceiling, both with nothing written; then a FIFO that does not fit, with the record and the
endpoint's ACTIVE, TYPE and MPS written and the allocator untouched. -/
def Obligations.OpenFaults : Prop :=
  ∀ (s : State) (n : EpNum) (d : Dir) (ty : XferType) (mps : Nat), s.accepts = true →
    (s.cfg.maxEndpoints ≤ n.val →
      ∃ t, exec (.openEp n d ty mps) s = .next t ∧
        t = { s with halted := true, faultCause := .invalidEndpoint, ctx := t.ctx }) ∧
    (n.val < s.cfg.maxEndpoints → ceiling ty s.pi.speed < mps →
      ∃ t, exec (.openEp n d ty mps) s = .next t ∧
        t = { s with halted := true, faultCause := .packetSize, ctx := t.ctx }) ∧
    (n.val < s.cfg.maxEndpoints → mps ≤ ceiling ty s.pi.speed → d = .inn →
      (if s.txfValid[n] = true then s.pi.txf[n].depth < wordsFor mps
       else s.cfg.fifoCapacityWords < s.allocWords + wordsFor mps) →
      ∃ t, exec (.openEp n d ty mps) s = .next t ∧
        t = { ((s.setRec n d { s.recAt n d with maxSize := mps }).setEp n d
                { s.epAt n d with active := true, ty := ty, mps := mps }) with
              halted := true, faultCause := .fifoOverflow, ctx := t.ctx })

/-- R173. CLOSE of an endpoint that exists, its whole effect; of one that does not, the fault. -/
def Obligations.CloseEffect : Prop :=
  ∀ (s : State) (n : EpNum) (d : Dir), s.accepts = true →
    (n.val < s.cfg.maxEndpoints →
      ∃ t, exec (.closeEp n d) s = .next t ∧
        SpecEq t
          { ((s.setEp n d { s.epAt n d with active := false }).setEpint n d false) with
            resp := .ok }) ∧
    (s.cfg.maxEndpoints ≤ n.val →
      ∃ t, exec (.closeEp n d) s = .next t ∧
        t = { s with halted := true, faultCause := .invalidEndpoint, ctx := t.ctx })

/-- R175, R176, R177. XFER on an endpoint other than 0: the record, the packet count and byte count, the
holds cleared, the endpoint enabled, and for IN bytes the FIFO-empty enable; nothing else. -/
def Obligations.XferOther : Prop :=
  ∀ (s : State) (n : EpNum) (d : Dir) (buffer : Word) (length : Nat), s.ready n → n ≠ 0 →
    s.inFlightAt n d = false → (s.recAt n d).maxSize ≠ 0 →
    (if length = 0 then 1
     else (length + (s.recAt n d).maxSize - 1) / (s.recAt n d).maxSize) ≤ 1023 →
    ∃ t, exec (.xfer n d buffer length) s = .next t ∧
      SpecEq t
        (let r := { ((s.setRec n d
                { s.recAt n d with buffer := buffer, totalLen := length }).setEp n d
              { s.epAt n d with
                pktcnt := if length = 0 then 1
                  else (length + (s.recAt n d).maxSize - 1) / (s.recAt n d).maxSize
                xfrsiz := length, stall := false, nak := false, ena := true }) with
            resp := .ok }
         if d = .inn ∧ length ≠ 0 then r.setTxe n true else r)

/-- R175, R201. XFER on endpoint 0: the record, and exactly one packet of at most max_size bytes
scheduled, the rest left pending. -/
def Obligations.XferEp0 : Prop :=
  ∀ (s : State) (d : Dir) (buffer : Word) (length : Nat), s.ready 0 →
    s.inFlightAt 0 d = false → (s.recAt 0 d).maxSize ≠ 0 →
    ∃ t, exec (.xfer 0 d buffer length) s = .next t ∧
      SpecEq t
        (let k := min length (s.recAt 0 d).maxSize
         let r := { (((s.setRec 0 d
                { s.recAt 0 d with buffer := buffer, totalLen := length }).setEp 0 d
              { s.epAt 0 d with
                pktcnt := 1, xfrsiz := k, stall := false, nak := false, ena := true
              }).setPending d (length - k)) with
            resp := .ok }
         if d = .inn ∧ k ≠ 0 then r.setTxe 0 true else r)

/-- R170, R178, R179, R304. The faults of XFER in their order; each leaves the record and the
peripheral untouched. Endpoint 0 is exempt from the packet-count check. With a packet size of 65 or
more no length fails that check; with 64 exactly the lengths above 65472 do; every length fits
the byte-count field. That an XFER over a transfer in flight meets these checks before it is refused is
the model's choice of log entry 8. -/
def Obligations.XferFaults : Prop :=
  (∀ m length : Nat, length < 2 ^ 16 →
    length < 2 ^ 19 ∧ (65 ≤ m → packetCount length m ≤ 1023) ∧
    (1023 < packetCount length 64 ↔ 65472 < length)) ∧
  ∀ (s : State) (n : EpNum) (d : Dir) (buffer : Word) (length : Nat) (c : FaultCause),
    s.accepts = true →
    c = (if s.cfg.maxEndpoints ≤ n.val then .invalidEndpoint
         else if (s.recAt n d).maxSize = 0 then .endpointNotOpen
         else .xferTooLarge) →
    (s.cfg.maxEndpoints ≤ n.val ∨ (s.recAt n d).maxSize = 0 ∨
      (n ≠ 0 ∧ 1023 < packetCount length (s.recAt n d).maxSize)) →
    ∃ t, exec (.xfer n d buffer length) s = .next t ∧
      t = { s with halted := true, faultCause := c, ctx := t.ctx }

/-- The two runs the model does not admit (R25 and U1, R160 and U3): XFER that would pass its checks
while the previous transfer of the same endpoint and direction is in flight, and CFG_ALLOC while an IN
endpoint is enabled or the receive queue is not empty. -/
def Obligations.RefusedRuns : Prop :=
  ∀ s : State, s.accepts = true →
    (∀ (n : EpNum) (d : Dir) (buffer : Word) (length : Nat), n.val < s.cfg.maxEndpoints →
      (s.recAt n d).maxSize ≠ 0 →
      (n = 0 ∨ packetCount length (s.recAt n d).maxSize ≤ 1023) → s.inFlightAt n d = true →
      exec (.xfer n d buffer length) s = .refused .xferInFlight) ∧
    (∀ (table : Word) (count : Nat),
      (s.pi.rxq ≠ [] ∨ ∃ n : EpNum, n.val < s.cfg.maxEndpoints ∧ (s.epAt n .inn).ena = true) →
      exec (.cfgAlloc table count) s = .refused .cfgAllocNotQuiescent)

/-- R181. STALL of an endpoint with no transfer in flight: NAK and STALL at once and nothing else; an
endpoint that does not exist is the fault. -/
def Obligations.StallIdle : Prop :=
  ∀ (s : State) (n : EpNum) (d : Dir), s.accepts = true →
    (n.val < s.cfg.maxEndpoints → (s.epAt n d).ena = false →
      ∃ t, exec (.stall n d) s = .next t ∧
        SpecEq t
          { (s.setEp n d { s.epAt n d with nak := true, stall := true }) with resp := .ok }) ∧
    (s.cfg.maxEndpoints ≤ n.val →
      ∃ t, exec (.stall n d) s = .next t ∧
        t = { s with halted := true, faultCause := .invalidEndpoint, ctx := t.ctx })

/-- R181, R183, R186. STALL of an enabled endpoint with no poll limit. Without a confirmation it forces NAK
and holds at step 5; once the confirmation is there, an OUT endpoint is disabled and marked and the
command responds; an IN endpoint is disabled and marked, its FIFO's flush begins, and the command holds
at step 9 until it is done. A confirmation that already stands when STALL is issued is taken at once. -/
def Obligations.StallInFlight : Prop :=
  ∀ (s : State) (n : EpNum) (d : Dir), s.ready n → s.cfg.stallPollLimit = none →
    (s.epAt n d).ena = true →
    ((s.epAt n d).nakEff = false →
      ∃ (t : State) (p : CmdPos), exec (.stall n d) s = .next t ∧ t.ctx = .cmd p ∧
        SpecEq t { (s.setEp n d { s.epAt n d with nak := true }) with ctx := .cmd p } ∧
        (∀ u : State, u.ctx = .cmd p → u.halted = false → u.cfg = s.cfg →
          ((u.epAt n d).nakEff = false → blockMove u = .next u) ∧
          ((u.epAt n d).nakEff = true → d = .out →
            ∃ v, blockMoves 4 u = .next v ∧
              SpecEq v
                { (u.setEp n d
                    { u.epAt n d with nakEff := false, disreq := true, stall := true }) with
                  ctx := .idle, resp := .ok }) ∧
          ((u.epAt n d).nakEff = true → d = .inn →
            ∃ v q, blockMoves 4 u = .next v ∧ v.ctx = .cmd q ∧
              SpecEq v
                { u with
                  pi := { (u.pi.setEp n d
                      { u.epAt n d with nakEff := false, disreq := true, stall := true }) with
                    flushNum := u.pi.txfnum[n], flushBusy := true }
                  ctx := .cmd q } ∧
              blockMove v = .next v ∧
              (∀ w : State, w.ctx = .cmd q → w.halted = false → w.cfg = s.cfg →
                w.pi.flushBusy = false →
                blockMoves 2 w = .next { w with ctx := .idle, resp := .ok })))) ∧
    ((s.epAt n d).nakEff = true →
      let r := { s.epAt n d with nak := true, nakEff := false, disreq := true, stall := true }
      (d = .out →
        ∃ t, exec (.stall n d) s = .next t ∧ SpecEq t { (s.setEp n d r) with resp := .ok }) ∧
      (d = .inn →
        ∃ t q, exec (.stall n d) s = .next t ∧ t.ctx = .cmd q ∧
          SpecEq t
            { s with
              pi := { (s.pi.setEp n d r) with
                flushNum := s.pi.txfnum[n], flushBusy := true }
              ctx := .cmd q } ∧
          blockMove t = .next t ∧
          (∀ w : State, w.ctx = .cmd q → w.halted = false → w.cfg = s.cfg →
            w.pi.flushBusy = false →
            blockMoves 2 w = .next { w with ctx := .idle, resp := .ok })))

/-- R186. With a poll limit of k, k failed evaluations of a wait end STALL with TIMEOUT: at step 5 with
only NAK written, at step 9 with nothing more written. -/
def Obligations.StallTimeout : Prop :=
  ∀ (s : State) (n : EpNum) (d : Dir) (k : Nat), s.cfg.stallPollLimit = some (k + 1) →
    (s.ready n → (s.epAt n d).ena = true → (s.epAt n d).nakEff = false →
      ∃ t u, exec (.stall n d) s = .next t ∧ blockMoves k t = .next u ∧
        SpecEq u
          { (s.setEp n d { s.epAt n d with nak := true }) with resp := .timeout }) ∧
    (∀ (l : CmdLocals) (rest : List CmdOp), s.halted = false →
      s.ctx = .cmd ⟨.stall n d, .stallWaitFlush :: rest, { l with polls := 0 }⟩ →
      s.pi.flushBusy = true →
      blockMoves (k + 1) s = .next { s with ctx := .idle, resp := .timeout })

/-- R188. CLEAR_STALL: nothing on an endpoint not stalled; otherwise STALL cleared, and for bulk and
interrupt endpoints the toggle reset; the fault for an endpoint that does not exist. -/
def Obligations.ClearStallEffect : Prop :=
  ∀ (s : State) (n : EpNum) (d : Dir), s.accepts = true →
    (n.val < s.cfg.maxEndpoints →
      exec (.clearStall n d) s = .next
        { (if (s.epAt n d).stall = true then
            s.setEp n d
              { s.epAt n d with
                stall := false
                dpid := if (s.epAt n d).ty = .bulk ∨ (s.epAt n d).ty = .interrupt then .data0
                  else (s.epAt n d).dpid }
           else s) with resp := .ok }) ∧
    (s.cfg.maxEndpoints ≤ n.val →
      ∃ t, exec (.clearStall n d) s = .next t ∧
        t = { s with halted := true, faultCause := .invalidEndpoint, ctx := t.ctx })

/-! ## The allocator -/

/-- R153. The two largest elements of a list, 0 where there is none, however the list is ordered. -/
def Obligations.LargestTwo : Prop :=
  (∀ (l rest : List Nat) (x : Nat), l.Perm (x :: rest) → (∀ y ∈ rest, y ≤ x) →
    twoLargest l = (x, rest.foldl max 0)) ∧
  twoLargest [] = (0, 0)

/-- R151, R158. CFG_ALLOC of a table that fits: the receive FIFO lowest, endpoint 0 next, then the
present IN endpoints in ascending order, every other transmit FIFO forgotten, and nothing else but
BUS_STATE and the response written. -/
def Obligations.CfgAllocCommits : Prop :=
  ∀ (s : State) (table : Word) (count : Nat),
    let T := readTable s.mem table count
    s.accepts = true → 1 ≤ s.cfg.maxEndpoints → s.pi.rxq = [] →
    (∀ n : EpNum, n.val < s.cfg.maxEndpoints → (s.epAt n .inn).ena = false) →
    (∀ e ∈ T, e.ep.val < s.cfg.maxEndpoints) → planDemand s.cfg T ≤ s.cfg.fifoCapacityWords →
    ∃ t, exec (.cfgAlloc table count) s = .next t ∧
      t = { s with
            pi := { s.pi with rxfDepth := planRx s.cfg T, txf := t.pi.txf }
            txfValid := t.txfValid
            allocWords := txEnd s.cfg T
            busState := if s.busState = .enumerating then .active else s.busState
            resp := .ok } ∧
      t.pi.txf[(0 : EpNum)] = ⟨planRx s.cfg T, s.cfg.ep0TxWords⟩ ∧
      t.txfValid[(0 : EpNum)] = true ∧
      (∀ n : EpNum, n ≠ 0 → n.val < s.cfg.maxEndpoints →
        t.txfValid[n] = demandPresent T n .inn ∧
        t.pi.txf[n] =
          if demandPresent T n .inn = true then ⟨txStart s.cfg T n, depthIn s.cfg T n⟩
          else s.pi.txf[n]) ∧
      (∀ n : EpNum, s.cfg.maxEndpoints ≤ n.val →
        t.txfValid[n] = s.txfValid[n] ∧ t.pi.txf[n] = s.pi.txf[n])

/-- R151, R304. CFG_ALLOC of a table that names an endpoint that does not exist faults before the
capacity test, and one that demands too much is declined; neither writes anything else. -/
def Obligations.CfgAllocDeclines : Prop :=
  ∀ (s : State) (table : Word) (count : Nat),
    let T := readTable s.mem table count
    s.accepts = true → s.pi.rxq = [] →
    (∀ n : EpNum, n.val < s.cfg.maxEndpoints → (s.epAt n .inn).ena = false) →
    ((∃ e ∈ T, s.cfg.maxEndpoints ≤ e.ep.val) →
      ∃ t, exec (.cfgAlloc table count) s = .next t ∧
        t = { s with halted := true, faultCause := .invalidEndpoint, ctx := t.ctx }) ∧
    ((∀ e ∈ T, e.ep.val < s.cfg.maxEndpoints) → s.cfg.fifoCapacityWords < planDemand s.cfg T →
      exec (.cfgAlloc table count) s = .next { s with resp := .declined })

/-- R29, R161. Every command run whole keeps the FIFO layout sound: the receive FIFO lowest, all FIFOs
disjoint, their union exactly the words below ALLOC_WORDS, within the capacity. (Steps of commands and
runs interleaved can break it: R353 c.) -/
def Obligations.LayoutKept : Prop :=
  ∀ (i : Instr) (s t : State), 1 ≤ s.cfg.maxEndpoints → LayoutOk s → exec i s = .next t →
    t.halted = false → LayoutOk t

/-! ## Endpoint 0 and the packet engine -/

/-- R203. The pending counter of endpoint 0 after j schedules of a transfer of L bytes is what j packets
of max_size leave of it, every schedule programs one packet of at most max_size bytes, and the counter is
0 from schedule ceil(L/M) on and not before. -/
def Obligations.Ep0PendingLaw : Prop :=
  ∀ (s : State) (d : Dir) (L M : Nat), s.ep0Pending.get d = L → (s.recAt 0 d).maxSize = M → 0 < M →
    (∀ j, ((ep0Schedules j d s).ep0Pending).get d = L - j * M) ∧
    (∀ j, ((ep0Schedules (j + 1) d s).epAt 0 d).pktcnt = 1 ∧
      ((ep0Schedules (j + 1) d s).epAt 0 d).xfrsiz = min (L - j * M) M) ∧
    (∀ j, ((ep0Schedules j d s).ep0Pending).get d = 0 ↔ (L + M - 1) / M ≤ j)

/-- R214. Writing N bytes from memory to a transmit FIFO with room pushes words(N) words, and feeding
those words to the read engine reproduces the bytes exactly and touches no other byte. -/
def Obligations.PacketRoundTrip : Prop :=
  ∀ (s : State) (n : EpNum) (src dst : Word) (N : Nat), Memory.wf s.mem = true → N ≤ 2 ^ 32 →
    wordsFor N ≤ txFree s.pi n →
    ∃ (ws : List Word) (t u : State), ws.length = wordsFor N ∧
      fifoWritePacket n src N s = .ok t ∧
      (t.pi.txq[n]).content = (s.pi.txq[n]).content ++ ws ∧ t.mem = s.mem ∧
      fifoReadPacket dst N { t with pi := { t.pi with rxq := ws } } = .ok u ∧ u.pi.rxq = [] ∧
      (∀ i, i < N → memRead u.mem (dst + BitVec.ofNat 32 i) =
        memRead s.mem (src + BitVec.ofNat 32 i)) ∧
      (∀ a, ¬ inBytes dst N a → memRead u.mem a = memRead s.mem a)

/-! ## Whole-machine rules -/

/-- No command but IRQ_ENTRY stores to buffer memory, changes a queue or appends an event, faulting or
not; no command at all removes or reorders an event. -/
def Obligations.CommandFrame : Prop :=
  ∀ (i : Instr) (s t : State), exec i s = .next t →
    (i ≠ .irqEntry → (∀ a, memRead t.mem a = memRead s.mem a) ∧ t.pi.rxq = s.pi.rxq ∧
      t.pi.txq = s.pi.txq ∧ t.events = s.events) ∧
    (∃ es, t.events = s.events ++ es) ∧ t.cfg = s.cfg ∧ t.port = s.port ∧ t.turns = s.turns ∧
    (i ≠ .irqEnable → i ≠ .irqDisable → t.irqEn = s.irqEn)

/-- R303. Which faults each command can raise. -/
def Obligations.FaultsByCommand : Prop :=
  ∀ (i : Instr) (s t : State), s.accepts = true → exec i s = .next t → t.halted = true →
    t.faultCause ∈ causesOf i ∧ t.resp = s.resp

/-- R250. How BUS_STATE moves under every command run whole that does not halt: the rows of the table
for commands, and no other change. (IRQ_ENTRY: the bus statements above.) -/
def Obligations.BusStateMoves : Prop :=
  ∀ (i : Instr) (s t : State), s.accepts = true → i ≠ .irqEntry → exec i s = .next t →
    t.halted = false → t.busState = busAfter i s.busState t.resp

/-- R32, R250. No command run whole, IRQ_ENTRY's dispatcher run included, reads BUS_STATE: two states that
differ only in it give outcomes that differ only in it. -/
def Obligations.BusStateUnread : Prop :=
  ∀ (i : Instr) (s : State) (b : BusState),
    forgetBusOutcome (exec i { s with busState := b }) = forgetBusOutcome (exec i s)

/-- R301. A halted block stays as it is under every step but a power cycle: its own state, the
peripheral fields only it writes, no event appended, no command taken, no byte stored by it. That a step
with no turn left is the outcome fault `halted` is the model's choice of log entries 4 and 6. -/
def Obligations.HaltedForGood : Prop :=
  ∀ s : State, s.halted = true →
    (s.turns = [] → step s = .fault (.halted s.faultCause)) ∧
    (∀ t, step s = .next t → (∀ p ts, s.turns ≠ .powerOn p :: ts) →
      SameBlock s t ∧ SameOwned s.pi t.pi ∧ (t.events = s.events ∨ t.events = s.events.tail) ∧
      (t.port = s.port ∨ ∃ w, t.port = s.port ++ [w]) ∧
      ((∀ a v ts, s.turns ≠ .store a v :: ts) → t.mem = s.mem))

/-- R34. The cause is recorded exactly while the block is halted, whatever steps are taken. -/
def Obligations.FaultRecordedKept : Prop :=
  ∀ s t : State, FaultRecorded s → step s = .next t → FaultRecorded t

/-- R63, R340. Power-on gives the block's own state its reset values whatever it was, halted or not (that a
power cycle may come in any state is log entry 21). -/
def Obligations.PowerOnState : Prop :=
  ∀ (s : State) (p : Pi) (ts : List Turn), s.turns = .powerOn p :: ts →
    ∃ t, step s = .next t ∧
      (∀ n d, t.recAt n d = ⟨0, 0, 0⟩) ∧ t.ep0Pending = ⟨0, 0⟩ ∧ t.allocWords = 0 ∧
      (∀ n : EpNum, t.txfValid[n] = false) ∧ t.setupBuf0 = 0 ∧ t.setupBuf1 = 0 ∧
      t.busState = .disconnected ∧ t.irqEn = false ∧ t.halted = false ∧
      t.faultCause = .noFault ∧ t.ctx = .idle ∧ t.events = [] ∧ t.resp = .ok

/-- Every step of the machine keeps buffer memory in its canonical form. -/
def Obligations.MemoryFormKept : Prop :=
  ∀ s t : State, Memory.wf s.mem = true → step s = .next t → Memory.wf t.mem = true

/-- R14, R199. Every quantity stays within the width of its field: under every command run whole, under
every dispatcher run taken whole, under every move of the environment, and at every power-on, whatever
values it draws. (The numbered steps of the turn `block` are not spoken of: their operands stand in
CTX.) -/
def Obligations.WidthsKept : Prop :=
  ∀ s : State, s.cfg.ok = true → Fits s →
    (∀ (i : Instr) (t : State), i.wellFormed = true → exec i s = .next t → Fits t) ∧
    Fits (runInterrupt s) ∧
    (∀ m : EnvMove, Fits (envMove m s)) ∧
    (∀ p : Pi, Fits (s.powerOn p))

/-- The reset state has the canonical memory, fitting widths, a sound layout and no recorded fault.
(The peripheral's widths and layout rest on the power-on values of log entry 2.) -/
def Obligations.ResetInvariants : Prop :=
  Memory.wf State.reset.mem = true ∧ Fits State.reset ∧ LayoutOk State.reset ∧
    FaultRecorded State.reset ∧ State.reset.cfg.ok = true

/-! ## The environment and the interrupt context -/

/-- R280, R282, R295. No move of the environment changes the block's own state, its events, the peripheral
fields only the block writes, or buffer memory; none clears a bus-event bit, a transfer-complete, a
SETUP-phase-done or a NAK-effective bit; and none brings the receive queue over the depth of its
FIFO. -/
def Obligations.EnvironmentKeepsBlock : Prop :=
  ∀ (m : EnvMove) (s t : State), envMove m s = t →
    SameBlock s t ∧ SameOwned s.pi t.pi ∧ t.events = s.events ∧ t.mem = s.mem ∧ t.cfg = s.cfg ∧
    (s.pi.rxq.length ≤ s.pi.rxfDepth → t.pi.rxq.length ≤ t.pi.rxfDepth) ∧
    (s.pi.gint.reset = true → t.pi.gint.reset = true) ∧
    (s.pi.gint.enumDone = true → t.pi.gint.enumDone = true) ∧
    (s.pi.gint.suspend = true → t.pi.gint.suspend = true) ∧
    (s.pi.gint.resume = true → t.pi.gint.resume = true) ∧
    (s.pi.gint.disconnect = true → t.pi.gint.disconnect = true) ∧
    (∀ n d, ((s.epAt n d).xferDone = true → (t.epAt n d).xferDone = true) ∧
      ((s.epAt n d).nakEff = true → (t.epAt n d).nakEff = true)) ∧
    (∀ n : EpNum, s.pi.setupDone[n] = true → t.pi.setupDone[n] = true)

/-- R320, R321, R324, R325. When a run may start, what entry saves and changes, what return restores,
and that a run never starts inside a run. -/
def Obligations.EntryAndReturn : Prop :=
  ∀ s : State,
    (canEnterRun s = true ↔
      s.halted = false ∧ s.irqEn = true ∧ s.irqLine = true ∧
        (s.ctx = .idle ∨ ∃ p, s.ctx = .cmd p ∧ s.cfg.cmdPreemptible = true ∧ p.cmd ≠ .irqEntry)) ∧
    (∀ ts, s.turns = .irq :: ts →
      (canEnterRun s = true →
        ∃ ret, (ret = none ∧ s.ctx = .idle ∨ ∃ p, ret = some p ∧ s.ctx = .cmd p) ∧
          step s = .next { s with turns := ts, ctx := .irq .entry ret, irqDue := false }) ∧
      (canEnterRun s = false → step s = .next { s with turns := ts })) ∧
    (∀ ret l, s.halted = false → s.ctx = .irq (.steps [] l) ret →
      blockMove s = .next
        { s with ctx := match ret with | none => .idle | some p => .cmd p }) ∧
    (∀ p ret, s.ctx = .irq p ret → startRun s = s ∧ runInterrupt s = s)

/-- R321, R322, R324. A run that starts at a command boundary or in an idle block and does not halt
returns to exactly the control state it found, and leaves RESP and IRQ_EN alone. -/
def Obligations.PreemptionReturns : Prop :=
  ∀ s : State, canEnterRun s = true → (runInterrupt s).halted = false →
    (runInterrupt s).ctx = s.ctx ∧ (runInterrupt s).resp = s.resp ∧
      (runInterrupt s).irqEn = s.irqEn

end Obligations
end

