-- ==== Sys2Proof/Laws/State.lean ====
section
/-! SUPPORT. One lemma per field per update of the state: no later proof unfolds a record update. -/

namespace Sys2Proof.Machine

open Sys2Proof

/-! ### State.setRec -/

@[simp] theorem State.setRec_cfg (s : State) (n : EpNum) (d : Dir) (r : Record) :
    (s.setRec n d r).cfg = s.cfg := rfl
@[simp] theorem State.setRec_xfer (s : State) (n : EpNum) (d : Dir) (r : Record) :
    (s.setRec n d r).xfer = s.xfer.set d ((s.xfer.get d).set n r) := rfl
@[simp] theorem State.setRec_ep0Pending (s : State) (n : EpNum) (d : Dir) (r : Record) :
    (s.setRec n d r).ep0Pending = s.ep0Pending := rfl
@[simp] theorem State.setRec_allocWords (s : State) (n : EpNum) (d : Dir) (r : Record) :
    (s.setRec n d r).allocWords = s.allocWords := rfl
@[simp] theorem State.setRec_txfValid (s : State) (n : EpNum) (d : Dir) (r : Record) :
    (s.setRec n d r).txfValid = s.txfValid := rfl
@[simp] theorem State.setRec_setupBuf0 (s : State) (n : EpNum) (d : Dir) (r : Record) :
    (s.setRec n d r).setupBuf0 = s.setupBuf0 := rfl
@[simp] theorem State.setRec_setupBuf1 (s : State) (n : EpNum) (d : Dir) (r : Record) :
    (s.setRec n d r).setupBuf1 = s.setupBuf1 := rfl
@[simp] theorem State.setRec_busState (s : State) (n : EpNum) (d : Dir) (r : Record) :
    (s.setRec n d r).busState = s.busState := rfl
@[simp] theorem State.setRec_irqEn (s : State) (n : EpNum) (d : Dir) (r : Record) :
    (s.setRec n d r).irqEn = s.irqEn := rfl
@[simp] theorem State.setRec_halted (s : State) (n : EpNum) (d : Dir) (r : Record) :
    (s.setRec n d r).halted = s.halted := rfl
@[simp] theorem State.setRec_faultCause (s : State) (n : EpNum) (d : Dir) (r : Record) :
    (s.setRec n d r).faultCause = s.faultCause := rfl
@[simp] theorem State.setRec_ctx (s : State) (n : EpNum) (d : Dir) (r : Record) :
    (s.setRec n d r).ctx = s.ctx := rfl
@[simp] theorem State.setRec_events (s : State) (n : EpNum) (d : Dir) (r : Record) :
    (s.setRec n d r).events = s.events := rfl
@[simp] theorem State.setRec_resp (s : State) (n : EpNum) (d : Dir) (r : Record) :
    (s.setRec n d r).resp = s.resp := rfl
@[simp] theorem State.setRec_pi (s : State) (n : EpNum) (d : Dir) (r : Record) :
    (s.setRec n d r).pi = s.pi := rfl
@[simp] theorem State.setRec_mem (s : State) (n : EpNum) (d : Dir) (r : Record) :
    (s.setRec n d r).mem = s.mem := rfl
@[simp] theorem State.setRec_env (s : State) (n : EpNum) (d : Dir) (r : Record) :
    (s.setRec n d r).env = s.env := rfl
@[simp] theorem State.setRec_inFlight (s : State) (n : EpNum) (d : Dir) (r : Record) :
    (s.setRec n d r).inFlight = s.inFlight := rfl
@[simp] theorem State.setRec_irqDue (s : State) (n : EpNum) (d : Dir) (r : Record) :
    (s.setRec n d r).irqDue = s.irqDue := rfl
@[simp] theorem State.setRec_port (s : State) (n : EpNum) (d : Dir) (r : Record) :
    (s.setRec n d r).port = s.port := rfl
@[simp] theorem State.setRec_turns (s : State) (n : EpNum) (d : Dir) (r : Record) :
    (s.setRec n d r).turns = s.turns := rfl

/-! ### State.setEp -/

@[simp] theorem State.setEp_cfg (s : State) (n : EpNum) (d : Dir) (r : EpRegs) :
    (s.setEp n d r).cfg = s.cfg := rfl
@[simp] theorem State.setEp_xfer (s : State) (n : EpNum) (d : Dir) (r : EpRegs) :
    (s.setEp n d r).xfer = s.xfer := rfl
@[simp] theorem State.setEp_ep0Pending (s : State) (n : EpNum) (d : Dir) (r : EpRegs) :
    (s.setEp n d r).ep0Pending = s.ep0Pending := rfl
@[simp] theorem State.setEp_allocWords (s : State) (n : EpNum) (d : Dir) (r : EpRegs) :
    (s.setEp n d r).allocWords = s.allocWords := rfl
@[simp] theorem State.setEp_txfValid (s : State) (n : EpNum) (d : Dir) (r : EpRegs) :
    (s.setEp n d r).txfValid = s.txfValid := rfl
@[simp] theorem State.setEp_setupBuf0 (s : State) (n : EpNum) (d : Dir) (r : EpRegs) :
    (s.setEp n d r).setupBuf0 = s.setupBuf0 := rfl
@[simp] theorem State.setEp_setupBuf1 (s : State) (n : EpNum) (d : Dir) (r : EpRegs) :
    (s.setEp n d r).setupBuf1 = s.setupBuf1 := rfl
@[simp] theorem State.setEp_busState (s : State) (n : EpNum) (d : Dir) (r : EpRegs) :
    (s.setEp n d r).busState = s.busState := rfl
@[simp] theorem State.setEp_irqEn (s : State) (n : EpNum) (d : Dir) (r : EpRegs) :
    (s.setEp n d r).irqEn = s.irqEn := rfl
@[simp] theorem State.setEp_halted (s : State) (n : EpNum) (d : Dir) (r : EpRegs) :
    (s.setEp n d r).halted = s.halted := rfl
@[simp] theorem State.setEp_faultCause (s : State) (n : EpNum) (d : Dir) (r : EpRegs) :
    (s.setEp n d r).faultCause = s.faultCause := rfl
@[simp] theorem State.setEp_ctx (s : State) (n : EpNum) (d : Dir) (r : EpRegs) :
    (s.setEp n d r).ctx = s.ctx := rfl
@[simp] theorem State.setEp_events (s : State) (n : EpNum) (d : Dir) (r : EpRegs) :
    (s.setEp n d r).events = s.events := rfl
@[simp] theorem State.setEp_resp (s : State) (n : EpNum) (d : Dir) (r : EpRegs) :
    (s.setEp n d r).resp = s.resp := rfl
@[simp] theorem State.setEp_pi (s : State) (n : EpNum) (d : Dir) (r : EpRegs) :
    (s.setEp n d r).pi = s.pi.setEp n d r := rfl
@[simp] theorem State.setEp_mem (s : State) (n : EpNum) (d : Dir) (r : EpRegs) :
    (s.setEp n d r).mem = s.mem := rfl
@[simp] theorem State.setEp_env (s : State) (n : EpNum) (d : Dir) (r : EpRegs) :
    (s.setEp n d r).env = s.env := rfl
@[simp] theorem State.setEp_inFlight (s : State) (n : EpNum) (d : Dir) (r : EpRegs) :
    (s.setEp n d r).inFlight = s.inFlight := rfl
@[simp] theorem State.setEp_irqDue (s : State) (n : EpNum) (d : Dir) (r : EpRegs) :
    (s.setEp n d r).irqDue = s.irqDue := rfl
@[simp] theorem State.setEp_port (s : State) (n : EpNum) (d : Dir) (r : EpRegs) :
    (s.setEp n d r).port = s.port := rfl
@[simp] theorem State.setEp_turns (s : State) (n : EpNum) (d : Dir) (r : EpRegs) :
    (s.setEp n d r).turns = s.turns := rfl

/-! ### State.setEpint -/

@[simp] theorem State.setEpint_cfg (s : State) (n : EpNum) (d : Dir) (v : Bool) :
    (s.setEpint n d v).cfg = s.cfg := rfl
@[simp] theorem State.setEpint_xfer (s : State) (n : EpNum) (d : Dir) (v : Bool) :
    (s.setEpint n d v).xfer = s.xfer := rfl
@[simp] theorem State.setEpint_ep0Pending (s : State) (n : EpNum) (d : Dir) (v : Bool) :
    (s.setEpint n d v).ep0Pending = s.ep0Pending := rfl
@[simp] theorem State.setEpint_allocWords (s : State) (n : EpNum) (d : Dir) (v : Bool) :
    (s.setEpint n d v).allocWords = s.allocWords := rfl
@[simp] theorem State.setEpint_txfValid (s : State) (n : EpNum) (d : Dir) (v : Bool) :
    (s.setEpint n d v).txfValid = s.txfValid := rfl
@[simp] theorem State.setEpint_setupBuf0 (s : State) (n : EpNum) (d : Dir) (v : Bool) :
    (s.setEpint n d v).setupBuf0 = s.setupBuf0 := rfl
@[simp] theorem State.setEpint_setupBuf1 (s : State) (n : EpNum) (d : Dir) (v : Bool) :
    (s.setEpint n d v).setupBuf1 = s.setupBuf1 := rfl
@[simp] theorem State.setEpint_busState (s : State) (n : EpNum) (d : Dir) (v : Bool) :
    (s.setEpint n d v).busState = s.busState := rfl
@[simp] theorem State.setEpint_irqEn (s : State) (n : EpNum) (d : Dir) (v : Bool) :
    (s.setEpint n d v).irqEn = s.irqEn := rfl
@[simp] theorem State.setEpint_halted (s : State) (n : EpNum) (d : Dir) (v : Bool) :
    (s.setEpint n d v).halted = s.halted := rfl
@[simp] theorem State.setEpint_faultCause (s : State) (n : EpNum) (d : Dir) (v : Bool) :
    (s.setEpint n d v).faultCause = s.faultCause := rfl
@[simp] theorem State.setEpint_ctx (s : State) (n : EpNum) (d : Dir) (v : Bool) :
    (s.setEpint n d v).ctx = s.ctx := rfl
@[simp] theorem State.setEpint_events (s : State) (n : EpNum) (d : Dir) (v : Bool) :
    (s.setEpint n d v).events = s.events := rfl
@[simp] theorem State.setEpint_resp (s : State) (n : EpNum) (d : Dir) (v : Bool) :
    (s.setEpint n d v).resp = s.resp := rfl
@[simp] theorem State.setEpint_pi (s : State) (n : EpNum) (d : Dir) (v : Bool) :
    (s.setEpint n d v).pi = { s.pi with epintMsk := s.pi.epintMsk.set d ((s.pi.epintMsk.get d).set n v) } := rfl
@[simp] theorem State.setEpint_mem (s : State) (n : EpNum) (d : Dir) (v : Bool) :
    (s.setEpint n d v).mem = s.mem := rfl
@[simp] theorem State.setEpint_env (s : State) (n : EpNum) (d : Dir) (v : Bool) :
    (s.setEpint n d v).env = s.env := rfl
@[simp] theorem State.setEpint_inFlight (s : State) (n : EpNum) (d : Dir) (v : Bool) :
    (s.setEpint n d v).inFlight = s.inFlight := rfl
@[simp] theorem State.setEpint_irqDue (s : State) (n : EpNum) (d : Dir) (v : Bool) :
    (s.setEpint n d v).irqDue = s.irqDue := rfl
@[simp] theorem State.setEpint_port (s : State) (n : EpNum) (d : Dir) (v : Bool) :
    (s.setEpint n d v).port = s.port := rfl
@[simp] theorem State.setEpint_turns (s : State) (n : EpNum) (d : Dir) (v : Bool) :
    (s.setEpint n d v).turns = s.turns := rfl

/-! ### State.setTxe -/

@[simp] theorem State.setTxe_cfg (s : State) (n : EpNum) (v : Bool) :
    (s.setTxe n v).cfg = s.cfg := rfl
@[simp] theorem State.setTxe_xfer (s : State) (n : EpNum) (v : Bool) :
    (s.setTxe n v).xfer = s.xfer := rfl
@[simp] theorem State.setTxe_ep0Pending (s : State) (n : EpNum) (v : Bool) :
    (s.setTxe n v).ep0Pending = s.ep0Pending := rfl
@[simp] theorem State.setTxe_allocWords (s : State) (n : EpNum) (v : Bool) :
    (s.setTxe n v).allocWords = s.allocWords := rfl
@[simp] theorem State.setTxe_txfValid (s : State) (n : EpNum) (v : Bool) :
    (s.setTxe n v).txfValid = s.txfValid := rfl
@[simp] theorem State.setTxe_setupBuf0 (s : State) (n : EpNum) (v : Bool) :
    (s.setTxe n v).setupBuf0 = s.setupBuf0 := rfl
@[simp] theorem State.setTxe_setupBuf1 (s : State) (n : EpNum) (v : Bool) :
    (s.setTxe n v).setupBuf1 = s.setupBuf1 := rfl
@[simp] theorem State.setTxe_busState (s : State) (n : EpNum) (v : Bool) :
    (s.setTxe n v).busState = s.busState := rfl
@[simp] theorem State.setTxe_irqEn (s : State) (n : EpNum) (v : Bool) :
    (s.setTxe n v).irqEn = s.irqEn := rfl
@[simp] theorem State.setTxe_halted (s : State) (n : EpNum) (v : Bool) :
    (s.setTxe n v).halted = s.halted := rfl
@[simp] theorem State.setTxe_faultCause (s : State) (n : EpNum) (v : Bool) :
    (s.setTxe n v).faultCause = s.faultCause := rfl
@[simp] theorem State.setTxe_ctx (s : State) (n : EpNum) (v : Bool) :
    (s.setTxe n v).ctx = s.ctx := rfl
@[simp] theorem State.setTxe_events (s : State) (n : EpNum) (v : Bool) :
    (s.setTxe n v).events = s.events := rfl
@[simp] theorem State.setTxe_resp (s : State) (n : EpNum) (v : Bool) :
    (s.setTxe n v).resp = s.resp := rfl
@[simp] theorem State.setTxe_pi (s : State) (n : EpNum) (v : Bool) :
    (s.setTxe n v).pi = { s.pi with txeMsk := s.pi.txeMsk.set n v } := rfl
@[simp] theorem State.setTxe_mem (s : State) (n : EpNum) (v : Bool) :
    (s.setTxe n v).mem = s.mem := rfl
@[simp] theorem State.setTxe_env (s : State) (n : EpNum) (v : Bool) :
    (s.setTxe n v).env = s.env := rfl
@[simp] theorem State.setTxe_inFlight (s : State) (n : EpNum) (v : Bool) :
    (s.setTxe n v).inFlight = s.inFlight := rfl
@[simp] theorem State.setTxe_irqDue (s : State) (n : EpNum) (v : Bool) :
    (s.setTxe n v).irqDue = s.irqDue := rfl
@[simp] theorem State.setTxe_port (s : State) (n : EpNum) (v : Bool) :
    (s.setTxe n v).port = s.port := rfl
@[simp] theorem State.setTxe_turns (s : State) (n : EpNum) (v : Bool) :
    (s.setTxe n v).turns = s.turns := rfl

/-! ### State.setInFlight -/

@[simp] theorem State.setInFlight_cfg (s : State) (n : EpNum) (d : Dir) (v : Bool) :
    (s.setInFlight n d v).cfg = s.cfg := rfl
@[simp] theorem State.setInFlight_xfer (s : State) (n : EpNum) (d : Dir) (v : Bool) :
    (s.setInFlight n d v).xfer = s.xfer := rfl
@[simp] theorem State.setInFlight_ep0Pending (s : State) (n : EpNum) (d : Dir) (v : Bool) :
    (s.setInFlight n d v).ep0Pending = s.ep0Pending := rfl
@[simp] theorem State.setInFlight_allocWords (s : State) (n : EpNum) (d : Dir) (v : Bool) :
    (s.setInFlight n d v).allocWords = s.allocWords := rfl
@[simp] theorem State.setInFlight_txfValid (s : State) (n : EpNum) (d : Dir) (v : Bool) :
    (s.setInFlight n d v).txfValid = s.txfValid := rfl
@[simp] theorem State.setInFlight_setupBuf0 (s : State) (n : EpNum) (d : Dir) (v : Bool) :
    (s.setInFlight n d v).setupBuf0 = s.setupBuf0 := rfl
@[simp] theorem State.setInFlight_setupBuf1 (s : State) (n : EpNum) (d : Dir) (v : Bool) :
    (s.setInFlight n d v).setupBuf1 = s.setupBuf1 := rfl
@[simp] theorem State.setInFlight_busState (s : State) (n : EpNum) (d : Dir) (v : Bool) :
    (s.setInFlight n d v).busState = s.busState := rfl
@[simp] theorem State.setInFlight_irqEn (s : State) (n : EpNum) (d : Dir) (v : Bool) :
    (s.setInFlight n d v).irqEn = s.irqEn := rfl
@[simp] theorem State.setInFlight_halted (s : State) (n : EpNum) (d : Dir) (v : Bool) :
    (s.setInFlight n d v).halted = s.halted := rfl
@[simp] theorem State.setInFlight_faultCause (s : State) (n : EpNum) (d : Dir) (v : Bool) :
    (s.setInFlight n d v).faultCause = s.faultCause := rfl
@[simp] theorem State.setInFlight_ctx (s : State) (n : EpNum) (d : Dir) (v : Bool) :
    (s.setInFlight n d v).ctx = s.ctx := rfl
@[simp] theorem State.setInFlight_events (s : State) (n : EpNum) (d : Dir) (v : Bool) :
    (s.setInFlight n d v).events = s.events := rfl
@[simp] theorem State.setInFlight_resp (s : State) (n : EpNum) (d : Dir) (v : Bool) :
    (s.setInFlight n d v).resp = s.resp := rfl
@[simp] theorem State.setInFlight_pi (s : State) (n : EpNum) (d : Dir) (v : Bool) :
    (s.setInFlight n d v).pi = s.pi := rfl
@[simp] theorem State.setInFlight_mem (s : State) (n : EpNum) (d : Dir) (v : Bool) :
    (s.setInFlight n d v).mem = s.mem := rfl
@[simp] theorem State.setInFlight_env (s : State) (n : EpNum) (d : Dir) (v : Bool) :
    (s.setInFlight n d v).env = s.env := rfl
@[simp] theorem State.setInFlight_inFlight (s : State) (n : EpNum) (d : Dir) (v : Bool) :
    (s.setInFlight n d v).inFlight = s.inFlight.set d ((s.inFlight.get d).set n v) := rfl
@[simp] theorem State.setInFlight_irqDue (s : State) (n : EpNum) (d : Dir) (v : Bool) :
    (s.setInFlight n d v).irqDue = s.irqDue := rfl
@[simp] theorem State.setInFlight_port (s : State) (n : EpNum) (d : Dir) (v : Bool) :
    (s.setInFlight n d v).port = s.port := rfl
@[simp] theorem State.setInFlight_turns (s : State) (n : EpNum) (d : Dir) (v : Bool) :
    (s.setInFlight n d v).turns = s.turns := rfl

/-! ### State.setPending -/

@[simp] theorem State.setPending_cfg (s : State) (d : Dir) (v : Nat) :
    (s.setPending d v).cfg = s.cfg := rfl
@[simp] theorem State.setPending_xfer (s : State) (d : Dir) (v : Nat) :
    (s.setPending d v).xfer = s.xfer := rfl
@[simp] theorem State.setPending_ep0Pending (s : State) (d : Dir) (v : Nat) :
    (s.setPending d v).ep0Pending = s.ep0Pending.set d v := rfl
@[simp] theorem State.setPending_allocWords (s : State) (d : Dir) (v : Nat) :
    (s.setPending d v).allocWords = s.allocWords := rfl
@[simp] theorem State.setPending_txfValid (s : State) (d : Dir) (v : Nat) :
    (s.setPending d v).txfValid = s.txfValid := rfl
@[simp] theorem State.setPending_setupBuf0 (s : State) (d : Dir) (v : Nat) :
    (s.setPending d v).setupBuf0 = s.setupBuf0 := rfl
@[simp] theorem State.setPending_setupBuf1 (s : State) (d : Dir) (v : Nat) :
    (s.setPending d v).setupBuf1 = s.setupBuf1 := rfl
@[simp] theorem State.setPending_busState (s : State) (d : Dir) (v : Nat) :
    (s.setPending d v).busState = s.busState := rfl
@[simp] theorem State.setPending_irqEn (s : State) (d : Dir) (v : Nat) :
    (s.setPending d v).irqEn = s.irqEn := rfl
@[simp] theorem State.setPending_halted (s : State) (d : Dir) (v : Nat) :
    (s.setPending d v).halted = s.halted := rfl
@[simp] theorem State.setPending_faultCause (s : State) (d : Dir) (v : Nat) :
    (s.setPending d v).faultCause = s.faultCause := rfl
@[simp] theorem State.setPending_ctx (s : State) (d : Dir) (v : Nat) :
    (s.setPending d v).ctx = s.ctx := rfl
@[simp] theorem State.setPending_events (s : State) (d : Dir) (v : Nat) :
    (s.setPending d v).events = s.events := rfl
@[simp] theorem State.setPending_resp (s : State) (d : Dir) (v : Nat) :
    (s.setPending d v).resp = s.resp := rfl
@[simp] theorem State.setPending_pi (s : State) (d : Dir) (v : Nat) :
    (s.setPending d v).pi = s.pi := rfl
@[simp] theorem State.setPending_mem (s : State) (d : Dir) (v : Nat) :
    (s.setPending d v).mem = s.mem := rfl
@[simp] theorem State.setPending_env (s : State) (d : Dir) (v : Nat) :
    (s.setPending d v).env = s.env := rfl
@[simp] theorem State.setPending_inFlight (s : State) (d : Dir) (v : Nat) :
    (s.setPending d v).inFlight = s.inFlight := rfl
@[simp] theorem State.setPending_irqDue (s : State) (d : Dir) (v : Nat) :
    (s.setPending d v).irqDue = s.irqDue := rfl
@[simp] theorem State.setPending_port (s : State) (d : Dir) (v : Nat) :
    (s.setPending d v).port = s.port := rfl
@[simp] theorem State.setPending_turns (s : State) (d : Dir) (v : Nat) :
    (s.setPending d v).turns = s.turns := rfl

/-! ### State.assignTxFifo -/

@[simp] theorem State.assignTxFifo_cfg (s : State) (n : EpNum) (a k : Nat) :
    (s.assignTxFifo n a k).cfg = s.cfg := rfl
@[simp] theorem State.assignTxFifo_xfer (s : State) (n : EpNum) (a k : Nat) :
    (s.assignTxFifo n a k).xfer = s.xfer := rfl
@[simp] theorem State.assignTxFifo_ep0Pending (s : State) (n : EpNum) (a k : Nat) :
    (s.assignTxFifo n a k).ep0Pending = s.ep0Pending := rfl
@[simp] theorem State.assignTxFifo_allocWords (s : State) (n : EpNum) (a k : Nat) :
    (s.assignTxFifo n a k).allocWords = s.allocWords := rfl
@[simp] theorem State.assignTxFifo_txfValid (s : State) (n : EpNum) (a k : Nat) :
    (s.assignTxFifo n a k).txfValid = s.txfValid.set n true := rfl
@[simp] theorem State.assignTxFifo_setupBuf0 (s : State) (n : EpNum) (a k : Nat) :
    (s.assignTxFifo n a k).setupBuf0 = s.setupBuf0 := rfl
@[simp] theorem State.assignTxFifo_setupBuf1 (s : State) (n : EpNum) (a k : Nat) :
    (s.assignTxFifo n a k).setupBuf1 = s.setupBuf1 := rfl
@[simp] theorem State.assignTxFifo_busState (s : State) (n : EpNum) (a k : Nat) :
    (s.assignTxFifo n a k).busState = s.busState := rfl
@[simp] theorem State.assignTxFifo_irqEn (s : State) (n : EpNum) (a k : Nat) :
    (s.assignTxFifo n a k).irqEn = s.irqEn := rfl
@[simp] theorem State.assignTxFifo_halted (s : State) (n : EpNum) (a k : Nat) :
    (s.assignTxFifo n a k).halted = s.halted := rfl
@[simp] theorem State.assignTxFifo_faultCause (s : State) (n : EpNum) (a k : Nat) :
    (s.assignTxFifo n a k).faultCause = s.faultCause := rfl
@[simp] theorem State.assignTxFifo_ctx (s : State) (n : EpNum) (a k : Nat) :
    (s.assignTxFifo n a k).ctx = s.ctx := rfl
@[simp] theorem State.assignTxFifo_events (s : State) (n : EpNum) (a k : Nat) :
    (s.assignTxFifo n a k).events = s.events := rfl
@[simp] theorem State.assignTxFifo_resp (s : State) (n : EpNum) (a k : Nat) :
    (s.assignTxFifo n a k).resp = s.resp := rfl
@[simp] theorem State.assignTxFifo_pi (s : State) (n : EpNum) (a k : Nat) :
    (s.assignTxFifo n a k).pi = { s.pi with txf := s.pi.txf.set n ⟨a, k⟩ } := rfl
@[simp] theorem State.assignTxFifo_mem (s : State) (n : EpNum) (a k : Nat) :
    (s.assignTxFifo n a k).mem = s.mem := rfl
@[simp] theorem State.assignTxFifo_env (s : State) (n : EpNum) (a k : Nat) :
    (s.assignTxFifo n a k).env = s.env := rfl
@[simp] theorem State.assignTxFifo_inFlight (s : State) (n : EpNum) (a k : Nat) :
    (s.assignTxFifo n a k).inFlight = s.inFlight := rfl
@[simp] theorem State.assignTxFifo_irqDue (s : State) (n : EpNum) (a k : Nat) :
    (s.assignTxFifo n a k).irqDue = s.irqDue := rfl
@[simp] theorem State.assignTxFifo_port (s : State) (n : EpNum) (a k : Nat) :
    (s.assignTxFifo n a k).port = s.port := rfl
@[simp] theorem State.assignTxFifo_turns (s : State) (n : EpNum) (a k : Nat) :
    (s.assignTxFifo n a k).turns = s.turns := rfl

/-! ### State.emit -/

@[simp] theorem State.emit_cfg (s : State) (e : Event) : (s.emit e).cfg = s.cfg := rfl
@[simp] theorem State.emit_xfer (s : State) (e : Event) : (s.emit e).xfer = s.xfer := rfl
@[simp] theorem State.emit_ep0Pending (s : State) (e : Event) :
    (s.emit e).ep0Pending = s.ep0Pending := rfl
@[simp] theorem State.emit_allocWords (s : State) (e : Event) :
    (s.emit e).allocWords = s.allocWords := rfl
@[simp] theorem State.emit_txfValid (s : State) (e : Event) :
    (s.emit e).txfValid = s.txfValid := rfl
@[simp] theorem State.emit_setupBuf0 (s : State) (e : Event) :
    (s.emit e).setupBuf0 = s.setupBuf0 := rfl
@[simp] theorem State.emit_setupBuf1 (s : State) (e : Event) :
    (s.emit e).setupBuf1 = s.setupBuf1 := rfl
@[simp] theorem State.emit_busState (s : State) (e : Event) :
    (s.emit e).busState = s.busState := rfl
@[simp] theorem State.emit_irqEn (s : State) (e : Event) : (s.emit e).irqEn = s.irqEn := rfl
@[simp] theorem State.emit_halted (s : State) (e : Event) : (s.emit e).halted = s.halted := rfl
@[simp] theorem State.emit_faultCause (s : State) (e : Event) :
    (s.emit e).faultCause = s.faultCause := rfl
@[simp] theorem State.emit_ctx (s : State) (e : Event) : (s.emit e).ctx = s.ctx := rfl
@[simp] theorem State.emit_events (s : State) (e : Event) :
    (s.emit e).events = s.events ++ [e] := rfl
@[simp] theorem State.emit_resp (s : State) (e : Event) : (s.emit e).resp = s.resp := rfl
@[simp] theorem State.emit_pi (s : State) (e : Event) : (s.emit e).pi = s.pi := rfl
@[simp] theorem State.emit_mem (s : State) (e : Event) : (s.emit e).mem = s.mem := rfl
@[simp] theorem State.emit_env (s : State) (e : Event) : (s.emit e).env = s.env := rfl
@[simp] theorem State.emit_inFlight (s : State) (e : Event) :
    (s.emit e).inFlight = s.inFlight := rfl
@[simp] theorem State.emit_irqDue (s : State) (e : Event) : (s.emit e).irqDue = s.irqDue := rfl
@[simp] theorem State.emit_port (s : State) (e : Event) : (s.emit e).port = s.port := rfl
@[simp] theorem State.emit_turns (s : State) (e : Event) : (s.emit e).turns = s.turns := rfl

/-! ### State.raiseFault -/

@[simp] theorem State.raiseFault_cfg (s : State) (c : FaultCause) :
    (s.raiseFault c).cfg = s.cfg := rfl
@[simp] theorem State.raiseFault_xfer (s : State) (c : FaultCause) :
    (s.raiseFault c).xfer = s.xfer := rfl
@[simp] theorem State.raiseFault_ep0Pending (s : State) (c : FaultCause) :
    (s.raiseFault c).ep0Pending = s.ep0Pending := rfl
@[simp] theorem State.raiseFault_allocWords (s : State) (c : FaultCause) :
    (s.raiseFault c).allocWords = s.allocWords := rfl
@[simp] theorem State.raiseFault_txfValid (s : State) (c : FaultCause) :
    (s.raiseFault c).txfValid = s.txfValid := rfl
@[simp] theorem State.raiseFault_setupBuf0 (s : State) (c : FaultCause) :
    (s.raiseFault c).setupBuf0 = s.setupBuf0 := rfl
@[simp] theorem State.raiseFault_setupBuf1 (s : State) (c : FaultCause) :
    (s.raiseFault c).setupBuf1 = s.setupBuf1 := rfl
@[simp] theorem State.raiseFault_busState (s : State) (c : FaultCause) :
    (s.raiseFault c).busState = s.busState := rfl
@[simp] theorem State.raiseFault_irqEn (s : State) (c : FaultCause) :
    (s.raiseFault c).irqEn = s.irqEn := rfl
@[simp] theorem State.raiseFault_halted (s : State) (c : FaultCause) :
    (s.raiseFault c).halted = true := rfl
@[simp] theorem State.raiseFault_faultCause (s : State) (c : FaultCause) :
    (s.raiseFault c).faultCause = c := rfl
@[simp] theorem State.raiseFault_ctx (s : State) (c : FaultCause) :
    (s.raiseFault c).ctx = s.ctx := rfl
@[simp] theorem State.raiseFault_events (s : State) (c : FaultCause) :
    (s.raiseFault c).events = s.events := rfl
@[simp] theorem State.raiseFault_resp (s : State) (c : FaultCause) :
    (s.raiseFault c).resp = s.resp := rfl
@[simp] theorem State.raiseFault_pi (s : State) (c : FaultCause) : (s.raiseFault c).pi = s.pi := rfl
@[simp] theorem State.raiseFault_mem (s : State) (c : FaultCause) :
    (s.raiseFault c).mem = s.mem := rfl
@[simp] theorem State.raiseFault_env (s : State) (c : FaultCause) :
    (s.raiseFault c).env = s.env := rfl
@[simp] theorem State.raiseFault_inFlight (s : State) (c : FaultCause) :
    (s.raiseFault c).inFlight = s.inFlight := rfl
@[simp] theorem State.raiseFault_irqDue (s : State) (c : FaultCause) :
    (s.raiseFault c).irqDue = s.irqDue := rfl
@[simp] theorem State.raiseFault_port (s : State) (c : FaultCause) :
    (s.raiseFault c).port = s.port := rfl
@[simp] theorem State.raiseFault_turns (s : State) (c : FaultCause) :
    (s.raiseFault c).turns = s.turns := rfl

/-! ### State.enterRun -/

@[simp] theorem State.enterRun_cfg (s : State) (ret : Option CmdPos) :
    (s.enterRun ret).cfg = s.cfg := rfl
@[simp] theorem State.enterRun_xfer (s : State) (ret : Option CmdPos) :
    (s.enterRun ret).xfer = s.xfer := rfl
@[simp] theorem State.enterRun_ep0Pending (s : State) (ret : Option CmdPos) :
    (s.enterRun ret).ep0Pending = s.ep0Pending := rfl
@[simp] theorem State.enterRun_allocWords (s : State) (ret : Option CmdPos) :
    (s.enterRun ret).allocWords = s.allocWords := rfl
@[simp] theorem State.enterRun_txfValid (s : State) (ret : Option CmdPos) :
    (s.enterRun ret).txfValid = s.txfValid := rfl
@[simp] theorem State.enterRun_setupBuf0 (s : State) (ret : Option CmdPos) :
    (s.enterRun ret).setupBuf0 = s.setupBuf0 := rfl
@[simp] theorem State.enterRun_setupBuf1 (s : State) (ret : Option CmdPos) :
    (s.enterRun ret).setupBuf1 = s.setupBuf1 := rfl
@[simp] theorem State.enterRun_busState (s : State) (ret : Option CmdPos) :
    (s.enterRun ret).busState = s.busState := rfl
@[simp] theorem State.enterRun_irqEn (s : State) (ret : Option CmdPos) :
    (s.enterRun ret).irqEn = s.irqEn := rfl
@[simp] theorem State.enterRun_halted (s : State) (ret : Option CmdPos) :
    (s.enterRun ret).halted = s.halted := rfl
@[simp] theorem State.enterRun_faultCause (s : State) (ret : Option CmdPos) :
    (s.enterRun ret).faultCause = s.faultCause := rfl
@[simp] theorem State.enterRun_ctx (s : State) (ret : Option CmdPos) :
    (s.enterRun ret).ctx = .irq .entry ret := rfl
@[simp] theorem State.enterRun_events (s : State) (ret : Option CmdPos) :
    (s.enterRun ret).events = s.events := rfl
@[simp] theorem State.enterRun_resp (s : State) (ret : Option CmdPos) :
    (s.enterRun ret).resp = s.resp := rfl
@[simp] theorem State.enterRun_pi (s : State) (ret : Option CmdPos) :
    (s.enterRun ret).pi = s.pi := rfl
@[simp] theorem State.enterRun_mem (s : State) (ret : Option CmdPos) :
    (s.enterRun ret).mem = s.mem := rfl
@[simp] theorem State.enterRun_env (s : State) (ret : Option CmdPos) :
    (s.enterRun ret).env = s.env := rfl
@[simp] theorem State.enterRun_inFlight (s : State) (ret : Option CmdPos) :
    (s.enterRun ret).inFlight = s.inFlight := rfl
@[simp] theorem State.enterRun_irqDue (s : State) (ret : Option CmdPos) :
    (s.enterRun ret).irqDue = false := rfl
@[simp] theorem State.enterRun_port (s : State) (ret : Option CmdPos) :
    (s.enterRun ret).port = s.port := rfl
@[simp] theorem State.enterRun_turns (s : State) (ret : Option CmdPos) :
    (s.enterRun ret).turns = s.turns := rfl

/-! ### State.leaveRun -/

@[simp] theorem State.leaveRun_cfg (s : State) (ret : Option CmdPos) :
    (s.leaveRun ret).cfg = s.cfg := rfl
@[simp] theorem State.leaveRun_xfer (s : State) (ret : Option CmdPos) :
    (s.leaveRun ret).xfer = s.xfer := rfl
@[simp] theorem State.leaveRun_ep0Pending (s : State) (ret : Option CmdPos) :
    (s.leaveRun ret).ep0Pending = s.ep0Pending := rfl
@[simp] theorem State.leaveRun_allocWords (s : State) (ret : Option CmdPos) :
    (s.leaveRun ret).allocWords = s.allocWords := rfl
@[simp] theorem State.leaveRun_txfValid (s : State) (ret : Option CmdPos) :
    (s.leaveRun ret).txfValid = s.txfValid := rfl
@[simp] theorem State.leaveRun_setupBuf0 (s : State) (ret : Option CmdPos) :
    (s.leaveRun ret).setupBuf0 = s.setupBuf0 := rfl
@[simp] theorem State.leaveRun_setupBuf1 (s : State) (ret : Option CmdPos) :
    (s.leaveRun ret).setupBuf1 = s.setupBuf1 := rfl
@[simp] theorem State.leaveRun_busState (s : State) (ret : Option CmdPos) :
    (s.leaveRun ret).busState = s.busState := rfl
@[simp] theorem State.leaveRun_irqEn (s : State) (ret : Option CmdPos) :
    (s.leaveRun ret).irqEn = s.irqEn := rfl
@[simp] theorem State.leaveRun_halted (s : State) (ret : Option CmdPos) :
    (s.leaveRun ret).halted = s.halted := rfl
@[simp] theorem State.leaveRun_faultCause (s : State) (ret : Option CmdPos) :
    (s.leaveRun ret).faultCause = s.faultCause := rfl
@[simp] theorem State.leaveRun_ctx (s : State) (ret : Option CmdPos) :
    (s.leaveRun ret).ctx = retCtx ret := rfl
@[simp] theorem State.leaveRun_events (s : State) (ret : Option CmdPos) :
    (s.leaveRun ret).events = s.events := rfl
@[simp] theorem State.leaveRun_resp (s : State) (ret : Option CmdPos) :
    (s.leaveRun ret).resp = s.resp := rfl
@[simp] theorem State.leaveRun_pi (s : State) (ret : Option CmdPos) :
    (s.leaveRun ret).pi = s.pi := rfl
@[simp] theorem State.leaveRun_mem (s : State) (ret : Option CmdPos) :
    (s.leaveRun ret).mem = s.mem := rfl
@[simp] theorem State.leaveRun_env (s : State) (ret : Option CmdPos) :
    (s.leaveRun ret).env = s.env := rfl
@[simp] theorem State.leaveRun_inFlight (s : State) (ret : Option CmdPos) :
    (s.leaveRun ret).inFlight = s.inFlight := rfl
@[simp] theorem State.leaveRun_irqDue (s : State) (ret : Option CmdPos) :
    (s.leaveRun ret).irqDue = s.irqDue := rfl
@[simp] theorem State.leaveRun_port (s : State) (ret : Option CmdPos) :
    (s.leaveRun ret).port = s.port := rfl
@[simp] theorem State.leaveRun_turns (s : State) (ret : Option CmdPos) :
    (s.leaveRun ret).turns = s.turns := rfl

/-! ### State.respond -/

@[simp] theorem State.respond_cfg (s : State) (r : Resp) : (s.respond r).cfg = s.cfg := rfl
@[simp] theorem State.respond_xfer (s : State) (r : Resp) : (s.respond r).xfer = s.xfer := rfl
@[simp] theorem State.respond_ep0Pending (s : State) (r : Resp) :
    (s.respond r).ep0Pending = s.ep0Pending := rfl
@[simp] theorem State.respond_allocWords (s : State) (r : Resp) :
    (s.respond r).allocWords = s.allocWords := rfl
@[simp] theorem State.respond_txfValid (s : State) (r : Resp) :
    (s.respond r).txfValid = s.txfValid := rfl
@[simp] theorem State.respond_setupBuf0 (s : State) (r : Resp) :
    (s.respond r).setupBuf0 = s.setupBuf0 := rfl
@[simp] theorem State.respond_setupBuf1 (s : State) (r : Resp) :
    (s.respond r).setupBuf1 = s.setupBuf1 := rfl
@[simp] theorem State.respond_busState (s : State) (r : Resp) :
    (s.respond r).busState = s.busState := rfl
@[simp] theorem State.respond_irqEn (s : State) (r : Resp) : (s.respond r).irqEn = s.irqEn := rfl
@[simp] theorem State.respond_halted (s : State) (r : Resp) : (s.respond r).halted = s.halted := rfl
@[simp] theorem State.respond_faultCause (s : State) (r : Resp) :
    (s.respond r).faultCause = s.faultCause := rfl
@[simp] theorem State.respond_ctx (s : State) (r : Resp) : (s.respond r).ctx = .idle := rfl
@[simp] theorem State.respond_events (s : State) (r : Resp) : (s.respond r).events = s.events := rfl
@[simp] theorem State.respond_resp (s : State) (r : Resp) : (s.respond r).resp = r := rfl
@[simp] theorem State.respond_pi (s : State) (r : Resp) : (s.respond r).pi = s.pi := rfl
@[simp] theorem State.respond_mem (s : State) (r : Resp) : (s.respond r).mem = s.mem := rfl
@[simp] theorem State.respond_env (s : State) (r : Resp) : (s.respond r).env = s.env := rfl
@[simp] theorem State.respond_inFlight (s : State) (r : Resp) :
    (s.respond r).inFlight = s.inFlight := rfl
@[simp] theorem State.respond_irqDue (s : State) (r : Resp) : (s.respond r).irqDue = s.irqDue := rfl
@[simp] theorem State.respond_port (s : State) (r : Resp) : (s.respond r).port = s.port := rfl
@[simp] theorem State.respond_turns (s : State) (r : Resp) : (s.respond r).turns = s.turns := rfl

/-! ### State.ackGlobal -/

@[simp] theorem State.ackGlobal_cfg (s : State) (e : BusEvent) : (s.ackGlobal e).cfg = s.cfg := rfl
@[simp] theorem State.ackGlobal_xfer (s : State) (e : BusEvent) :
    (s.ackGlobal e).xfer = s.xfer := rfl
@[simp] theorem State.ackGlobal_ep0Pending (s : State) (e : BusEvent) :
    (s.ackGlobal e).ep0Pending = s.ep0Pending := rfl
@[simp] theorem State.ackGlobal_allocWords (s : State) (e : BusEvent) :
    (s.ackGlobal e).allocWords = s.allocWords := rfl
@[simp] theorem State.ackGlobal_txfValid (s : State) (e : BusEvent) :
    (s.ackGlobal e).txfValid = s.txfValid := rfl
@[simp] theorem State.ackGlobal_setupBuf0 (s : State) (e : BusEvent) :
    (s.ackGlobal e).setupBuf0 = s.setupBuf0 := rfl
@[simp] theorem State.ackGlobal_setupBuf1 (s : State) (e : BusEvent) :
    (s.ackGlobal e).setupBuf1 = s.setupBuf1 := rfl
@[simp] theorem State.ackGlobal_busState (s : State) (e : BusEvent) :
    (s.ackGlobal e).busState = s.busState := rfl
@[simp] theorem State.ackGlobal_irqEn (s : State) (e : BusEvent) :
    (s.ackGlobal e).irqEn = s.irqEn := rfl
@[simp] theorem State.ackGlobal_halted (s : State) (e : BusEvent) :
    (s.ackGlobal e).halted = s.halted := rfl
@[simp] theorem State.ackGlobal_faultCause (s : State) (e : BusEvent) :
    (s.ackGlobal e).faultCause = s.faultCause := rfl
@[simp] theorem State.ackGlobal_ctx (s : State) (e : BusEvent) : (s.ackGlobal e).ctx = s.ctx := rfl
@[simp] theorem State.ackGlobal_events (s : State) (e : BusEvent) :
    (s.ackGlobal e).events = s.events := rfl
@[simp] theorem State.ackGlobal_resp (s : State) (e : BusEvent) :
    (s.ackGlobal e).resp = s.resp := rfl
@[simp] theorem State.ackGlobal_pi (s : State) (e : BusEvent) :
    (s.ackGlobal e).pi = { s.pi with gint := s.pi.gint.ack e } := rfl
@[simp] theorem State.ackGlobal_mem (s : State) (e : BusEvent) : (s.ackGlobal e).mem = s.mem := rfl
@[simp] theorem State.ackGlobal_env (s : State) (e : BusEvent) : (s.ackGlobal e).env = s.env := rfl
@[simp] theorem State.ackGlobal_inFlight (s : State) (e : BusEvent) :
    (s.ackGlobal e).inFlight = s.inFlight := rfl
@[simp] theorem State.ackGlobal_irqDue (s : State) (e : BusEvent) :
    (s.ackGlobal e).irqDue = s.irqDue := rfl
@[simp] theorem State.ackGlobal_port (s : State) (e : BusEvent) :
    (s.ackGlobal e).port = s.port := rfl
@[simp] theorem State.ackGlobal_turns (s : State) (e : BusEvent) :
    (s.ackGlobal e).turns = s.turns := rfl

/-! ### State.setRxDepth -/

@[simp] theorem State.setRxDepth_cfg (s : State) (v : Nat) : (s.setRxDepth v).cfg = s.cfg := rfl
@[simp] theorem State.setRxDepth_xfer (s : State) (v : Nat) : (s.setRxDepth v).xfer = s.xfer := rfl
@[simp] theorem State.setRxDepth_ep0Pending (s : State) (v : Nat) :
    (s.setRxDepth v).ep0Pending = s.ep0Pending := rfl
@[simp] theorem State.setRxDepth_allocWords (s : State) (v : Nat) :
    (s.setRxDepth v).allocWords = s.allocWords := rfl
@[simp] theorem State.setRxDepth_txfValid (s : State) (v : Nat) :
    (s.setRxDepth v).txfValid = s.txfValid := rfl
@[simp] theorem State.setRxDepth_setupBuf0 (s : State) (v : Nat) :
    (s.setRxDepth v).setupBuf0 = s.setupBuf0 := rfl
@[simp] theorem State.setRxDepth_setupBuf1 (s : State) (v : Nat) :
    (s.setRxDepth v).setupBuf1 = s.setupBuf1 := rfl
@[simp] theorem State.setRxDepth_busState (s : State) (v : Nat) :
    (s.setRxDepth v).busState = s.busState := rfl
@[simp] theorem State.setRxDepth_irqEn (s : State) (v : Nat) :
    (s.setRxDepth v).irqEn = s.irqEn := rfl
@[simp] theorem State.setRxDepth_halted (s : State) (v : Nat) :
    (s.setRxDepth v).halted = s.halted := rfl
@[simp] theorem State.setRxDepth_faultCause (s : State) (v : Nat) :
    (s.setRxDepth v).faultCause = s.faultCause := rfl
@[simp] theorem State.setRxDepth_ctx (s : State) (v : Nat) : (s.setRxDepth v).ctx = s.ctx := rfl
@[simp] theorem State.setRxDepth_events (s : State) (v : Nat) :
    (s.setRxDepth v).events = s.events := rfl
@[simp] theorem State.setRxDepth_resp (s : State) (v : Nat) : (s.setRxDepth v).resp = s.resp := rfl
@[simp] theorem State.setRxDepth_pi (s : State) (v : Nat) :
    (s.setRxDepth v).pi = { s.pi with rxfDepth := v } := rfl
@[simp] theorem State.setRxDepth_mem (s : State) (v : Nat) : (s.setRxDepth v).mem = s.mem := rfl
@[simp] theorem State.setRxDepth_env (s : State) (v : Nat) : (s.setRxDepth v).env = s.env := rfl
@[simp] theorem State.setRxDepth_inFlight (s : State) (v : Nat) :
    (s.setRxDepth v).inFlight = s.inFlight := rfl
@[simp] theorem State.setRxDepth_irqDue (s : State) (v : Nat) :
    (s.setRxDepth v).irqDue = s.irqDue := rfl
@[simp] theorem State.setRxDepth_port (s : State) (v : Nat) : (s.setRxDepth v).port = s.port := rfl
@[simp] theorem State.setRxDepth_turns (s : State) (v : Nat) :
    (s.setRxDepth v).turns = s.turns := rfl

/-! ### State.setTxf -/

@[simp] theorem State.setTxf_cfg (s : State) (n : EpNum) (a k : Nat) :
    (s.setTxf n a k).cfg = s.cfg := rfl
@[simp] theorem State.setTxf_xfer (s : State) (n : EpNum) (a k : Nat) :
    (s.setTxf n a k).xfer = s.xfer := rfl
@[simp] theorem State.setTxf_ep0Pending (s : State) (n : EpNum) (a k : Nat) :
    (s.setTxf n a k).ep0Pending = s.ep0Pending := rfl
@[simp] theorem State.setTxf_allocWords (s : State) (n : EpNum) (a k : Nat) :
    (s.setTxf n a k).allocWords = s.allocWords := rfl
@[simp] theorem State.setTxf_txfValid (s : State) (n : EpNum) (a k : Nat) :
    (s.setTxf n a k).txfValid = s.txfValid := rfl
@[simp] theorem State.setTxf_setupBuf0 (s : State) (n : EpNum) (a k : Nat) :
    (s.setTxf n a k).setupBuf0 = s.setupBuf0 := rfl
@[simp] theorem State.setTxf_setupBuf1 (s : State) (n : EpNum) (a k : Nat) :
    (s.setTxf n a k).setupBuf1 = s.setupBuf1 := rfl
@[simp] theorem State.setTxf_busState (s : State) (n : EpNum) (a k : Nat) :
    (s.setTxf n a k).busState = s.busState := rfl
@[simp] theorem State.setTxf_irqEn (s : State) (n : EpNum) (a k : Nat) :
    (s.setTxf n a k).irqEn = s.irqEn := rfl
@[simp] theorem State.setTxf_halted (s : State) (n : EpNum) (a k : Nat) :
    (s.setTxf n a k).halted = s.halted := rfl
@[simp] theorem State.setTxf_faultCause (s : State) (n : EpNum) (a k : Nat) :
    (s.setTxf n a k).faultCause = s.faultCause := rfl
@[simp] theorem State.setTxf_ctx (s : State) (n : EpNum) (a k : Nat) :
    (s.setTxf n a k).ctx = s.ctx := rfl
@[simp] theorem State.setTxf_events (s : State) (n : EpNum) (a k : Nat) :
    (s.setTxf n a k).events = s.events := rfl
@[simp] theorem State.setTxf_resp (s : State) (n : EpNum) (a k : Nat) :
    (s.setTxf n a k).resp = s.resp := rfl
@[simp] theorem State.setTxf_pi (s : State) (n : EpNum) (a k : Nat) :
    (s.setTxf n a k).pi = { s.pi with txf := s.pi.txf.set n ⟨a, k⟩ } := rfl
@[simp] theorem State.setTxf_mem (s : State) (n : EpNum) (a k : Nat) :
    (s.setTxf n a k).mem = s.mem := rfl
@[simp] theorem State.setTxf_env (s : State) (n : EpNum) (a k : Nat) :
    (s.setTxf n a k).env = s.env := rfl
@[simp] theorem State.setTxf_inFlight (s : State) (n : EpNum) (a k : Nat) :
    (s.setTxf n a k).inFlight = s.inFlight := rfl
@[simp] theorem State.setTxf_irqDue (s : State) (n : EpNum) (a k : Nat) :
    (s.setTxf n a k).irqDue = s.irqDue := rfl
@[simp] theorem State.setTxf_port (s : State) (n : EpNum) (a k : Nat) :
    (s.setTxf n a k).port = s.port := rfl
@[simp] theorem State.setTxf_turns (s : State) (n : EpNum) (a k : Nat) :
    (s.setTxf n a k).turns = s.turns := rfl

/-! ### State.setAllocWords -/

@[simp] theorem State.setAllocWords_cfg (s : State) (v : Nat) :
    (s.setAllocWords v).cfg = s.cfg := rfl
@[simp] theorem State.setAllocWords_xfer (s : State) (v : Nat) :
    (s.setAllocWords v).xfer = s.xfer := rfl
@[simp] theorem State.setAllocWords_ep0Pending (s : State) (v : Nat) :
    (s.setAllocWords v).ep0Pending = s.ep0Pending := rfl
@[simp] theorem State.setAllocWords_allocWords (s : State) (v : Nat) :
    (s.setAllocWords v).allocWords = v := rfl
@[simp] theorem State.setAllocWords_txfValid (s : State) (v : Nat) :
    (s.setAllocWords v).txfValid = s.txfValid := rfl
@[simp] theorem State.setAllocWords_setupBuf0 (s : State) (v : Nat) :
    (s.setAllocWords v).setupBuf0 = s.setupBuf0 := rfl
@[simp] theorem State.setAllocWords_setupBuf1 (s : State) (v : Nat) :
    (s.setAllocWords v).setupBuf1 = s.setupBuf1 := rfl
@[simp] theorem State.setAllocWords_busState (s : State) (v : Nat) :
    (s.setAllocWords v).busState = s.busState := rfl
@[simp] theorem State.setAllocWords_irqEn (s : State) (v : Nat) :
    (s.setAllocWords v).irqEn = s.irqEn := rfl
@[simp] theorem State.setAllocWords_halted (s : State) (v : Nat) :
    (s.setAllocWords v).halted = s.halted := rfl
@[simp] theorem State.setAllocWords_faultCause (s : State) (v : Nat) :
    (s.setAllocWords v).faultCause = s.faultCause := rfl
@[simp] theorem State.setAllocWords_ctx (s : State) (v : Nat) :
    (s.setAllocWords v).ctx = s.ctx := rfl
@[simp] theorem State.setAllocWords_events (s : State) (v : Nat) :
    (s.setAllocWords v).events = s.events := rfl
@[simp] theorem State.setAllocWords_resp (s : State) (v : Nat) :
    (s.setAllocWords v).resp = s.resp := rfl
@[simp] theorem State.setAllocWords_pi (s : State) (v : Nat) : (s.setAllocWords v).pi = s.pi := rfl
@[simp] theorem State.setAllocWords_mem (s : State) (v : Nat) :
    (s.setAllocWords v).mem = s.mem := rfl
@[simp] theorem State.setAllocWords_env (s : State) (v : Nat) :
    (s.setAllocWords v).env = s.env := rfl
@[simp] theorem State.setAllocWords_inFlight (s : State) (v : Nat) :
    (s.setAllocWords v).inFlight = s.inFlight := rfl
@[simp] theorem State.setAllocWords_irqDue (s : State) (v : Nat) :
    (s.setAllocWords v).irqDue = s.irqDue := rfl
@[simp] theorem State.setAllocWords_port (s : State) (v : Nat) :
    (s.setAllocWords v).port = s.port := rfl
@[simp] theorem State.setAllocWords_turns (s : State) (v : Nat) :
    (s.setAllocWords v).turns = s.turns := rfl

/-! ### State.setBusState -/

@[simp] theorem State.setBusState_cfg (s : State) (b : BusState) :
    (s.setBusState b).cfg = s.cfg := rfl
@[simp] theorem State.setBusState_xfer (s : State) (b : BusState) :
    (s.setBusState b).xfer = s.xfer := rfl
@[simp] theorem State.setBusState_ep0Pending (s : State) (b : BusState) :
    (s.setBusState b).ep0Pending = s.ep0Pending := rfl
@[simp] theorem State.setBusState_allocWords (s : State) (b : BusState) :
    (s.setBusState b).allocWords = s.allocWords := rfl
@[simp] theorem State.setBusState_txfValid (s : State) (b : BusState) :
    (s.setBusState b).txfValid = s.txfValid := rfl
@[simp] theorem State.setBusState_setupBuf0 (s : State) (b : BusState) :
    (s.setBusState b).setupBuf0 = s.setupBuf0 := rfl
@[simp] theorem State.setBusState_setupBuf1 (s : State) (b : BusState) :
    (s.setBusState b).setupBuf1 = s.setupBuf1 := rfl
@[simp] theorem State.setBusState_busState (s : State) (b : BusState) :
    (s.setBusState b).busState = b := rfl
@[simp] theorem State.setBusState_irqEn (s : State) (b : BusState) :
    (s.setBusState b).irqEn = s.irqEn := rfl
@[simp] theorem State.setBusState_halted (s : State) (b : BusState) :
    (s.setBusState b).halted = s.halted := rfl
@[simp] theorem State.setBusState_faultCause (s : State) (b : BusState) :
    (s.setBusState b).faultCause = s.faultCause := rfl
@[simp] theorem State.setBusState_ctx (s : State) (b : BusState) :
    (s.setBusState b).ctx = s.ctx := rfl
@[simp] theorem State.setBusState_events (s : State) (b : BusState) :
    (s.setBusState b).events = s.events := rfl
@[simp] theorem State.setBusState_resp (s : State) (b : BusState) :
    (s.setBusState b).resp = s.resp := rfl
@[simp] theorem State.setBusState_pi (s : State) (b : BusState) : (s.setBusState b).pi = s.pi := rfl
@[simp] theorem State.setBusState_mem (s : State) (b : BusState) :
    (s.setBusState b).mem = s.mem := rfl
@[simp] theorem State.setBusState_env (s : State) (b : BusState) :
    (s.setBusState b).env = s.env := rfl
@[simp] theorem State.setBusState_inFlight (s : State) (b : BusState) :
    (s.setBusState b).inFlight = s.inFlight := rfl
@[simp] theorem State.setBusState_irqDue (s : State) (b : BusState) :
    (s.setBusState b).irqDue = s.irqDue := rfl
@[simp] theorem State.setBusState_port (s : State) (b : BusState) :
    (s.setBusState b).port = s.port := rfl
@[simp] theorem State.setBusState_turns (s : State) (b : BusState) :
    (s.setBusState b).turns = s.turns := rfl

/-! ### State.setDevaddr -/

@[simp] theorem State.setDevaddr_cfg (s : State) (a : BitVec 7) :
    (s.setDevaddr a).cfg = s.cfg := rfl
@[simp] theorem State.setDevaddr_xfer (s : State) (a : BitVec 7) :
    (s.setDevaddr a).xfer = s.xfer := rfl
@[simp] theorem State.setDevaddr_ep0Pending (s : State) (a : BitVec 7) :
    (s.setDevaddr a).ep0Pending = s.ep0Pending := rfl
@[simp] theorem State.setDevaddr_allocWords (s : State) (a : BitVec 7) :
    (s.setDevaddr a).allocWords = s.allocWords := rfl
@[simp] theorem State.setDevaddr_txfValid (s : State) (a : BitVec 7) :
    (s.setDevaddr a).txfValid = s.txfValid := rfl
@[simp] theorem State.setDevaddr_setupBuf0 (s : State) (a : BitVec 7) :
    (s.setDevaddr a).setupBuf0 = s.setupBuf0 := rfl
@[simp] theorem State.setDevaddr_setupBuf1 (s : State) (a : BitVec 7) :
    (s.setDevaddr a).setupBuf1 = s.setupBuf1 := rfl
@[simp] theorem State.setDevaddr_busState (s : State) (a : BitVec 7) :
    (s.setDevaddr a).busState = s.busState := rfl
@[simp] theorem State.setDevaddr_irqEn (s : State) (a : BitVec 7) :
    (s.setDevaddr a).irqEn = s.irqEn := rfl
@[simp] theorem State.setDevaddr_halted (s : State) (a : BitVec 7) :
    (s.setDevaddr a).halted = s.halted := rfl
@[simp] theorem State.setDevaddr_faultCause (s : State) (a : BitVec 7) :
    (s.setDevaddr a).faultCause = s.faultCause := rfl
@[simp] theorem State.setDevaddr_ctx (s : State) (a : BitVec 7) :
    (s.setDevaddr a).ctx = s.ctx := rfl
@[simp] theorem State.setDevaddr_events (s : State) (a : BitVec 7) :
    (s.setDevaddr a).events = s.events := rfl
@[simp] theorem State.setDevaddr_resp (s : State) (a : BitVec 7) :
    (s.setDevaddr a).resp = s.resp := rfl
@[simp] theorem State.setDevaddr_pi (s : State) (a : BitVec 7) :
    (s.setDevaddr a).pi = { s.pi with devaddr := a } := rfl
@[simp] theorem State.setDevaddr_mem (s : State) (a : BitVec 7) :
    (s.setDevaddr a).mem = s.mem := rfl
@[simp] theorem State.setDevaddr_env (s : State) (a : BitVec 7) :
    (s.setDevaddr a).env = s.env := rfl
@[simp] theorem State.setDevaddr_inFlight (s : State) (a : BitVec 7) :
    (s.setDevaddr a).inFlight = s.inFlight := rfl
@[simp] theorem State.setDevaddr_irqDue (s : State) (a : BitVec 7) :
    (s.setDevaddr a).irqDue = s.irqDue := rfl
@[simp] theorem State.setDevaddr_port (s : State) (a : BitVec 7) :
    (s.setDevaddr a).port = s.port := rfl
@[simp] theorem State.setDevaddr_turns (s : State) (a : BitVec 7) :
    (s.setDevaddr a).turns = s.turns := rfl

/-! ### State.setSoftdisc -/

@[simp] theorem State.setSoftdisc_cfg (s : State) (v : Bool) : (s.setSoftdisc v).cfg = s.cfg := rfl
@[simp] theorem State.setSoftdisc_xfer (s : State) (v : Bool) :
    (s.setSoftdisc v).xfer = s.xfer := rfl
@[simp] theorem State.setSoftdisc_ep0Pending (s : State) (v : Bool) :
    (s.setSoftdisc v).ep0Pending = s.ep0Pending := rfl
@[simp] theorem State.setSoftdisc_allocWords (s : State) (v : Bool) :
    (s.setSoftdisc v).allocWords = s.allocWords := rfl
@[simp] theorem State.setSoftdisc_txfValid (s : State) (v : Bool) :
    (s.setSoftdisc v).txfValid = s.txfValid := rfl
@[simp] theorem State.setSoftdisc_setupBuf0 (s : State) (v : Bool) :
    (s.setSoftdisc v).setupBuf0 = s.setupBuf0 := rfl
@[simp] theorem State.setSoftdisc_setupBuf1 (s : State) (v : Bool) :
    (s.setSoftdisc v).setupBuf1 = s.setupBuf1 := rfl
@[simp] theorem State.setSoftdisc_busState (s : State) (v : Bool) :
    (s.setSoftdisc v).busState = s.busState := rfl
@[simp] theorem State.setSoftdisc_irqEn (s : State) (v : Bool) :
    (s.setSoftdisc v).irqEn = s.irqEn := rfl
@[simp] theorem State.setSoftdisc_halted (s : State) (v : Bool) :
    (s.setSoftdisc v).halted = s.halted := rfl
@[simp] theorem State.setSoftdisc_faultCause (s : State) (v : Bool) :
    (s.setSoftdisc v).faultCause = s.faultCause := rfl
@[simp] theorem State.setSoftdisc_ctx (s : State) (v : Bool) : (s.setSoftdisc v).ctx = s.ctx := rfl
@[simp] theorem State.setSoftdisc_events (s : State) (v : Bool) :
    (s.setSoftdisc v).events = s.events := rfl
@[simp] theorem State.setSoftdisc_resp (s : State) (v : Bool) :
    (s.setSoftdisc v).resp = s.resp := rfl
@[simp] theorem State.setSoftdisc_pi (s : State) (v : Bool) :
    (s.setSoftdisc v).pi = { s.pi with softdisc := v } := rfl
@[simp] theorem State.setSoftdisc_mem (s : State) (v : Bool) : (s.setSoftdisc v).mem = s.mem := rfl
@[simp] theorem State.setSoftdisc_env (s : State) (v : Bool) : (s.setSoftdisc v).env = s.env := rfl
@[simp] theorem State.setSoftdisc_inFlight (s : State) (v : Bool) :
    (s.setSoftdisc v).inFlight = s.inFlight := rfl
@[simp] theorem State.setSoftdisc_irqDue (s : State) (v : Bool) :
    (s.setSoftdisc v).irqDue = s.irqDue := rfl
@[simp] theorem State.setSoftdisc_port (s : State) (v : Bool) :
    (s.setSoftdisc v).port = s.port := rfl
@[simp] theorem State.setSoftdisc_turns (s : State) (v : Bool) :
    (s.setSoftdisc v).turns = s.turns := rfl

/-! ### State.emitComplete -/

@[simp] theorem State.emitComplete_cfg (s : State) (n : EpNum) (d : Dir) :
    (s.emitComplete n d).cfg = s.cfg := rfl
@[simp] theorem State.emitComplete_xfer (s : State) (n : EpNum) (d : Dir) :
    (s.emitComplete n d).xfer = s.xfer := rfl
@[simp] theorem State.emitComplete_ep0Pending (s : State) (n : EpNum) (d : Dir) :
    (s.emitComplete n d).ep0Pending = s.ep0Pending := rfl
@[simp] theorem State.emitComplete_allocWords (s : State) (n : EpNum) (d : Dir) :
    (s.emitComplete n d).allocWords = s.allocWords := rfl
@[simp] theorem State.emitComplete_txfValid (s : State) (n : EpNum) (d : Dir) :
    (s.emitComplete n d).txfValid = s.txfValid := rfl
@[simp] theorem State.emitComplete_setupBuf0 (s : State) (n : EpNum) (d : Dir) :
    (s.emitComplete n d).setupBuf0 = s.setupBuf0 := rfl
@[simp] theorem State.emitComplete_setupBuf1 (s : State) (n : EpNum) (d : Dir) :
    (s.emitComplete n d).setupBuf1 = s.setupBuf1 := rfl
@[simp] theorem State.emitComplete_busState (s : State) (n : EpNum) (d : Dir) :
    (s.emitComplete n d).busState = s.busState := rfl
@[simp] theorem State.emitComplete_irqEn (s : State) (n : EpNum) (d : Dir) :
    (s.emitComplete n d).irqEn = s.irqEn := rfl
@[simp] theorem State.emitComplete_halted (s : State) (n : EpNum) (d : Dir) :
    (s.emitComplete n d).halted = s.halted := rfl
@[simp] theorem State.emitComplete_faultCause (s : State) (n : EpNum) (d : Dir) :
    (s.emitComplete n d).faultCause = s.faultCause := rfl
@[simp] theorem State.emitComplete_ctx (s : State) (n : EpNum) (d : Dir) :
    (s.emitComplete n d).ctx = s.ctx := rfl
@[simp] theorem State.emitComplete_events (s : State) (n : EpNum) (d : Dir) :
    (s.emitComplete n d).events = s.events ++ [.xferComplete n d (s.recAt n d).totalLen] := rfl
@[simp] theorem State.emitComplete_resp (s : State) (n : EpNum) (d : Dir) :
    (s.emitComplete n d).resp = s.resp := rfl
@[simp] theorem State.emitComplete_pi (s : State) (n : EpNum) (d : Dir) :
    (s.emitComplete n d).pi = s.pi := rfl
@[simp] theorem State.emitComplete_mem (s : State) (n : EpNum) (d : Dir) :
    (s.emitComplete n d).mem = s.mem := rfl
@[simp] theorem State.emitComplete_env (s : State) (n : EpNum) (d : Dir) :
    (s.emitComplete n d).env = s.env := rfl
@[simp] theorem State.emitComplete_inFlight (s : State) (n : EpNum) (d : Dir) :
    (s.emitComplete n d).inFlight = s.inFlight.set d ((s.inFlight.get d).set n (s.inFlightAt n d && s.lateAt n d)) := rfl
@[simp] theorem State.emitComplete_irqDue (s : State) (n : EpNum) (d : Dir) :
    (s.emitComplete n d).irqDue = s.irqDue := rfl
@[simp] theorem State.emitComplete_port (s : State) (n : EpNum) (d : Dir) :
    (s.emitComplete n d).port = s.port := rfl
@[simp] theorem State.emitComplete_turns (s : State) (n : EpNum) (d : Dir) :
    (s.emitComplete n d).turns = s.turns := rfl

/-! ### State.ageDone -/

@[simp] theorem State.ageDone_cfg (s : State) (who : EpNum → Dir → Bool) :
    (s.ageDone who).cfg = s.cfg := by simp only [State.ageDone]
@[simp] theorem State.ageDone_xfer (s : State) (who : EpNum → Dir → Bool) :
    (s.ageDone who).xfer = s.xfer := by simp only [State.ageDone]
@[simp] theorem State.ageDone_ep0Pending (s : State) (who : EpNum → Dir → Bool) :
    (s.ageDone who).ep0Pending = s.ep0Pending := by simp only [State.ageDone]
@[simp] theorem State.ageDone_allocWords (s : State) (who : EpNum → Dir → Bool) :
    (s.ageDone who).allocWords = s.allocWords := by simp only [State.ageDone]
@[simp] theorem State.ageDone_txfValid (s : State) (who : EpNum → Dir → Bool) :
    (s.ageDone who).txfValid = s.txfValid := by simp only [State.ageDone]
@[simp] theorem State.ageDone_setupBuf0 (s : State) (who : EpNum → Dir → Bool) :
    (s.ageDone who).setupBuf0 = s.setupBuf0 := by simp only [State.ageDone]
@[simp] theorem State.ageDone_setupBuf1 (s : State) (who : EpNum → Dir → Bool) :
    (s.ageDone who).setupBuf1 = s.setupBuf1 := by simp only [State.ageDone]
@[simp] theorem State.ageDone_busState (s : State) (who : EpNum → Dir → Bool) :
    (s.ageDone who).busState = s.busState := by simp only [State.ageDone]
@[simp] theorem State.ageDone_irqEn (s : State) (who : EpNum → Dir → Bool) :
    (s.ageDone who).irqEn = s.irqEn := by simp only [State.ageDone]
@[simp] theorem State.ageDone_halted (s : State) (who : EpNum → Dir → Bool) :
    (s.ageDone who).halted = s.halted := by simp only [State.ageDone]
@[simp] theorem State.ageDone_faultCause (s : State) (who : EpNum → Dir → Bool) :
    (s.ageDone who).faultCause = s.faultCause := by simp only [State.ageDone]
@[simp] theorem State.ageDone_ctx (s : State) (who : EpNum → Dir → Bool) :
    (s.ageDone who).ctx = s.ctx := by simp only [State.ageDone]
@[simp] theorem State.ageDone_events (s : State) (who : EpNum → Dir → Bool) :
    (s.ageDone who).events = s.events := by simp only [State.ageDone]
@[simp] theorem State.ageDone_resp (s : State) (who : EpNum → Dir → Bool) :
    (s.ageDone who).resp = s.resp := by simp only [State.ageDone]
@[simp] theorem State.ageDone_pi (s : State) (who : EpNum → Dir → Bool) :
    (s.ageDone who).pi = s.pi := by simp only [State.ageDone]
@[simp] theorem State.ageDone_mem (s : State) (who : EpNum → Dir → Bool) :
    (s.ageDone who).mem = s.mem := by simp only [State.ageDone]
@[simp] theorem State.ageDone_inFlight (s : State) (who : EpNum → Dir → Bool) :
    (s.ageDone who).inFlight = s.inFlight := by simp only [State.ageDone]
@[simp] theorem State.ageDone_irqDue (s : State) (who : EpNum → Dir → Bool) :
    (s.ageDone who).irqDue = s.irqDue := by simp only [State.ageDone]
@[simp] theorem State.ageDone_port (s : State) (who : EpNum → Dir → Bool) :
    (s.ageDone who).port = s.port := by simp only [State.ageDone]
@[simp] theorem State.ageDone_turns (s : State) (who : EpNum → Dir → Bool) :
    (s.ageDone who).turns = s.turns := by simp only [State.ageDone]

/-! ### State.hush -/

@[simp] theorem State.hush_cfg (s : State) (who : EpNum → Dir → Bool) :
    (s.hush who).cfg = s.cfg := by simp only [State.hush, State.ageDone]
@[simp] theorem State.hush_xfer (s : State) (who : EpNum → Dir → Bool) :
    (s.hush who).xfer = s.xfer := by simp only [State.hush, State.ageDone]
@[simp] theorem State.hush_ep0Pending (s : State) (who : EpNum → Dir → Bool) :
    (s.hush who).ep0Pending = s.ep0Pending := by simp only [State.hush, State.ageDone]
@[simp] theorem State.hush_allocWords (s : State) (who : EpNum → Dir → Bool) :
    (s.hush who).allocWords = s.allocWords := by simp only [State.hush, State.ageDone]
@[simp] theorem State.hush_txfValid (s : State) (who : EpNum → Dir → Bool) :
    (s.hush who).txfValid = s.txfValid := by simp only [State.hush, State.ageDone]
@[simp] theorem State.hush_setupBuf0 (s : State) (who : EpNum → Dir → Bool) :
    (s.hush who).setupBuf0 = s.setupBuf0 := by simp only [State.hush, State.ageDone]
@[simp] theorem State.hush_setupBuf1 (s : State) (who : EpNum → Dir → Bool) :
    (s.hush who).setupBuf1 = s.setupBuf1 := by simp only [State.hush, State.ageDone]
@[simp] theorem State.hush_busState (s : State) (who : EpNum → Dir → Bool) :
    (s.hush who).busState = s.busState := by simp only [State.hush, State.ageDone]
@[simp] theorem State.hush_irqEn (s : State) (who : EpNum → Dir → Bool) :
    (s.hush who).irqEn = s.irqEn := by simp only [State.hush, State.ageDone]
@[simp] theorem State.hush_halted (s : State) (who : EpNum → Dir → Bool) :
    (s.hush who).halted = s.halted := by simp only [State.hush, State.ageDone]
@[simp] theorem State.hush_faultCause (s : State) (who : EpNum → Dir → Bool) :
    (s.hush who).faultCause = s.faultCause := by simp only [State.hush, State.ageDone]
@[simp] theorem State.hush_ctx (s : State) (who : EpNum → Dir → Bool) :
    (s.hush who).ctx = s.ctx := by simp only [State.hush, State.ageDone]
@[simp] theorem State.hush_events (s : State) (who : EpNum → Dir → Bool) :
    (s.hush who).events = s.events := by simp only [State.hush, State.ageDone]
@[simp] theorem State.hush_resp (s : State) (who : EpNum → Dir → Bool) :
    (s.hush who).resp = s.resp := by simp only [State.hush, State.ageDone]
@[simp] theorem State.hush_pi (s : State) (who : EpNum → Dir → Bool) :
    (s.hush who).pi = s.pi := by simp only [State.hush, State.ageDone]
@[simp] theorem State.hush_mem (s : State) (who : EpNum → Dir → Bool) :
    (s.hush who).mem = s.mem := by simp only [State.hush, State.ageDone]
@[simp] theorem State.hush_inFlight (s : State) (who : EpNum → Dir → Bool) :
    (s.hush who).inFlight = s.inFlight := by simp only [State.hush, State.ageDone]
@[simp] theorem State.hush_irqDue (s : State) (who : EpNum → Dir → Bool) :
    (s.hush who).irqDue = s.irqDue := by simp only [State.hush, State.ageDone]
@[simp] theorem State.hush_port (s : State) (who : EpNum → Dir → Bool) :
    (s.hush who).port = s.port := by simp only [State.hush, State.ageDone]
@[simp] theorem State.hush_turns (s : State) (who : EpNum → Dir → Bool) :
    (s.hush who).turns = s.turns := by simp only [State.hush, State.ageDone]

/-! ### State.signalDone -/

@[simp] theorem State.signalDone_cfg (s : State) (n : EpNum) (d : Dir) (late : Bool) :
    (s.signalDone n d late).cfg = s.cfg := rfl
@[simp] theorem State.signalDone_xfer (s : State) (n : EpNum) (d : Dir) (late : Bool) :
    (s.signalDone n d late).xfer = s.xfer := rfl
@[simp] theorem State.signalDone_ep0Pending (s : State) (n : EpNum) (d : Dir) (late : Bool) :
    (s.signalDone n d late).ep0Pending = s.ep0Pending := rfl
@[simp] theorem State.signalDone_allocWords (s : State) (n : EpNum) (d : Dir) (late : Bool) :
    (s.signalDone n d late).allocWords = s.allocWords := rfl
@[simp] theorem State.signalDone_txfValid (s : State) (n : EpNum) (d : Dir) (late : Bool) :
    (s.signalDone n d late).txfValid = s.txfValid := rfl
@[simp] theorem State.signalDone_setupBuf0 (s : State) (n : EpNum) (d : Dir) (late : Bool) :
    (s.signalDone n d late).setupBuf0 = s.setupBuf0 := rfl
@[simp] theorem State.signalDone_setupBuf1 (s : State) (n : EpNum) (d : Dir) (late : Bool) :
    (s.signalDone n d late).setupBuf1 = s.setupBuf1 := rfl
@[simp] theorem State.signalDone_busState (s : State) (n : EpNum) (d : Dir) (late : Bool) :
    (s.signalDone n d late).busState = s.busState := rfl
@[simp] theorem State.signalDone_irqEn (s : State) (n : EpNum) (d : Dir) (late : Bool) :
    (s.signalDone n d late).irqEn = s.irqEn := rfl
@[simp] theorem State.signalDone_halted (s : State) (n : EpNum) (d : Dir) (late : Bool) :
    (s.signalDone n d late).halted = s.halted := rfl
@[simp] theorem State.signalDone_faultCause (s : State) (n : EpNum) (d : Dir) (late : Bool) :
    (s.signalDone n d late).faultCause = s.faultCause := rfl
@[simp] theorem State.signalDone_ctx (s : State) (n : EpNum) (d : Dir) (late : Bool) :
    (s.signalDone n d late).ctx = s.ctx := rfl
@[simp] theorem State.signalDone_events (s : State) (n : EpNum) (d : Dir) (late : Bool) :
    (s.signalDone n d late).events = s.events := rfl
@[simp] theorem State.signalDone_resp (s : State) (n : EpNum) (d : Dir) (late : Bool) :
    (s.signalDone n d late).resp = s.resp := rfl
@[simp] theorem State.signalDone_pi (s : State) (n : EpNum) (d : Dir) (late : Bool) :
    (s.signalDone n d late).pi = s.pi.setEp n d { s.epAt n d with xferDone := true } := rfl
@[simp] theorem State.signalDone_mem (s : State) (n : EpNum) (d : Dir) (late : Bool) :
    (s.signalDone n d late).mem = s.mem := rfl
@[simp] theorem State.signalDone_inFlight (s : State) (n : EpNum) (d : Dir) (late : Bool) :
    (s.signalDone n d late).inFlight = s.inFlight := rfl
@[simp] theorem State.signalDone_irqDue (s : State) (n : EpNum) (d : Dir) (late : Bool) :
    (s.signalDone n d late).irqDue = s.irqDue := rfl
@[simp] theorem State.signalDone_port (s : State) (n : EpNum) (d : Dir) (late : Bool) :
    (s.signalDone n d late).port = s.port := rfl
@[simp] theorem State.signalDone_turns (s : State) (n : EpNum) (d : Dir) (late : Bool) :
    (s.signalDone n d late).turns = s.turns := rfl

/-! ### State.armSize -/

@[simp] theorem State.armSize_cfg (s : State) (n : EpNum) (d : Dir) (pk b : Nat) :
    (s.armSize n d pk b).cfg = s.cfg := by cases d <;> rfl
@[simp] theorem State.armSize_xfer (s : State) (n : EpNum) (d : Dir) (pk b : Nat) :
    (s.armSize n d pk b).xfer = s.xfer := by cases d <;> rfl
@[simp] theorem State.armSize_ep0Pending (s : State) (n : EpNum) (d : Dir) (pk b : Nat) :
    (s.armSize n d pk b).ep0Pending = s.ep0Pending := by cases d <;> rfl
@[simp] theorem State.armSize_allocWords (s : State) (n : EpNum) (d : Dir) (pk b : Nat) :
    (s.armSize n d pk b).allocWords = s.allocWords := by cases d <;> rfl
@[simp] theorem State.armSize_txfValid (s : State) (n : EpNum) (d : Dir) (pk b : Nat) :
    (s.armSize n d pk b).txfValid = s.txfValid := by cases d <;> rfl
@[simp] theorem State.armSize_setupBuf0 (s : State) (n : EpNum) (d : Dir) (pk b : Nat) :
    (s.armSize n d pk b).setupBuf0 = s.setupBuf0 := by cases d <;> rfl
@[simp] theorem State.armSize_setupBuf1 (s : State) (n : EpNum) (d : Dir) (pk b : Nat) :
    (s.armSize n d pk b).setupBuf1 = s.setupBuf1 := by cases d <;> rfl
@[simp] theorem State.armSize_busState (s : State) (n : EpNum) (d : Dir) (pk b : Nat) :
    (s.armSize n d pk b).busState = s.busState := by cases d <;> rfl
@[simp] theorem State.armSize_irqEn (s : State) (n : EpNum) (d : Dir) (pk b : Nat) :
    (s.armSize n d pk b).irqEn = s.irqEn := by cases d <;> rfl
@[simp] theorem State.armSize_halted (s : State) (n : EpNum) (d : Dir) (pk b : Nat) :
    (s.armSize n d pk b).halted = s.halted := by cases d <;> rfl
@[simp] theorem State.armSize_faultCause (s : State) (n : EpNum) (d : Dir) (pk b : Nat) :
    (s.armSize n d pk b).faultCause = s.faultCause := by cases d <;> rfl
@[simp] theorem State.armSize_ctx (s : State) (n : EpNum) (d : Dir) (pk b : Nat) :
    (s.armSize n d pk b).ctx = s.ctx := by cases d <;> rfl
@[simp] theorem State.armSize_events (s : State) (n : EpNum) (d : Dir) (pk b : Nat) :
    (s.armSize n d pk b).events = s.events := by cases d <;> rfl
@[simp] theorem State.armSize_resp (s : State) (n : EpNum) (d : Dir) (pk b : Nat) :
    (s.armSize n d pk b).resp = s.resp := by cases d <;> rfl
@[simp] theorem State.armSize_pi (s : State) (n : EpNum) (d : Dir) (pk b : Nat) :
    (s.armSize n d pk b).pi = s.pi.setEp n d { s.epAt n d with pktcnt := pk, xfrsiz := b } := by cases d <;> rfl
@[simp] theorem State.armSize_mem (s : State) (n : EpNum) (d : Dir) (pk b : Nat) :
    (s.armSize n d pk b).mem = s.mem := by cases d <;> rfl
@[simp] theorem State.armSize_inFlight (s : State) (n : EpNum) (d : Dir) (pk b : Nat) :
    (s.armSize n d pk b).inFlight = s.inFlight := by cases d <;> rfl
@[simp] theorem State.armSize_irqDue (s : State) (n : EpNum) (d : Dir) (pk b : Nat) :
    (s.armSize n d pk b).irqDue = s.irqDue := by cases d <;> rfl
@[simp] theorem State.armSize_port (s : State) (n : EpNum) (d : Dir) (pk b : Nat) :
    (s.armSize n d pk b).port = s.port := by cases d <;> rfl
@[simp] theorem State.armSize_turns (s : State) (n : EpNum) (d : Dir) (pk b : Nat) :
    (s.armSize n d pk b).turns = s.turns := by cases d <;> rfl

/-! ### State.armEnable -/

@[simp] theorem State.armEnable_cfg (s : State) (n : EpNum) (d : Dir) :
    (s.armEnable n d).cfg = s.cfg := by cases d <;> rfl
@[simp] theorem State.armEnable_xfer (s : State) (n : EpNum) (d : Dir) :
    (s.armEnable n d).xfer = s.xfer := by cases d <;> rfl
@[simp] theorem State.armEnable_ep0Pending (s : State) (n : EpNum) (d : Dir) :
    (s.armEnable n d).ep0Pending = s.ep0Pending := by cases d <;> rfl
@[simp] theorem State.armEnable_allocWords (s : State) (n : EpNum) (d : Dir) :
    (s.armEnable n d).allocWords = s.allocWords := by cases d <;> rfl
@[simp] theorem State.armEnable_txfValid (s : State) (n : EpNum) (d : Dir) :
    (s.armEnable n d).txfValid = s.txfValid := by cases d <;> rfl
@[simp] theorem State.armEnable_setupBuf0 (s : State) (n : EpNum) (d : Dir) :
    (s.armEnable n d).setupBuf0 = s.setupBuf0 := by cases d <;> rfl
@[simp] theorem State.armEnable_setupBuf1 (s : State) (n : EpNum) (d : Dir) :
    (s.armEnable n d).setupBuf1 = s.setupBuf1 := by cases d <;> rfl
@[simp] theorem State.armEnable_busState (s : State) (n : EpNum) (d : Dir) :
    (s.armEnable n d).busState = s.busState := by cases d <;> rfl
@[simp] theorem State.armEnable_irqEn (s : State) (n : EpNum) (d : Dir) :
    (s.armEnable n d).irqEn = s.irqEn := by cases d <;> rfl
@[simp] theorem State.armEnable_halted (s : State) (n : EpNum) (d : Dir) :
    (s.armEnable n d).halted = s.halted := by cases d <;> rfl
@[simp] theorem State.armEnable_faultCause (s : State) (n : EpNum) (d : Dir) :
    (s.armEnable n d).faultCause = s.faultCause := by cases d <;> rfl
@[simp] theorem State.armEnable_ctx (s : State) (n : EpNum) (d : Dir) :
    (s.armEnable n d).ctx = s.ctx := by cases d <;> rfl
@[simp] theorem State.armEnable_events (s : State) (n : EpNum) (d : Dir) :
    (s.armEnable n d).events = s.events := by cases d <;> rfl
@[simp] theorem State.armEnable_resp (s : State) (n : EpNum) (d : Dir) :
    (s.armEnable n d).resp = s.resp := by cases d <;> rfl
@[simp] theorem State.armEnable_pi (s : State) (n : EpNum) (d : Dir) :
    (s.armEnable n d).pi = s.pi.setEp n d { s.epAt n d with stall := false, nak := false, ena := true } := by cases d <;> rfl
@[simp] theorem State.armEnable_mem (s : State) (n : EpNum) (d : Dir) :
    (s.armEnable n d).mem = s.mem := by cases d <;> rfl
@[simp] theorem State.armEnable_inFlight (s : State) (n : EpNum) (d : Dir) :
    (s.armEnable n d).inFlight = s.inFlight := by cases d <;> rfl
@[simp] theorem State.armEnable_irqDue (s : State) (n : EpNum) (d : Dir) :
    (s.armEnable n d).irqDue = s.irqDue := by cases d <;> rfl
@[simp] theorem State.armEnable_port (s : State) (n : EpNum) (d : Dir) :
    (s.armEnable n d).port = s.port := by cases d <;> rfl
@[simp] theorem State.armEnable_turns (s : State) (n : EpNum) (d : Dir) :
    (s.armEnable n d).turns = s.turns := by cases d <;> rfl

/-! ### State.armTxe -/

@[simp] theorem State.armTxe_cfg (s : State) (n : EpNum) (d : Dir) (b : Nat) :
    (s.armTxe n d b).cfg = s.cfg := by
  cases d <;> by_cases h : b = 0 <;> simp [State.armTxe, h]
@[simp] theorem State.armTxe_xfer (s : State) (n : EpNum) (d : Dir) (b : Nat) :
    (s.armTxe n d b).xfer = s.xfer := by
  cases d <;> by_cases h : b = 0 <;> simp [State.armTxe, h]
@[simp] theorem State.armTxe_ep0Pending (s : State) (n : EpNum) (d : Dir) (b : Nat) :
    (s.armTxe n d b).ep0Pending = s.ep0Pending := by
  cases d <;> by_cases h : b = 0 <;> simp [State.armTxe, h]
@[simp] theorem State.armTxe_allocWords (s : State) (n : EpNum) (d : Dir) (b : Nat) :
    (s.armTxe n d b).allocWords = s.allocWords := by
  cases d <;> by_cases h : b = 0 <;> simp [State.armTxe, h]
@[simp] theorem State.armTxe_txfValid (s : State) (n : EpNum) (d : Dir) (b : Nat) :
    (s.armTxe n d b).txfValid = s.txfValid := by
  cases d <;> by_cases h : b = 0 <;> simp [State.armTxe, h]
@[simp] theorem State.armTxe_setupBuf0 (s : State) (n : EpNum) (d : Dir) (b : Nat) :
    (s.armTxe n d b).setupBuf0 = s.setupBuf0 := by
  cases d <;> by_cases h : b = 0 <;> simp [State.armTxe, h]
@[simp] theorem State.armTxe_setupBuf1 (s : State) (n : EpNum) (d : Dir) (b : Nat) :
    (s.armTxe n d b).setupBuf1 = s.setupBuf1 := by
  cases d <;> by_cases h : b = 0 <;> simp [State.armTxe, h]
@[simp] theorem State.armTxe_busState (s : State) (n : EpNum) (d : Dir) (b : Nat) :
    (s.armTxe n d b).busState = s.busState := by
  cases d <;> by_cases h : b = 0 <;> simp [State.armTxe, h]
@[simp] theorem State.armTxe_irqEn (s : State) (n : EpNum) (d : Dir) (b : Nat) :
    (s.armTxe n d b).irqEn = s.irqEn := by
  cases d <;> by_cases h : b = 0 <;> simp [State.armTxe, h]
@[simp] theorem State.armTxe_halted (s : State) (n : EpNum) (d : Dir) (b : Nat) :
    (s.armTxe n d b).halted = s.halted := by
  cases d <;> by_cases h : b = 0 <;> simp [State.armTxe, h]
@[simp] theorem State.armTxe_faultCause (s : State) (n : EpNum) (d : Dir) (b : Nat) :
    (s.armTxe n d b).faultCause = s.faultCause := by
  cases d <;> by_cases h : b = 0 <;> simp [State.armTxe, h]
@[simp] theorem State.armTxe_ctx (s : State) (n : EpNum) (d : Dir) (b : Nat) :
    (s.armTxe n d b).ctx = s.ctx := by
  cases d <;> by_cases h : b = 0 <;> simp [State.armTxe, h]
@[simp] theorem State.armTxe_events (s : State) (n : EpNum) (d : Dir) (b : Nat) :
    (s.armTxe n d b).events = s.events := by
  cases d <;> by_cases h : b = 0 <;> simp [State.armTxe, h]
@[simp] theorem State.armTxe_resp (s : State) (n : EpNum) (d : Dir) (b : Nat) :
    (s.armTxe n d b).resp = s.resp := by
  cases d <;> by_cases h : b = 0 <;> simp [State.armTxe, h]
@[simp] theorem State.armTxe_pi (s : State) (n : EpNum) (d : Dir) (b : Nat) :
    (s.armTxe n d b).pi = if d = .inn ∧ b ≠ 0 then { s.pi with txeMsk := s.pi.txeMsk.set n true } else s.pi := by
  cases d <;> by_cases h : b = 0 <;> simp [State.armTxe, h]
@[simp] theorem State.armTxe_mem (s : State) (n : EpNum) (d : Dir) (b : Nat) :
    (s.armTxe n d b).mem = s.mem := by
  cases d <;> by_cases h : b = 0 <;> simp [State.armTxe, h]
@[simp] theorem State.armTxe_env (s : State) (n : EpNum) (d : Dir) (b : Nat) :
    (s.armTxe n d b).env = s.env := by
  cases d <;> by_cases h : b = 0 <;> simp [State.armTxe, h]
@[simp] theorem State.armTxe_inFlight (s : State) (n : EpNum) (d : Dir) (b : Nat) :
    (s.armTxe n d b).inFlight = s.inFlight := by
  cases d <;> by_cases h : b = 0 <;> simp [State.armTxe, h]
@[simp] theorem State.armTxe_irqDue (s : State) (n : EpNum) (d : Dir) (b : Nat) :
    (s.armTxe n d b).irqDue = s.irqDue := by
  cases d <;> by_cases h : b = 0 <;> simp [State.armTxe, h]
@[simp] theorem State.armTxe_port (s : State) (n : EpNum) (d : Dir) (b : Nat) :
    (s.armTxe n d b).port = s.port := by
  cases d <;> by_cases h : b = 0 <;> simp [State.armTxe, h]
@[simp] theorem State.armTxe_turns (s : State) (n : EpNum) (d : Dir) (b : Nat) :
    (s.armTxe n d b).turns = s.turns := by
  cases d <;> by_cases h : b = 0 <;> simp [State.armTxe, h]

/-! ### Pi.setEp -/

@[simp] theorem Pi.setEp_gint (p : Pi) (n : EpNum) (d : Dir) (r : EpRegs) :
    (p.setEp n d r).gint = p.gint := rfl
@[simp] theorem Pi.setEp_gmsk (p : Pi) (n : EpNum) (d : Dir) (r : EpRegs) :
    (p.setEp n d r).gmsk = p.gmsk := rfl
@[simp] theorem Pi.setEp_epintMsk (p : Pi) (n : EpNum) (d : Dir) (r : EpRegs) :
    (p.setEp n d r).epintMsk = p.epintMsk := rfl
@[simp] theorem Pi.setEp_oepSrcMsk (p : Pi) (n : EpNum) (d : Dir) (r : EpRegs) :
    (p.setEp n d r).oepSrcMsk = p.oepSrcMsk := rfl
@[simp] theorem Pi.setEp_iepSrcMsk (p : Pi) (n : EpNum) (d : Dir) (r : EpRegs) :
    (p.setEp n d r).iepSrcMsk = p.iepSrcMsk := rfl
@[simp] theorem Pi.setEp_txeMsk (p : Pi) (n : EpNum) (d : Dir) (r : EpRegs) :
    (p.setEp n d r).txeMsk = p.txeMsk := rfl
@[simp] theorem Pi.setEp_speed (p : Pi) (n : EpNum) (d : Dir) (r : EpRegs) :
    (p.setEp n d r).speed = p.speed := rfl
@[simp] theorem Pi.setEp_turnaround (p : Pi) (n : EpNum) (d : Dir) (r : EpRegs) :
    (p.setEp n d r).turnaround = p.turnaround := rfl
@[simp] theorem Pi.setEp_devaddr (p : Pi) (n : EpNum) (d : Dir) (r : EpRegs) :
    (p.setEp n d r).devaddr = p.devaddr := rfl
@[simp] theorem Pi.setEp_softdisc (p : Pi) (n : EpNum) (d : Dir) (r : EpRegs) :
    (p.setEp n d r).softdisc = p.softdisc := rfl
@[simp] theorem Pi.setEp_rxfDepth (p : Pi) (n : EpNum) (d : Dir) (r : EpRegs) :
    (p.setEp n d r).rxfDepth = p.rxfDepth := rfl
@[simp] theorem Pi.setEp_txf (p : Pi) (n : EpNum) (d : Dir) (r : EpRegs) :
    (p.setEp n d r).txf = p.txf := rfl
@[simp] theorem Pi.setEp_flushNum (p : Pi) (n : EpNum) (d : Dir) (r : EpRegs) :
    (p.setEp n d r).flushNum = p.flushNum := rfl
@[simp] theorem Pi.setEp_flushBusy (p : Pi) (n : EpNum) (d : Dir) (r : EpRegs) :
    (p.setEp n d r).flushBusy = p.flushBusy := rfl
@[simp] theorem Pi.setEp_clkHz (p : Pi) (n : EpNum) (d : Dir) (r : EpRegs) :
    (p.setEp n d r).clkHz = p.clkHz := rfl
@[simp] theorem Pi.setEp_ep (p : Pi) (n : EpNum) (d : Dir) (r : EpRegs) :
    (p.setEp n d r).ep = p.ep.set d ((p.ep.get d).set n r) := rfl
@[simp] theorem Pi.setEp_setupDone (p : Pi) (n : EpNum) (d : Dir) (r : EpRegs) :
    (p.setEp n d r).setupDone = p.setupDone := rfl
@[simp] theorem Pi.setEp_setupcnt (p : Pi) (n : EpNum) (d : Dir) (r : EpRegs) :
    (p.setEp n d r).setupcnt = p.setupcnt := rfl
@[simp] theorem Pi.setEp_txfnum (p : Pi) (n : EpNum) (d : Dir) (r : EpRegs) :
    (p.setEp n d r).txfnum = p.txfnum := rfl
@[simp] theorem Pi.setEp_rxq (p : Pi) (n : EpNum) (d : Dir) (r : EpRegs) :
    (p.setEp n d r).rxq = p.rxq := rfl
@[simp] theorem Pi.setEp_txq (p : Pi) (n : EpNum) (d : Dir) (r : EpRegs) :
    (p.setEp n d r).txq = p.txq := rfl

end Sys2Proof.Machine
end

