-- ==== Sys2Proof/Laws/Banks.lean ====
section
/-! SUPPORT. Reading back the array fields: directions, endpoint banks, transfer records, endpoint
fields, and the per-endpoint masks. -/

namespace Sys2Proof.Machine

open Sys2Proof

variable {α : Type}

/-! ## Directions and banks -/

@[simp] theorem Both.get_set_same (b : Both α) (d : Dir) (x : α) : (b.set d x).get d = x := by
  cases d <;> rfl

theorem Both.get_set (b : Both α) (d e : Dir) (x : α) :
    (b.set d x).get e = if e = d then x else b.get e := by
  cases d <;> cases e <;> rfl

theorem Both.get_set_other (b : Both α) (d e : Dir) (x : α) (h : e ≠ d) :
    (b.set d x).get e = b.get e := by
  simp [Both.get_set, h]

@[simp] theorem Both.get_same (x : α) (d : Dir) : (Both.same x).get d = x := by cases d <;> rfl

theorem Both.ext_get (a b : Both α) (h : ∀ d, a.get d = b.get d) : a = b := by
  cases a; cases b
  simpa [Both.get] using And.intro (h .out) (h .inn)

theorem Bank.get_set (v : Bank α) (n m : EpNum) (x : α) :
    (v.set n x)[m] = if m = n then x else v[m] := by
  simp [Vector.getElem_set, Fin.ext_iff, eq_comm]

@[simp] theorem Bank.get_set_same (v : Bank α) (n : EpNum) (x : α) : (v.set n x)[n] = x := by simp

theorem Bank.get_set_other (v : Bank α) (n m : EpNum) (x : α) (h : m ≠ n) :
    (v.set n x)[m] = v[m] := by
  rw [Bank.get_set, if_neg h]

@[simp] theorem Bank.get_all (x : α) (n : EpNum) : (Bank.all x)[n] = x := by simp [Bank.all]

theorem Bank.get_mapBelow (k : Nat) (f : EpNum → α → α) (b : Bank α) (n : EpNum) :
    (Bank.mapBelow k f b)[n] = if n.val < k then f n b[n] else b[n] := by
  simp [Bank.mapBelow]

@[simp] theorem Bank.get_each (f : α → α) (b : Bank α) (n : EpNum) : (Bank.each f b)[n] = f b[n] := by
  simp [Bank.each]

@[simp] theorem Both.get_tab (f : EpNum → Dir → α) (d : Dir) (n : EpNum) :
    ((Both.tab f).get d)[n] = f n d := by
  cases d <;> simp [Both.tab, Both.get]

theorem Bank.ext_get (a b : Bank α) (h : ∀ n : EpNum, a[n] = b[n]) : a = b := by
  apply Vector.ext
  intro i hi
  exact h ⟨i, hi⟩

/-! ## Which endpoints exist -/

theorem mem_endpoints (k : Nat) (n : EpNum) : n ∈ endpoints k ↔ n.val < k := by
  have : n ∈ ([0, 1, 2, 3, 4, 5, 6, 7, 8, 9, 10, 11, 12, 13, 14, 15] : List EpNum) := by
    revert n; decide
  simp [endpoints, this]

theorem endpoints_nodup (k : Nat) : (endpoints k).Nodup :=
  List.Nodup.sublist List.filter_sublist (by decide)

/-! ## Transfer records -/

theorem recAt_setRec (s : State) (n m : EpNum) (d e : Dir) (r : Record) :
    (s.setRec n d r).recAt m e = if m = n ∧ e = d then r else s.recAt m e := by
  cases d <;> cases e <;>
    simp [State.recAt, State.setRec, Both.get, Both.set, Vector.getElem_set, Fin.ext_iff, eq_comm]

@[simp] theorem recAt_setRec_same (s : State) (n : EpNum) (d : Dir) (r : Record) :
    (s.setRec n d r).recAt n d = r := by simp [recAt_setRec]

@[simp] theorem recAt_setEp (s : State) (n m : EpNum) (d e : Dir) (r : EpRegs) :
    (s.setEp n d r).recAt m e = s.recAt m e := rfl

@[simp] theorem recAt_setTxe (s : State) (n m : EpNum) (e : Dir) (v : Bool) :
    (s.setTxe n v).recAt m e = s.recAt m e := rfl

@[simp] theorem recAt_setEpint (s : State) (n m : EpNum) (d e : Dir) (v : Bool) :
    (s.setEpint n d v).recAt m e = s.recAt m e := rfl

@[simp] theorem recAt_setInFlight (s : State) (n m : EpNum) (d e : Dir) (v : Bool) :
    (s.setInFlight n d v).recAt m e = s.recAt m e := rfl

@[simp] theorem recAt_setPending (s : State) (m : EpNum) (d e : Dir) (v : Nat) :
    (s.setPending d v).recAt m e = s.recAt m e := rfl

@[simp] theorem recAt_emit (s : State) (m : EpNum) (e : Dir) (v : Event) :
    (s.emit v).recAt m e = s.recAt m e := rfl

@[simp] theorem recAt_assignTxFifo (s : State) (n m : EpNum) (e : Dir) (a k : Nat) :
    (s.assignTxFifo n a k).recAt m e = s.recAt m e := rfl

/-! ## Endpoint fields -/

theorem Pi.epAt_setEp (p : Pi) (n m : EpNum) (d e : Dir) (r : EpRegs) :
    (p.setEp n d r).epAt m e = if m = n ∧ e = d then r else p.epAt m e := by
  cases d <;> cases e <;>
    simp [Pi.epAt, Pi.setEp, Both.get, Both.set, Vector.getElem_set, Fin.ext_iff, eq_comm]

theorem epAt_setEp (s : State) (n m : EpNum) (d e : Dir) (r : EpRegs) :
    (s.setEp n d r).epAt m e = if m = n ∧ e = d then r else s.epAt m e := by
  simp [State.epAt, Pi.epAt_setEp]

@[simp] theorem epAt_setEp_same (s : State) (n : EpNum) (d : Dir) (r : EpRegs) :
    (s.setEp n d r).epAt n d = r := by simp [epAt_setEp]

@[simp] theorem epAt_setRec (s : State) (n m : EpNum) (d e : Dir) (r : Record) :
    (s.setRec n d r).epAt m e = s.epAt m e := rfl

@[simp] theorem epAt_setTxe (s : State) (n m : EpNum) (e : Dir) (v : Bool) :
    (s.setTxe n v).epAt m e = s.epAt m e := rfl

@[simp] theorem epAt_setEpint (s : State) (n m : EpNum) (d e : Dir) (v : Bool) :
    (s.setEpint n d v).epAt m e = s.epAt m e := rfl

@[simp] theorem epAt_setInFlight (s : State) (n m : EpNum) (d e : Dir) (v : Bool) :
    (s.setInFlight n d v).epAt m e = s.epAt m e := rfl

@[simp] theorem epAt_setPending (s : State) (m : EpNum) (d e : Dir) (v : Nat) :
    (s.setPending d v).epAt m e = s.epAt m e := rfl

@[simp] theorem epAt_emit (s : State) (m : EpNum) (e : Dir) (v : Event) :
    (s.emit v).epAt m e = s.epAt m e := rfl

@[simp] theorem epAt_assignTxFifo (s : State) (n m : EpNum) (e : Dir) (a k : Nat) :
    (s.assignTxFifo n a k).epAt m e = s.epAt m e := rfl

/-! ## Completion events -/

/-- What `emitComplete` does, whole: the event, and the transfer it is for no longer in flight. -/
theorem emitComplete_eq (s : State) (n : EpNum) (d : Dir) :
    s.emitComplete n d =
      { s with
        events := s.events ++ [.xferComplete n d (s.recAt n d).totalLen]
        inFlight := s.inFlight.set d
          ((s.inFlight.get d).set n (s.inFlightAt n d && s.lateAt n d)) } := rfl

end Sys2Proof.Machine
end

