-- ==== Sys2Proof/Laws/Ops.lean ====
section
/-! SUPPORT. What each shared operation of the block can do, said once: FIFO ports, the allocator's
steps, arming, endpoint 0's multiplexer, and the steps of a dispatcher run. -/

namespace Sys2Proof.Machine

open Sys2Proof

/-! ## Actions -/

@[simp] theorem Act.andThen_ok (s : State) (f : State → Act) : (Act.ok s).andThen f = f s := rfl

@[simp] theorem Act.andThen_bad (c : FaultCause) (s : State) (f : State → Act) :
    (Act.bad c s).andThen f = .bad c s := rfl

/-! ## FIFO ports (20_memory.md R75, R76) -/

theorem rxPop_empty {s : State} (h : s.pi.rxq = []) : s.rxPop = none := by
  simp [State.rxPop, h]

theorem rxPop_cons {s : State} {w : Word} {ws : List Word} (h : s.pi.rxq = w :: ws) :
    s.rxPop = some (w, { s with pi := { s.pi with rxq := ws } }) := by
  simp [State.rxPop, h]

theorem txPush_full {s : State} {n : EpNum} (w : Word) (h : txFree s.pi n = 0) :
    s.txPush n w = .bad .outOfContract s := by
  simp [State.txPush, h]

theorem txPush_room {s : State} {n : EpNum} (w : Word) (h : txFree s.pi n ≠ 0) :
    s.txPush n w = .ok { s with pi := s.pi.pushWord n w } := by
  simp [State.txPush, h]

/-- A push that completes no packet (46_environment.md R288). -/
theorem pushWord_open (p : Pi) (n : EpNum) (w : Word)
    (h : (p.txq[n].open_ ++ [w]).length ≠
      wordsFor (min (p.epAt n .inn).xfrsiz (p.epAt n .inn).mps)) :
    p.pushWord n w =
      { p with txq := p.txq.set n ⟨p.txq[n].packets, p.txq[n].open_ ++ [w]⟩ } := by
  simp only [Pi.pushWord]
  rw [if_neg h]

/-- The push that completes a packet (46_environment.md R288). -/
theorem pushWord_closes (p : Pi) (n : EpNum) (w : Word) (k : Nat)
    (hk : k = min (p.epAt n .inn).xfrsiz (p.epAt n .inn).mps)
    (h : (p.txq[n].open_ ++ [w]).length = wordsFor k) :
    p.pushWord n w =
      { (p.setEp n .inn { p.epAt n .inn with xfrsiz := (p.epAt n .inn).xfrsiz - k }) with
        txq := p.txq.set n ⟨p.txq[n].packets ++ [⟨k, p.txq[n].open_ ++ [w]⟩], []⟩ } := by
  subst hk
  simp only [Pi.pushWord]
  rw [if_pos h]

/-! ## The allocator (40_fifo_allocator.md R141, R145) -/

theorem bringUpStep_ok {k : BringUpStep} {s : State}
    (h : k = .check → bringUpWords s.cfg ≤ s.cfg.fifoCapacityWords) :
    bringUpStep k s = .ok (bringUpWrite k s) := by
  unfold bringUpStep
  rw [if_neg]
  rintro ⟨hk, hc⟩
  exact absurd (h hk) (Nat.not_le.mpr hc)

theorem bringUpStep_bad {s : State} (h : s.cfg.fifoCapacityWords < bringUpWords s.cfg) :
    bringUpStep .check s = .bad .fifoOverflow s := by
  unfold bringUpStep
  rw [if_pos ⟨rfl, h⟩]

theorem txBindFifo_reuse {s : State} {n : EpNum} {mps : Nat} (hv : s.txfValid[n] = true)
    (hd : wordsFor mps ≤ s.pi.txf[n].depth) : txBindFifo n mps s = .ok s := by
  simp only [txBindFifo]
  rw [if_pos hv, if_neg (Nat.not_lt.mpr hd)]

theorem txBindFifo_small {s : State} {n : EpNum} {mps : Nat} (hv : s.txfValid[n] = true)
    (hd : s.pi.txf[n].depth < wordsFor mps) : txBindFifo n mps s = .bad .fifoOverflow s := by
  simp only [txBindFifo]
  rw [if_pos hv, if_pos hd]

theorem txBindFifo_alloc {s : State} {n : EpNum} {mps : Nat} (hv : s.txfValid[n] = false)
    (hc : s.allocWords + wordsFor mps ≤ s.cfg.fifoCapacityWords) :
    txBindFifo n mps s = .ok
      { (s.assignTxFifo n s.allocWords (wordsFor mps)) with
        allocWords := s.allocWords + wordsFor mps } := by
  simp only [txBindFifo]
  rw [if_neg (by rw [hv]; decide), if_neg (Nat.not_lt.mpr hc)]

theorem txBindFifo_over {s : State} {n : EpNum} {mps : Nat} (hv : s.txfValid[n] = false)
    (hc : s.cfg.fifoCapacityWords < s.allocWords + wordsFor mps) :
    txBindFifo n mps s = .bad .fifoOverflow s := by
  simp only [txBindFifo]
  rw [if_neg (by rw [hv]; decide), if_pos hc]

/-! ## Arming (41_endpoint_ops.md R176) -/

theorem armSize_out (s : State) (n : EpNum) (pk by_ : Nat) :
    s.armSize n .out pk by_ = s.setEp n .out { s.epAt n .out with pktcnt := pk, xfrsiz := by_ } :=
  rfl

theorem armTxe_zero (s : State) (n : EpNum) (d : Dir) : s.armTxe n d 0 = s := by
  cases d <;> rfl

@[simp] theorem armTxe_out (s : State) (n : EpNum) (by_ : Nat) : s.armTxe n .out by_ = s := rfl

theorem armTxe_in (s : State) (n : EpNum) (by_ : Nat) (h : by_ ≠ 0) :
    s.armTxe n .inn by_ = s.setTxe n true := by
  simp [State.armTxe, h]

/-- What arming writes in the endpoint's own fields. -/
theorem epAt_arm (s : State) (n : EpNum) (d : Dir) (pk by_ : Nat) (m : EpNum) (e : Dir) :
    (s.arm n d pk by_).epAt m e =
      if m = n ∧ e = d then
        { s.epAt n d with
          pktcnt := pk, xfrsiz := by_, stall := false, nak := false, ena := true }
      else s.epAt m e := by
  have ha : (s.arm n d pk by_).epAt m e = ((s.armSize n d pk by_).armEnable n d).epAt m e := by
    cases d
    · simp only [State.arm, armTxe_out]
    · by_cases h : by_ = 0 <;> simp [State.arm, State.armTxe, h]
  have hb : ∀ t : State, (t.armEnable n d).epAt m e =
      if m = n ∧ e = d then { t.epAt n d with stall := false, nak := false, ena := true }
      else t.epAt m e := by
    intro t
    rw [← epAt_setEp]
    simp only [State.epAt, State.armEnable_pi, State.setEp_pi]
  have hc : ∀ (k : EpNum) (f : Dir), (s.armSize n d pk by_).epAt k f =
      if k = n ∧ f = d then { s.epAt n d with pktcnt := pk, xfrsiz := by_ } else s.epAt k f := by
    intro k f
    rw [← epAt_setEp]
    simp only [State.epAt, State.armSize_pi, State.setEp_pi]
  rw [ha, hb, hc, hc]
  by_cases h : m = n ∧ e = d <;> simp [h]

/-- Arming touches no record. -/
@[simp] theorem recAt_arm (s : State) (n : EpNum) (d : Dir) (pk by_ : Nat) (m : EpNum) (e : Dir) :
    (s.arm n d pk by_).recAt m e = s.recAt m e := by
  simp [State.recAt, State.arm]

/-! ## Endpoint 0 (42_ep0_mux.md R201, R202) -/

@[simp] theorem ep0Schedule_pending (s : State) (d : Dir) :
    (ep0Schedule s d).ep0Pending = s.ep0Pending.set d (s.ep0Pending.get d - ep0Bytes s d) := by
  simp [ep0Schedule, ep0Take, State.arm]

@[simp] theorem recAt_ep0Schedule (s : State) (d : Dir) (m : EpNum) (e : Dir) :
    (ep0Schedule s d).recAt m e = s.recAt m e := by
  simp [ep0Schedule, ep0Take, State.arm, State.recAt]

theorem ep0Continue_done {s : State} {d : Dir} (h : s.ep0Pending.get d = 0) :
    ep0Continue s d = s.emitComplete 0 d := by
  simp [ep0Continue, h]

theorem ep0Continue_more {s : State} {d : Dir} (h : s.ep0Pending.get d ≠ 0) :
    ep0Continue s d = ep0Schedule s d := by
  simp [ep0Continue, h]

/-! ## Endpoint conditions (44_dispatcher.md R239 to R245) -/

theorem transferComplete_idle {s : State} {n : EpNum} {d : Dir}
    (h : (s.epAt n d).xferDone = false) : transferComplete n d s = s := by
  simp [transferComplete, h]

theorem transferComplete_ep0 {s : State} {d : Dir} (h : (s.epAt 0 d).xferDone = true)
    (hq : s.dropsDone 0 d = false) :
    transferComplete 0 d s = ep0Continue (s.setEp 0 d { s.epAt 0 d with xferDone := false }) d := by
  simp [transferComplete, h, hq]

theorem transferComplete_other {s : State} {n : EpNum} {d : Dir} (hn : n ≠ 0)
    (h : (s.epAt n d).xferDone = true) (hq : s.dropsDone n d = false) :
    transferComplete n d s =
      (s.setEp n d { s.epAt n d with xferDone := false }).emitComplete n d := by
  simp [transferComplete, h, hn, hq]

theorem transferComplete_dropped {s : State} {n : EpNum} {d : Dir} (h : (s.epAt n d).xferDone = true)
    (hq : s.dropsDone n d = true) :
    transferComplete n d s = s.setEp n d { s.epAt n d with xferDone := false } := by
  simp [transferComplete, h, hq]

theorem feedStep_done {s : State} {n : EpNum} (h : (s.epAt n .inn).xfrsiz = 0) :
    feedStep n s = .stop := by
  simp [feedStep, h]

theorem feedStep_noRoom {s : State} {n : EpNum} (hm : (s.recAt n .inn).maxSize ≠ 0)
    (h : 4 * txFree s.pi n < min (s.epAt n .inn).xfrsiz (s.recAt n .inn).maxSize) :
    feedStep n s = .stop := by
  unfold feedStep
  by_cases hz : (s.epAt n .inn).xfrsiz = 0 <;> simp [hz, hm, h]

theorem feedStep_noSize {s : State} {n : EpNum} (h : (s.epAt n .inn).xfrsiz ≠ 0)
    (hm : (s.recAt n .inn).maxSize = 0) : feedStep n s = .bad .outOfContract s := by
  simp only [feedStep]
  rw [if_neg h, if_pos hm]

/-! ## Steps of a run -/

theorem repeatStep_go {k : Nat} {op : IrqOp} {l l1 : IrqLocals} {s s1 : State}
    (h : irqStep op l s = .go l1 s1) : repeatStep (k + 1) op l s = .go l1 s1 := by
  simp [repeatStep, h]

theorem repeatStep_again {k : Nat} {op : IrqOp} {l l1 : IrqLocals} {s s1 : State}
    (h : irqStep op l s = .again l1 s1) : repeatStep (k + 1) op l s = repeatStep k op l1 s1 := by
  simp [repeatStep, h]

theorem repeatStep_bad {k : Nat} {op : IrqOp} {l : IrqLocals} {c : FaultCause} {s s1 : State}
    (h : irqStep op l s = .bad c s1) : repeatStep (k + 1) op l s = .bad c s1 := by
  simp [repeatStep, h]

/-- A step always gets at least one try. -/
theorem repeatBound_pos (op : IrqOp) (s : State) : ∃ k, repeatBound op s = k + 1 := by
  cases op <;> exact ⟨_, rfl⟩

theorem runOps_go {op : IrqOp} {rest : List IrqOp} {l l1 : IrqLocals} {s s1 : State}
    (h : irqStep op l s = .go l1 s1) : runOps (op :: rest) l s = runOps rest l1 s1 := by
  obtain ⟨k, hk⟩ := repeatBound_pos op s
  simp only [runOps, hk, repeatStep_go h]

theorem runOps_bad {op : IrqOp} {rest : List IrqOp} {l : IrqLocals} {c : FaultCause} {s s1 : State}
    (h : irqStep op l s = .bad c s1) :
    runOps (op :: rest) l s = .bad c (op :: rest) l s1 := by
  obtain ⟨k, hk⟩ := repeatBound_pos op s
  simp only [runOps, hk, repeatStep_bad h]

/-- An OUT endpoint that does not signal is passed over (R239). -/
theorem runOps_outIdle {n : EpNum} {rest : List IrqOp} {l : IrqLocals} {s : State}
    (h : epPendOut s.pi n = false) :
    runOps (.outSetup n :: .outDone n :: rest) l s = runOps rest { l with pend := false } s := by
  rw [runOps_go (l1 := { l with pend := false }) (s1 := s) (by simp [irqStep, h]),
    runOps_go (l1 := { l with pend := false }) (s1 := s) (by simp [irqStep])]

/-- An IN endpoint that does not signal is passed over (R243). -/
theorem runOps_inIdle {n : EpNum} {rest : List IrqOp} {l : IrqLocals} {s : State}
    (h : epPendIn s.pi n = false) :
    runOps (.inDone n :: .inTest n :: .inFeed n :: .inFeedEnd n :: rest) l s =
      runOps rest { l with pend := false, feed := false } s := by
  rw [runOps_go (l1 := { l with pend := false }) (s1 := s) (by simp [irqStep, h]),
    runOps_go (l1 := { l with pend := false, feed := false }) (s1 := s) (by simp [irqStep]),
    runOps_go (l1 := { l with pend := false, feed := false }) (s1 := s) (by simp [irqStep]),
    runOps_go (l1 := { l with pend := false, feed := false }) (s1 := s) (by simp [irqStep])]

end Sys2Proof.Machine
end

