-- ==== Sys2Proof/Laws/Commands.lean ====
section
/-! SUPPORT. Running a command: acceptance (30_encoding.md R110), the ways one numbered step can end,
and the waits of STALL (41_endpoint_ops.md R186). -/

namespace Sys2Proof.Machine

open Sys2Proof

/-! ## Acceptance -/

theorem accepts_iff (s : State) : s.accepts = true ↔ s.ctx = .idle ∧ s.halted = false := by
  unfold State.accepts
  cases s.ctx <;> simp

theorem runCommand_busy {c : Instr} {ops : List CmdOp} {s : State} (h : s.accepts = false) :
    runCommand c ops s = .next s := by
  simp [runCommand, h]

theorem runCommand_accepted {c : Instr} {ops : List CmdOp} {s : State} (h : s.accepts = true) :
    runCommand c ops s = runCmd c ops {} s := by
  simp [runCommand, h]

theorem illegalCommand_accepted {s : State} (h : s.accepts = true) :
    illegalCommand s = .next (s.raiseFault .illegalCommand) := by
  simp [illegalCommand, h]

theorem illegalCommand_busy {s : State} (h : s.accepts = false) : illegalCommand s = .next s := by
  simp [illegalCommand, h]

/-! ## The steps of a command in order -/

variable {c : Instr} {op : CmdOp} {rest : List CmdOp} {l l1 : CmdLocals} {s s1 : State}

theorem runCmd_go (h : cmdStep op l s = .go l1 s1) :
    runCmd c (op :: rest) l s = runCmd c rest l1 s1 := by
  simp [runCmd, h]

theorem runCmd_hold (h : cmdStep op l s = .hold l1 s1) :
    runCmd c (op :: rest) l s = .next { s1 with ctx := .cmd ⟨c, op :: rest, l1⟩ } := by
  simp [runCmd, h]

theorem runCmd_respond {r : Resp} (h : cmdStep op l s = .respond r s1) :
    runCmd c (op :: rest) l s = .next (s1.respond r) := by
  simp [runCmd, h]

theorem runCmd_raise {f : FaultCause} (h : cmdStep op l s = .raise f s1) :
    runCmd c (op :: rest) l s =
      .next ({ s1 with ctx := .cmd ⟨c, op :: rest, l⟩ }.raiseFault f) := by
  simp [runCmd, h]

theorem runCmd_refuse {r : Refusal} (h : cmdStep op l s = .refuse r) :
    runCmd c (op :: rest) l s = .refused r := by
  simp [runCmd, h]

/-- No numbered step of a command but IRQ_ENTRY's runs the dispatcher. -/
theorem cmdStep_enter_iff : (∃ t, cmdStep op l s = .enter t) ↔ op = .runDispatcher := by
  constructor
  · rintro ⟨t, h⟩
    cases op <;> simp only [cmdStep, CmdRes.ofAct, xferCheck, xferRecord, waitFor, cfgRead,
      cfgCapacity, commitEp0, commitEpStep] at h
    all_goals (first | rfl | (repeat' split at h) <;> cases h)
  · rintro rfl
    exact ⟨s, rfl⟩

/-! ## Waits -/

theorem waitFor_true (hp : s.cfg.stallPollLimit = none) : waitFor true l s = .go l s := by
  simp [waitFor, hp]

theorem waitFor_false (hp : s.cfg.stallPollLimit = none) : waitFor false l s = .hold l s := by
  simp [waitFor, hp]

theorem waitFor_limit_true {k : Nat} (hp : s.cfg.stallPollLimit = some k) (h : l.polls < k) :
    waitFor true l s = .go { l with polls := 0 } s := by
  simp [waitFor, hp, Nat.not_le.mpr h]

theorem waitFor_limit_more {k : Nat} (hp : s.cfg.stallPollLimit = some k) (h : l.polls + 1 < k) :
    waitFor false l s = .hold { l with polls := l.polls + 1 } s := by
  simp [waitFor, hp, show ¬ k ≤ l.polls by omega, show ¬ l.polls + 1 = k by omega]

theorem waitFor_limit_last {k : Nat} (hp : s.cfg.stallPollLimit = some k) (h : l.polls + 1 = k) :
    waitFor false l s = .respond .timeout s := by
  simp [waitFor, hp, show ¬ k ≤ l.polls by omega, h]

/-! ## Whose move it is -/

theorem nextMove_cons {t : Turn} {ts : List Turn} (h : s.turns = t :: ts) :
    nextMove s = takeTurn t { s with turns := ts } := by
  simp [nextMove, h]

theorem nextMove_alone (h : s.turns = []) : nextMove s = moveAlone s := by
  simp [nextMove, h]

end Sys2Proof.Machine
end

