-- ==== Sys2Proof/Laws/Encoding.lean ====
section
/-! SUPPORT. The fields of a command word read back what they were built from (30_encoding.md R100,
R102, R103). -/

namespace Sys2Proof

@[simp] theorem Dir.ofCode_code (d : Dir) : Dir.ofCode d.code = d := by cases d <;> decide

@[simp] theorem XferType.ofCode_code (t : XferType) : XferType.ofCode t.code = t := by
  cases t <;> decide

theorem Dir.code_ofCode (b : BitVec 1) : (Dir.ofCode b).code = b := by revert b; decide

theorem XferType.code_ofCode (b : BitVec 2) : (XferType.ofCode b).code = b := by revert b; decide

variable (a : Word) (o : BitVec 4) (d : BitVec 1) (e : BitVec 4) (t : BitVec 2) (r : BitVec 5)
  (i : BitVec 16)

@[simp] theorem fieldImm_commandWord : fieldImm (commandWord a o d e t r i) = i := by
  apply BitVec.eq_of_getLsbD_eq
  intro k hk
  simp only [fieldImm, commandWord, BitVec.getLsbD_extractLsb', hk, decide_true, Bool.true_and,
    BitVec.getLsbD_append]
  repeat' split
  all_goals first
    | omega
    | (congr 1; omega)

@[simp] theorem fieldRsv_commandWord : fieldRsv (commandWord a o d e t r i) = r := by
  apply BitVec.eq_of_getLsbD_eq
  intro k hk
  simp only [fieldRsv, commandWord, BitVec.getLsbD_extractLsb', hk, decide_true, Bool.true_and,
    BitVec.getLsbD_append]
  repeat' split
  all_goals first
    | omega
    | (congr 1; omega)

@[simp] theorem fieldType_commandWord : fieldType (commandWord a o d e t r i) = t := by
  apply BitVec.eq_of_getLsbD_eq
  intro k hk
  simp only [fieldType, commandWord, BitVec.getLsbD_extractLsb', hk, decide_true, Bool.true_and,
    BitVec.getLsbD_append]
  repeat' split
  all_goals first
    | omega
    | (congr 1; omega)

@[simp] theorem fieldEp_commandWord : fieldEp (commandWord a o d e t r i) = e := by
  apply BitVec.eq_of_getLsbD_eq
  intro k hk
  simp only [fieldEp, commandWord, BitVec.getLsbD_extractLsb', hk, decide_true, Bool.true_and,
    BitVec.getLsbD_append]
  repeat' split
  all_goals first
    | omega
    | (congr 1; omega)

@[simp] theorem fieldDir_commandWord : fieldDir (commandWord a o d e t r i) = d := by
  apply BitVec.eq_of_getLsbD_eq
  intro k hk
  simp only [fieldDir, commandWord, BitVec.getLsbD_extractLsb', hk, decide_true, Bool.true_and,
    BitVec.getLsbD_append]
  repeat' split
  all_goals first
    | omega
    | (congr 1; omega)

@[simp] theorem fieldOp_commandWord : fieldOp (commandWord a o d e t r i) = o := by
  apply BitVec.eq_of_getLsbD_eq
  intro k hk
  simp only [fieldOp, commandWord, BitVec.getLsbD_extractLsb', hk, decide_true, Bool.true_and,
    BitVec.getLsbD_append]
  repeat' split
  all_goals first
    | omega
    | (congr 1; omega)

@[simp] theorem fieldAddr_commandWord : fieldAddr (commandWord a o d e t r i) = a := by
  apply BitVec.eq_of_getLsbD_eq
  intro k hk
  simp only [fieldAddr, commandWord, BitVec.getLsbD_extractLsb', hk, decide_true, Bool.true_and,
    BitVec.getLsbD_append]
  repeat' split
  all_goals first
    | omega
    | (congr 1; omega)

/-- A bit of a slice, by its place in the word. -/
theorem sliceBit (w : CmdWord) {start len j k : Nat} (hj : j < len) (hk : start + j = k) :
    (decide (j < len) && w.getLsbD (start + j)) = w.getLsbD k := by
  simp [hj, hk]

/-- Every word is built from its fields. -/
theorem commandWord_fields (w : CmdWord) :
    commandWord (fieldAddr w) (fieldOp w) (fieldDir w) (fieldEp w) (fieldType w) (fieldRsv w)
      (fieldImm w) = w := by
  apply BitVec.eq_of_getLsbD_eq
  intro k hk
  simp only [commandWord, fieldAddr, fieldOp, fieldDir, fieldEp, fieldType, fieldRsv, fieldImm,
    BitVec.getLsbD_append, BitVec.getLsbD_extractLsb']
  repeat' split
  all_goals exact sliceBit w (by omega) (by omega)

/-- Masking acts on each field by itself. -/
theorem and_commandWord (a a' : Word) (o o' : BitVec 4) (d d' : BitVec 1) (e e' : BitVec 4)
    (t t' : BitVec 2) (r r' : BitVec 5) (i i' : BitVec 16) :
    commandWord a o d e t r i &&& commandWord a' o' d' e' t' r' i' =
      commandWord (a &&& a') (o &&& o') (d &&& d') (e &&& e') (t &&& t') (r &&& r') (i &&& i') := by
  apply BitVec.eq_of_getLsbD_eq
  intro k hk
  simp only [commandWord, BitVec.getLsbD_and, BitVec.getLsbD_append]
  repeat' split
  all_goals rfl

/-- A packet size of 11 bits leaves imm16[15:11] zero (R104). -/
theorem mps_masked (n : Nat) (h : n < 2 ^ 11) :
    BitVec.ofNat 16 n &&& (0xF800 : BitVec 16) = 0 := by
  apply BitVec.eq_of_getLsbD_eq
  intro k hk
  by_cases hk2 : k < 11
  · have : ∀ k : Fin 11, (0xF800 : BitVec 16).getLsbD k.val = false := by decide
    simp only [BitVec.getLsbD_and, this ⟨k, hk2⟩, Bool.and_false]
    simp
  · have : n.testBit k = false :=
      Nat.testBit_lt_two_pow (Nat.lt_of_lt_of_le h (Nat.pow_le_pow_right (by omega) (by omega)))
    simp [BitVec.getLsbD_ofNat, this]

/-- A 7-bit address leaves imm16[15:7] zero (R104). -/
theorem addr_masked (a : BitVec 7) : a.zeroExtend 16 &&& (0xFF80 : BitVec 16) = 0 := by
  revert a; decide

end Sys2Proof
end

