-- ==== Sys2Proof/Laws/Steps.lean ====
section
/-! SUPPORT. One lemma per field for what a numbered step writes (44_dispatcher.md, 45_system_ops.md,
41_endpoint_ops.md): the fields a step leaves alone, and the new value where it is one expression. -/

namespace Sys2Proof.Machine

open Sys2Proof

/-! ### bringUpValid -/

@[simp] theorem bringUpValid_cfg (s : State) :
    (bringUpValid s).cfg =
      s.cfg := by simp only [bringUpValid]
@[simp] theorem bringUpValid_xfer (s : State) :
    (bringUpValid s).xfer =
      s.xfer := by simp only [bringUpValid]
@[simp] theorem bringUpValid_ep0Pending (s : State) :
    (bringUpValid s).ep0Pending =
      s.ep0Pending := by simp only [bringUpValid]
@[simp] theorem bringUpValid_allocWords (s : State) :
    (bringUpValid s).allocWords =
      s.allocWords := by simp only [bringUpValid]
@[simp] theorem bringUpValid_txfValid (s : State) :
    (bringUpValid s).txfValid =
      Bank.mapBelow s.cfg.maxEndpoints (fun n _ => n == 0) s.txfValid := by simp only [bringUpValid]
@[simp] theorem bringUpValid_setupBuf0 (s : State) :
    (bringUpValid s).setupBuf0 =
      s.setupBuf0 := by simp only [bringUpValid]
@[simp] theorem bringUpValid_setupBuf1 (s : State) :
    (bringUpValid s).setupBuf1 =
      s.setupBuf1 := by simp only [bringUpValid]
@[simp] theorem bringUpValid_busState (s : State) :
    (bringUpValid s).busState =
      s.busState := by simp only [bringUpValid]
@[simp] theorem bringUpValid_irqEn (s : State) :
    (bringUpValid s).irqEn =
      s.irqEn := by simp only [bringUpValid]
@[simp] theorem bringUpValid_halted (s : State) :
    (bringUpValid s).halted =
      s.halted := by simp only [bringUpValid]
@[simp] theorem bringUpValid_faultCause (s : State) :
    (bringUpValid s).faultCause =
      s.faultCause := by simp only [bringUpValid]
@[simp] theorem bringUpValid_ctx (s : State) :
    (bringUpValid s).ctx =
      s.ctx := by simp only [bringUpValid]
@[simp] theorem bringUpValid_events (s : State) :
    (bringUpValid s).events =
      s.events := by simp only [bringUpValid]
@[simp] theorem bringUpValid_resp (s : State) :
    (bringUpValid s).resp =
      s.resp := by simp only [bringUpValid]
@[simp] theorem bringUpValid_pi (s : State) :
    (bringUpValid s).pi =
      s.pi := by simp only [bringUpValid]
@[simp] theorem bringUpValid_mem (s : State) :
    (bringUpValid s).mem =
      s.mem := by simp only [bringUpValid]
@[simp] theorem bringUpValid_env (s : State) :
    (bringUpValid s).env =
      s.env := by simp only [bringUpValid]
@[simp] theorem bringUpValid_inFlight (s : State) :
    (bringUpValid s).inFlight =
      s.inFlight := by simp only [bringUpValid]
@[simp] theorem bringUpValid_irqDue (s : State) :
    (bringUpValid s).irqDue =
      s.irqDue := by simp only [bringUpValid]
@[simp] theorem bringUpValid_port (s : State) :
    (bringUpValid s).port =
      s.port := by simp only [bringUpValid]
@[simp] theorem bringUpValid_turns (s : State) :
    (bringUpValid s).turns =
      s.turns := by simp only [bringUpValid]

/-! ### bringUpWrite -/

@[simp] theorem bringUpWrite_cfg (k : BringUpStep) (s : State) :
    (bringUpWrite k s).cfg =
      s.cfg := by cases k <;> simp [bringUpWrite]
@[simp] theorem bringUpWrite_xfer (k : BringUpStep) (s : State) :
    (bringUpWrite k s).xfer =
      s.xfer := by cases k <;> simp [bringUpWrite]
@[simp] theorem bringUpWrite_ep0Pending (k : BringUpStep) (s : State) :
    (bringUpWrite k s).ep0Pending =
      s.ep0Pending := by cases k <;> simp [bringUpWrite]
@[simp] theorem bringUpWrite_setupBuf0 (k : BringUpStep) (s : State) :
    (bringUpWrite k s).setupBuf0 =
      s.setupBuf0 := by cases k <;> simp [bringUpWrite]
@[simp] theorem bringUpWrite_setupBuf1 (k : BringUpStep) (s : State) :
    (bringUpWrite k s).setupBuf1 =
      s.setupBuf1 := by cases k <;> simp [bringUpWrite]
@[simp] theorem bringUpWrite_busState (k : BringUpStep) (s : State) :
    (bringUpWrite k s).busState =
      s.busState := by cases k <;> simp [bringUpWrite]
@[simp] theorem bringUpWrite_irqEn (k : BringUpStep) (s : State) :
    (bringUpWrite k s).irqEn =
      s.irqEn := by cases k <;> simp [bringUpWrite]
@[simp] theorem bringUpWrite_halted (k : BringUpStep) (s : State) :
    (bringUpWrite k s).halted =
      s.halted := by cases k <;> simp [bringUpWrite]
@[simp] theorem bringUpWrite_faultCause (k : BringUpStep) (s : State) :
    (bringUpWrite k s).faultCause =
      s.faultCause := by cases k <;> simp [bringUpWrite]
@[simp] theorem bringUpWrite_ctx (k : BringUpStep) (s : State) :
    (bringUpWrite k s).ctx =
      s.ctx := by cases k <;> simp [bringUpWrite]
@[simp] theorem bringUpWrite_events (k : BringUpStep) (s : State) :
    (bringUpWrite k s).events =
      s.events := by cases k <;> simp [bringUpWrite]
@[simp] theorem bringUpWrite_resp (k : BringUpStep) (s : State) :
    (bringUpWrite k s).resp =
      s.resp := by cases k <;> simp [bringUpWrite]
@[simp] theorem bringUpWrite_mem (k : BringUpStep) (s : State) :
    (bringUpWrite k s).mem =
      s.mem := by cases k <;> simp [bringUpWrite]
@[simp] theorem bringUpWrite_env (k : BringUpStep) (s : State) :
    (bringUpWrite k s).env =
      s.env := by cases k <;> simp [bringUpWrite]
@[simp] theorem bringUpWrite_inFlight (k : BringUpStep) (s : State) :
    (bringUpWrite k s).inFlight =
      s.inFlight := by cases k <;> simp [bringUpWrite]
@[simp] theorem bringUpWrite_irqDue (k : BringUpStep) (s : State) :
    (bringUpWrite k s).irqDue =
      s.irqDue := by cases k <;> simp [bringUpWrite]
@[simp] theorem bringUpWrite_port (k : BringUpStep) (s : State) :
    (bringUpWrite k s).port =
      s.port := by cases k <;> simp [bringUpWrite]
@[simp] theorem bringUpWrite_turns (k : BringUpStep) (s : State) :
    (bringUpWrite k s).turns =
      s.turns := by cases k <;> simp [bringUpWrite]

/-! ### txBindNum -/

@[simp] theorem txBindNum_cfg (n : EpNum) (s : State) : (txBindNum n s).cfg = s.cfg := rfl
@[simp] theorem txBindNum_xfer (n : EpNum) (s : State) : (txBindNum n s).xfer = s.xfer := rfl
@[simp] theorem txBindNum_ep0Pending (n : EpNum) (s : State) :
    (txBindNum n s).ep0Pending =
      s.ep0Pending := rfl
@[simp] theorem txBindNum_allocWords (n : EpNum) (s : State) :
    (txBindNum n s).allocWords =
      s.allocWords := rfl
@[simp] theorem txBindNum_txfValid (n : EpNum) (s : State) :
    (txBindNum n s).txfValid =
      s.txfValid := rfl
@[simp] theorem txBindNum_setupBuf0 (n : EpNum) (s : State) :
    (txBindNum n s).setupBuf0 =
      s.setupBuf0 := rfl
@[simp] theorem txBindNum_setupBuf1 (n : EpNum) (s : State) :
    (txBindNum n s).setupBuf1 =
      s.setupBuf1 := rfl
@[simp] theorem txBindNum_busState (n : EpNum) (s : State) :
    (txBindNum n s).busState =
      s.busState := rfl
@[simp] theorem txBindNum_irqEn (n : EpNum) (s : State) : (txBindNum n s).irqEn = s.irqEn := rfl
@[simp] theorem txBindNum_halted (n : EpNum) (s : State) : (txBindNum n s).halted = s.halted := rfl
@[simp] theorem txBindNum_faultCause (n : EpNum) (s : State) :
    (txBindNum n s).faultCause =
      s.faultCause := rfl
@[simp] theorem txBindNum_ctx (n : EpNum) (s : State) : (txBindNum n s).ctx = s.ctx := rfl
@[simp] theorem txBindNum_events (n : EpNum) (s : State) : (txBindNum n s).events = s.events := rfl
@[simp] theorem txBindNum_resp (n : EpNum) (s : State) : (txBindNum n s).resp = s.resp := rfl
@[simp] theorem txBindNum_pi (n : EpNum) (s : State) :
    (txBindNum n s).pi =
      { s.pi with txfnum := s.pi.txfnum.set n n } := rfl
@[simp] theorem txBindNum_mem (n : EpNum) (s : State) : (txBindNum n s).mem = s.mem := rfl
@[simp] theorem txBindNum_env (n : EpNum) (s : State) : (txBindNum n s).env = s.env := rfl
@[simp] theorem txBindNum_inFlight (n : EpNum) (s : State) :
    (txBindNum n s).inFlight =
      s.inFlight := rfl
@[simp] theorem txBindNum_irqDue (n : EpNum) (s : State) : (txBindNum n s).irqDue = s.irqDue := rfl
@[simp] theorem txBindNum_port (n : EpNum) (s : State) : (txBindNum n s).port = s.port := rfl
@[simp] theorem txBindNum_turns (n : EpNum) (s : State) : (txBindNum n s).turns = s.turns := rfl

/-! ### clearRecords -/

@[simp] theorem clearRecords_cfg (s : State) :
    (clearRecords s).cfg =
      s.cfg := by simp [clearRecords]
@[simp] theorem clearRecords_xfer (s : State) :
    (clearRecords s).xfer =
      ⟨Bank.mapBelow s.cfg.maxEndpoints (fun _ _ => Record.zero) s.xfer.out, Bank.mapBelow s.cfg.maxEndpoints (fun _ _ => Record.zero) s.xfer.inn⟩ := by simp [clearRecords]
@[simp] theorem clearRecords_ep0Pending (s : State) :
    (clearRecords s).ep0Pending =
      ⟨0, 0⟩ := by simp [clearRecords]
@[simp] theorem clearRecords_allocWords (s : State) :
    (clearRecords s).allocWords =
      s.allocWords := by simp [clearRecords]
@[simp] theorem clearRecords_txfValid (s : State) :
    (clearRecords s).txfValid =
      s.txfValid := by simp [clearRecords]
@[simp] theorem clearRecords_setupBuf0 (s : State) :
    (clearRecords s).setupBuf0 =
      s.setupBuf0 := by simp [clearRecords]
@[simp] theorem clearRecords_setupBuf1 (s : State) :
    (clearRecords s).setupBuf1 =
      s.setupBuf1 := by simp [clearRecords]
@[simp] theorem clearRecords_busState (s : State) :
    (clearRecords s).busState =
      s.busState := by simp [clearRecords]
@[simp] theorem clearRecords_irqEn (s : State) :
    (clearRecords s).irqEn =
      s.irqEn := by simp [clearRecords]
@[simp] theorem clearRecords_halted (s : State) :
    (clearRecords s).halted =
      s.halted := by simp [clearRecords]
@[simp] theorem clearRecords_faultCause (s : State) :
    (clearRecords s).faultCause =
      s.faultCause := by simp [clearRecords]
@[simp] theorem clearRecords_ctx (s : State) :
    (clearRecords s).ctx =
      s.ctx := by simp [clearRecords]
@[simp] theorem clearRecords_events (s : State) :
    (clearRecords s).events =
      s.events := by simp [clearRecords]
@[simp] theorem clearRecords_resp (s : State) :
    (clearRecords s).resp =
      s.resp := by simp [clearRecords]
@[simp] theorem clearRecords_pi (s : State) : (clearRecords s).pi = s.pi := by simp [clearRecords]
@[simp] theorem clearRecords_mem (s : State) :
    (clearRecords s).mem =
      s.mem := by simp [clearRecords]
@[simp] theorem clearRecords_irqDue (s : State) :
    (clearRecords s).irqDue =
      s.irqDue := by simp [clearRecords]
@[simp] theorem clearRecords_port (s : State) :
    (clearRecords s).port =
      s.port := by simp [clearRecords]
@[simp] theorem clearRecords_turns (s : State) :
    (clearRecords s).turns =
      s.turns := by simp [clearRecords]

/-! ### setEp0MaxSize -/

@[simp] theorem setEp0MaxSize_cfg (m : Nat) (s : State) :
    (setEp0MaxSize m s).cfg =
      s.cfg := by simp [setEp0MaxSize]
@[simp] theorem setEp0MaxSize_ep0Pending (m : Nat) (s : State) :
    (setEp0MaxSize m s).ep0Pending =
      s.ep0Pending := by simp [setEp0MaxSize]
@[simp] theorem setEp0MaxSize_allocWords (m : Nat) (s : State) :
    (setEp0MaxSize m s).allocWords =
      s.allocWords := by simp [setEp0MaxSize]
@[simp] theorem setEp0MaxSize_txfValid (m : Nat) (s : State) :
    (setEp0MaxSize m s).txfValid =
      s.txfValid := by simp [setEp0MaxSize]
@[simp] theorem setEp0MaxSize_setupBuf0 (m : Nat) (s : State) :
    (setEp0MaxSize m s).setupBuf0 =
      s.setupBuf0 := by simp [setEp0MaxSize]
@[simp] theorem setEp0MaxSize_setupBuf1 (m : Nat) (s : State) :
    (setEp0MaxSize m s).setupBuf1 =
      s.setupBuf1 := by simp [setEp0MaxSize]
@[simp] theorem setEp0MaxSize_busState (m : Nat) (s : State) :
    (setEp0MaxSize m s).busState =
      s.busState := by simp [setEp0MaxSize]
@[simp] theorem setEp0MaxSize_irqEn (m : Nat) (s : State) :
    (setEp0MaxSize m s).irqEn =
      s.irqEn := by simp [setEp0MaxSize]
@[simp] theorem setEp0MaxSize_halted (m : Nat) (s : State) :
    (setEp0MaxSize m s).halted =
      s.halted := by simp [setEp0MaxSize]
@[simp] theorem setEp0MaxSize_faultCause (m : Nat) (s : State) :
    (setEp0MaxSize m s).faultCause =
      s.faultCause := by simp [setEp0MaxSize]
@[simp] theorem setEp0MaxSize_ctx (m : Nat) (s : State) :
    (setEp0MaxSize m s).ctx =
      s.ctx := by simp [setEp0MaxSize]
@[simp] theorem setEp0MaxSize_events (m : Nat) (s : State) :
    (setEp0MaxSize m s).events =
      s.events := by simp [setEp0MaxSize]
@[simp] theorem setEp0MaxSize_resp (m : Nat) (s : State) :
    (setEp0MaxSize m s).resp =
      s.resp := by simp [setEp0MaxSize]
@[simp] theorem setEp0MaxSize_pi (m : Nat) (s : State) :
    (setEp0MaxSize m s).pi =
      s.pi := by simp [setEp0MaxSize]
@[simp] theorem setEp0MaxSize_mem (m : Nat) (s : State) :
    (setEp0MaxSize m s).mem =
      s.mem := by simp [setEp0MaxSize]
@[simp] theorem setEp0MaxSize_env (m : Nat) (s : State) :
    (setEp0MaxSize m s).env =
      s.env := by simp [setEp0MaxSize]
@[simp] theorem setEp0MaxSize_inFlight (m : Nat) (s : State) :
    (setEp0MaxSize m s).inFlight =
      s.inFlight := by simp [setEp0MaxSize]
@[simp] theorem setEp0MaxSize_irqDue (m : Nat) (s : State) :
    (setEp0MaxSize m s).irqDue =
      s.irqDue := by simp [setEp0MaxSize]
@[simp] theorem setEp0MaxSize_port (m : Nat) (s : State) :
    (setEp0MaxSize m s).port =
      s.port := by simp [setEp0MaxSize]
@[simp] theorem setEp0MaxSize_turns (m : Nat) (s : State) :
    (setEp0MaxSize m s).turns =
      s.turns := by simp [setEp0MaxSize]

/-! ### nakAll -/

@[simp] theorem nakAll_cfg (s : State) : (nakAll s).cfg = s.cfg := by simp only [nakAll]
@[simp] theorem nakAll_xfer (s : State) : (nakAll s).xfer = s.xfer := by simp only [nakAll]
@[simp] theorem nakAll_ep0Pending (s : State) :
    (nakAll s).ep0Pending =
      s.ep0Pending := by simp only [nakAll]
@[simp] theorem nakAll_allocWords (s : State) :
    (nakAll s).allocWords =
      s.allocWords := by simp only [nakAll]
@[simp] theorem nakAll_txfValid (s : State) :
    (nakAll s).txfValid =
      s.txfValid := by simp only [nakAll]
@[simp] theorem nakAll_setupBuf0 (s : State) :
    (nakAll s).setupBuf0 =
      s.setupBuf0 := by simp only [nakAll]
@[simp] theorem nakAll_setupBuf1 (s : State) :
    (nakAll s).setupBuf1 =
      s.setupBuf1 := by simp only [nakAll]
@[simp] theorem nakAll_busState (s : State) :
    (nakAll s).busState =
      s.busState := by simp only [nakAll]
@[simp] theorem nakAll_irqEn (s : State) : (nakAll s).irqEn = s.irqEn := by simp only [nakAll]
@[simp] theorem nakAll_halted (s : State) : (nakAll s).halted = s.halted := by simp only [nakAll]
@[simp] theorem nakAll_faultCause (s : State) :
    (nakAll s).faultCause =
      s.faultCause := by simp only [nakAll]
@[simp] theorem nakAll_ctx (s : State) : (nakAll s).ctx = s.ctx := by simp only [nakAll]
@[simp] theorem nakAll_events (s : State) : (nakAll s).events = s.events := by simp only [nakAll]
@[simp] theorem nakAll_resp (s : State) : (nakAll s).resp = s.resp := by simp only [nakAll]
@[simp] theorem nakAll_pi (s : State) :
    (nakAll s).pi =
      { s.pi with ep := ⟨Bank.mapBelow s.cfg.maxEndpoints (fun _ r => { r with nak := true }) s.pi.ep.out, Bank.mapBelow s.cfg.maxEndpoints (fun _ r => { r with nak := true }) s.pi.ep.inn⟩ } := by simp only [nakAll]
@[simp] theorem nakAll_mem (s : State) : (nakAll s).mem = s.mem := by simp only [nakAll]
@[simp] theorem nakAll_env (s : State) : (nakAll s).env = s.env := by simp only [nakAll]
@[simp] theorem nakAll_inFlight (s : State) :
    (nakAll s).inFlight =
      s.inFlight := by simp only [nakAll]
@[simp] theorem nakAll_irqDue (s : State) : (nakAll s).irqDue = s.irqDue := by simp only [nakAll]
@[simp] theorem nakAll_port (s : State) : (nakAll s).port = s.port := by simp only [nakAll]
@[simp] theorem nakAll_turns (s : State) : (nakAll s).turns = s.turns := by simp only [nakAll]

/-! ### clearTxe -/

@[simp] theorem clearTxe_cfg (s : State) : (clearTxe s).cfg = s.cfg := by simp only [clearTxe]
@[simp] theorem clearTxe_xfer (s : State) : (clearTxe s).xfer = s.xfer := by simp only [clearTxe]
@[simp] theorem clearTxe_ep0Pending (s : State) :
    (clearTxe s).ep0Pending =
      s.ep0Pending := by simp only [clearTxe]
@[simp] theorem clearTxe_allocWords (s : State) :
    (clearTxe s).allocWords =
      s.allocWords := by simp only [clearTxe]
@[simp] theorem clearTxe_txfValid (s : State) :
    (clearTxe s).txfValid =
      s.txfValid := by simp only [clearTxe]
@[simp] theorem clearTxe_setupBuf0 (s : State) :
    (clearTxe s).setupBuf0 =
      s.setupBuf0 := by simp only [clearTxe]
@[simp] theorem clearTxe_setupBuf1 (s : State) :
    (clearTxe s).setupBuf1 =
      s.setupBuf1 := by simp only [clearTxe]
@[simp] theorem clearTxe_busState (s : State) :
    (clearTxe s).busState =
      s.busState := by simp only [clearTxe]
@[simp] theorem clearTxe_irqEn (s : State) : (clearTxe s).irqEn = s.irqEn := by simp only [clearTxe]
@[simp] theorem clearTxe_halted (s : State) :
    (clearTxe s).halted =
      s.halted := by simp only [clearTxe]
@[simp] theorem clearTxe_faultCause (s : State) :
    (clearTxe s).faultCause =
      s.faultCause := by simp only [clearTxe]
@[simp] theorem clearTxe_ctx (s : State) : (clearTxe s).ctx = s.ctx := by simp only [clearTxe]
@[simp] theorem clearTxe_events (s : State) :
    (clearTxe s).events =
      s.events := by simp only [clearTxe]
@[simp] theorem clearTxe_resp (s : State) : (clearTxe s).resp = s.resp := by simp only [clearTxe]
@[simp] theorem clearTxe_pi (s : State) :
    (clearTxe s).pi =
      { s.pi with txeMsk := Bank.mapBelow s.cfg.maxEndpoints (fun _ _ => false) s.pi.txeMsk } := by simp only [clearTxe]
@[simp] theorem clearTxe_mem (s : State) : (clearTxe s).mem = s.mem := by simp only [clearTxe]
@[simp] theorem clearTxe_env (s : State) : (clearTxe s).env = s.env := by simp only [clearTxe]
@[simp] theorem clearTxe_inFlight (s : State) :
    (clearTxe s).inFlight =
      s.inFlight := by simp only [clearTxe]
@[simp] theorem clearTxe_irqDue (s : State) :
    (clearTxe s).irqDue =
      s.irqDue := by simp only [clearTxe]
@[simp] theorem clearTxe_port (s : State) : (clearTxe s).port = s.port := by simp only [clearTxe]
@[simp] theorem clearTxe_turns (s : State) : (clearTxe s).turns = s.turns := by simp only [clearTxe]

/-! ### rearmSetup -/

@[simp] theorem rearmSetup_cfg (s : State) : (rearmSetup s).cfg = s.cfg := rfl
@[simp] theorem rearmSetup_xfer (s : State) : (rearmSetup s).xfer = s.xfer := rfl
@[simp] theorem rearmSetup_ep0Pending (s : State) : (rearmSetup s).ep0Pending = s.ep0Pending := rfl
@[simp] theorem rearmSetup_allocWords (s : State) : (rearmSetup s).allocWords = s.allocWords := rfl
@[simp] theorem rearmSetup_txfValid (s : State) : (rearmSetup s).txfValid = s.txfValid := rfl
@[simp] theorem rearmSetup_setupBuf0 (s : State) : (rearmSetup s).setupBuf0 = s.setupBuf0 := rfl
@[simp] theorem rearmSetup_setupBuf1 (s : State) : (rearmSetup s).setupBuf1 = s.setupBuf1 := rfl
@[simp] theorem rearmSetup_busState (s : State) : (rearmSetup s).busState = s.busState := rfl
@[simp] theorem rearmSetup_irqEn (s : State) : (rearmSetup s).irqEn = s.irqEn := rfl
@[simp] theorem rearmSetup_halted (s : State) : (rearmSetup s).halted = s.halted := rfl
@[simp] theorem rearmSetup_faultCause (s : State) : (rearmSetup s).faultCause = s.faultCause := rfl
@[simp] theorem rearmSetup_ctx (s : State) : (rearmSetup s).ctx = s.ctx := rfl
@[simp] theorem rearmSetup_events (s : State) : (rearmSetup s).events = s.events := rfl
@[simp] theorem rearmSetup_resp (s : State) : (rearmSetup s).resp = s.resp := rfl
@[simp] theorem rearmSetup_pi (s : State) : (rearmSetup s).pi = { s.pi with setupcnt := 3 } := rfl
@[simp] theorem rearmSetup_mem (s : State) : (rearmSetup s).mem = s.mem := rfl
@[simp] theorem rearmSetup_inFlight (s : State) : (rearmSetup s).inFlight = s.inFlight := rfl
@[simp] theorem rearmSetup_irqDue (s : State) : (rearmSetup s).irqDue = s.irqDue := rfl
@[simp] theorem rearmSetup_port (s : State) : (rearmSetup s).port = s.port := rfl
@[simp] theorem rearmSetup_turns (s : State) : (rearmSetup s).turns = s.turns := rfl

/-! ### resetEpMasks -/

@[simp] theorem resetEpMasks_cfg (s : State) :
    (resetEpMasks s).cfg =
      s.cfg := by simp only [resetEpMasks]
@[simp] theorem resetEpMasks_xfer (s : State) :
    (resetEpMasks s).xfer =
      s.xfer := by simp only [resetEpMasks]
@[simp] theorem resetEpMasks_ep0Pending (s : State) :
    (resetEpMasks s).ep0Pending =
      s.ep0Pending := by simp only [resetEpMasks]
@[simp] theorem resetEpMasks_allocWords (s : State) :
    (resetEpMasks s).allocWords =
      s.allocWords := by simp only [resetEpMasks]
@[simp] theorem resetEpMasks_txfValid (s : State) :
    (resetEpMasks s).txfValid =
      s.txfValid := by simp only [resetEpMasks]
@[simp] theorem resetEpMasks_setupBuf0 (s : State) :
    (resetEpMasks s).setupBuf0 =
      s.setupBuf0 := by simp only [resetEpMasks]
@[simp] theorem resetEpMasks_setupBuf1 (s : State) :
    (resetEpMasks s).setupBuf1 =
      s.setupBuf1 := by simp only [resetEpMasks]
@[simp] theorem resetEpMasks_busState (s : State) :
    (resetEpMasks s).busState =
      s.busState := by simp only [resetEpMasks]
@[simp] theorem resetEpMasks_irqEn (s : State) :
    (resetEpMasks s).irqEn =
      s.irqEn := by simp only [resetEpMasks]
@[simp] theorem resetEpMasks_halted (s : State) :
    (resetEpMasks s).halted =
      s.halted := by simp only [resetEpMasks]
@[simp] theorem resetEpMasks_faultCause (s : State) :
    (resetEpMasks s).faultCause =
      s.faultCause := by simp only [resetEpMasks]
@[simp] theorem resetEpMasks_ctx (s : State) :
    (resetEpMasks s).ctx =
      s.ctx := by simp only [resetEpMasks]
@[simp] theorem resetEpMasks_events (s : State) :
    (resetEpMasks s).events =
      s.events := by simp only [resetEpMasks]
@[simp] theorem resetEpMasks_resp (s : State) :
    (resetEpMasks s).resp =
      s.resp := by simp only [resetEpMasks]
@[simp] theorem resetEpMasks_pi (s : State) :
    (resetEpMasks s).pi =
      { s.pi with epintMsk := ⟨Bank.mapBelow s.cfg.maxEndpoints (fun n _ => n == 0) s.pi.epintMsk.out, Bank.mapBelow s.cfg.maxEndpoints (fun n _ => n == 0) s.pi.epintMsk.inn⟩ } := by simp only [resetEpMasks]
@[simp] theorem resetEpMasks_mem (s : State) :
    (resetEpMasks s).mem =
      s.mem := by simp only [resetEpMasks]
@[simp] theorem resetEpMasks_env (s : State) :
    (resetEpMasks s).env =
      s.env := by simp only [resetEpMasks]
@[simp] theorem resetEpMasks_inFlight (s : State) :
    (resetEpMasks s).inFlight =
      s.inFlight := by simp only [resetEpMasks]
@[simp] theorem resetEpMasks_irqDue (s : State) :
    (resetEpMasks s).irqDue =
      s.irqDue := by simp only [resetEpMasks]
@[simp] theorem resetEpMasks_port (s : State) :
    (resetEpMasks s).port =
      s.port := by simp only [resetEpMasks]
@[simp] theorem resetEpMasks_turns (s : State) :
    (resetEpMasks s).turns =
      s.turns := by simp only [resetEpMasks]

/-! ### unmaskSources -/

@[simp] theorem unmaskSources_cfg (s : State) : (unmaskSources s).cfg = s.cfg := rfl
@[simp] theorem unmaskSources_xfer (s : State) : (unmaskSources s).xfer = s.xfer := rfl
@[simp] theorem unmaskSources_ep0Pending (s : State) :
    (unmaskSources s).ep0Pending =
      s.ep0Pending := rfl
@[simp] theorem unmaskSources_allocWords (s : State) :
    (unmaskSources s).allocWords =
      s.allocWords := rfl
@[simp] theorem unmaskSources_txfValid (s : State) : (unmaskSources s).txfValid = s.txfValid := rfl
@[simp] theorem unmaskSources_setupBuf0 (s : State) :
    (unmaskSources s).setupBuf0 =
      s.setupBuf0 := rfl
@[simp] theorem unmaskSources_setupBuf1 (s : State) :
    (unmaskSources s).setupBuf1 =
      s.setupBuf1 := rfl
@[simp] theorem unmaskSources_busState (s : State) : (unmaskSources s).busState = s.busState := rfl
@[simp] theorem unmaskSources_irqEn (s : State) : (unmaskSources s).irqEn = s.irqEn := rfl
@[simp] theorem unmaskSources_halted (s : State) : (unmaskSources s).halted = s.halted := rfl
@[simp] theorem unmaskSources_faultCause (s : State) :
    (unmaskSources s).faultCause =
      s.faultCause := rfl
@[simp] theorem unmaskSources_ctx (s : State) : (unmaskSources s).ctx = s.ctx := rfl
@[simp] theorem unmaskSources_events (s : State) : (unmaskSources s).events = s.events := rfl
@[simp] theorem unmaskSources_resp (s : State) : (unmaskSources s).resp = s.resp := rfl
@[simp] theorem unmaskSources_pi (s : State) :
    (unmaskSources s).pi =
      { s.pi with oepSrcMsk := ⟨true, true⟩, iepSrcMsk := true } := rfl
@[simp] theorem unmaskSources_mem (s : State) : (unmaskSources s).mem = s.mem := rfl
@[simp] theorem unmaskSources_env (s : State) : (unmaskSources s).env = s.env := rfl
@[simp] theorem unmaskSources_inFlight (s : State) : (unmaskSources s).inFlight = s.inFlight := rfl
@[simp] theorem unmaskSources_irqDue (s : State) : (unmaskSources s).irqDue = s.irqDue := rfl
@[simp] theorem unmaskSources_port (s : State) : (unmaskSources s).port = s.port := rfl
@[simp] theorem unmaskSources_turns (s : State) : (unmaskSources s).turns = s.turns := rfl

/-! ### unmaskEndpoints -/

@[simp] theorem unmaskEndpoints_cfg (s : State) : (unmaskEndpoints s).cfg = s.cfg := rfl
@[simp] theorem unmaskEndpoints_xfer (s : State) : (unmaskEndpoints s).xfer = s.xfer := rfl
@[simp] theorem unmaskEndpoints_ep0Pending (s : State) :
    (unmaskEndpoints s).ep0Pending =
      s.ep0Pending := rfl
@[simp] theorem unmaskEndpoints_allocWords (s : State) :
    (unmaskEndpoints s).allocWords =
      s.allocWords := rfl
@[simp] theorem unmaskEndpoints_txfValid (s : State) :
    (unmaskEndpoints s).txfValid =
      s.txfValid := rfl
@[simp] theorem unmaskEndpoints_setupBuf0 (s : State) :
    (unmaskEndpoints s).setupBuf0 =
      s.setupBuf0 := rfl
@[simp] theorem unmaskEndpoints_setupBuf1 (s : State) :
    (unmaskEndpoints s).setupBuf1 =
      s.setupBuf1 := rfl
@[simp] theorem unmaskEndpoints_busState (s : State) :
    (unmaskEndpoints s).busState =
      s.busState := rfl
@[simp] theorem unmaskEndpoints_irqEn (s : State) : (unmaskEndpoints s).irqEn = s.irqEn := rfl
@[simp] theorem unmaskEndpoints_halted (s : State) : (unmaskEndpoints s).halted = s.halted := rfl
@[simp] theorem unmaskEndpoints_faultCause (s : State) :
    (unmaskEndpoints s).faultCause =
      s.faultCause := rfl
@[simp] theorem unmaskEndpoints_ctx (s : State) : (unmaskEndpoints s).ctx = s.ctx := rfl
@[simp] theorem unmaskEndpoints_events (s : State) : (unmaskEndpoints s).events = s.events := rfl
@[simp] theorem unmaskEndpoints_resp (s : State) : (unmaskEndpoints s).resp = s.resp := rfl
@[simp] theorem unmaskEndpoints_pi (s : State) :
    (unmaskEndpoints s).pi =
      { s.pi with gmsk := { s.pi.gmsk with oep := true, iep := true } } := rfl
@[simp] theorem unmaskEndpoints_mem (s : State) : (unmaskEndpoints s).mem = s.mem := rfl
@[simp] theorem unmaskEndpoints_env (s : State) : (unmaskEndpoints s).env = s.env := rfl
@[simp] theorem unmaskEndpoints_inFlight (s : State) :
    (unmaskEndpoints s).inFlight =
      s.inFlight := rfl
@[simp] theorem unmaskEndpoints_irqDue (s : State) : (unmaskEndpoints s).irqDue = s.irqDue := rfl
@[simp] theorem unmaskEndpoints_port (s : State) : (unmaskEndpoints s).port = s.port := rfl
@[simp] theorem unmaskEndpoints_turns (s : State) : (unmaskEndpoints s).turns = s.turns := rfl

/-! ### setTurnaround -/

@[simp] theorem setTurnaround_cfg (v : Speed) (s : State) : (setTurnaround v s).cfg = s.cfg := rfl
@[simp] theorem setTurnaround_xfer (v : Speed) (s : State) :
    (setTurnaround v s).xfer =
      s.xfer := rfl
@[simp] theorem setTurnaround_ep0Pending (v : Speed) (s : State) :
    (setTurnaround v s).ep0Pending =
      s.ep0Pending := rfl
@[simp] theorem setTurnaround_allocWords (v : Speed) (s : State) :
    (setTurnaround v s).allocWords =
      s.allocWords := rfl
@[simp] theorem setTurnaround_txfValid (v : Speed) (s : State) :
    (setTurnaround v s).txfValid =
      s.txfValid := rfl
@[simp] theorem setTurnaround_setupBuf0 (v : Speed) (s : State) :
    (setTurnaround v s).setupBuf0 =
      s.setupBuf0 := rfl
@[simp] theorem setTurnaround_setupBuf1 (v : Speed) (s : State) :
    (setTurnaround v s).setupBuf1 =
      s.setupBuf1 := rfl
@[simp] theorem setTurnaround_busState (v : Speed) (s : State) :
    (setTurnaround v s).busState =
      s.busState := rfl
@[simp] theorem setTurnaround_irqEn (v : Speed) (s : State) :
    (setTurnaround v s).irqEn =
      s.irqEn := rfl
@[simp] theorem setTurnaround_halted (v : Speed) (s : State) :
    (setTurnaround v s).halted =
      s.halted := rfl
@[simp] theorem setTurnaround_faultCause (v : Speed) (s : State) :
    (setTurnaround v s).faultCause =
      s.faultCause := rfl
@[simp] theorem setTurnaround_ctx (v : Speed) (s : State) : (setTurnaround v s).ctx = s.ctx := rfl
@[simp] theorem setTurnaround_events (v : Speed) (s : State) :
    (setTurnaround v s).events =
      s.events := rfl
@[simp] theorem setTurnaround_resp (v : Speed) (s : State) :
    (setTurnaround v s).resp =
      s.resp := rfl
@[simp] theorem setTurnaround_pi (v : Speed) (s : State) :
    (setTurnaround v s).pi =
      { s.pi with turnaround := trdt s.cfg v s.pi.clkHz.toNat } := rfl
@[simp] theorem setTurnaround_mem (v : Speed) (s : State) : (setTurnaround v s).mem = s.mem := rfl
@[simp] theorem setTurnaround_env (v : Speed) (s : State) : (setTurnaround v s).env = s.env := rfl
@[simp] theorem setTurnaround_inFlight (v : Speed) (s : State) :
    (setTurnaround v s).inFlight =
      s.inFlight := rfl
@[simp] theorem setTurnaround_irqDue (v : Speed) (s : State) :
    (setTurnaround v s).irqDue =
      s.irqDue := rfl
@[simp] theorem setTurnaround_port (v : Speed) (s : State) :
    (setTurnaround v s).port =
      s.port := rfl
@[simp] theorem setTurnaround_turns (v : Speed) (s : State) :
    (setTurnaround v s).turns =
      s.turns := rfl

/-! ### setEp0Size -/

@[simp] theorem setEp0Size_cfg (v : Speed) (s : State) :
    (setEp0Size v s).cfg =
      s.cfg := by simp [setEp0Size]
@[simp] theorem setEp0Size_ep0Pending (v : Speed) (s : State) :
    (setEp0Size v s).ep0Pending =
      s.ep0Pending := by simp [setEp0Size]
@[simp] theorem setEp0Size_allocWords (v : Speed) (s : State) :
    (setEp0Size v s).allocWords =
      s.allocWords := by simp [setEp0Size]
@[simp] theorem setEp0Size_txfValid (v : Speed) (s : State) :
    (setEp0Size v s).txfValid =
      s.txfValid := by simp [setEp0Size]
@[simp] theorem setEp0Size_setupBuf0 (v : Speed) (s : State) :
    (setEp0Size v s).setupBuf0 =
      s.setupBuf0 := by simp [setEp0Size]
@[simp] theorem setEp0Size_setupBuf1 (v : Speed) (s : State) :
    (setEp0Size v s).setupBuf1 =
      s.setupBuf1 := by simp [setEp0Size]
@[simp] theorem setEp0Size_busState (v : Speed) (s : State) :
    (setEp0Size v s).busState =
      s.busState := by simp [setEp0Size]
@[simp] theorem setEp0Size_irqEn (v : Speed) (s : State) :
    (setEp0Size v s).irqEn =
      s.irqEn := by simp [setEp0Size]
@[simp] theorem setEp0Size_halted (v : Speed) (s : State) :
    (setEp0Size v s).halted =
      s.halted := by simp [setEp0Size]
@[simp] theorem setEp0Size_faultCause (v : Speed) (s : State) :
    (setEp0Size v s).faultCause =
      s.faultCause := by simp [setEp0Size]
@[simp] theorem setEp0Size_ctx (v : Speed) (s : State) :
    (setEp0Size v s).ctx =
      s.ctx := by simp [setEp0Size]
@[simp] theorem setEp0Size_events (v : Speed) (s : State) :
    (setEp0Size v s).events =
      s.events := by simp [setEp0Size]
@[simp] theorem setEp0Size_resp (v : Speed) (s : State) :
    (setEp0Size v s).resp =
      s.resp := by simp [setEp0Size]
@[simp] theorem setEp0Size_mem (v : Speed) (s : State) :
    (setEp0Size v s).mem =
      s.mem := by simp [setEp0Size]
@[simp] theorem setEp0Size_env (v : Speed) (s : State) :
    (setEp0Size v s).env =
      s.env := by simp [setEp0Size]
@[simp] theorem setEp0Size_inFlight (v : Speed) (s : State) :
    (setEp0Size v s).inFlight =
      s.inFlight := by simp [setEp0Size]
@[simp] theorem setEp0Size_irqDue (v : Speed) (s : State) :
    (setEp0Size v s).irqDue =
      s.irqDue := by simp [setEp0Size]
@[simp] theorem setEp0Size_port (v : Speed) (s : State) :
    (setEp0Size v s).port =
      s.port := by simp [setEp0Size]
@[simp] theorem setEp0Size_turns (v : Speed) (s : State) :
    (setEp0Size v s).turns =
      s.turns := by simp [setEp0Size]

/-! ### handleSignal -/

@[simp] theorem handleSignal_cfg (k : Signal) (s : State) :
    (handleSignal k s).cfg =
      s.cfg := by
  cases k <;> simp only [handleSignal] <;> (try split) <;> simp
@[simp] theorem handleSignal_xfer (k : Signal) (s : State) :
    (handleSignal k s).xfer =
      s.xfer := by
  cases k <;> simp only [handleSignal] <;> (try split) <;> simp
@[simp] theorem handleSignal_ep0Pending (k : Signal) (s : State) :
    (handleSignal k s).ep0Pending =
      s.ep0Pending := by
  cases k <;> simp only [handleSignal] <;> (try split) <;> simp
@[simp] theorem handleSignal_allocWords (k : Signal) (s : State) :
    (handleSignal k s).allocWords =
      s.allocWords := by
  cases k <;> simp only [handleSignal] <;> (try split) <;> simp
@[simp] theorem handleSignal_txfValid (k : Signal) (s : State) :
    (handleSignal k s).txfValid =
      s.txfValid := by
  cases k <;> simp only [handleSignal] <;> (try split) <;> simp
@[simp] theorem handleSignal_setupBuf0 (k : Signal) (s : State) :
    (handleSignal k s).setupBuf0 =
      s.setupBuf0 := by
  cases k <;> simp only [handleSignal] <;> (try split) <;> simp
@[simp] theorem handleSignal_setupBuf1 (k : Signal) (s : State) :
    (handleSignal k s).setupBuf1 =
      s.setupBuf1 := by
  cases k <;> simp only [handleSignal] <;> (try split) <;> simp
@[simp] theorem handleSignal_irqEn (k : Signal) (s : State) :
    (handleSignal k s).irqEn =
      s.irqEn := by
  cases k <;> simp only [handleSignal] <;> (try split) <;> simp
@[simp] theorem handleSignal_halted (k : Signal) (s : State) :
    (handleSignal k s).halted =
      s.halted := by
  cases k <;> simp only [handleSignal] <;> (try split) <;> simp
@[simp] theorem handleSignal_faultCause (k : Signal) (s : State) :
    (handleSignal k s).faultCause =
      s.faultCause := by
  cases k <;> simp only [handleSignal] <;> (try split) <;> simp
@[simp] theorem handleSignal_ctx (k : Signal) (s : State) :
    (handleSignal k s).ctx =
      s.ctx := by
  cases k <;> simp only [handleSignal] <;> (try split) <;> simp
@[simp] theorem handleSignal_events (k : Signal) (s : State) :
    (handleSignal k s).events =
      s.events ++ [.busSignal k] := by
  cases k <;> simp only [handleSignal] <;> (try split) <;> simp
@[simp] theorem handleSignal_resp (k : Signal) (s : State) :
    (handleSignal k s).resp =
      s.resp := by
  cases k <;> simp only [handleSignal] <;> (try split) <;> simp
@[simp] theorem handleSignal_pi (k : Signal) (s : State) :
    (handleSignal k s).pi =
      s.pi := by
  cases k <;> simp only [handleSignal] <;> (try split) <;> simp
@[simp] theorem handleSignal_mem (k : Signal) (s : State) :
    (handleSignal k s).mem =
      s.mem := by
  cases k <;> simp only [handleSignal] <;> (try split) <;> simp
@[simp] theorem handleSignal_env (k : Signal) (s : State) :
    (handleSignal k s).env =
      s.env := by
  cases k <;> simp only [handleSignal] <;> (try split) <;> simp
@[simp] theorem handleSignal_inFlight (k : Signal) (s : State) :
    (handleSignal k s).inFlight =
      s.inFlight := by
  cases k <;> simp only [handleSignal] <;> (try split) <;> simp
@[simp] theorem handleSignal_irqDue (k : Signal) (s : State) :
    (handleSignal k s).irqDue =
      s.irqDue := by
  cases k <;> simp only [handleSignal] <;> (try split) <;> simp
@[simp] theorem handleSignal_port (k : Signal) (s : State) :
    (handleSignal k s).port =
      s.port := by
  cases k <;> simp only [handleSignal] <;> (try split) <;> simp
@[simp] theorem handleSignal_turns (k : Signal) (s : State) :
    (handleSignal k s).turns =
      s.turns := by
  cases k <;> simp only [handleSignal] <;> (try split) <;> simp

/-! ### setRxneMask -/

@[simp] theorem setRxneMask_cfg (v : Bool) (s : State) : (setRxneMask v s).cfg = s.cfg := rfl
@[simp] theorem setRxneMask_xfer (v : Bool) (s : State) : (setRxneMask v s).xfer = s.xfer := rfl
@[simp] theorem setRxneMask_ep0Pending (v : Bool) (s : State) :
    (setRxneMask v s).ep0Pending =
      s.ep0Pending := rfl
@[simp] theorem setRxneMask_allocWords (v : Bool) (s : State) :
    (setRxneMask v s).allocWords =
      s.allocWords := rfl
@[simp] theorem setRxneMask_txfValid (v : Bool) (s : State) :
    (setRxneMask v s).txfValid =
      s.txfValid := rfl
@[simp] theorem setRxneMask_setupBuf0 (v : Bool) (s : State) :
    (setRxneMask v s).setupBuf0 =
      s.setupBuf0 := rfl
@[simp] theorem setRxneMask_setupBuf1 (v : Bool) (s : State) :
    (setRxneMask v s).setupBuf1 =
      s.setupBuf1 := rfl
@[simp] theorem setRxneMask_busState (v : Bool) (s : State) :
    (setRxneMask v s).busState =
      s.busState := rfl
@[simp] theorem setRxneMask_irqEn (v : Bool) (s : State) : (setRxneMask v s).irqEn = s.irqEn := rfl
@[simp] theorem setRxneMask_halted (v : Bool) (s : State) :
    (setRxneMask v s).halted =
      s.halted := rfl
@[simp] theorem setRxneMask_faultCause (v : Bool) (s : State) :
    (setRxneMask v s).faultCause =
      s.faultCause := rfl
@[simp] theorem setRxneMask_ctx (v : Bool) (s : State) : (setRxneMask v s).ctx = s.ctx := rfl
@[simp] theorem setRxneMask_events (v : Bool) (s : State) :
    (setRxneMask v s).events =
      s.events := rfl
@[simp] theorem setRxneMask_resp (v : Bool) (s : State) : (setRxneMask v s).resp = s.resp := rfl
@[simp] theorem setRxneMask_pi (v : Bool) (s : State) :
    (setRxneMask v s).pi =
      { s.pi with gmsk := { s.pi.gmsk with rxne := v } } := rfl
@[simp] theorem setRxneMask_mem (v : Bool) (s : State) : (setRxneMask v s).mem = s.mem := rfl
@[simp] theorem setRxneMask_env (v : Bool) (s : State) : (setRxneMask v s).env = s.env := rfl
@[simp] theorem setRxneMask_inFlight (v : Bool) (s : State) :
    (setRxneMask v s).inFlight =
      s.inFlight := rfl
@[simp] theorem setRxneMask_irqDue (v : Bool) (s : State) :
    (setRxneMask v s).irqDue =
      s.irqDue := rfl
@[simp] theorem setRxneMask_port (v : Bool) (s : State) : (setRxneMask v s).port = s.port := rfl
@[simp] theorem setRxneMask_turns (v : Bool) (s : State) : (setRxneMask v s).turns = s.turns := rfl

/-! ### rxOutDone -/

@[simp] theorem rxOutDone_cfg (n : EpNum) (s : State) :
    (rxOutDone n s).cfg =
      s.cfg := by
  simp only [rxOutDone]; split <;> simp
@[simp] theorem rxOutDone_xfer (n : EpNum) (s : State) :
    (rxOutDone n s).xfer =
      s.xfer := by
  simp only [rxOutDone]; split <;> simp
@[simp] theorem rxOutDone_ep0Pending (n : EpNum) (s : State) :
    (rxOutDone n s).ep0Pending =
      s.ep0Pending := by
  simp only [rxOutDone]; split <;> simp
@[simp] theorem rxOutDone_allocWords (n : EpNum) (s : State) :
    (rxOutDone n s).allocWords =
      s.allocWords := by
  simp only [rxOutDone]; split <;> simp
@[simp] theorem rxOutDone_txfValid (n : EpNum) (s : State) :
    (rxOutDone n s).txfValid =
      s.txfValid := by
  simp only [rxOutDone]; split <;> simp
@[simp] theorem rxOutDone_setupBuf0 (n : EpNum) (s : State) :
    (rxOutDone n s).setupBuf0 =
      s.setupBuf0 := by
  simp only [rxOutDone]; split <;> simp
@[simp] theorem rxOutDone_setupBuf1 (n : EpNum) (s : State) :
    (rxOutDone n s).setupBuf1 =
      s.setupBuf1 := by
  simp only [rxOutDone]; split <;> simp
@[simp] theorem rxOutDone_busState (n : EpNum) (s : State) :
    (rxOutDone n s).busState =
      s.busState := by
  simp only [rxOutDone]; split <;> simp
@[simp] theorem rxOutDone_irqEn (n : EpNum) (s : State) :
    (rxOutDone n s).irqEn =
      s.irqEn := by
  simp only [rxOutDone]; split <;> simp
@[simp] theorem rxOutDone_halted (n : EpNum) (s : State) :
    (rxOutDone n s).halted =
      s.halted := by
  simp only [rxOutDone]; split <;> simp
@[simp] theorem rxOutDone_faultCause (n : EpNum) (s : State) :
    (rxOutDone n s).faultCause =
      s.faultCause := by
  simp only [rxOutDone]; split <;> simp
@[simp] theorem rxOutDone_ctx (n : EpNum) (s : State) :
    (rxOutDone n s).ctx =
      s.ctx := by
  simp only [rxOutDone]; split <;> simp
@[simp] theorem rxOutDone_events (n : EpNum) (s : State) :
    (rxOutDone n s).events =
      s.events := by
  simp only [rxOutDone]; split <;> simp
@[simp] theorem rxOutDone_resp (n : EpNum) (s : State) :
    (rxOutDone n s).resp =
      s.resp := by
  simp only [rxOutDone]; split <;> simp
@[simp] theorem rxOutDone_mem (n : EpNum) (s : State) :
    (rxOutDone n s).mem =
      s.mem := by
  simp only [rxOutDone]; split <;> simp
@[simp] theorem rxOutDone_inFlight (n : EpNum) (s : State) :
    (rxOutDone n s).inFlight =
      s.inFlight := by
  simp only [rxOutDone]; split <;> simp
@[simp] theorem rxOutDone_irqDue (n : EpNum) (s : State) :
    (rxOutDone n s).irqDue =
      s.irqDue := by
  simp only [rxOutDone]; split <;> simp
@[simp] theorem rxOutDone_port (n : EpNum) (s : State) :
    (rxOutDone n s).port =
      s.port := by
  simp only [rxOutDone]; split <;> simp
@[simp] theorem rxOutDone_turns (n : EpNum) (s : State) :
    (rxOutDone n s).turns =
      s.turns := by
  simp only [rxOutDone]; split <;> simp

/-! ### rxSetupDone -/

@[simp] theorem rxSetupDone_cfg (s : State) : (rxSetupDone s).cfg = s.cfg := rfl
@[simp] theorem rxSetupDone_xfer (s : State) : (rxSetupDone s).xfer = s.xfer := rfl
@[simp] theorem rxSetupDone_ep0Pending (s : State) :
    (rxSetupDone s).ep0Pending =
      s.ep0Pending := rfl
@[simp] theorem rxSetupDone_allocWords (s : State) :
    (rxSetupDone s).allocWords =
      s.allocWords := rfl
@[simp] theorem rxSetupDone_txfValid (s : State) : (rxSetupDone s).txfValid = s.txfValid := rfl
@[simp] theorem rxSetupDone_setupBuf0 (s : State) : (rxSetupDone s).setupBuf0 = s.setupBuf0 := rfl
@[simp] theorem rxSetupDone_setupBuf1 (s : State) : (rxSetupDone s).setupBuf1 = s.setupBuf1 := rfl
@[simp] theorem rxSetupDone_busState (s : State) : (rxSetupDone s).busState = s.busState := rfl
@[simp] theorem rxSetupDone_irqEn (s : State) : (rxSetupDone s).irqEn = s.irqEn := rfl
@[simp] theorem rxSetupDone_halted (s : State) : (rxSetupDone s).halted = s.halted := rfl
@[simp] theorem rxSetupDone_faultCause (s : State) :
    (rxSetupDone s).faultCause =
      s.faultCause := rfl
@[simp] theorem rxSetupDone_ctx (s : State) : (rxSetupDone s).ctx = s.ctx := rfl
@[simp] theorem rxSetupDone_events (s : State) : (rxSetupDone s).events = s.events := rfl
@[simp] theorem rxSetupDone_resp (s : State) : (rxSetupDone s).resp = s.resp := rfl
@[simp] theorem rxSetupDone_pi (s : State) :
    (rxSetupDone s).pi =
      { s.pi with setupcnt := 3, setupDone := s.pi.setupDone.set 0 true } := rfl
@[simp] theorem rxSetupDone_mem (s : State) : (rxSetupDone s).mem = s.mem := rfl
@[simp] theorem rxSetupDone_inFlight (s : State) : (rxSetupDone s).inFlight = s.inFlight := rfl
@[simp] theorem rxSetupDone_irqDue (s : State) : (rxSetupDone s).irqDue = s.irqDue := rfl
@[simp] theorem rxSetupDone_port (s : State) : (rxSetupDone s).port = s.port := rfl
@[simp] theorem rxSetupDone_turns (s : State) : (rxSetupDone s).turns = s.turns := rfl

/-! ### rxGlobalOutNak -/

@[simp] theorem rxGlobalOutNak_cfg (s : State) :
    (rxGlobalOutNak s).cfg =
      s.cfg := by simp only [rxGlobalOutNak]
@[simp] theorem rxGlobalOutNak_xfer (s : State) :
    (rxGlobalOutNak s).xfer =
      s.xfer := by simp only [rxGlobalOutNak]
@[simp] theorem rxGlobalOutNak_ep0Pending (s : State) :
    (rxGlobalOutNak s).ep0Pending =
      s.ep0Pending := by simp only [rxGlobalOutNak]
@[simp] theorem rxGlobalOutNak_allocWords (s : State) :
    (rxGlobalOutNak s).allocWords =
      s.allocWords := by simp only [rxGlobalOutNak]
@[simp] theorem rxGlobalOutNak_txfValid (s : State) :
    (rxGlobalOutNak s).txfValid =
      s.txfValid := by simp only [rxGlobalOutNak]
@[simp] theorem rxGlobalOutNak_setupBuf0 (s : State) :
    (rxGlobalOutNak s).setupBuf0 =
      s.setupBuf0 := by simp only [rxGlobalOutNak]
@[simp] theorem rxGlobalOutNak_setupBuf1 (s : State) :
    (rxGlobalOutNak s).setupBuf1 =
      s.setupBuf1 := by simp only [rxGlobalOutNak]
@[simp] theorem rxGlobalOutNak_busState (s : State) :
    (rxGlobalOutNak s).busState =
      s.busState := by simp only [rxGlobalOutNak]
@[simp] theorem rxGlobalOutNak_irqEn (s : State) :
    (rxGlobalOutNak s).irqEn =
      s.irqEn := by simp only [rxGlobalOutNak]
@[simp] theorem rxGlobalOutNak_halted (s : State) :
    (rxGlobalOutNak s).halted =
      s.halted := by simp only [rxGlobalOutNak]
@[simp] theorem rxGlobalOutNak_faultCause (s : State) :
    (rxGlobalOutNak s).faultCause =
      s.faultCause := by simp only [rxGlobalOutNak]
@[simp] theorem rxGlobalOutNak_ctx (s : State) :
    (rxGlobalOutNak s).ctx =
      s.ctx := by simp only [rxGlobalOutNak]
@[simp] theorem rxGlobalOutNak_events (s : State) :
    (rxGlobalOutNak s).events =
      s.events := by simp only [rxGlobalOutNak]
@[simp] theorem rxGlobalOutNak_resp (s : State) :
    (rxGlobalOutNak s).resp =
      s.resp := by simp only [rxGlobalOutNak]
@[simp] theorem rxGlobalOutNak_pi (s : State) :
    (rxGlobalOutNak s).pi =
      s.pi := by simp only [rxGlobalOutNak]
@[simp] theorem rxGlobalOutNak_mem (s : State) :
    (rxGlobalOutNak s).mem =
      s.mem := by simp only [rxGlobalOutNak]
@[simp] theorem rxGlobalOutNak_inFlight (s : State) :
    (rxGlobalOutNak s).inFlight =
      s.inFlight := by simp only [rxGlobalOutNak]
@[simp] theorem rxGlobalOutNak_irqDue (s : State) :
    (rxGlobalOutNak s).irqDue =
      s.irqDue := by simp only [rxGlobalOutNak]
@[simp] theorem rxGlobalOutNak_port (s : State) :
    (rxGlobalOutNak s).port =
      s.port := by simp only [rxGlobalOutNak]
@[simp] theorem rxGlobalOutNak_turns (s : State) :
    (rxGlobalOutNak s).turns =
      s.turns := by simp only [rxGlobalOutNak]

/-! ### outSetupPhase -/

@[simp] theorem outSetupPhase_cfg (n : EpNum) (s : State) :
    (outSetupPhase n s).cfg =
      s.cfg := by
  simp only [outSetupPhase]; split <;> simp
@[simp] theorem outSetupPhase_xfer (n : EpNum) (s : State) :
    (outSetupPhase n s).xfer =
      s.xfer := by
  simp only [outSetupPhase]; split <;> simp
@[simp] theorem outSetupPhase_ep0Pending (n : EpNum) (s : State) :
    (outSetupPhase n s).ep0Pending =
      s.ep0Pending := by
  simp only [outSetupPhase]; split <;> simp
@[simp] theorem outSetupPhase_allocWords (n : EpNum) (s : State) :
    (outSetupPhase n s).allocWords =
      s.allocWords := by
  simp only [outSetupPhase]; split <;> simp
@[simp] theorem outSetupPhase_txfValid (n : EpNum) (s : State) :
    (outSetupPhase n s).txfValid =
      s.txfValid := by
  simp only [outSetupPhase]; split <;> simp
@[simp] theorem outSetupPhase_setupBuf0 (n : EpNum) (s : State) :
    (outSetupPhase n s).setupBuf0 =
      s.setupBuf0 := by
  simp only [outSetupPhase]; split <;> simp
@[simp] theorem outSetupPhase_setupBuf1 (n : EpNum) (s : State) :
    (outSetupPhase n s).setupBuf1 =
      s.setupBuf1 := by
  simp only [outSetupPhase]; split <;> simp
@[simp] theorem outSetupPhase_busState (n : EpNum) (s : State) :
    (outSetupPhase n s).busState =
      s.busState := by
  simp only [outSetupPhase]; split <;> simp
@[simp] theorem outSetupPhase_irqEn (n : EpNum) (s : State) :
    (outSetupPhase n s).irqEn =
      s.irqEn := by
  simp only [outSetupPhase]; split <;> simp
@[simp] theorem outSetupPhase_halted (n : EpNum) (s : State) :
    (outSetupPhase n s).halted =
      s.halted := by
  simp only [outSetupPhase]; split <;> simp
@[simp] theorem outSetupPhase_faultCause (n : EpNum) (s : State) :
    (outSetupPhase n s).faultCause =
      s.faultCause := by
  simp only [outSetupPhase]; split <;> simp
@[simp] theorem outSetupPhase_ctx (n : EpNum) (s : State) :
    (outSetupPhase n s).ctx =
      s.ctx := by
  simp only [outSetupPhase]; split <;> simp
@[simp] theorem outSetupPhase_resp (n : EpNum) (s : State) :
    (outSetupPhase n s).resp =
      s.resp := by
  simp only [outSetupPhase]; split <;> simp
@[simp] theorem outSetupPhase_mem (n : EpNum) (s : State) :
    (outSetupPhase n s).mem =
      s.mem := by
  simp only [outSetupPhase]; split <;> simp
@[simp] theorem outSetupPhase_env (n : EpNum) (s : State) :
    (outSetupPhase n s).env =
      s.env := by
  simp only [outSetupPhase]; split <;> simp
@[simp] theorem outSetupPhase_inFlight (n : EpNum) (s : State) :
    (outSetupPhase n s).inFlight =
      s.inFlight := by
  simp only [outSetupPhase]; split <;> simp
@[simp] theorem outSetupPhase_irqDue (n : EpNum) (s : State) :
    (outSetupPhase n s).irqDue =
      s.irqDue := by
  simp only [outSetupPhase]; split <;> simp
@[simp] theorem outSetupPhase_port (n : EpNum) (s : State) :
    (outSetupPhase n s).port =
      s.port := by
  simp only [outSetupPhase]; split <;> simp
@[simp] theorem outSetupPhase_turns (n : EpNum) (s : State) :
    (outSetupPhase n s).turns =
      s.turns := by
  simp only [outSetupPhase]; split <;> simp

/-! ### feedEnd -/

@[simp] theorem feedEnd_cfg (n : EpNum) (s : State) :
    (feedEnd n s).cfg =
      s.cfg := by
  simp only [feedEnd]; split <;> simp
@[simp] theorem feedEnd_xfer (n : EpNum) (s : State) :
    (feedEnd n s).xfer =
      s.xfer := by
  simp only [feedEnd]; split <;> simp
@[simp] theorem feedEnd_ep0Pending (n : EpNum) (s : State) :
    (feedEnd n s).ep0Pending =
      s.ep0Pending := by
  simp only [feedEnd]; split <;> simp
@[simp] theorem feedEnd_allocWords (n : EpNum) (s : State) :
    (feedEnd n s).allocWords =
      s.allocWords := by
  simp only [feedEnd]; split <;> simp
@[simp] theorem feedEnd_txfValid (n : EpNum) (s : State) :
    (feedEnd n s).txfValid =
      s.txfValid := by
  simp only [feedEnd]; split <;> simp
@[simp] theorem feedEnd_setupBuf0 (n : EpNum) (s : State) :
    (feedEnd n s).setupBuf0 =
      s.setupBuf0 := by
  simp only [feedEnd]; split <;> simp
@[simp] theorem feedEnd_setupBuf1 (n : EpNum) (s : State) :
    (feedEnd n s).setupBuf1 =
      s.setupBuf1 := by
  simp only [feedEnd]; split <;> simp
@[simp] theorem feedEnd_busState (n : EpNum) (s : State) :
    (feedEnd n s).busState =
      s.busState := by
  simp only [feedEnd]; split <;> simp
@[simp] theorem feedEnd_irqEn (n : EpNum) (s : State) :
    (feedEnd n s).irqEn =
      s.irqEn := by
  simp only [feedEnd]; split <;> simp
@[simp] theorem feedEnd_halted (n : EpNum) (s : State) :
    (feedEnd n s).halted =
      s.halted := by
  simp only [feedEnd]; split <;> simp
@[simp] theorem feedEnd_faultCause (n : EpNum) (s : State) :
    (feedEnd n s).faultCause =
      s.faultCause := by
  simp only [feedEnd]; split <;> simp
@[simp] theorem feedEnd_ctx (n : EpNum) (s : State) :
    (feedEnd n s).ctx =
      s.ctx := by
  simp only [feedEnd]; split <;> simp
@[simp] theorem feedEnd_events (n : EpNum) (s : State) :
    (feedEnd n s).events =
      s.events := by
  simp only [feedEnd]; split <;> simp
@[simp] theorem feedEnd_resp (n : EpNum) (s : State) :
    (feedEnd n s).resp =
      s.resp := by
  simp only [feedEnd]; split <;> simp
@[simp] theorem feedEnd_mem (n : EpNum) (s : State) :
    (feedEnd n s).mem =
      s.mem := by
  simp only [feedEnd]; split <;> simp
@[simp] theorem feedEnd_env (n : EpNum) (s : State) :
    (feedEnd n s).env =
      s.env := by
  simp only [feedEnd]; split <;> simp
@[simp] theorem feedEnd_inFlight (n : EpNum) (s : State) :
    (feedEnd n s).inFlight =
      s.inFlight := by
  simp only [feedEnd]; split <;> simp
@[simp] theorem feedEnd_irqDue (n : EpNum) (s : State) :
    (feedEnd n s).irqDue =
      s.irqDue := by
  simp only [feedEnd]; split <;> simp
@[simp] theorem feedEnd_port (n : EpNum) (s : State) :
    (feedEnd n s).port =
      s.port := by
  simp only [feedEnd]; split <;> simp
@[simp] theorem feedEnd_turns (n : EpNum) (s : State) :
    (feedEnd n s).turns =
      s.turns := by
  simp only [feedEnd]; split <;> simp

/-! ### ep0Take -/

@[simp] theorem ep0Take_cfg (s : State) (d : Dir) : (ep0Take s d).cfg = s.cfg := rfl
@[simp] theorem ep0Take_xfer (s : State) (d : Dir) : (ep0Take s d).xfer = s.xfer := rfl
@[simp] theorem ep0Take_ep0Pending (s : State) (d : Dir) :
    (ep0Take s d).ep0Pending =
      s.ep0Pending.set d (s.ep0Pending.get d - ep0Bytes s d) := rfl
@[simp] theorem ep0Take_allocWords (s : State) (d : Dir) :
    (ep0Take s d).allocWords =
      s.allocWords := rfl
@[simp] theorem ep0Take_txfValid (s : State) (d : Dir) : (ep0Take s d).txfValid = s.txfValid := rfl
@[simp] theorem ep0Take_setupBuf0 (s : State) (d : Dir) :
    (ep0Take s d).setupBuf0 =
      s.setupBuf0 := rfl
@[simp] theorem ep0Take_setupBuf1 (s : State) (d : Dir) :
    (ep0Take s d).setupBuf1 =
      s.setupBuf1 := rfl
@[simp] theorem ep0Take_busState (s : State) (d : Dir) : (ep0Take s d).busState = s.busState := rfl
@[simp] theorem ep0Take_irqEn (s : State) (d : Dir) : (ep0Take s d).irqEn = s.irqEn := rfl
@[simp] theorem ep0Take_halted (s : State) (d : Dir) : (ep0Take s d).halted = s.halted := rfl
@[simp] theorem ep0Take_faultCause (s : State) (d : Dir) :
    (ep0Take s d).faultCause =
      s.faultCause := rfl
@[simp] theorem ep0Take_ctx (s : State) (d : Dir) : (ep0Take s d).ctx = s.ctx := rfl
@[simp] theorem ep0Take_events (s : State) (d : Dir) : (ep0Take s d).events = s.events := rfl
@[simp] theorem ep0Take_resp (s : State) (d : Dir) : (ep0Take s d).resp = s.resp := rfl
@[simp] theorem ep0Take_pi (s : State) (d : Dir) : (ep0Take s d).pi = s.pi := rfl
@[simp] theorem ep0Take_mem (s : State) (d : Dir) : (ep0Take s d).mem = s.mem := rfl
@[simp] theorem ep0Take_env (s : State) (d : Dir) : (ep0Take s d).env = s.env := rfl
@[simp] theorem ep0Take_inFlight (s : State) (d : Dir) : (ep0Take s d).inFlight = s.inFlight := rfl
@[simp] theorem ep0Take_irqDue (s : State) (d : Dir) : (ep0Take s d).irqDue = s.irqDue := rfl
@[simp] theorem ep0Take_port (s : State) (d : Dir) : (ep0Take s d).port = s.port := rfl
@[simp] theorem ep0Take_turns (s : State) (d : Dir) : (ep0Take s d).turns = s.turns := rfl

/-! ### initBlock -/

@[simp] theorem initBlock_cfg (s : State) : (initBlock s).cfg = s.cfg := by simp [initBlock]
@[simp] theorem initBlock_xfer (s : State) :
    (initBlock s).xfer =
      ⟨Bank.mapBelow s.cfg.maxEndpoints (fun _ _ => Record.zero) s.xfer.out, Bank.mapBelow s.cfg.maxEndpoints (fun _ _ => Record.zero) s.xfer.inn⟩ := by simp [initBlock]
@[simp] theorem initBlock_ep0Pending (s : State) :
    (initBlock s).ep0Pending =
      ⟨0, 0⟩ := by simp [initBlock]
@[simp] theorem initBlock_allocWords (s : State) :
    (initBlock s).allocWords =
      0 := by simp [initBlock]
@[simp] theorem initBlock_txfValid (s : State) :
    (initBlock s).txfValid =
      Bank.mapBelow s.cfg.maxEndpoints (fun _ _ => false) s.txfValid := by simp [initBlock]
@[simp] theorem initBlock_setupBuf0 (s : State) : (initBlock s).setupBuf0 = 0 := by simp [initBlock]
@[simp] theorem initBlock_setupBuf1 (s : State) : (initBlock s).setupBuf1 = 0 := by simp [initBlock]
@[simp] theorem initBlock_busState (s : State) :
    (initBlock s).busState =
      .disconnected := by simp [initBlock]
@[simp] theorem initBlock_irqEn (s : State) : (initBlock s).irqEn = s.irqEn := by simp [initBlock]
@[simp] theorem initBlock_halted (s : State) :
    (initBlock s).halted =
      s.halted := by simp [initBlock]
@[simp] theorem initBlock_faultCause (s : State) :
    (initBlock s).faultCause =
      s.faultCause := by simp [initBlock]
@[simp] theorem initBlock_ctx (s : State) : (initBlock s).ctx = s.ctx := by simp [initBlock]
@[simp] theorem initBlock_events (s : State) :
    (initBlock s).events =
      s.events := by simp [initBlock]
@[simp] theorem initBlock_resp (s : State) : (initBlock s).resp = s.resp := by simp [initBlock]
@[simp] theorem initBlock_pi (s : State) : (initBlock s).pi = s.pi := by simp [initBlock]
@[simp] theorem initBlock_mem (s : State) : (initBlock s).mem = s.mem := by simp [initBlock]
@[simp] theorem initBlock_irqDue (s : State) :
    (initBlock s).irqDue =
      s.irqDue := by simp [initBlock]
@[simp] theorem initBlock_port (s : State) : (initBlock s).port = s.port := by simp [initBlock]
@[simp] theorem initBlock_turns (s : State) : (initBlock s).turns = s.turns := by simp [initBlock]

/-! ### initMaskAll -/

@[simp] theorem initMaskAll_cfg (s : State) : (initMaskAll s).cfg = s.cfg := rfl
@[simp] theorem initMaskAll_xfer (s : State) : (initMaskAll s).xfer = s.xfer := rfl
@[simp] theorem initMaskAll_ep0Pending (s : State) :
    (initMaskAll s).ep0Pending =
      s.ep0Pending := rfl
@[simp] theorem initMaskAll_allocWords (s : State) :
    (initMaskAll s).allocWords =
      s.allocWords := rfl
@[simp] theorem initMaskAll_txfValid (s : State) : (initMaskAll s).txfValid = s.txfValid := rfl
@[simp] theorem initMaskAll_setupBuf0 (s : State) : (initMaskAll s).setupBuf0 = s.setupBuf0 := rfl
@[simp] theorem initMaskAll_setupBuf1 (s : State) : (initMaskAll s).setupBuf1 = s.setupBuf1 := rfl
@[simp] theorem initMaskAll_busState (s : State) : (initMaskAll s).busState = s.busState := rfl
@[simp] theorem initMaskAll_irqEn (s : State) : (initMaskAll s).irqEn = s.irqEn := rfl
@[simp] theorem initMaskAll_halted (s : State) : (initMaskAll s).halted = s.halted := rfl
@[simp] theorem initMaskAll_faultCause (s : State) :
    (initMaskAll s).faultCause =
      s.faultCause := rfl
@[simp] theorem initMaskAll_ctx (s : State) : (initMaskAll s).ctx = s.ctx := rfl
@[simp] theorem initMaskAll_events (s : State) : (initMaskAll s).events = s.events := rfl
@[simp] theorem initMaskAll_resp (s : State) : (initMaskAll s).resp = s.resp := rfl
@[simp] theorem initMaskAll_pi (s : State) :
    (initMaskAll s).pi =
      { s.pi with gmsk := ⟨false, false, false, false, false, false, false, false⟩ } := rfl
@[simp] theorem initMaskAll_mem (s : State) : (initMaskAll s).mem = s.mem := rfl
@[simp] theorem initMaskAll_env (s : State) : (initMaskAll s).env = s.env := rfl
@[simp] theorem initMaskAll_inFlight (s : State) : (initMaskAll s).inFlight = s.inFlight := rfl
@[simp] theorem initMaskAll_irqDue (s : State) : (initMaskAll s).irqDue = s.irqDue := rfl
@[simp] theorem initMaskAll_port (s : State) : (initMaskAll s).port = s.port := rfl
@[simp] theorem initMaskAll_turns (s : State) : (initMaskAll s).turns = s.turns := rfl

/-! ### initMasks -/

@[simp] theorem initMasks_cfg (s : State) : (initMasks s).cfg = s.cfg := by simp only [initMasks]
@[simp] theorem initMasks_xfer (s : State) : (initMasks s).xfer = s.xfer := by simp only [initMasks]
@[simp] theorem initMasks_ep0Pending (s : State) :
    (initMasks s).ep0Pending =
      s.ep0Pending := by simp only [initMasks]
@[simp] theorem initMasks_allocWords (s : State) :
    (initMasks s).allocWords =
      s.allocWords := by simp only [initMasks]
@[simp] theorem initMasks_txfValid (s : State) :
    (initMasks s).txfValid =
      s.txfValid := by simp only [initMasks]
@[simp] theorem initMasks_setupBuf0 (s : State) :
    (initMasks s).setupBuf0 =
      s.setupBuf0 := by simp only [initMasks]
@[simp] theorem initMasks_setupBuf1 (s : State) :
    (initMasks s).setupBuf1 =
      s.setupBuf1 := by simp only [initMasks]
@[simp] theorem initMasks_busState (s : State) :
    (initMasks s).busState =
      s.busState := by simp only [initMasks]
@[simp] theorem initMasks_irqEn (s : State) :
    (initMasks s).irqEn =
      s.irqEn := by simp only [initMasks]
@[simp] theorem initMasks_halted (s : State) :
    (initMasks s).halted =
      s.halted := by simp only [initMasks]
@[simp] theorem initMasks_faultCause (s : State) :
    (initMasks s).faultCause =
      s.faultCause := by simp only [initMasks]
@[simp] theorem initMasks_ctx (s : State) : (initMasks s).ctx = s.ctx := by simp only [initMasks]
@[simp] theorem initMasks_events (s : State) :
    (initMasks s).events =
      s.events := by simp only [initMasks]
@[simp] theorem initMasks_resp (s : State) : (initMasks s).resp = s.resp := by simp only [initMasks]
@[simp] theorem initMasks_pi (s : State) :
    (initMasks s).pi =
      { s.pi with
      epintMsk := ⟨Bank.mapBelow s.cfg.maxEndpoints (fun _ _ => false) s.pi.epintMsk.out,
        Bank.mapBelow s.cfg.maxEndpoints (fun _ _ => false) s.pi.epintMsk.inn⟩
      txeMsk := Bank.mapBelow s.cfg.maxEndpoints (fun _ _ => false) s.pi.txeMsk
      oepSrcMsk := ⟨false, false⟩
      iepSrcMsk := false } := by simp only [initMasks]
@[simp] theorem initMasks_mem (s : State) : (initMasks s).mem = s.mem := by simp only [initMasks]
@[simp] theorem initMasks_env (s : State) : (initMasks s).env = s.env := by simp only [initMasks]
@[simp] theorem initMasks_inFlight (s : State) :
    (initMasks s).inFlight =
      s.inFlight := by simp only [initMasks]
@[simp] theorem initMasks_irqDue (s : State) :
    (initMasks s).irqDue =
      s.irqDue := by simp only [initMasks]
@[simp] theorem initMasks_port (s : State) : (initMasks s).port = s.port := by simp only [initMasks]
@[simp] theorem initMasks_turns (s : State) :
    (initMasks s).turns =
      s.turns := by simp only [initMasks]

/-! ### initHolds -/

@[simp] theorem initHolds_cfg (s : State) : (initHolds s).cfg = s.cfg := by simp only [initHolds]
@[simp] theorem initHolds_xfer (s : State) : (initHolds s).xfer = s.xfer := by simp only [initHolds]
@[simp] theorem initHolds_ep0Pending (s : State) :
    (initHolds s).ep0Pending =
      s.ep0Pending := by simp only [initHolds]
@[simp] theorem initHolds_allocWords (s : State) :
    (initHolds s).allocWords =
      s.allocWords := by simp only [initHolds]
@[simp] theorem initHolds_txfValid (s : State) :
    (initHolds s).txfValid =
      s.txfValid := by simp only [initHolds]
@[simp] theorem initHolds_setupBuf0 (s : State) :
    (initHolds s).setupBuf0 =
      s.setupBuf0 := by simp only [initHolds]
@[simp] theorem initHolds_setupBuf1 (s : State) :
    (initHolds s).setupBuf1 =
      s.setupBuf1 := by simp only [initHolds]
@[simp] theorem initHolds_busState (s : State) :
    (initHolds s).busState =
      s.busState := by simp only [initHolds]
@[simp] theorem initHolds_irqEn (s : State) :
    (initHolds s).irqEn =
      s.irqEn := by simp only [initHolds]
@[simp] theorem initHolds_halted (s : State) :
    (initHolds s).halted =
      s.halted := by simp only [initHolds]
@[simp] theorem initHolds_faultCause (s : State) :
    (initHolds s).faultCause =
      s.faultCause := by simp only [initHolds]
@[simp] theorem initHolds_ctx (s : State) : (initHolds s).ctx = s.ctx := by simp only [initHolds]
@[simp] theorem initHolds_events (s : State) :
    (initHolds s).events =
      s.events := by simp only [initHolds]
@[simp] theorem initHolds_resp (s : State) : (initHolds s).resp = s.resp := by simp only [initHolds]
@[simp] theorem initHolds_pi (s : State) :
    (initHolds s).pi =
      { s.pi with ep :=
      ⟨Bank.mapBelow s.cfg.maxEndpoints (fun _ r => { r with stall := false, nak := true }) s.pi.ep.out,
       Bank.mapBelow s.cfg.maxEndpoints (fun _ r => { r with stall := false, nak := true }) s.pi.ep.inn⟩ } := by simp only [initHolds]
@[simp] theorem initHolds_mem (s : State) : (initHolds s).mem = s.mem := by simp only [initHolds]
@[simp] theorem initHolds_env (s : State) : (initHolds s).env = s.env := by simp only [initHolds]
@[simp] theorem initHolds_inFlight (s : State) :
    (initHolds s).inFlight =
      s.inFlight := by simp only [initHolds]
@[simp] theorem initHolds_irqDue (s : State) :
    (initHolds s).irqDue =
      s.irqDue := by simp only [initHolds]
@[simp] theorem initHolds_port (s : State) : (initHolds s).port = s.port := by simp only [initHolds]
@[simp] theorem initHolds_turns (s : State) :
    (initHolds s).turns =
      s.turns := by simp only [initHolds]

/-! ### initAck -/

@[simp] theorem initAck_cfg (s : State) : (initAck s).cfg = s.cfg := rfl
@[simp] theorem initAck_xfer (s : State) : (initAck s).xfer = s.xfer := rfl
@[simp] theorem initAck_ep0Pending (s : State) : (initAck s).ep0Pending = s.ep0Pending := rfl
@[simp] theorem initAck_allocWords (s : State) : (initAck s).allocWords = s.allocWords := rfl
@[simp] theorem initAck_txfValid (s : State) : (initAck s).txfValid = s.txfValid := rfl
@[simp] theorem initAck_setupBuf0 (s : State) : (initAck s).setupBuf0 = s.setupBuf0 := rfl
@[simp] theorem initAck_setupBuf1 (s : State) : (initAck s).setupBuf1 = s.setupBuf1 := rfl
@[simp] theorem initAck_busState (s : State) : (initAck s).busState = s.busState := rfl
@[simp] theorem initAck_irqEn (s : State) : (initAck s).irqEn = s.irqEn := rfl
@[simp] theorem initAck_halted (s : State) : (initAck s).halted = s.halted := rfl
@[simp] theorem initAck_faultCause (s : State) : (initAck s).faultCause = s.faultCause := rfl
@[simp] theorem initAck_ctx (s : State) : (initAck s).ctx = s.ctx := rfl
@[simp] theorem initAck_events (s : State) : (initAck s).events = s.events := rfl
@[simp] theorem initAck_resp (s : State) : (initAck s).resp = s.resp := rfl
@[simp] theorem initAck_pi (s : State) :
    (initAck s).pi =
      { s.pi with gint := ⟨false, false, false, false, false⟩ } := rfl
@[simp] theorem initAck_mem (s : State) : (initAck s).mem = s.mem := rfl
@[simp] theorem initAck_env (s : State) : (initAck s).env = s.env := rfl
@[simp] theorem initAck_inFlight (s : State) : (initAck s).inFlight = s.inFlight := rfl
@[simp] theorem initAck_irqDue (s : State) : (initAck s).irqDue = s.irqDue := rfl
@[simp] theorem initAck_port (s : State) : (initAck s).port = s.port := rfl
@[simp] theorem initAck_turns (s : State) : (initAck s).turns = s.turns := rfl

/-! ### initUnmask -/

@[simp] theorem initUnmask_cfg (s : State) : (initUnmask s).cfg = s.cfg := rfl
@[simp] theorem initUnmask_xfer (s : State) : (initUnmask s).xfer = s.xfer := rfl
@[simp] theorem initUnmask_ep0Pending (s : State) : (initUnmask s).ep0Pending = s.ep0Pending := rfl
@[simp] theorem initUnmask_allocWords (s : State) : (initUnmask s).allocWords = s.allocWords := rfl
@[simp] theorem initUnmask_txfValid (s : State) : (initUnmask s).txfValid = s.txfValid := rfl
@[simp] theorem initUnmask_setupBuf0 (s : State) : (initUnmask s).setupBuf0 = s.setupBuf0 := rfl
@[simp] theorem initUnmask_setupBuf1 (s : State) : (initUnmask s).setupBuf1 = s.setupBuf1 := rfl
@[simp] theorem initUnmask_busState (s : State) : (initUnmask s).busState = s.busState := rfl
@[simp] theorem initUnmask_irqEn (s : State) : (initUnmask s).irqEn = s.irqEn := rfl
@[simp] theorem initUnmask_halted (s : State) : (initUnmask s).halted = s.halted := rfl
@[simp] theorem initUnmask_faultCause (s : State) : (initUnmask s).faultCause = s.faultCause := rfl
@[simp] theorem initUnmask_ctx (s : State) : (initUnmask s).ctx = s.ctx := rfl
@[simp] theorem initUnmask_events (s : State) : (initUnmask s).events = s.events := rfl
@[simp] theorem initUnmask_resp (s : State) : (initUnmask s).resp = s.resp := rfl
@[simp] theorem initUnmask_pi (s : State) :
    (initUnmask s).pi =
      { s.pi with gmsk := ⟨true, true, true, true, true, true, false, false⟩ } := rfl
@[simp] theorem initUnmask_mem (s : State) : (initUnmask s).mem = s.mem := rfl
@[simp] theorem initUnmask_env (s : State) : (initUnmask s).env = s.env := rfl
@[simp] theorem initUnmask_inFlight (s : State) : (initUnmask s).inFlight = s.inFlight := rfl
@[simp] theorem initUnmask_irqDue (s : State) : (initUnmask s).irqDue = s.irqDue := rfl
@[simp] theorem initUnmask_port (s : State) : (initUnmask s).port = s.port := rfl
@[simp] theorem initUnmask_turns (s : State) : (initUnmask s).turns = s.turns := rfl

/-! ### setIrqEn -/

@[simp] theorem setIrqEn_cfg (v : Bool) (s : State) : (setIrqEn v s).cfg = s.cfg := rfl
@[simp] theorem setIrqEn_xfer (v : Bool) (s : State) : (setIrqEn v s).xfer = s.xfer := rfl
@[simp] theorem setIrqEn_ep0Pending (v : Bool) (s : State) :
    (setIrqEn v s).ep0Pending =
      s.ep0Pending := rfl
@[simp] theorem setIrqEn_allocWords (v : Bool) (s : State) :
    (setIrqEn v s).allocWords =
      s.allocWords := rfl
@[simp] theorem setIrqEn_txfValid (v : Bool) (s : State) :
    (setIrqEn v s).txfValid =
      s.txfValid := rfl
@[simp] theorem setIrqEn_setupBuf0 (v : Bool) (s : State) :
    (setIrqEn v s).setupBuf0 =
      s.setupBuf0 := rfl
@[simp] theorem setIrqEn_setupBuf1 (v : Bool) (s : State) :
    (setIrqEn v s).setupBuf1 =
      s.setupBuf1 := rfl
@[simp] theorem setIrqEn_busState (v : Bool) (s : State) :
    (setIrqEn v s).busState =
      s.busState := rfl
@[simp] theorem setIrqEn_irqEn (v : Bool) (s : State) : (setIrqEn v s).irqEn = v := rfl
@[simp] theorem setIrqEn_halted (v : Bool) (s : State) : (setIrqEn v s).halted = s.halted := rfl
@[simp] theorem setIrqEn_faultCause (v : Bool) (s : State) :
    (setIrqEn v s).faultCause =
      s.faultCause := rfl
@[simp] theorem setIrqEn_ctx (v : Bool) (s : State) : (setIrqEn v s).ctx = s.ctx := rfl
@[simp] theorem setIrqEn_events (v : Bool) (s : State) : (setIrqEn v s).events = s.events := rfl
@[simp] theorem setIrqEn_resp (v : Bool) (s : State) : (setIrqEn v s).resp = s.resp := rfl
@[simp] theorem setIrqEn_pi (v : Bool) (s : State) : (setIrqEn v s).pi = s.pi := rfl
@[simp] theorem setIrqEn_mem (v : Bool) (s : State) : (setIrqEn v s).mem = s.mem := rfl
@[simp] theorem setIrqEn_env (v : Bool) (s : State) : (setIrqEn v s).env = s.env := rfl
@[simp] theorem setIrqEn_inFlight (v : Bool) (s : State) :
    (setIrqEn v s).inFlight =
      s.inFlight := rfl
@[simp] theorem setIrqEn_irqDue (v : Bool) (s : State) :
    (setIrqEn v s).irqDue =
      (v && s.irqLine) := rfl
@[simp] theorem setIrqEn_port (v : Bool) (s : State) : (setIrqEn v s).port = s.port := rfl
@[simp] theorem setIrqEn_turns (v : Bool) (s : State) : (setIrqEn v s).turns = s.turns := rfl

/-! ### openBusState -/

@[simp] theorem openBusState_cfg (n : EpNum) (s : State) :
    (openBusState n s).cfg =
      s.cfg := by
  simp only [openBusState]; split <;> simp
@[simp] theorem openBusState_xfer (n : EpNum) (s : State) :
    (openBusState n s).xfer =
      s.xfer := by
  simp only [openBusState]; split <;> simp
@[simp] theorem openBusState_ep0Pending (n : EpNum) (s : State) :
    (openBusState n s).ep0Pending =
      s.ep0Pending := by
  simp only [openBusState]; split <;> simp
@[simp] theorem openBusState_allocWords (n : EpNum) (s : State) :
    (openBusState n s).allocWords =
      s.allocWords := by
  simp only [openBusState]; split <;> simp
@[simp] theorem openBusState_txfValid (n : EpNum) (s : State) :
    (openBusState n s).txfValid =
      s.txfValid := by
  simp only [openBusState]; split <;> simp
@[simp] theorem openBusState_setupBuf0 (n : EpNum) (s : State) :
    (openBusState n s).setupBuf0 =
      s.setupBuf0 := by
  simp only [openBusState]; split <;> simp
@[simp] theorem openBusState_setupBuf1 (n : EpNum) (s : State) :
    (openBusState n s).setupBuf1 =
      s.setupBuf1 := by
  simp only [openBusState]; split <;> simp
@[simp] theorem openBusState_irqEn (n : EpNum) (s : State) :
    (openBusState n s).irqEn =
      s.irqEn := by
  simp only [openBusState]; split <;> simp
@[simp] theorem openBusState_halted (n : EpNum) (s : State) :
    (openBusState n s).halted =
      s.halted := by
  simp only [openBusState]; split <;> simp
@[simp] theorem openBusState_faultCause (n : EpNum) (s : State) :
    (openBusState n s).faultCause =
      s.faultCause := by
  simp only [openBusState]; split <;> simp
@[simp] theorem openBusState_ctx (n : EpNum) (s : State) :
    (openBusState n s).ctx =
      s.ctx := by
  simp only [openBusState]; split <;> simp
@[simp] theorem openBusState_events (n : EpNum) (s : State) :
    (openBusState n s).events =
      s.events := by
  simp only [openBusState]; split <;> simp
@[simp] theorem openBusState_resp (n : EpNum) (s : State) :
    (openBusState n s).resp =
      s.resp := by
  simp only [openBusState]; split <;> simp
@[simp] theorem openBusState_pi (n : EpNum) (s : State) :
    (openBusState n s).pi =
      s.pi := by
  simp only [openBusState]; split <;> simp
@[simp] theorem openBusState_mem (n : EpNum) (s : State) :
    (openBusState n s).mem =
      s.mem := by
  simp only [openBusState]; split <;> simp
@[simp] theorem openBusState_env (n : EpNum) (s : State) :
    (openBusState n s).env =
      s.env := by
  simp only [openBusState]; split <;> simp
@[simp] theorem openBusState_inFlight (n : EpNum) (s : State) :
    (openBusState n s).inFlight =
      s.inFlight := by
  simp only [openBusState]; split <;> simp
@[simp] theorem openBusState_irqDue (n : EpNum) (s : State) :
    (openBusState n s).irqDue =
      s.irqDue := by
  simp only [openBusState]; split <;> simp
@[simp] theorem openBusState_port (n : EpNum) (s : State) :
    (openBusState n s).port =
      s.port := by
  simp only [openBusState]; split <;> simp
@[simp] theorem openBusState_turns (n : EpNum) (s : State) :
    (openBusState n s).turns =
      s.turns := by
  simp only [openBusState]; split <;> simp

/-! ### closeActive -/

@[simp] theorem closeActive_cfg (n : EpNum) (d : Dir) (s : State) :
    (closeActive n d s).cfg =
      s.cfg := by simp [closeActive]
@[simp] theorem closeActive_xfer (n : EpNum) (d : Dir) (s : State) :
    (closeActive n d s).xfer =
      s.xfer := by simp [closeActive]
@[simp] theorem closeActive_ep0Pending (n : EpNum) (d : Dir) (s : State) :
    (closeActive n d s).ep0Pending =
      s.ep0Pending := by simp [closeActive]
@[simp] theorem closeActive_allocWords (n : EpNum) (d : Dir) (s : State) :
    (closeActive n d s).allocWords =
      s.allocWords := by simp [closeActive]
@[simp] theorem closeActive_txfValid (n : EpNum) (d : Dir) (s : State) :
    (closeActive n d s).txfValid =
      s.txfValid := by simp [closeActive]
@[simp] theorem closeActive_setupBuf0 (n : EpNum) (d : Dir) (s : State) :
    (closeActive n d s).setupBuf0 =
      s.setupBuf0 := by simp [closeActive]
@[simp] theorem closeActive_setupBuf1 (n : EpNum) (d : Dir) (s : State) :
    (closeActive n d s).setupBuf1 =
      s.setupBuf1 := by simp [closeActive]
@[simp] theorem closeActive_busState (n : EpNum) (d : Dir) (s : State) :
    (closeActive n d s).busState =
      s.busState := by simp [closeActive]
@[simp] theorem closeActive_irqEn (n : EpNum) (d : Dir) (s : State) :
    (closeActive n d s).irqEn =
      s.irqEn := by simp [closeActive]
@[simp] theorem closeActive_halted (n : EpNum) (d : Dir) (s : State) :
    (closeActive n d s).halted =
      s.halted := by simp [closeActive]
@[simp] theorem closeActive_faultCause (n : EpNum) (d : Dir) (s : State) :
    (closeActive n d s).faultCause =
      s.faultCause := by simp [closeActive]
@[simp] theorem closeActive_ctx (n : EpNum) (d : Dir) (s : State) :
    (closeActive n d s).ctx =
      s.ctx := by simp [closeActive]
@[simp] theorem closeActive_events (n : EpNum) (d : Dir) (s : State) :
    (closeActive n d s).events =
      s.events := by simp [closeActive]
@[simp] theorem closeActive_resp (n : EpNum) (d : Dir) (s : State) :
    (closeActive n d s).resp =
      s.resp := by simp [closeActive]
@[simp] theorem closeActive_pi (n : EpNum) (d : Dir) (s : State) :
    (closeActive n d s).pi =
      s.pi.setEp n d { s.epAt n d with active := false } := by simp [closeActive]
@[simp] theorem closeActive_mem (n : EpNum) (d : Dir) (s : State) :
    (closeActive n d s).mem =
      s.mem := by simp [closeActive]
@[simp] theorem closeActive_irqDue (n : EpNum) (d : Dir) (s : State) :
    (closeActive n d s).irqDue =
      s.irqDue := by simp [closeActive]
@[simp] theorem closeActive_port (n : EpNum) (d : Dir) (s : State) :
    (closeActive n d s).port =
      s.port := by simp [closeActive]
@[simp] theorem closeActive_turns (n : EpNum) (d : Dir) (s : State) :
    (closeActive n d s).turns =
      s.turns := by simp [closeActive]

/-! ### startFlight -/

@[simp] theorem startFlight_cfg (n : EpNum) (d : Dir) (s : State) :
    (startFlight n d s).cfg =
      s.cfg := by simp [startFlight]
@[simp] theorem startFlight_xfer (n : EpNum) (d : Dir) (s : State) :
    (startFlight n d s).xfer =
      s.xfer := by simp [startFlight]
@[simp] theorem startFlight_ep0Pending (n : EpNum) (d : Dir) (s : State) :
    (startFlight n d s).ep0Pending =
      s.ep0Pending := by simp [startFlight]
@[simp] theorem startFlight_allocWords (n : EpNum) (d : Dir) (s : State) :
    (startFlight n d s).allocWords =
      s.allocWords := by simp [startFlight]
@[simp] theorem startFlight_txfValid (n : EpNum) (d : Dir) (s : State) :
    (startFlight n d s).txfValid =
      s.txfValid := by simp [startFlight]
@[simp] theorem startFlight_setupBuf0 (n : EpNum) (d : Dir) (s : State) :
    (startFlight n d s).setupBuf0 =
      s.setupBuf0 := by simp [startFlight]
@[simp] theorem startFlight_setupBuf1 (n : EpNum) (d : Dir) (s : State) :
    (startFlight n d s).setupBuf1 =
      s.setupBuf1 := by simp [startFlight]
@[simp] theorem startFlight_busState (n : EpNum) (d : Dir) (s : State) :
    (startFlight n d s).busState =
      s.busState := by simp [startFlight]
@[simp] theorem startFlight_irqEn (n : EpNum) (d : Dir) (s : State) :
    (startFlight n d s).irqEn =
      s.irqEn := by simp [startFlight]
@[simp] theorem startFlight_halted (n : EpNum) (d : Dir) (s : State) :
    (startFlight n d s).halted =
      s.halted := by simp [startFlight]
@[simp] theorem startFlight_faultCause (n : EpNum) (d : Dir) (s : State) :
    (startFlight n d s).faultCause =
      s.faultCause := by simp [startFlight]
@[simp] theorem startFlight_ctx (n : EpNum) (d : Dir) (s : State) :
    (startFlight n d s).ctx =
      s.ctx := by simp [startFlight]
@[simp] theorem startFlight_events (n : EpNum) (d : Dir) (s : State) :
    (startFlight n d s).events =
      s.events := by simp [startFlight]
@[simp] theorem startFlight_resp (n : EpNum) (d : Dir) (s : State) :
    (startFlight n d s).resp =
      s.resp := by simp [startFlight]
@[simp] theorem startFlight_pi (n : EpNum) (d : Dir) (s : State) :
    (startFlight n d s).pi =
      s.pi := by simp [startFlight]
@[simp] theorem startFlight_mem (n : EpNum) (d : Dir) (s : State) :
    (startFlight n d s).mem =
      s.mem := by simp [startFlight]
@[simp] theorem startFlight_inFlight (n : EpNum) (d : Dir) (s : State) :
    (startFlight n d s).inFlight =
      s.inFlight.set d ((s.inFlight.get d).set n true) := by simp [startFlight]
@[simp] theorem startFlight_irqDue (n : EpNum) (d : Dir) (s : State) :
    (startFlight n d s).irqDue =
      s.irqDue := by simp [startFlight]
@[simp] theorem startFlight_port (n : EpNum) (d : Dir) (s : State) :
    (startFlight n d s).port =
      s.port := by simp [startFlight]
@[simp] theorem startFlight_turns (n : EpNum) (d : Dir) (s : State) :
    (startFlight n d s).turns =
      s.turns := by simp [startFlight]

/-! ### stallCancel -/

@[simp] theorem stallCancel_cfg (n : EpNum) (d : Dir) (s : State) :
    (stallCancel n d s).cfg =
      s.cfg := rfl
@[simp] theorem stallCancel_xfer (n : EpNum) (d : Dir) (s : State) :
    (stallCancel n d s).xfer =
      s.xfer := rfl
@[simp] theorem stallCancel_ep0Pending (n : EpNum) (d : Dir) (s : State) :
    (stallCancel n d s).ep0Pending =
      s.ep0Pending := rfl
@[simp] theorem stallCancel_allocWords (n : EpNum) (d : Dir) (s : State) :
    (stallCancel n d s).allocWords =
      s.allocWords := rfl
@[simp] theorem stallCancel_txfValid (n : EpNum) (d : Dir) (s : State) :
    (stallCancel n d s).txfValid =
      s.txfValid := rfl
@[simp] theorem stallCancel_setupBuf0 (n : EpNum) (d : Dir) (s : State) :
    (stallCancel n d s).setupBuf0 =
      s.setupBuf0 := rfl
@[simp] theorem stallCancel_setupBuf1 (n : EpNum) (d : Dir) (s : State) :
    (stallCancel n d s).setupBuf1 =
      s.setupBuf1 := rfl
@[simp] theorem stallCancel_busState (n : EpNum) (d : Dir) (s : State) :
    (stallCancel n d s).busState =
      s.busState := rfl
@[simp] theorem stallCancel_irqEn (n : EpNum) (d : Dir) (s : State) :
    (stallCancel n d s).irqEn =
      s.irqEn := rfl
@[simp] theorem stallCancel_halted (n : EpNum) (d : Dir) (s : State) :
    (stallCancel n d s).halted =
      s.halted := rfl
@[simp] theorem stallCancel_faultCause (n : EpNum) (d : Dir) (s : State) :
    (stallCancel n d s).faultCause =
      s.faultCause := rfl
@[simp] theorem stallCancel_ctx (n : EpNum) (d : Dir) (s : State) :
    (stallCancel n d s).ctx =
      s.ctx := rfl
@[simp] theorem stallCancel_events (n : EpNum) (d : Dir) (s : State) :
    (stallCancel n d s).events =
      s.events := rfl
@[simp] theorem stallCancel_resp (n : EpNum) (d : Dir) (s : State) :
    (stallCancel n d s).resp =
      s.resp := rfl
@[simp] theorem stallCancel_pi (n : EpNum) (d : Dir) (s : State) :
    (stallCancel n d s).pi =
      s.pi := rfl
@[simp] theorem stallCancel_mem (n : EpNum) (d : Dir) (s : State) :
    (stallCancel n d s).mem =
      s.mem := rfl
@[simp] theorem stallCancel_inFlight (n : EpNum) (d : Dir) (s : State) :
    (stallCancel n d s).inFlight =
      s.inFlight.set d ((s.inFlight.get d).set n false) := rfl
@[simp] theorem stallCancel_irqDue (n : EpNum) (d : Dir) (s : State) :
    (stallCancel n d s).irqDue =
      s.irqDue := rfl
@[simp] theorem stallCancel_port (n : EpNum) (d : Dir) (s : State) :
    (stallCancel n d s).port =
      s.port := rfl
@[simp] theorem stallCancel_turns (n : EpNum) (d : Dir) (s : State) :
    (stallCancel n d s).turns =
      s.turns := rfl

/-! ### park -/

@[simp] theorem park_cfg (s : State) : (park s).cfg = s.cfg := by simp [park]
@[simp] theorem park_xfer (s : State) : (park s).xfer = s.xfer := by simp [park]
@[simp] theorem park_ep0Pending (s : State) : (park s).ep0Pending = s.ep0Pending := by simp [park]
@[simp] theorem park_allocWords (s : State) : (park s).allocWords = s.allocWords := by simp [park]
@[simp] theorem park_txfValid (s : State) : (park s).txfValid = s.txfValid := by simp [park]
@[simp] theorem park_setupBuf0 (s : State) : (park s).setupBuf0 = s.setupBuf0 := by simp [park]
@[simp] theorem park_setupBuf1 (s : State) : (park s).setupBuf1 = s.setupBuf1 := by simp [park]
@[simp] theorem park_busState (s : State) : (park s).busState = s.busState := by simp [park]
@[simp] theorem park_irqEn (s : State) : (park s).irqEn = s.irqEn := by simp [park]
@[simp] theorem park_halted (s : State) : (park s).halted = s.halted := by simp [park]
@[simp] theorem park_faultCause (s : State) : (park s).faultCause = s.faultCause := by simp [park]
@[simp] theorem park_ctx (s : State) : (park s).ctx = s.ctx := by simp [park]
@[simp] theorem park_events (s : State) : (park s).events = s.events := by simp [park]
@[simp] theorem park_resp (s : State) : (park s).resp = s.resp := by simp [park]
@[simp] theorem park_pi (s : State) : (park s).pi = s.pi := by simp [park]
@[simp] theorem park_mem (s : State) : (park s).mem = s.mem := by simp [park]
@[simp] theorem park_inFlight (s : State) : (park s).inFlight = s.inFlight := by simp [park]
@[simp] theorem park_irqDue (s : State) : (park s).irqDue = s.irqDue := by simp [park]
@[simp] theorem park_port (s : State) : (park s).port = s.port := by simp [park]
@[simp] theorem park_turns (s : State) : (park s).turns = s.turns := by simp [park]

/-! ### softDisconnect -/

@[simp] theorem softDisconnect_cfg (v : Bool) (s : State) :
    (softDisconnect v s).cfg =
      s.cfg := by cases v <;> simp [softDisconnect]
@[simp] theorem softDisconnect_xfer (v : Bool) (s : State) :
    (softDisconnect v s).xfer =
      s.xfer := by cases v <;> simp [softDisconnect]
@[simp] theorem softDisconnect_ep0Pending (v : Bool) (s : State) :
    (softDisconnect v s).ep0Pending =
      s.ep0Pending := by cases v <;> simp [softDisconnect]
@[simp] theorem softDisconnect_allocWords (v : Bool) (s : State) :
    (softDisconnect v s).allocWords =
      s.allocWords := by cases v <;> simp [softDisconnect]
@[simp] theorem softDisconnect_txfValid (v : Bool) (s : State) :
    (softDisconnect v s).txfValid =
      s.txfValid := by cases v <;> simp [softDisconnect]
@[simp] theorem softDisconnect_setupBuf0 (v : Bool) (s : State) :
    (softDisconnect v s).setupBuf0 =
      s.setupBuf0 := by cases v <;> simp [softDisconnect]
@[simp] theorem softDisconnect_setupBuf1 (v : Bool) (s : State) :
    (softDisconnect v s).setupBuf1 =
      s.setupBuf1 := by cases v <;> simp [softDisconnect]
@[simp] theorem softDisconnect_busState (v : Bool) (s : State) :
    (softDisconnect v s).busState =
      s.busState := by cases v <;> simp [softDisconnect]
@[simp] theorem softDisconnect_irqEn (v : Bool) (s : State) :
    (softDisconnect v s).irqEn =
      s.irqEn := by cases v <;> simp [softDisconnect]
@[simp] theorem softDisconnect_halted (v : Bool) (s : State) :
    (softDisconnect v s).halted =
      s.halted := by cases v <;> simp [softDisconnect]
@[simp] theorem softDisconnect_faultCause (v : Bool) (s : State) :
    (softDisconnect v s).faultCause =
      s.faultCause := by cases v <;> simp [softDisconnect]
@[simp] theorem softDisconnect_ctx (v : Bool) (s : State) :
    (softDisconnect v s).ctx =
      s.ctx := by cases v <;> simp [softDisconnect]
@[simp] theorem softDisconnect_events (v : Bool) (s : State) :
    (softDisconnect v s).events =
      s.events := by cases v <;> simp [softDisconnect]
@[simp] theorem softDisconnect_resp (v : Bool) (s : State) :
    (softDisconnect v s).resp =
      s.resp := by cases v <;> simp [softDisconnect]
@[simp] theorem softDisconnect_pi (v : Bool) (s : State) :
    (softDisconnect v s).pi =
      { s.pi with softdisc := v } := by cases v <;> simp [softDisconnect]
@[simp] theorem softDisconnect_mem (v : Bool) (s : State) :
    (softDisconnect v s).mem =
      s.mem := by cases v <;> simp [softDisconnect]
@[simp] theorem softDisconnect_inFlight (v : Bool) (s : State) :
    (softDisconnect v s).inFlight =
      s.inFlight := by cases v <;> simp [softDisconnect]
@[simp] theorem softDisconnect_irqDue (v : Bool) (s : State) :
    (softDisconnect v s).irqDue =
      s.irqDue := by cases v <;> simp [softDisconnect]
@[simp] theorem softDisconnect_port (v : Bool) (s : State) :
    (softDisconnect v s).port =
      s.port := by cases v <;> simp [softDisconnect]
@[simp] theorem softDisconnect_turns (v : Bool) (s : State) :
    (softDisconnect v s).turns =
      s.turns := by cases v <;> simp [softDisconnect]

/-! ### stallIdle -/

@[simp] theorem stallIdle_cfg (n : EpNum) (d : Dir) (s : State) :
    (stallIdle n d s).cfg =
      s.cfg := by simp [stallIdle]
@[simp] theorem stallIdle_xfer (n : EpNum) (d : Dir) (s : State) :
    (stallIdle n d s).xfer =
      s.xfer := by simp [stallIdle]
@[simp] theorem stallIdle_ep0Pending (n : EpNum) (d : Dir) (s : State) :
    (stallIdle n d s).ep0Pending =
      s.ep0Pending := by simp [stallIdle]
@[simp] theorem stallIdle_allocWords (n : EpNum) (d : Dir) (s : State) :
    (stallIdle n d s).allocWords =
      s.allocWords := by simp [stallIdle]
@[simp] theorem stallIdle_txfValid (n : EpNum) (d : Dir) (s : State) :
    (stallIdle n d s).txfValid =
      s.txfValid := by simp [stallIdle]
@[simp] theorem stallIdle_setupBuf0 (n : EpNum) (d : Dir) (s : State) :
    (stallIdle n d s).setupBuf0 =
      s.setupBuf0 := by simp [stallIdle]
@[simp] theorem stallIdle_setupBuf1 (n : EpNum) (d : Dir) (s : State) :
    (stallIdle n d s).setupBuf1 =
      s.setupBuf1 := by simp [stallIdle]
@[simp] theorem stallIdle_busState (n : EpNum) (d : Dir) (s : State) :
    (stallIdle n d s).busState =
      s.busState := by simp [stallIdle]
@[simp] theorem stallIdle_irqEn (n : EpNum) (d : Dir) (s : State) :
    (stallIdle n d s).irqEn =
      s.irqEn := by simp [stallIdle]
@[simp] theorem stallIdle_halted (n : EpNum) (d : Dir) (s : State) :
    (stallIdle n d s).halted =
      s.halted := by simp [stallIdle]
@[simp] theorem stallIdle_faultCause (n : EpNum) (d : Dir) (s : State) :
    (stallIdle n d s).faultCause =
      s.faultCause := by simp [stallIdle]
@[simp] theorem stallIdle_ctx (n : EpNum) (d : Dir) (s : State) :
    (stallIdle n d s).ctx =
      s.ctx := by simp [stallIdle]
@[simp] theorem stallIdle_events (n : EpNum) (d : Dir) (s : State) :
    (stallIdle n d s).events =
      s.events := by simp [stallIdle]
@[simp] theorem stallIdle_resp (n : EpNum) (d : Dir) (s : State) :
    (stallIdle n d s).resp =
      s.resp := by simp [stallIdle]
@[simp] theorem stallIdle_pi (n : EpNum) (d : Dir) (s : State) :
    (stallIdle n d s).pi =
      s.pi.setEp n d { s.epAt n d with nak := true, stall := true } := by simp [stallIdle]
@[simp] theorem stallIdle_mem (n : EpNum) (d : Dir) (s : State) :
    (stallIdle n d s).mem =
      s.mem := by simp [stallIdle]
@[simp] theorem stallIdle_irqDue (n : EpNum) (d : Dir) (s : State) :
    (stallIdle n d s).irqDue =
      s.irqDue := by simp [stallIdle]
@[simp] theorem stallIdle_port (n : EpNum) (d : Dir) (s : State) :
    (stallIdle n d s).port =
      s.port := by simp [stallIdle]
@[simp] theorem stallIdle_turns (n : EpNum) (d : Dir) (s : State) :
    (stallIdle n d s).turns =
      s.turns := by simp [stallIdle]

/-! ### stallNak -/

@[simp] theorem stallNak_cfg (n : EpNum) (d : Dir) (s : State) : (stallNak n d s).cfg = s.cfg := rfl
@[simp] theorem stallNak_xfer (n : EpNum) (d : Dir) (s : State) :
    (stallNak n d s).xfer =
      s.xfer := rfl
@[simp] theorem stallNak_ep0Pending (n : EpNum) (d : Dir) (s : State) :
    (stallNak n d s).ep0Pending =
      s.ep0Pending := rfl
@[simp] theorem stallNak_allocWords (n : EpNum) (d : Dir) (s : State) :
    (stallNak n d s).allocWords =
      s.allocWords := rfl
@[simp] theorem stallNak_txfValid (n : EpNum) (d : Dir) (s : State) :
    (stallNak n d s).txfValid =
      s.txfValid := rfl
@[simp] theorem stallNak_setupBuf0 (n : EpNum) (d : Dir) (s : State) :
    (stallNak n d s).setupBuf0 =
      s.setupBuf0 := rfl
@[simp] theorem stallNak_setupBuf1 (n : EpNum) (d : Dir) (s : State) :
    (stallNak n d s).setupBuf1 =
      s.setupBuf1 := rfl
@[simp] theorem stallNak_busState (n : EpNum) (d : Dir) (s : State) :
    (stallNak n d s).busState =
      s.busState := rfl
@[simp] theorem stallNak_irqEn (n : EpNum) (d : Dir) (s : State) :
    (stallNak n d s).irqEn =
      s.irqEn := rfl
@[simp] theorem stallNak_halted (n : EpNum) (d : Dir) (s : State) :
    (stallNak n d s).halted =
      s.halted := rfl
@[simp] theorem stallNak_faultCause (n : EpNum) (d : Dir) (s : State) :
    (stallNak n d s).faultCause =
      s.faultCause := rfl
@[simp] theorem stallNak_ctx (n : EpNum) (d : Dir) (s : State) : (stallNak n d s).ctx = s.ctx := rfl
@[simp] theorem stallNak_events (n : EpNum) (d : Dir) (s : State) :
    (stallNak n d s).events =
      s.events := rfl
@[simp] theorem stallNak_resp (n : EpNum) (d : Dir) (s : State) :
    (stallNak n d s).resp =
      s.resp := rfl
@[simp] theorem stallNak_pi (n : EpNum) (d : Dir) (s : State) :
    (stallNak n d s).pi =
      s.pi.setEp n d { s.epAt n d with nak := true } := rfl
@[simp] theorem stallNak_mem (n : EpNum) (d : Dir) (s : State) : (stallNak n d s).mem = s.mem := rfl
@[simp] theorem stallNak_inFlight (n : EpNum) (d : Dir) (s : State) :
    (stallNak n d s).inFlight =
      s.inFlight := rfl
@[simp] theorem stallNak_irqDue (n : EpNum) (d : Dir) (s : State) :
    (stallNak n d s).irqDue =
      s.irqDue := rfl
@[simp] theorem stallNak_port (n : EpNum) (d : Dir) (s : State) :
    (stallNak n d s).port =
      s.port := rfl
@[simp] theorem stallNak_turns (n : EpNum) (d : Dir) (s : State) :
    (stallNak n d s).turns =
      s.turns := rfl

/-! ### stallDisable -/

@[simp] theorem stallDisable_cfg (n : EpNum) (d : Dir) (s : State) :
    (stallDisable n d s).cfg =
      s.cfg := by simp [stallDisable]
@[simp] theorem stallDisable_xfer (n : EpNum) (d : Dir) (s : State) :
    (stallDisable n d s).xfer =
      s.xfer := by simp [stallDisable]
@[simp] theorem stallDisable_ep0Pending (n : EpNum) (d : Dir) (s : State) :
    (stallDisable n d s).ep0Pending =
      s.ep0Pending := by simp [stallDisable]
@[simp] theorem stallDisable_allocWords (n : EpNum) (d : Dir) (s : State) :
    (stallDisable n d s).allocWords =
      s.allocWords := by simp [stallDisable]
@[simp] theorem stallDisable_txfValid (n : EpNum) (d : Dir) (s : State) :
    (stallDisable n d s).txfValid =
      s.txfValid := by simp [stallDisable]
@[simp] theorem stallDisable_setupBuf0 (n : EpNum) (d : Dir) (s : State) :
    (stallDisable n d s).setupBuf0 =
      s.setupBuf0 := by simp [stallDisable]
@[simp] theorem stallDisable_setupBuf1 (n : EpNum) (d : Dir) (s : State) :
    (stallDisable n d s).setupBuf1 =
      s.setupBuf1 := by simp [stallDisable]
@[simp] theorem stallDisable_busState (n : EpNum) (d : Dir) (s : State) :
    (stallDisable n d s).busState =
      s.busState := by simp [stallDisable]
@[simp] theorem stallDisable_irqEn (n : EpNum) (d : Dir) (s : State) :
    (stallDisable n d s).irqEn =
      s.irqEn := by simp [stallDisable]
@[simp] theorem stallDisable_halted (n : EpNum) (d : Dir) (s : State) :
    (stallDisable n d s).halted =
      s.halted := by simp [stallDisable]
@[simp] theorem stallDisable_faultCause (n : EpNum) (d : Dir) (s : State) :
    (stallDisable n d s).faultCause =
      s.faultCause := by simp [stallDisable]
@[simp] theorem stallDisable_ctx (n : EpNum) (d : Dir) (s : State) :
    (stallDisable n d s).ctx =
      s.ctx := by simp [stallDisable]
@[simp] theorem stallDisable_events (n : EpNum) (d : Dir) (s : State) :
    (stallDisable n d s).events =
      s.events := by simp [stallDisable]
@[simp] theorem stallDisable_resp (n : EpNum) (d : Dir) (s : State) :
    (stallDisable n d s).resp =
      s.resp := by simp [stallDisable]
@[simp] theorem stallDisable_pi (n : EpNum) (d : Dir) (s : State) :
    (stallDisable n d s).pi =
      s.pi.setEp n d { s.epAt n d with disreq := true, stall := true } := by simp [stallDisable]
@[simp] theorem stallDisable_mem (n : EpNum) (d : Dir) (s : State) :
    (stallDisable n d s).mem =
      s.mem := by simp [stallDisable]
@[simp] theorem stallDisable_irqDue (n : EpNum) (d : Dir) (s : State) :
    (stallDisable n d s).irqDue =
      s.irqDue := by simp [stallDisable]
@[simp] theorem stallDisable_port (n : EpNum) (d : Dir) (s : State) :
    (stallDisable n d s).port =
      s.port := by simp [stallDisable]
@[simp] theorem stallDisable_turns (n : EpNum) (d : Dir) (s : State) :
    (stallDisable n d s).turns =
      s.turns := by simp [stallDisable]

/-! ### stallFlush -/

@[simp] theorem stallFlush_cfg (n : EpNum) (s : State) : (stallFlush n s).cfg = s.cfg := rfl
@[simp] theorem stallFlush_xfer (n : EpNum) (s : State) : (stallFlush n s).xfer = s.xfer := rfl
@[simp] theorem stallFlush_ep0Pending (n : EpNum) (s : State) :
    (stallFlush n s).ep0Pending =
      s.ep0Pending := rfl
@[simp] theorem stallFlush_allocWords (n : EpNum) (s : State) :
    (stallFlush n s).allocWords =
      s.allocWords := rfl
@[simp] theorem stallFlush_txfValid (n : EpNum) (s : State) :
    (stallFlush n s).txfValid =
      s.txfValid := rfl
@[simp] theorem stallFlush_setupBuf0 (n : EpNum) (s : State) :
    (stallFlush n s).setupBuf0 =
      s.setupBuf0 := rfl
@[simp] theorem stallFlush_setupBuf1 (n : EpNum) (s : State) :
    (stallFlush n s).setupBuf1 =
      s.setupBuf1 := rfl
@[simp] theorem stallFlush_busState (n : EpNum) (s : State) :
    (stallFlush n s).busState =
      s.busState := rfl
@[simp] theorem stallFlush_irqEn (n : EpNum) (s : State) : (stallFlush n s).irqEn = s.irqEn := rfl
@[simp] theorem stallFlush_halted (n : EpNum) (s : State) :
    (stallFlush n s).halted =
      s.halted := rfl
@[simp] theorem stallFlush_faultCause (n : EpNum) (s : State) :
    (stallFlush n s).faultCause =
      s.faultCause := rfl
@[simp] theorem stallFlush_ctx (n : EpNum) (s : State) : (stallFlush n s).ctx = s.ctx := rfl
@[simp] theorem stallFlush_events (n : EpNum) (s : State) :
    (stallFlush n s).events =
      s.events := rfl
@[simp] theorem stallFlush_resp (n : EpNum) (s : State) : (stallFlush n s).resp = s.resp := rfl
@[simp] theorem stallFlush_pi (n : EpNum) (s : State) :
    (stallFlush n s).pi =
      { s.pi with flushNum := s.pi.txfnum[n], flushBusy := true } := rfl
@[simp] theorem stallFlush_mem (n : EpNum) (s : State) : (stallFlush n s).mem = s.mem := rfl
@[simp] theorem stallFlush_inFlight (n : EpNum) (s : State) :
    (stallFlush n s).inFlight =
      s.inFlight := rfl
@[simp] theorem stallFlush_irqDue (n : EpNum) (s : State) :
    (stallFlush n s).irqDue =
      s.irqDue := rfl
@[simp] theorem stallFlush_port (n : EpNum) (s : State) : (stallFlush n s).port = s.port := rfl
@[simp] theorem stallFlush_turns (n : EpNum) (s : State) : (stallFlush n s).turns = s.turns := rfl

/-! ### clearToggle -/

@[simp] theorem clearToggle_cfg (n : EpNum) (d : Dir) (s : State) :
    (clearToggle n d s).cfg =
      s.cfg := by
  simp only [clearToggle]; split <;> simp
@[simp] theorem clearToggle_xfer (n : EpNum) (d : Dir) (s : State) :
    (clearToggle n d s).xfer =
      s.xfer := by
  simp only [clearToggle]; split <;> simp
@[simp] theorem clearToggle_ep0Pending (n : EpNum) (d : Dir) (s : State) :
    (clearToggle n d s).ep0Pending =
      s.ep0Pending := by
  simp only [clearToggle]; split <;> simp
@[simp] theorem clearToggle_allocWords (n : EpNum) (d : Dir) (s : State) :
    (clearToggle n d s).allocWords =
      s.allocWords := by
  simp only [clearToggle]; split <;> simp
@[simp] theorem clearToggle_txfValid (n : EpNum) (d : Dir) (s : State) :
    (clearToggle n d s).txfValid =
      s.txfValid := by
  simp only [clearToggle]; split <;> simp
@[simp] theorem clearToggle_setupBuf0 (n : EpNum) (d : Dir) (s : State) :
    (clearToggle n d s).setupBuf0 =
      s.setupBuf0 := by
  simp only [clearToggle]; split <;> simp
@[simp] theorem clearToggle_setupBuf1 (n : EpNum) (d : Dir) (s : State) :
    (clearToggle n d s).setupBuf1 =
      s.setupBuf1 := by
  simp only [clearToggle]; split <;> simp
@[simp] theorem clearToggle_busState (n : EpNum) (d : Dir) (s : State) :
    (clearToggle n d s).busState =
      s.busState := by
  simp only [clearToggle]; split <;> simp
@[simp] theorem clearToggle_irqEn (n : EpNum) (d : Dir) (s : State) :
    (clearToggle n d s).irqEn =
      s.irqEn := by
  simp only [clearToggle]; split <;> simp
@[simp] theorem clearToggle_halted (n : EpNum) (d : Dir) (s : State) :
    (clearToggle n d s).halted =
      s.halted := by
  simp only [clearToggle]; split <;> simp
@[simp] theorem clearToggle_faultCause (n : EpNum) (d : Dir) (s : State) :
    (clearToggle n d s).faultCause =
      s.faultCause := by
  simp only [clearToggle]; split <;> simp
@[simp] theorem clearToggle_ctx (n : EpNum) (d : Dir) (s : State) :
    (clearToggle n d s).ctx =
      s.ctx := by
  simp only [clearToggle]; split <;> simp
@[simp] theorem clearToggle_events (n : EpNum) (d : Dir) (s : State) :
    (clearToggle n d s).events =
      s.events := by
  simp only [clearToggle]; split <;> simp
@[simp] theorem clearToggle_resp (n : EpNum) (d : Dir) (s : State) :
    (clearToggle n d s).resp =
      s.resp := by
  simp only [clearToggle]; split <;> simp
@[simp] theorem clearToggle_mem (n : EpNum) (d : Dir) (s : State) :
    (clearToggle n d s).mem =
      s.mem := by
  simp only [clearToggle]; split <;> simp
@[simp] theorem clearToggle_env (n : EpNum) (d : Dir) (s : State) :
    (clearToggle n d s).env =
      s.env := by
  simp only [clearToggle]; split <;> simp
@[simp] theorem clearToggle_inFlight (n : EpNum) (d : Dir) (s : State) :
    (clearToggle n d s).inFlight =
      s.inFlight := by
  simp only [clearToggle]; split <;> simp
@[simp] theorem clearToggle_irqDue (n : EpNum) (d : Dir) (s : State) :
    (clearToggle n d s).irqDue =
      s.irqDue := by
  simp only [clearToggle]; split <;> simp
@[simp] theorem clearToggle_port (n : EpNum) (d : Dir) (s : State) :
    (clearToggle n d s).port =
      s.port := by
  simp only [clearToggle]; split <;> simp
@[simp] theorem clearToggle_turns (n : EpNum) (d : Dir) (s : State) :
    (clearToggle n d s).turns =
      s.turns := by
  simp only [clearToggle]; split <;> simp

/-! ### cfgBusState -/

@[simp] theorem cfgBusState_cfg (s : State) :
    (cfgBusState s).cfg =
      s.cfg := by
  simp only [cfgBusState]; split <;> simp
@[simp] theorem cfgBusState_xfer (s : State) :
    (cfgBusState s).xfer =
      s.xfer := by
  simp only [cfgBusState]; split <;> simp
@[simp] theorem cfgBusState_ep0Pending (s : State) :
    (cfgBusState s).ep0Pending =
      s.ep0Pending := by
  simp only [cfgBusState]; split <;> simp
@[simp] theorem cfgBusState_allocWords (s : State) :
    (cfgBusState s).allocWords =
      s.allocWords := by
  simp only [cfgBusState]; split <;> simp
@[simp] theorem cfgBusState_txfValid (s : State) :
    (cfgBusState s).txfValid =
      s.txfValid := by
  simp only [cfgBusState]; split <;> simp
@[simp] theorem cfgBusState_setupBuf0 (s : State) :
    (cfgBusState s).setupBuf0 =
      s.setupBuf0 := by
  simp only [cfgBusState]; split <;> simp
@[simp] theorem cfgBusState_setupBuf1 (s : State) :
    (cfgBusState s).setupBuf1 =
      s.setupBuf1 := by
  simp only [cfgBusState]; split <;> simp
@[simp] theorem cfgBusState_irqEn (s : State) :
    (cfgBusState s).irqEn =
      s.irqEn := by
  simp only [cfgBusState]; split <;> simp
@[simp] theorem cfgBusState_halted (s : State) :
    (cfgBusState s).halted =
      s.halted := by
  simp only [cfgBusState]; split <;> simp
@[simp] theorem cfgBusState_faultCause (s : State) :
    (cfgBusState s).faultCause =
      s.faultCause := by
  simp only [cfgBusState]; split <;> simp
@[simp] theorem cfgBusState_ctx (s : State) :
    (cfgBusState s).ctx =
      s.ctx := by
  simp only [cfgBusState]; split <;> simp
@[simp] theorem cfgBusState_events (s : State) :
    (cfgBusState s).events =
      s.events := by
  simp only [cfgBusState]; split <;> simp
@[simp] theorem cfgBusState_resp (s : State) :
    (cfgBusState s).resp =
      s.resp := by
  simp only [cfgBusState]; split <;> simp
@[simp] theorem cfgBusState_pi (s : State) :
    (cfgBusState s).pi =
      s.pi := by
  simp only [cfgBusState]; split <;> simp
@[simp] theorem cfgBusState_mem (s : State) :
    (cfgBusState s).mem =
      s.mem := by
  simp only [cfgBusState]; split <;> simp
@[simp] theorem cfgBusState_env (s : State) :
    (cfgBusState s).env =
      s.env := by
  simp only [cfgBusState]; split <;> simp
@[simp] theorem cfgBusState_inFlight (s : State) :
    (cfgBusState s).inFlight =
      s.inFlight := by
  simp only [cfgBusState]; split <;> simp
@[simp] theorem cfgBusState_irqDue (s : State) :
    (cfgBusState s).irqDue =
      s.irqDue := by
  simp only [cfgBusState]; split <;> simp
@[simp] theorem cfgBusState_port (s : State) :
    (cfgBusState s).port =
      s.port := by
  simp only [cfgBusState]; split <;> simp
@[simp] theorem cfgBusState_turns (s : State) :
    (cfgBusState s).turns =
      s.turns := by
  simp only [cfgBusState]; split <;> simp

end Sys2Proof.Machine
end

