-- ==== Sys2Proof/Laws/Words.lean ====
section
/-! SUPPORT. Bytes and FIFO words (20_memory.md R77, 43_packet_io.md R211, R212), and the counts of
00_scope.md R17. -/

namespace Sys2Proof.Machine

open Sys2Proof

@[simp] theorem bytesOfWord_wordOfBytes (a b c d : Byte) :
    bytesOfWord (wordOfBytes a b c d) = [a, b, c, d] := by
  simp only [bytesOfWord, wordOfBytes, List.cons.injEq, and_true]
  refine ⟨?_, ?_, ?_, ?_⟩ <;>
    (apply BitVec.eq_of_getLsbD_eq
     intro i hi
     simp only [BitVec.getLsbD_extractLsb', hi, decide_true, Bool.true_and,
       BitVec.getLsbD_append]
     repeat' split
     all_goals first
       | omega
       | (congr 1; omega))

@[simp] theorem bytesOfWord_length (w : Word) : (bytesOfWord w).length = 4 := rfl

theorem unpackWords_length (ws : List Word) : (unpackWords ws).length = 4 * ws.length := by
  induction ws with
  | nil => rfl
  | cons w ws ih => simp [unpackWords, ih]; omega

theorem packWords_length (bs : List Byte) : (packWords bs).length = wordsFor bs.length := by
  induction bs using packWords.induct with
  | case1 b0 b1 b2 b3 rest ih =>
      simp only [packWords, List.length_cons, ih, wordsFor, ceilDiv]
      omega
  | case2 => simp [packWords, wordsFor, ceilDiv]
  | case3 => simp [packWords, wordsFor, ceilDiv]
  | case4 => simp [packWords, wordsFor, ceilDiv]
  | case5 => rfl

/-- The bytes come back from the words they were packed into (R214, without the memory). -/
theorem unpackWords_packWords (bs : List Byte) :
    (unpackWords (packWords bs)).take bs.length = bs := by
  induction bs using packWords.induct with
  | case1 b0 b1 b2 b3 rest ih =>
      simp only [packWords, unpackWords, bytesOfWord_wordOfBytes, List.length_cons,
        List.cons_append, List.nil_append, List.take_succ_cons, ih]
  | case2 => simp [packWords, unpackWords]
  | case3 => simp [packWords, unpackWords]
  | case4 => simp [packWords, unpackWords]
  | case5 => rfl

/-- A nonempty packet needs at least one word. -/
theorem wordsFor_pos {n : Nat} (h : 0 < n) : 0 < wordsFor n := by
  simp only [wordsFor, ceilDiv]; omega

/-- R245's room test and the words a packet needs. -/
theorem wordsFor_le_iff (n k : Nat) : wordsFor n ≤ k ↔ n ≤ 4 * k := by
  simp only [wordsFor, ceilDiv]; omega

end Sys2Proof.Machine
end

