-- ==== Sys2Proof/Laws/Environment.lean ====
section
/-! SUPPORT. The environment's pushes and the depth of the receive FIFO (46_environment.md R295), the
widths of power-on values (00_scope.md R14), which transfer a completion is for (70_reset_and_hazards.md
R350), what DISCONNECT parks (45_system_ops.md R265), what flush and disable completions leave
(46_environment.md R293, R294), and a wait that gives way to a run (60_exceptions.md R320). -/

namespace Sys2Proof.Machine

open Sys2Proof

/-! ## The receive FIFO -/

/-- A push that fits the free words keeps RXQ within its depth. -/
theorem rxPush_within {ws : List Word} {p : Pi} (hw : ws.length ≤ rxFree p)
    (hp : p.rxq.length ≤ p.rxfDepth) : (rxPush ws p).rxq.length ≤ (rxPush ws p).rxfDepth := by
  simp only [rxPush, List.length_append, rxFree] at *
  omega

/-- A packet of k bytes has words(k) data words, whatever fills its last word. -/
theorem packetWords_length {bytes fill : List Byte} :
    (packetWords bytes fill).length = wordsFor bytes.length := by
  simp only [packetWords, packWords_length, wordsFor, ceilDiv, List.length_append, List.length_take]
  omega

/-! ## Widths at power-on -/

theorem EpRegs.cut_fits (r : EpRegs) :
    r.cut.mps < 2 ^ 11 ∧ r.cut.pktcnt < 2 ^ 10 ∧ r.cut.xfrsiz < 2 ^ 19 := by
  simp only [EpRegs.cut]
  omega

theorem TxfRegs.cut_fits (r : TxfRegs) : r.cut.start < 2 ^ 16 ∧ r.cut.depth < 2 ^ 16 := by
  simp only [TxfRegs.cut]
  omega

/-! ## Which transfer a completion is for -/

/-- A completion of the transfer in flight is never late, whatever stood before. -/
@[simp] theorem signalDone_lateAt (s : State) (n : EpNum) (d : Dir) (late : Bool) :
    (s.signalDone n d late).lateAt n d = (late && (!(s.epAt n d).xferDone || s.lateAt n d)) := by
  cases d <;> simp [State.lateAt, State.signalDone, Both.get, Both.set]

/-- The event of an earlier transfer leaves the transfer in flight; its own ends it. -/
@[simp] theorem emitComplete_inFlightAt (s : State) (n : EpNum) (d : Dir) :
    (s.emitComplete n d).inFlightAt n d = (s.inFlightAt n d && s.lateAt n d) := by
  cases d <;> simp [State.inFlightAt, emitComplete_eq, Both.get, Both.set]

/-- Who is aged has as late what stands; nobody else changes. -/
@[simp] theorem ageDone_lateAt (s : State) (who : EpNum → Dir → Bool) (n : EpNum) (d : Dir) :
    (s.ageDone who).lateAt n d = if who n d then (s.epAt n d).xferDone else s.lateAt n d := by
  simp only [State.lateAt, State.ageDone, State.agedEnv, Both.get_tab]

@[simp] theorem ageDone_armedAt (s : State) (who : EpNum → Dir → Bool) (n : EpNum) (d : Dir) :
    (s.ageDone who).armedAt n d = (s.armedAt n d && !who n d) := by
  simp only [State.armedAt, State.ageDone, State.agedEnv, Both.get_tab]

@[simp] theorem ageDone_silentAt (s : State) (who : EpNum → Dir → Bool) (n : EpNum) (d : Dir) :
    (s.ageDone who).silentAt n d = s.silentAt n d := by
  simp only [State.silentAt, State.ageDone, State.agedEnv]

/-- Who is hushed while in flight has no event to come. -/
@[simp] theorem hush_silentAt (s : State) (who : EpNum → Dir → Bool) (n : EpNum) (d : Dir) :
    (s.hush who).silentAt n d = (s.silentAt n d || (who n d && s.inFlightAt n d)) := by
  simp only [State.hush, ageDone_silentAt]
  simp only [State.silentAt, Both.get_tab]

@[simp] theorem hush_parkedAt (s : State) (who : EpNum → Dir → Bool) (n : EpNum) (d : Dir) :
    (s.hush who).parkedAt n d = s.parkedAt n d := by
  simp only [State.parkedAt, State.hush, State.ageDone, State.agedEnv]

/-- At the start of a transfer a completion that stands is an earlier one's. -/
@[simp] theorem startFlight_lateAt (n : EpNum) (d : Dir) (s : State) :
    (startFlight n d s).lateAt n d = (s.epAt n d).xferDone := by
  simp [startFlight, State.epAt]

/-- A completion of an armed endpoint is reported, whatever was abandoned before it was armed. -/
theorem signalDone_reported {s : State} {n : EpNum} {d : Dir} (h : s.armedAt n d = true) :
    (s.signalDone n d (!s.armedAt n d)).dropsDone n d = false := by
  simp [State.dropsDone, h]

/-! ## DISCONNECT (45_system_ops.md R265) -/

/-- What was in flight at DISCONNECT is parked. -/
theorem park_parkedAt {s : State} {n : EpNum} {d : Dir} (h : s.inFlightAt n d = true) :
    (park s).parkedAt n d = true := by
  simp only [park, hush_parkedAt]
  simp only [State.parkedAt, Both.get_tab]
  simp [h]

/-- A parked transfer moves no packet and gets no OUT_DONE entry, connected again or not. -/
theorem parked_stays {s : State} {n : EpNum} :
    (s.parkedAt n .out = true → (∀ bytes dpid fill, envOutPacket n bytes dpid fill s = s) ∧
      envOutEnd n s = s) ∧
    (s.parkedAt n .inn = true → envSendIn n s = s) := by
  refine ⟨fun h => ⟨fun bytes dpid fill => ?_, ?_⟩, fun h => ?_⟩
  · simp [envOutPacket, outAllowed, h]
  · simp [envOutEnd, h]
  · simp [envSendIn, sendAllowed, h]

/-! ## Flush and disable completion -/

/-- What the end of a flush leaves in every queue: the one P.FLUSH.NUM names is empty, any other is
empty or as before. -/
theorem envFlushDone_txq {s : State} (also : List EpNum) (n : EpNum) (h : s.pi.flushBusy = true) :
    ((envFlushDone also s).pi.txq)[n] =
      if n = s.pi.flushNum ∨ s.env.flushOld[n] = true ∧ n ∈ also then TxFifo.empty
      else s.pi.txq[n] := by
  simp [envFlushDone, h, Bank.mapBelow]

/-- A disable completion sets XFERDONE only for a transfer it cut off. -/
theorem envDisableDone_no_cut {s : State} {n : EpNum} {d : Dir} (complete : Bool)
    (h : canCutOff s n d = false) :
    ((envDisableDone n d complete s).epAt n d).xferDone = (s.epAt n d).xferDone := by
  cases hd : (s.epAt n d).disreq <;> simp [envDisableDone, setEpIf, h, hd]

/-! ## A wait that gives way to a run -/

theorem moveAlone_wait {s : State} {p : CmdPos} (hc : s.ctx = .cmd p)
    (hw : waitsForOthers p s = true) (he : canEnterRun s = true) :
    moveAlone s = .next (startRun s) := by
  have hh : s.halted = false := by
    simp only [canEnterRun, Bool.and_eq_true, Bool.not_eq_true'] at he
    exact he.1.1.1
  simp [moveAlone, hh, hc, hw, he]

end Sys2Proof.Machine
end

