-- ==== Sys2Proof/Laws/Memory.lean ====
section
/-! SUPPORT. Buffer memory: every write keeps the canonical form, a read after a write, and what a run
of byte writes leaves alone (20_memory.md R71 to R73). -/

namespace Sys2Proof.Machine

open Sys2Proof

/-! ## One byte -/

theorem Memory.wfFrom_mono {low low' : Nat} {m : List Host.Cell} (h : low' ≤ low)
    (w : Memory.wfFrom low m = true) : Memory.wfFrom low' m = true := by
  cases m with
  | nil => rfl
  | cons c rest =>
      obtain ⟨a, v⟩ := c
      simp only [Memory.wfFrom, Bool.and_eq_true, decide_eq_true_eq] at w ⊢
      exact ⟨⟨⟨by omega, w.1.1.2⟩, w.1.2⟩, w.2⟩

theorem Memory.wfFrom_update {low a : Nat} (v : Byte) (m : List Host.Cell) (hl : low ≤ a)
    (ha : a < 2 ^ 32) (w : Memory.wfFrom low m = true) :
    Memory.wfFrom low (Memory.update m a v) = true := by
  induction m generalizing low with
  | nil =>
      unfold Memory.update
      split
      · rfl
      · rename_i hv
        simp [Memory.wfFrom, hl, hv]; omega
  | cons c rest ih =>
      obtain ⟨b, x⟩ := c
      have w' := w
      simp only [Memory.wfFrom, Bool.and_eq_true, decide_eq_true_eq] at w'
      obtain ⟨⟨⟨hb, hb2⟩, hx⟩, hr⟩ := w'
      unfold Memory.update
      by_cases h1 : a < b
      · simp only [h1, if_true]
        split
        · exact w
        · rename_i hv
          simp only [Memory.wfFrom, Bool.and_eq_true, decide_eq_true_eq]
          exact ⟨⟨⟨hl, ha⟩, hv⟩, ⟨⟨h1, hb2⟩, hx⟩, hr⟩
      · by_cases h2 : a = b
        · subst h2
          simp only [h1, if_false, if_true]
          split
          · exact Memory.wfFrom_mono (by omega) hr
          · rename_i hv
            simp only [Memory.wfFrom, Bool.and_eq_true, decide_eq_true_eq]
            exact ⟨⟨⟨hl, ha⟩, hv⟩, hr⟩
        · simp only [h1, h2, if_false, Memory.wfFrom, Bool.and_eq_true, decide_eq_true_eq]
          exact ⟨⟨⟨hb, hb2⟩, hx⟩, ih (by omega) hr⟩

theorem Memory.wf_nil : Memory.wf [] = true := rfl

/-- Reset memory is canonical. -/
theorem State.wf_reset_mem : Memory.wf State.reset.mem = true := rfl

/-- The canonical form is kept by a byte write. -/
theorem Memory.wf_memWrite (m : List Host.Cell) (a : Word) (v : Byte) (w : Memory.wf m = true) :
    Memory.wf (memWrite m a v) = true :=
  Memory.wfFrom_update v m (Nat.zero_le _) a.isLt w

theorem Memory.lookup_low {low a : Nat} (m : List Host.Cell) (w : Memory.wfFrom low m = true)
    (h : a < low) : Memory.lookup m a = Memory.unlisted := by
  induction m generalizing low with
  | nil => rfl
  | cons c rest ih =>
      obtain ⟨b, x⟩ := c
      simp only [Memory.wfFrom, Bool.and_eq_true, decide_eq_true_eq] at w
      have hb : a ≠ b := by omega
      simp only [Memory.lookup, hb, if_false]
      exact ih w.2 (by omega)

theorem Memory.lookup_update {low a : Nat} (v : Byte) (m : List Host.Cell)
    (w : Memory.wfFrom low m = true) (c : Nat) :
    Memory.lookup (Memory.update m a v) c = if c = a then v else Memory.lookup m c := by
  induction m generalizing low with
  | nil =>
      unfold Memory.update
      split <;> rename_i hv
      · simp [Memory.lookup, hv]
      · simp [Memory.lookup]
  | cons p rest ih =>
      obtain ⟨b, x⟩ := p
      have w' := w
      simp only [Memory.wfFrom, Bool.and_eq_true, decide_eq_true_eq] at w'
      obtain ⟨⟨⟨_, _⟩, _⟩, hr⟩ := w'
      unfold Memory.update
      by_cases h1 : a < b
      · simp only [h1, if_true]
        split
        · rename_i hv
          by_cases hc : c = a
          · subst hc
            have : c ≠ b := by omega
            simp [Memory.lookup, this, hv, Memory.lookup_low rest hr (show c < b + 1 by omega)]
          · simp [hc]
        · by_cases hc : c = a <;> simp [Memory.lookup, hc]
      · by_cases h2 : a = b
        · subst h2
          simp only [h1, if_false, if_true]
          split
          · rename_i hv
            by_cases hc : c = a
            · subst hc
              simp [hv, Memory.lookup_low rest hr (Nat.lt_succ_self c)]
            · simp [Memory.lookup, hc]
          · by_cases hc : c = a <;> simp [Memory.lookup, hc]
        · simp only [h1, h2, if_false, Memory.lookup]
          by_cases hc : c = b
          · subst hc
            have : c ≠ a := fun h => h2 h.symm
            simp [this]
          · simp [hc, ih hr]

/-- A byte write is read back at its address and nowhere else. -/
theorem memRead_memWrite (m : List Host.Cell) (a b : Word) (v : Byte) (w : Memory.wf m = true) :
    memRead (memWrite m a v) b = if b = a then v else memRead m b := by
  have h := Memory.lookup_update (a := a.toNat) v m w b.toNat
  simp only [BitVec.toNat_inj] at h
  exact h

/-! ## Runs of bytes -/

theorem Memory.wf_memWriteBytes (bs : List Byte) (m : List Host.Cell) (a : Word)
    (w : Memory.wf m = true) : Memory.wf (memWriteBytes m a bs) = true := by
  induction bs generalizing m a with
  | nil => exact w
  | cons b bs ih => exact ih _ _ (Memory.wf_memWrite m a b w)

/-- A run of byte writes leaves every address outside it alone. -/
theorem memRead_memWriteBytes_outside (bs : List Byte) (m : List Host.Cell) (a b : Word)
    (w : Memory.wf m = true) (h : bs.length ≤ (b - a).toNat) :
    memRead (memWriteBytes m a bs) b = memRead m b := by
  induction bs generalizing m a with
  | nil => rfl
  | cons x bs ih =>
      simp only [List.length_cons] at h
      have hne : b ≠ a := by
        intro e
        subst e
        simp at h
      have hpos : 0 < (b - a).toNat := by omega
      have hs : (b - (a + 1)).toNat = (b - a).toNat - 1 := by
        have e : b - (a + 1) = (b - a) - 1 := by bv_omega
        rw [e]
        generalize b - a = y at hpos
        bv_omega
      simp only [memWriteBytes]
      rw [ih _ _ (Memory.wf_memWrite m a x w) (by omega), memRead_memWrite m a b x w, if_neg hne]

/-- A run of byte writes is read back in order. -/
theorem memRead_memWriteBytes_inside (bs : List Byte) (m : List Host.Cell) (a : Word) (i : Nat)
    (w : Memory.wf m = true) (h : i < bs.length) (hl : bs.length ≤ 2 ^ 32) :
    memRead (memWriteBytes m a bs) (a + BitVec.ofNat 32 i) = bs[i] := by
  induction bs generalizing m a i with
  | nil => simp at h
  | cons x bs ih =>
      simp only [List.length_cons] at h hl
      simp only [memWriteBytes]
      cases i with
      | zero =>
          rw [show a + BitVec.ofNat 32 0 = a by simp,
            memRead_memWriteBytes_outside bs _ (a + 1) a (Memory.wf_memWrite m a x w) ?_,
            memRead_memWrite m a a x w, if_pos rfl]
          · rfl
          · have : (a - (a + 1)).toNat = 2 ^ 32 - 1 := by
              rw [BitVec.toNat_sub, BitVec.toNat_add]
              have := a.isLt
              simp
              omega
            omega
      | succ j =>
          have : a + BitVec.ofNat 32 (j + 1) = (a + 1) + BitVec.ofNat 32 j := by
            rw [BitVec.add_assoc]
            congr 1
            apply BitVec.eq_of_toNat_eq
            simp [BitVec.toNat_add]
            omega
          rw [this, ih _ _ _ (Memory.wf_memWrite m a x w) (by omega) (by omega)]
          rfl

@[simp] theorem memReadBytes_length (m : List Host.Cell) (a : Word) (n : Nat) :
    (memReadBytes m a n).length = n := by
  induction n generalizing a with
  | zero => rfl
  | succ n ih => simp [memReadBytes, ih]

theorem memReadBytes_get (m : List Host.Cell) (a : Word) (n i : Nat) (h : i < n) :
    (memReadBytes m a n)[i]'(by simpa using h) = memRead m (a + BitVec.ofNat 32 i) := by
  induction n generalizing a i with
  | zero => omega
  | succ n ih =>
      cases i with
      | zero => simp [memReadBytes]
      | succ j =>
          simp only [memReadBytes, List.getElem_cons_succ]
          rw [ih (a + 1) j (by omega)]
          congr 1
          rw [BitVec.add_assoc]
          congr 1
          apply BitVec.eq_of_toNat_eq
          simp [BitVec.toNat_add]
          omega

/-! ## The packet engine -/

/-- What a packet read does, whole, when the words are there (43_packet_io.md R211). -/
theorem fifoReadPacket_ok (dst : Word) (len : Nat) (s : State)
    (h : wordsFor len ≤ s.pi.rxq.length) :
    fifoReadPacket dst len s = .ok
      { s with
        pi := { s.pi with rxq := s.pi.rxq.drop (wordsFor len) }
        mem := memWriteBytes s.mem dst ((unpackWords (s.pi.rxq.take (wordsFor len))).take len) } := by
  have hl : ¬ (s.pi.rxq.take (wordsFor len)).length < wordsFor len := by
    simp only [List.length_take]; omega
  simp only [fifoReadPacket]
  rw [if_neg hl]

/-- And when the queue runs short: every word it had is popped, and the run is out of contract. -/
theorem fifoReadPacket_short (dst : Word) (len : Nat) (s : State)
    (h : s.pi.rxq.length < wordsFor len) :
    fifoReadPacket dst len s = .bad .outOfContract
      { s with
        pi := { s.pi with rxq := [] }
        mem := memWriteBytes s.mem dst ((unpackWords s.pi.rxq).take len) } := by
  have hl : (s.pi.rxq.take (wordsFor len)).length < wordsFor len := by
    simp only [List.length_take]; omega
  simp only [fifoReadPacket]
  rw [if_pos hl, List.take_of_length_le (show s.pi.rxq.length ≤ wordsFor len by omega),
    List.drop_of_length_le (show s.pi.rxq.length ≤ wordsFor len by omega)]

end Sys2Proof.Machine
end

