-- ==== Sys2Proof/Laws/PerInstr.lean ====
section
/-! SUPPORT. The family OpcodeRow: the word of a well-formed command spells the row of its own opcode
(30_encoding.md R101, R104), one lemma per constructor. -/

namespace Sys2Proof.Laws

open Sys2Proof

/-- The word of a well-formed command spells the row of its opcode. -/
def OpcodeRow.Statement (i : Instr) : Prop :=
  i.wellFormed = true → (opcodeRow (fieldOp (encode i))).spells (encode i) = true

theorem spells_iff (r : OpcodeRow) (w : CmdWord) : r.spells w = true ↔ w &&& r.mask = r.value := by
  simp [Sys2Proof.OpcodeRow.spells]

theorem maskE_fields : maskE = commandWord 0xFFFFFFFF 0xF 0 0 3 0x1F 0xFFFF := by decide

theorem OpcodeRow.init : OpcodeRow.Statement .init := fun _ => by decide
theorem OpcodeRow.connect : OpcodeRow.Statement .connect := fun _ => by decide
theorem OpcodeRow.disconnect : OpcodeRow.Statement .disconnect := fun _ => by decide
theorem OpcodeRow.remoteWakeup : OpcodeRow.Statement .remoteWakeup := fun _ => by decide
theorem OpcodeRow.irqEnable : OpcodeRow.Statement .irqEnable := fun _ => by decide
theorem OpcodeRow.irqDisable : OpcodeRow.Statement .irqDisable := fun _ => by decide
theorem OpcodeRow.irqEntry : OpcodeRow.Statement .irqEntry := fun _ => by decide

theorem OpcodeRow.setAddress (a : BitVec 7) : OpcodeRow.Statement (.setAddress a) := by
  intro _
  simp only [encode, shortWord, fieldOp_commandWord, opcodeRow, spells_iff, BitVec.reduceToNat]
  rw [show (0xFFFFFFFFFFFFFF80 : CmdWord) = commandWord 0xFFFFFFFF 0xF 1 0xF 3 0x1F 0xFF80 by decide,
    and_commandWord, addr_masked]
  simp
  decide

theorem OpcodeRow.openEp (n : EpNum) (d : Dir) (ty : XferType) (mps : Nat) :
    OpcodeRow.Statement (.openEp n d ty mps) := by
  intro h
  have h : mps < 2 ^ 11 := by simpa [Instr.wellFormed] using h
  simp only [encode, shortWord, fieldOp_commandWord, opcodeRow, spells_iff, BitVec.reduceToNat]
  rw [show (0xFFFFFFFFF01FF800 : CmdWord) = commandWord 0xFFFFFFFF 0xF 0 0 0 0x1F 0xF800 by decide,
    and_commandWord, mps_masked mps h]
  simp
  decide

theorem OpcodeRow.closeEp (n : EpNum) (d : Dir) : OpcodeRow.Statement (.closeEp n d) := by
  intro _
  simp only [encode, shortWord, fieldOp_commandWord, opcodeRow, spells_iff, BitVec.reduceToNat]
  rw [maskE_fields, and_commandWord]
  simp
  decide

theorem OpcodeRow.xfer (n : EpNum) (d : Dir) (buffer : Word) (length : Nat) :
    OpcodeRow.Statement (.xfer n d buffer length) := by
  intro _
  simp only [encode, fieldOp_commandWord, opcodeRow, spells_iff, BitVec.reduceToNat]
  rw [show (0x00000000F07F0000 : CmdWord) = commandWord 0 0xF 0 0 3 0x1F 0 by decide, and_commandWord]
  simp
  decide

theorem OpcodeRow.stall (n : EpNum) (d : Dir) : OpcodeRow.Statement (.stall n d) := by
  intro _
  simp only [encode, shortWord, fieldOp_commandWord, opcodeRow, spells_iff, BitVec.reduceToNat]
  rw [maskE_fields, and_commandWord]
  simp
  decide

theorem OpcodeRow.clearStall (n : EpNum) (d : Dir) : OpcodeRow.Statement (.clearStall n d) := by
  intro _
  simp only [encode, shortWord, fieldOp_commandWord, opcodeRow, spells_iff, BitVec.reduceToNat]
  rw [maskE_fields, and_commandWord]
  simp
  decide

theorem OpcodeRow.cfgAlloc (table : Word) (count : Nat) :
    OpcodeRow.Statement (.cfgAlloc table count) := by
  intro _
  simp only [encode, fieldOp_commandWord, opcodeRow, spells_iff, BitVec.reduceToNat]
  rw [show (0x00000000FFFF0000 : CmdWord) = commandWord 0 0xF 1 0xF 3 0x1F 0 by decide, and_commandWord]
  simp
  decide

/-- The opcode of a reserved word. -/
theorem fieldOp_reserved (high : Word) (op : BitVec 4) (low : BitVec 28) :
    fieldOp (high ++ (op ++ low)) = op := by
  apply BitVec.eq_of_getLsbD_eq
  intro k hk
  simp only [fieldOp, BitVec.getLsbD_extractLsb', hk, decide_true, Bool.true_and,
    BitVec.getLsbD_append]
  repeat' split
  all_goals first
    | omega
    | (congr 1; omega)

/-- A word seen through the reserved rows' mask keeps its opcode only. -/
theorem reserved_masked (high : Word) (op : BitVec 4) (low : BitVec 28) :
    ((high ++ (op ++ low) : CmdWord) &&& (0x00000000F0000000 : CmdWord)) =
      ((0 : Word) ++ (op ++ (0 : BitVec 28)) : CmdWord) := by
  rw [show (0x00000000F0000000 : CmdWord) = ((0 : Word) ++ ((0xF : BitVec 4) ++ (0 : BitVec 28))) by
    decide]
  apply BitVec.eq_of_getLsbD_eq
  intro k hk
  simp only [BitVec.getLsbD_and, BitVec.getLsbD_append]
  repeat' split
  · simp
  · rename_i h1 h2
    have : ∀ j : Fin 4, (0xF : BitVec 4).getLsbD j.val = true := by decide
    rw [this ⟨k - 28, by omega⟩, Bool.and_true]
  · simp

theorem OpcodeRow.reservedE (high : Word) (low : BitVec 28) :
    OpcodeRow.Statement (.reservedE high low) := by
  intro _
  simp only [encode, fieldOp_reserved, opcodeRow, spells_iff, BitVec.reduceToNat]
  exact (reserved_masked high 0xE low).trans (by decide)

theorem OpcodeRow.reservedF (high : Word) (low : BitVec 28) :
    OpcodeRow.Statement (.reservedF high low) := by
  intro _
  simp only [encode, fieldOp_reserved, opcodeRow, spells_iff, BitVec.reduceToNat]
  exact (reserved_masked high 0xF low).trans (by decide)

end Sys2Proof.Laws
end

