-- ==== Sys2Proof/Tests/Slice0.lean ====
section
/-! SUPPORT. Tests, expected values from 95_test_vectors.md (named V<n>) or worked out by hand from the
cited rules, and one witness for the hypotheses of each statement of Certificates/Slice0. -/

namespace Sys2Proof.Tests

open Sys2Proof Sys2Proof.Machine

/-! ## Small states -/

/-- The next state of an outcome. -/
def nextOf : Host.Outcome State Fault Refusal → Option State
  | .next s => some s
  | .fault _ => none
  | .refused _ => none

/-- The refusal of an outcome. -/
def refusalOf : Host.Outcome State Fault Refusal → Option Refusal
  | .next _ => none
  | .fault _ => none
  | .refused r => some r

/-- The state after a command, where there is one. -/
def after (i : Instr) (s : State) : Option State := nextOf (exec i s)

/-- Endpoint fields after INIT. -/
def held : EpRegs := { EpRegs.zero with nak := true }

/-- The end of program P1: enumerated at full speed, bring-up layout, nothing opened. -/
def up : State :=
  { State.reset with
    xfer := Both.same ((Bank.all Record.zero).set 0 ⟨0, 0, 64⟩)
    allocWords := 71
    txfValid := (Bank.all false).set 0 true
    busState := .enumerating
    pi := { Pi.reset with
      gmsk := ⟨true, true, true, true, true, true, true, true⟩
      epintMsk := Both.same ((Bank.all false).set 0 true)
      oepSrcMsk := ⟨true, true⟩
      iepSrcMsk := true
      turnaround := 6
      rxfDepth := 55
      txf := (Bank.all ⟨0, 0⟩).set 0 ⟨55, 16⟩
      clkHz := 48000000
      setupcnt := 3
      ep := Both.same (Bank.all held) } }

/-- Endpoint 1 opened as bulk, 64 bytes, in one direction; for IN its FIFO is (71, 16) (V26). -/
def open1 (d : Dir) (s : State) : State :=
  let s1 := s.setRec 1 d { s.recAt 1 d with maxSize := 64 }
  let s2 := (s1.setEp 1 d { s1.epAt 1 d with active := true, ty := .bulk, mps := 64 }).setEpint 1 d true
  match d with
  | .out => s2
  | .inn => { (s2.assignTxFifo 1 71 16) with allocWords := 87 }

/-- Words in the receive queue. -/
def withRx (ws : List Word) (s : State) : State := { s with pi := { s.pi with rxq := ws } }

/-- Bytes in buffer memory. -/
def withMem (a : Word) (bs : List Byte) (s : State) : State :=
  { s with mem := memWriteBytes s.mem a bs }

/-- Some bus events pending. -/
def withGint (g : GintStored) (s : State) : State := { s with pi := { s.pi with gint := g } }

/-- No bus event. -/
def noGint : GintStored := ⟨false, false, false, false, false⟩

/-- Endpoint 1 IN armed with a transfer of `len` bytes from `a`, its FIFO empty. -/
def armed1 (a : Word) (len : Nat) (s : State) : State :=
  let s1 := open1 .inn s
  (s1.setRec 1 .inn ⟨a, len, 64⟩).arm 1 .inn (packetCount len 64) len

/-- Other parameters. -/
def withCfg (f : Config → Config) (s : State) : State := { s with cfg := f s.cfg }

/-! ## Well-formedness: each check refuses an ill-formed command -/

theorem test_wf_open : (Instr.openEp 1 .out .bulk 2048).wellFormed = false := by decide
theorem test_wf_xfer : (Instr.xfer 1 .out 0 65536).wellFormed = false := by decide
theorem test_wf_cfgAlloc : (Instr.cfgAlloc 0 65536).wellFormed = false := by decide

/-! ## Decoding: a word written out from R100 to R104 for every constructor (V20 to V22) -/

theorem test_dec_init : decode 0x0000000000000000 = some .init := by decide
theorem test_dec_connect : decode 0x0000000010000000 = some .connect := by decide
theorem test_dec_disconnect : decode 0x0000000020000000 = some .disconnect := by decide
theorem test_dec_setAddress : decode 0x000000003000007F = some (.setAddress 127) := by decide
theorem test_dec_remoteWakeup : decode 0x0000000040000000 = some .remoteWakeup := by decide
theorem test_dec_irqEnable : decode 0x0000000050000000 = some .irqEnable := by decide
theorem test_dec_irqDisable : decode 0x0000000060000000 = some .irqDisable := by decide
theorem test_dec_irqEntry : decode 0x0000000070000000 = some .irqEntry := by decide
theorem test_dec_open :
    decode 0x000000008FE007FF = some (.openEp 15 .inn .interrupt 2047) ∧
    decode 0x0000000089600008 = some (.openEp 2 .inn .interrupt 8) ∧
    decode 0x0000000080C00200 = some (.openEp 1 .out .bulk 512) := by decide
theorem test_dec_close : decode 0x0000000090800000 = some (.closeEp 1 .out) := by decide
theorem test_dec_xfer :
    decode 0xFFFFFFFEA8800006 = some (.xfer 1 .inn 0xFFFFFFFE 6) ∧
    decode 0x20000000A080FFFF = some (.xfer 1 .out 0x20000000 65535) := by decide
theorem test_dec_stall : decode 0x00000000B8800000 = some (.stall 1 .inn) := by decide
theorem test_dec_clearStall : decode 0x00000000C0800000 = some (.clearStall 1 .out) := by decide
theorem test_dec_cfgAlloc : decode 0x20004000D0000004 = some (.cfgAlloc 0x20004000 4) := by decide
/-- V21: reserved opcodes with any other bits. -/
theorem test_dec_reserved :
    decode 0xFFFFFFFFE0000001 = some (.reservedE 0xFFFFFFFF 1) ∧
    decode 0x00000000FFFFFFFF = some (.reservedF 0 0xFFFFFFF) := by decide
/-- V22: a field that must be zero is not. -/
theorem test_dec_illegal :
    decode 0x0000000010000001 = none ∧ decode 0x0000000100000000 = none ∧
    decode 0x0000000030000080 = none ∧ decode 0x0000000090800001 = none ∧
    decode 0x0000000098C00000 = none ∧ decode 0x0000000080C10040 = none ∧
    decode 0x0000000080C00840 = none ∧ decode 0x0000000180C00040 = none ∧
    decode 0x20000000A0C00096 = none ∧ decode 0x20004000D0800002 = none := by decide

/-! ## Arithmetic, words, codes -/

/-- V10 to V19. -/
theorem test_packetCount :
    packetCount 0 64 = 1 ∧ packetCount 64 64 = 1 ∧ packetCount 65 64 = 2 ∧
    packetCount 150 64 = 3 ∧ packetCount 1023 1023 = 1 ∧ packetCount 65535 64 = 1024 ∧
    packetCount 65472 64 = 1023 ∧ packetCount 65473 64 = 1024 := by decide

/-- V58. -/
theorem test_wordsFor : wordsFor 0 = 0 ∧ wordsFor 4 = 1 ∧ wordsFor 64 = 16 ∧ wordsFor 1023 = 256 := by
  decide

/-- V62. -/
theorem test_status :
    (statusEp 0x00050401, statusCount 0x00050401, rxClass (statusCode 0x00050401)) =
      (1, 64, .outData) ∧
    (statusEp 0x00040240, statusCount 0x00040240, rxClass (statusCode 0x00040240)) =
      (0, 36, .outData) ∧
    rxClass (statusCode 0x00020000) = .globalOutNak ∧ rxClass (statusCode 0x00060001) = .outDone ∧
    rxClass (statusCode 0x00080000) = .setupDone ∧ rxClass (statusCode 0x000C0080) = .setupData ∧
    rxClass (statusCode 0x000A0001) = .unrecognised ∧ statusWord 1 22 0 2 = 0x00040161 := by decide

/-- V69. -/
theorem test_events :
    eventWords (.busReset .high) = (0x00000001, 0, 0) ∧
    eventWords (.busSignal .unplugged) = (0x40000002, 0, 0) ∧
    eventWords (.setupReceived 0x02000680 0x00960000) = (0x80000000, 0x02000680, 0x00960000) ∧
    eventWords (.xferComplete 1 .out 94) = (0xC080005E, 0, 0) ∧
    eventWords (.xferComplete 3 .inn 65535) = (0xC980FFFF, 0, 0) := by decide

/-- V66: turn-around at several clocks. -/
theorem test_trdt :
    trdt Config.default .full 48000000 = 6 ∧ trdt Config.default .full 30000000 = 7 ∧
    trdt Config.default .full 14000000 = 15 ∧ trdt Config.default .high 60000000 = 9 := by decide

/-- V56: six bytes from two words, the rest of the last word dropped, the next byte not written. -/
theorem test_fifoRead :
    (match fifoReadPacket 0x100 6 (withMem 0x106 [0xEE] (withRx [0x44332211, 0xAABB6655] up)) with
     | .ok s => some (memReadBytes s.mem 0x100 7, s.pi.rxq)
     | .bad _ _ => none) = some ([0x11, 0x22, 0x33, 0x44, 0x55, 0x66, 0xEE], []) := by decide

/-- V57. -/
theorem test_packWords : packWords [1, 2, 3, 4, 5] = [0x04030201, 0x00000005] := by decide

/-- V59: a packet that wraps past the top of the address space. -/
theorem test_feed_wraps :
    (match feedStep 1 (armed1 0xFFFFFFFE 6
        (withMem 0xFFFFFFFE [0xA1, 0xA2, 0xA3, 0xA4, 0xA5, 0xA6] up)) with
     | .pushed s => some (s.pi.txq[(1 : EpNum)], s.recAt 1 .inn, (s.epAt 1 .inn).xfrsiz)
     | .stop => none
     | .bad _ _ => none) =
      some (⟨[⟨6, [0xA4A3A2A1, 0x0000A6A5]⟩], []⟩, ⟨4, 6, 64⟩, 0) := by decide

/-- V41's layout: endpoints 1 OUT and IN bulk 64, 2 IN interrupt 8, 3 IN isochronous 200. -/
theorem test_plan :
    let t := [0x00400401, 0x00400481, 0x00080882, 0x00C80283].map demandEntry
    planRx Config.default t = 51 ∧ planDemand Config.default t = 135 ∧
    (presentIn Config.default t).map (depthIn Config.default t) = [201, 2, 50] := by decide

/-- V45 and V46: one endpoint in two settings; the two largest OUT sizes. -/
theorem test_plan_settings :
    let t := [0x00400481, 0x00200881].map demandEntry
    let u := [0x02000401, 0x00400402, 0x00080803, 0x02000481].map demandEntry
    (presentIn Config.default t).map (depthIn Config.default t) = [271] ∧
    planRx Config.default u = 167 ∧
    (presentIn Config.default u).map (depthIn Config.default u) = [137] := by decide

/-! ## Commands, one step each -/

/-- V70, R342. -/
theorem test_init :
    (nextOf (step (State.reset.withFetchWord 64 0x0))).map
      (fun t => (t.allocWords, t.pi.rxfDepth, t.pi.txf[(0 : EpNum)], globalWord t.pi.gmsk)) =
      some (71, 55, ⟨55, 16⟩, 0x80003814) := by decide

/-- V27: a capacity of 64 words. -/
theorem test_init_overflow :
    (after .init (withCfg (fun c => { c with fifoCapacityWords := 64 }) State.reset)).map
      (fun t => (t.halted, faultCode t.faultCause)) = some (true, 4) := by decide

/-- V71. -/
theorem test_connect :
    (after .connect (up.setSoftdisc true)).map (fun t => (t.pi.softdisc, t.busState)) =
      some (false, .enumerating) := by decide

/-- V71. -/
theorem test_disconnect :
    (after .disconnect up).map (fun t => (t.pi.softdisc, t.busState, t.events)) =
      some (true, .disconnected, []) := by decide

/-- V72. -/
theorem test_setAddress :
    (nextOf (step (up.withFetchWord 64 0x30000005))).map (fun t => t.pi.devaddr) = some 5 := by decide

/-- V73: no state change but the response. -/
theorem test_remoteWakeup :
    after .remoteWakeup { up with resp := .declined } = some up := by decide

/-- V74: with P.irq already 1 a run is owed. -/
theorem test_irqEnable :
    (after .irqEnable (withRx [0x00020000] up)).map (fun t => (t.irqEn, t.irqDue)) =
      some (true, true) := by decide

/-- V74. -/
theorem test_irqDisable :
    (after .irqDisable { up with irqEn := true }).map (fun t => (t.irqEn, t.resp)) =
      some (false, .ok) := by decide

/-- V66: reset and enumeration done in one run, high speed. -/
theorem test_irqEntry_bus :
    (after .irqEntry { (withGint ⟨true, true, false, false, false⟩ up) with
        pi := { up.pi with
          gint := ⟨true, true, false, false, false⟩, speed := .high, clkHz := 60000000 } }).map
      (fun t => (t.pi.turnaround, t.events, t.busState, globalWord t.pi.gmsk, t.pi.gint)) =
      some (9, [.busReset .high], .enumerating, 0x800C3814, noGint) := by decide

/-- V63: an unknown status word halts the block, RXNE still masked. -/
theorem test_irqEntry_fault :
    (after .irqEntry (withRx [0x000A0001] up)).map
      (fun t => (t.halted, faultCode t.faultCause, globalWord t.pi.gmsk, t.pi.rxq)) =
      some (true, 3, 0x800C3804, []) := by decide

/-- V26. -/
theorem test_open_in :
    (after (.openEp 1 .inn .bulk 64) up).map
      (fun t => (t.pi.txf[(1 : EpNum)], t.allocWords, t.txfValid[(1 : EpNum)], t.busState)) =
      some (⟨71, 16⟩, 87, true, .active) := by decide

/-- V30: one byte over the ceiling of full-speed bulk. -/
theorem test_open_ceiling :
    (after (.openEp 1 .out .bulk 65) up).map
      (fun t => (faultCode t.faultCause, (t.recAt 1 .out).maxSize, (t.epAt 1 .out).active)) =
      some (2, 0, false) := by decide

/-- V35. -/
theorem test_close :
    (after (.closeEp 1 .inn) (open1 .inn up)).map
      (fun t => ((t.epAt 1 .inn).active, t.pi.epintMsk.inn[(1 : EpNum)], t.allocWords,
        t.pi.txf[(1 : EpNum)])) = some (false, false, 87, ⟨71, 16⟩) := by decide

/-- V50: endpoint 0 schedules one packet and leaves 86 bytes pending. -/
theorem test_xfer_ep0 :
    (after (.xfer 0 .inn 0x20002000 150) up).map
      (fun t => (t.ep0Pending.inn, (t.epAt 0 .inn).pktcnt, (t.epAt 0 .inn).xfrsiz,
        (t.epAt 0 .inn).nak, t.pi.txeMsk[(0 : EpNum)])) = some (86, 1, 64, false, true) := by decide

/-- V32: one packet too many for the count field, nothing written. -/
theorem test_xfer_tooLarge :
    (after (.xfer 1 .out 0x20000000 65535) (open1 .out up)).map
      (fun t => (faultCode t.faultCause, t.recAt 1 .out)) = some (7, ⟨0, 0, 64⟩) := by decide

/-- V36: the idle path. -/
theorem test_stall_idle :
    (after (.stall 1 .inn) (open1 .inn up)).map
      (fun t => ((t.epAt 1 .inn).nak, (t.epAt 1 .inn).stall, t.resp, t.pi.flushBusy)) =
      some (true, true, .ok, false) := by decide

/-- V38: the long path waits for the confirmation with only NAK written. -/
theorem test_stall_waits :
    (after (.stall 1 .inn) (armed1 0 150 up)).map
      (fun t => ((t.epAt 1 .inn).nak, (t.epAt 1 .inn).stall, (t.epAt 1 .inn).disreq, t.accepts)) =
      some (true, false, false, false) := by decide

/-- V33. -/
theorem test_clearStall_bulk :
    (after (.clearStall 1 .inn)
      ((open1 .inn up).setEp 1 .inn { held with ty := .bulk, stall := true, dpid := .data1 })).map
      (fun t => t.epAt 1 .inn) = some { held with ty := .bulk } := by decide

/-- V29: an isochronous endpoint keeps its toggle. -/
theorem test_clearStall_iso :
    (after (.clearStall 3 .out)
      (up.setEp 3 .out { held with ty := .isochronous, stall := true, dpid := .data1 })).map
      (fun t => t.epAt 3 .out) = some { held with ty := .isochronous, dpid := .data1 } := by decide

/-- The bytes of a demand table at 0x20004000. -/
def withTable (ws : List Word) (s : State) : State :=
  withMem 0x20004000 (unpackWords ws) s

/-- V42. -/
theorem test_cfgAlloc :
    (after (.cfgAlloc 0x20004000 4)
      (withTable [0x00400401, 0x00400481, 0x00400402, 0x00400482] up)).map
      (fun t => (t.pi.rxfDepth, t.pi.txf.toList.take 3, t.allocWords, t.txfValid.toList.take 4)) =
      some (53, [⟨53, 16⟩, ⟨69, 125⟩, ⟨194, 125⟩], 319, [true, true, true, false]) := by decide

/-- V43: one word too many. -/
theorem test_cfgAlloc_declined :
    after (.cfgAlloc 0x20004000 2) (withTable [0x03FF0281, 0x00400482] up) =
      some { (withTable [0x03FF0281, 0x00400482] up) with resp := .declined } := by decide

/-- V21, V24: the reserved opcodes halt the block; a halted block takes no command. -/
theorem test_reservedE :
    after (.reservedE 5 6) up = some { up with halted := true, faultCause := .illegalCommand } := by
  decide
theorem test_reservedF :
    after (.reservedF 5 6) up = some { up with halted := true, faultCause := .illegalCommand } ∧
    after .init { up with halted := true } = some { up with halted := true } := by decide

/-! ## The environment and the interrupt context -/

/-- V67, R284: a SETUP packet takes one SETUPCNT, clears the stalls, pushes three words. -/
theorem test_env_setup :
    let t := envSetupPacket 0x01010101 0x01010101
      (up.setEp 0 .inn { held with stall := true })
    t.pi.rxq = [0x000C0080, 0x01010101, 0x01010101] ∧ t.pi.setupcnt = 2 ∧
      (t.epAt 0 .inn).stall = false := by decide

/-- V62, R285, R286: a short packet of one byte; its transfer ends. -/
theorem test_env_out :
    let t := envOutPacket 1 [0xAB] 0 [0xFF, 0xFF, 0xFF]
      ((open1 .out up).arm 1 .out 3 150)
    t.pi.rxq = [0x00040011, 0xFFFFFFAB] ∧ (t.epAt 1 .out).pktcnt = 2 ∧
      (t.epAt 1 .out).xfrsiz = 149 ∧ t.env.ending[(1 : EpNum)] = true := by decide

/-- R295, R297: one SETUP_DONE for each arming of SETUPCNT, none while disconnected. -/
theorem test_env_setupOver :
    let s := envSetupPacket 1 2 up
    let t := envSetupPacket 3 4 (envSetupOver s)
    (envSetupOver s).pi.rxq = [0x000C0080, 1, 2, 0x00080000] ∧
    (envSetupOver t).pi.rxq = t.pi.rxq ∧ (envSetupOver (rearmSetup t)).pi.rxq ≠ t.pi.rxq ∧
    (envSetupOver (s.setSoftdisc true)).pi.rxq = s.pi.rxq := by decide

/-- R294, R350: the drawn completion of a stalled transfer, and none when it had ended by itself; it does
not end the transfer that XFER starts next. -/
theorem test_env_disable :
    let s := open1 .inn up
    let cut (ena : Bool) :=
      envDisableDone 1 .inn true (s.setEp 1 .inn { s.epAt 1 .inn with ena := ena, disreq := true })
    let next := startFlight 1 .inn (cut true)
    ((cut true).epAt 1 .inn).xferDone = true ∧ ((cut false).epAt 1 .inn).xferDone = false ∧
    (transferComplete 1 .inn next).inFlightAt 1 .inn = true ∧
    (transferComplete 1 .inn (next.signalDone 1 .inn false)).inFlightAt 1 .inn = false := by decide

/-- R286, R294: an OUT transfer that has ended is not cut off; its OUT_DONE alone completes it. -/
theorem test_env_disable_ended :
    let s := envOutPacket 1 [0xAB] 0 [] ((open1 .out up).arm 1 .out 3 150)
    let t := envDisableDone 1 .out true (stallDisable 1 .out s)
    (t.epAt 1 .out).ena = false ∧ (t.epAt 1 .out).xferDone = false ∧
    (envOutEnd 1 t).pi.rxq = s.pi.rxq ++ [0x00060001] := by decide

/-- R355, R204 e: a completion that stands at a bus reset gives no event, or one of count 0 (A37); R353 b:
what is armed after it gives one. -/
theorem test_env_abandoned :
    let go (b : Bool) :=
      let s := startFlight 0 .out (up.setRec 0 .out ⟨0, 8, 64⟩)
      clearRecords (({ s with cfg := { s.cfg with reportAbandoned := b } }.arm 0 .out 1 8).signalDone
        0 .out false)
    let done (s : State) := (transferComplete 0 .out s).events
    done (go false) = up.events ∧ done (go true) = up.events ++ [.xferComplete 0 .out 0] ∧
    done (((go false).arm 0 .out 1 8).signalDone 0 .out false) =
      up.events ++ [.xferComplete 0 .out 0] := by decide

/-- R265: a transfer in flight at DISCONNECT moves no packet after CONNECT, until it is armed again. -/
theorem test_env_parked :
    let s := startFlight 1 .out (open1 .out up) |>.arm 1 .out 3 150
    let t := softDisconnect false (softDisconnect true s)
    outAllowed s 1 64 = true ∧ outAllowed t 1 64 = false ∧ outAllowed (t.arm 1 .out 3 150) 1 64 = true ∧
    (t.epAt 1 .out).ena = true ∧ t.inFlightAt 1 .out = true := by decide

/-- R293: a flush that a second STALL overtook ends with the second one or not at all. -/
theorem test_env_flush :
    let q : TxFifo := ⟨[⟨4, [7]⟩], []⟩
    let u := txBindNum 2 (txBindNum 1 up)
    let s := { u with pi := { u.pi with txq := (u.pi.txq.set 1 q).set 2 q } }
    let t := stallFlush 2 (stallFlush 1 s)
    ((envFlushDone [1] t).pi.txq)[(1 : EpNum)] = TxFifo.empty ∧
    ((envFlushDone [] t).pi.txq)[(1 : EpNum)] = q ∧
    ((envFlushDone [] t).pi.txq)[(2 : EpNum)] = TxFifo.empty ∧
    ((envFlushDone [1] (stallFlush 2 s)).pi.txq)[(1 : EpNum)] = q := by decide

/-- R59, R298: an entry of no contract enters only a receive FIFO with room for it. -/
theorem test_env_break :
    (envBreak [0x000A0001] up).pi.rxq = [0x000A0001] ∧
    (envBreak [0x000A0001] (up.setRxDepth 0)).pi.rxq = [] ∧
    (envBreak [0x00060001] up).pi.rxq = [] := by decide

/-- R292: a second STALL leaves the confirmation waiting for its GLOBAL_OUT_NAK entry. -/
theorem test_env_nakAgain :
    let s := envGlobalOutNak 1 (stallNak 1 .out up)
    s.pi.rxq = [0x00020000] ∧
    ((envNakEffective 1 .out (stallNak 1 .out s)).epAt 1 .out).nakEff = false := by decide

/-- R14: power-on draws what the fields can hold. -/
theorem test_powerOn_widths :
    let t := up.powerOn { Pi.reset with
      rxfDepth := 65536, setupcnt := 7
      ep := Both.same (Bank.all { held with mps := 2048, pktcnt := 1023, xfrsiz := 524289 }) }
    t.pi.rxfDepth = 0 ∧ t.pi.setupcnt = 3 ∧
    t.epAt 2 .out = { held with mps := 0, pktcnt := 1023, xfrsiz := 1 } := by decide

/-- R121, R122: the source masks as words. -/
theorem test_srcMskWords :
    (oepSrcMskWord (unmaskSources up).pi, iepSrcMskWord (unmaskSources up).pi) = (0x9, 0x1) := by
  decide

/-- R320: with no turn left a wait that holds gives way to a run that may start. -/
theorem test_wait_gives_way :
    let p : CmdPos := ⟨.stall 1 .out, [.stallWaitNak 1 .out], {}⟩
    (nextOf (step { (withRx [0x00020000] up) with irqEn := true, ctx := .cmd p })).map
      (fun t => t.ctx) = some (.irq .entry (some p)) := by decide

/-- R320: a run enters between two numbered steps and R324 returns where it came from. -/
theorem test_preempt :
    (nextOf (blockMove { up with
        irqEn := true, ctx := .irq (.steps [] {}) (some ⟨.connect, [.respondOk], {}⟩) })).map
      (fun t => t.ctx) = some (.cmd ⟨.connect, [.respondOk], {}⟩) := by decide

/-- Memory: the byte an unlisted address reads as is never listed. -/
theorem test_mem_canonical :
    memWrite (memWrite [] 5 7) 5 0 = [] ∧ memWrite (memWrite [] 5 7) 3 1 = [(3, 1), (5, 7)] := by
  decide

/-! ## Witnesses: a state and operands that meet the hypotheses of each statement -/

/-- The block with a command port turn and one word presented. -/
def offered (w : CmdWord) (t : Turn) (s : State) : State := { s with port := [w], turns := [t] }

/-- Only the receive queue signals. -/
def rxOnly : GlobalBits := { GlobalBits.none with rxne := true }

theorem witness_DecodeEncode :
    (Instr.openEp 15 .inn .interrupt 2047).wellFormed = true ∧
    (Instr.xfer 15 .inn 0xFFFFFFFF 65535).wellFormed = true ∧
    (Instr.cfgAlloc 0 65535).wellFormed = true := by decide

theorem witness_EncodeDecode :
    decode 0x000000008FE007FF = some (.openEp 15 .inn .interrupt 2047) := by decide

theorem witness_StrictDecode :
    up.accepts = true ∧
    (∀ op : BitVec 4, op.toNat < 14 → (opcodeRow op).spells 0x0000000080C00840 = false) ∧
    (∀ op : BitVec 4, op.toNat < 14 → (opcodeRow op).spells 0x00000000E0000000 = false) ∧
    (offered 0x80C00840 .command up).turns = [.command] ∧
    (offered 0x80C00840 .command up).port = [0x80C00840] ∧
    (offered 0x80C00840 .command up).accepts = true ∧
    runOwed (offered 0x80C00840 .command up) = false := by
  refine ⟨by decide, ?_, ?_, by decide, by decide, by decide, by decide⟩ <;>
    (rintro ⟨⟨op, h⟩⟩; revert h; revert op; decide)

theorem witness_EventAndStatusWords : (65535 : Nat) < 2 ^ 16 := by decide

theorem witness_StepRunsCommand :
    (offered 0x10000000 .command up).accepts = true ∧
    runOwed (offered 0x10000000 .command up) = false ∧
    decode 0x10000000 = some .connect ∧
    { offered 0x10000000 .command up with turns := [] }.turns = [] ∧
    decodeTableWord 64 0xFFFFFFFEA8800006 = some (.xfer 1 .inn 0xFFFFFFFE 6) := by decide

theorem witness_Acceptance :
    { up with halted := true }.accepts = false ∧
    { up with ctx := .cmd ⟨.connect, connectOps, {}⟩ }.accepts = false ∧
    runOwed { up with halted := true } = false ∧
    (offered 0x10000000 .block up).accepts = true ∧
    runOwed (offered 0x10000000 .block up) = false ∧
    opsOf 4 .connect = .softDisconnect false :: [.respondOk] ∧
    opsOf 4 (.reservedE 0 0) = [] := by decide

theorem witness_CommandIsItsSteps :
    up.accepts = true ∧ (after .irqEntry (withRx [0x00020000] up)).isSome = true ∧
    refusalOf (exec (.cfgAlloc 0 0) (withRx [0x00020000] up)) = some .cfgAllocNotQuiescent := by
  decide

theorem witness_InitState :
    up.accepts = true ∧ (up.halted = true ↔ up.faultCause ≠ .noFault) ∧
    bringUpWords up.cfg ≤ up.cfg.fifoCapacityWords ∧
    bringUpWords up.cfg ≤ (withCfg (fun c => { c with fifoCapacityWords := 71 }) up).cfg.fifoCapacityWords
    := by decide

theorem witness_InitOverflow :
    let s := withCfg (fun c => { c with fifoCapacityWords := 70 }) up
    s.accepts = true ∧ s.cfg.fifoCapacityWords < bringUpWords s.cfg := by decide

theorem witness_ConnectDisconnect : State.reset.accepts = true := by decide
theorem witness_SetAddress : up.accepts = true := by decide
theorem witness_RemoteWakeup : { up with resp := .declined }.accepts = true := by decide

theorem witness_IrqEnableDisable :
    (withRx [0x00020000] up).accepts = true ∧ (withRx [0x00020000] up).irqLine = true := by decide

/-- A run that ends, one that halts, one that finds nothing. -/
theorem witness_IrqEntryEnds :
    (after .irqEntry (withRx [0x00020000] up)).map (fun t => t.halted) = some false ∧
    (after .irqEntry (withRx [0x000A0001] up)).map (fun t => t.halted) = some true ∧
    up.accepts = true ∧ up.irqLine = false := by decide

theorem witness_BusResetState :
    let s := withGint { noGint with reset := true } up
    s.accepts = true ∧ s.pending = { GlobalBits.none with reset := true } ∧
    bringUpWords s.cfg ≤ s.cfg.fifoCapacityWords ∧ 1 ≤ s.cfg.maxEndpoints := by decide

theorem witness_EnumDoneState :
    let s := withGint { noGint with enumDone := true } up
    s.accepts = true ∧ s.pending = { GlobalBits.none with enumDone := true } := by decide

theorem witness_BusSignals :
    let s := withGint { noGint with suspend := true, resume := true, disconnect := true } up
    let u := withGint { noGint with resume := true } { up with busState := .suspended }
    s.accepts = true ∧
    s.pending = { GlobalBits.none with suspend := true, resume := true, disconnect := true } ∧
    u.accepts = true ∧ u.pending = { GlobalBits.none with resume := true } := by decide

/-- A packet of the full size, wrapping past the top of memory. -/
theorem witness_DrainOutPacket :
    let s0 := open1 .out up
    let s := withRx [statusWord 1 5 0 2, 0x44332211, 0xAABBCC55]
      (s0.setRec 1 .out ⟨0xFFFFFFFE, 5, 5⟩)
    s.accepts = true ∧ s.pending = rxOnly ∧ 1 < s.cfg.maxEndpoints ∧ 5 < 2 ^ 11 ∧
    [0x44332211, 0xAABBCC55#32].length = wordsFor 5 ∧ (s.recAt 1 .out).maxSize ≤ 5 ∧
    Memory.wf s.mem = true := by decide

/-- Endpoint 0 with 36 bytes of 100 received (V54), endpoint 1 with nothing received. -/
theorem witness_DrainShortPacket :
    let s0 := (up.setRec 0 .out ⟨0x20003000, 100, 64⟩).setPending .out 36
    let s := withRx [statusWord 0 4 0 2, 0x44332211] (s0.setEp 0 .out { held with xfrsiz := 64 })
    let u := withRx [statusWord 1 0 0 2]
      (((open1 .out up).setRec 1 .out ⟨0, 150, 64⟩).setEp 1 .out { held with xfrsiz := 150 })
    (s.accepts = true ∧ s.pending = rxOnly ∧ 4 < (s.recAt 0 .out).maxSize ∧
      (s.epAt 0 .out).xfrsiz + s.ep0Pending.out ≤ (s.recAt 0 .out).totalLen ∧
      Memory.wf s.mem = true) ∧
    (u.accepts = true ∧ u.pending = rxOnly ∧ ([] : List Word).length = wordsFor 0 ∧
      0 < (u.recAt 1 .out).maxSize ∧
      (u.epAt 1 .out).xfrsiz + 0 ≤ (u.recAt 1 .out).totalLen ∧ Memory.wf u.mem = true) := by decide

theorem witness_DrainNakAndDone :
    let s := withRx [0x00020000] up
    let u := withRx [0x00060003] up
    (s.accepts = true ∧ s.pending = rxOnly ∧ rxClass (statusCode 0x00020000) = .globalOutNak) ∧
    (u.accepts = true ∧ u.pending = rxOnly ∧ rxClass (statusCode 0x00060003) = .outDone ∧
      (statusEp 0x00060003).val < u.cfg.maxEndpoints) := by decide

/-- Two SETUP packets and SETUP_DONE. -/
theorem witness_DrainSetup :
    let b : List (Word × Word × Word) := [(0x000C0080, 1, 2)]
    let s := withRx (setupEntries (b ++ [(0x000C0080, 3, 4)]) ++ [0x00080000]) up
    s.accepts = true ∧ s.pending = rxOnly ∧
    (∀ e ∈ b ++ [(0x000C0080, 3, 4)], rxClass (statusCode e.1) = .setupData) ∧
    rxClass (statusCode 0x00080000) = .setupDone := by
  refine ⟨by decide, by decide, ?_, by decide⟩
  intro e h
  simp only [List.cons_append, List.nil_append, List.mem_cons, List.not_mem_nil, or_false] at h
  rcases h with rfl | rfl <;> decide

/-- V63 and V64; the lowest endpoint that does not exist. -/
theorem witness_DrainFaults :
    let s := withRx [0x00000000] up
    let u := withRx [0x00040084, 1, 2] up
    (s.accepts = true ∧ s.pending = rxOnly ∧ rxClass (statusCode 0x00000000) = .unrecognised) ∧
    (u.accepts = true ∧ u.pending = rxOnly ∧ rxClass (statusCode 0x00040084) = .outData ∧
      u.cfg.maxEndpoints ≤ (statusEp 0x00040084).val) := by decide

theorem witness_RunStores :
    Memory.wf up.mem = true ∧
    ¬ (0x105 - (drainStore (withRx [statusWord 1 5 0 2, 0, 0]
      (up.setRec 1 .out ⟨0x100, 5, 64⟩))).1).toNat <
      (drainStore (withRx [statusWord 1 5 0 2, 0, 0] (up.setRec 1 .out ⟨0x100, 5, 64⟩))).2 ∧
    IrqOp.inFeed 1 ≠ .drainLoop := by decide

/-- The last endpoint signals both conditions; endpoint 0 the SETUP condition alone, then a completion with
bytes pending. -/
theorem witness_OutCompletion :
    let both (n : EpNum) (x : Bool) :=
      let s0 := (up.setEp n .out { held with xferDone := x }).setEpint n .out true
      { s0 with pi := { s0.pi with setupDone := s0.pi.setupDone.set n true } }
    let s := both 3 true
    let u := both 0 false
    let v := (both 0 true).setPending .out 36
    (s.accepts = true ∧ s.pending = { GlobalBits.none with oep := true } ∧
      3 < s.cfg.maxEndpoints ∧ (3 : EpNum) ≠ 0 ∧
      (∀ m : EpNum, m.val < s.cfg.maxEndpoints → (epPendOut s.pi m = true ↔ m = 3))) ∧
    (u.accepts = true ∧ u.pending = { GlobalBits.none with oep := true } ∧
      0 < u.cfg.maxEndpoints ∧ (u.epAt 0 .out).xferDone = false ∧
      (∀ m : EpNum, m.val < u.cfg.maxEndpoints → (epPendOut u.pi m = true ↔ m = 0))) ∧
    (s.dropsDone 3 .out = false ∧ v.dropsDone 0 .out = false) ∧
    (let w := v.setInFlight 0 .out true |>.hush fun _ _ => true
     w.accepts = true ∧ w.pending = v.pending ∧ w.dropsDone 0 .out = true) ∧
    (v.accepts = true ∧ v.pending = { GlobalBits.none with oep := true } ∧
      (v.epAt 0 .out).xferDone = true ∧ v.ep0Pending.out ≠ 0 ∧
      (∀ m : EpNum, m.val < v.cfg.maxEndpoints → (epPendOut v.pi m = true ↔ m = 0))) := by decide

theorem witness_TransferComplete :
    let s := up.setEp 1 .inn { held with xferDone := true }
    let u := (up.setEp 0 .inn { held with xferDone := true }).setPending .inn 22
    let v := up.setEp 0 .out { held with xferDone := true }
    (s.epAt 1 .inn).xferDone = true ∧
    ((u.epAt 0 .inn).xferDone = true ∧ u.ep0Pending.get .inn ≠ 0) ∧
    ((v.epAt 0 .out).xferDone = true ∧ v.ep0Pending.get .out = 0) ∧
    (s.dropsDone 1 .inn = false ∧ u.dropsDone 0 .inn = false ∧ v.dropsDone 0 .out = false) ∧
    (let w := s.setInFlight 1 .inn true |>.hush fun _ _ => true
     (w.epAt 1 .inn).xferDone = true ∧ w.dropsDone 1 .inn = true) := by decide

theorem witness_RequestedLengthKept :
    (after (.closeEp 1 .inn) up).isSome = true ∧
    (after (.xfer 0 .inn 0 5) up).isSome = true ∧ Instr.xfer 0 .inn 0 5 ≠ .xfer 1 .inn 0 5 ∧
    IrqOp.inFeed 1 ≠ .drainLoop := by decide

/-- A packet that fills the FIFO exactly. -/
theorem witness_FeedPushesPacket :
    let s := armed1 0x20001000 150 up
    s.pi.txq[(1 : EpNum)].open_ = [] ∧ (s.epAt 1 .inn).mps = (s.recAt 1 .inn).maxSize ∧
    64 = min (s.epAt 1 .inn).xfrsiz (s.recAt 1 .inn).maxSize ∧ 64 ≤ 4 * txFree s.pi 1 ∧
    txFree s.pi 1 = 16 := by decide

theorem witness_FeedLastPacket :
    let s := armed1 0x20001000 64 up
    s.accepts = true ∧ s.pending = { GlobalBits.none with iep := true } ∧
    1 < s.cfg.maxEndpoints ∧
    (∀ m : EpNum, m.val < s.cfg.maxEndpoints → (epPendIn s.pi m = true ↔ m = 1)) ∧
    (s.epAt 1 .inn).xferDone = false ∧ s.pi.txq[(1 : EpNum)].open_ = [] ∧
    (s.epAt 1 .inn).mps = (s.recAt 1 .inn).maxSize ∧ 0 < (s.epAt 1 .inn).xfrsiz ∧
    (s.epAt 1 .inn).xfrsiz ≤ (s.recAt 1 .inn).maxSize ∧
    (s.epAt 1 .inn).xfrsiz ≤ 4 * txFree s.pi 1 := by decide

/-- A FIFO one word too small for the packet. -/
theorem witness_FeedLastPacket_noRoom :
    let s := (armed1 0x20001000 64 up).setTxf 1 71 15
    s.accepts = true ∧ s.pending = { GlobalBits.none with iep := true } ∧
    1 < s.cfg.maxEndpoints ∧
    (∀ m : EpNum, m.val < s.cfg.maxEndpoints → (epPendIn s.pi m = true ↔ m = 1)) ∧
    (s.epAt 1 .inn).xferDone = false ∧
    4 * txFree s.pi 1 < min (s.epAt 1 .inn).xfrsiz (s.recAt 1 .inn).maxSize := by decide

theorem witness_OpenOut :
    (up.accepts = true ∧ 3 < up.cfg.maxEndpoints) ∧ 1023 ≤ ceiling .isochronous up.pi.speed ∧
    0 ≤ ceiling .control up.pi.speed := by decide

/-- A FIFO that is valid and just large enough; and an allocation that ends at the capacity. -/
theorem witness_OpenIn :
    let s := open1 .inn up
    let u := up.setAllocWords 304
    (s.accepts = true ∧ 64 ≤ ceiling .bulk s.pi.speed ∧ s.txfValid[(1 : EpNum)] = true ∧
      wordsFor 64 ≤ s.pi.txf[(1 : EpNum)].depth) ∧
    (u.accepts = true ∧ u.txfValid[(1 : EpNum)] = false ∧
      u.allocWords + wordsFor 64 ≤ u.cfg.fifoCapacityWords) := by decide

theorem witness_OpenFaults :
    let s := open1 .inn up
    let u := up.setAllocWords 305
    (up.accepts = true ∧ up.cfg.maxEndpoints ≤ (4 : EpNum).val) ∧
    ceiling .bulk up.pi.speed < 65 ∧
    (s.txfValid[(1 : EpNum)] = true ∧ 1023 ≤ ceiling .isochronous s.pi.speed ∧
      s.pi.txf[(1 : EpNum)].depth < wordsFor 1023) ∧
    (u.txfValid[(1 : EpNum)] = false ∧
      u.cfg.fifoCapacityWords < u.allocWords + wordsFor 64) := by decide

theorem witness_CloseEffect :
    up.accepts = true ∧ (3 : EpNum).val < up.cfg.maxEndpoints ∧
    up.cfg.maxEndpoints ≤ (4 : EpNum).val := by decide

/-- The longest transfer of 64-byte packets, and a zero-length one. -/
theorem witness_XferOther :
    let s := open1 .inn up
    s.accepts = true ∧ (1 : EpNum).val < s.cfg.maxEndpoints ∧ (1 : EpNum) ≠ 0 ∧
    s.inFlightAt 1 .inn = false ∧ (s.recAt 1 .inn).maxSize ≠ 0 ∧
    (65472 + (s.recAt 1 .inn).maxSize - 1) / (s.recAt 1 .inn).maxSize ≤ 1023 ∧
    (if (0 : Nat) = 0 then 1 else 0) ≤ 1023 := by decide

theorem witness_XferEp0 :
    up.accepts = true ∧ (0 : EpNum).val < up.cfg.maxEndpoints ∧ up.inFlightAt 0 .inn = false ∧
    (up.recAt 0 .inn).maxSize ≠ 0 := by decide

theorem witness_XferFaults :
    let s := open1 .out up
    packetCount 65535 65 ≤ 1023 ∧ up.accepts = true ∧ up.cfg.maxEndpoints ≤ (4 : EpNum).val ∧
    (up.recAt 1 .out).maxSize = 0 ∧
    ((1 : EpNum) ≠ 0 ∧ 1023 < packetCount 65473 (s.recAt 1 .out).maxSize) := by decide

theorem witness_RefusedRuns :
    let s := (open1 .out up).setInFlight 1 .out true
    let u := up.setEp 1 .inn { held with ena := true }
    (s.accepts = true ∧ (1 : EpNum).val < s.cfg.maxEndpoints ∧ (s.recAt 1 .out).maxSize ≠ 0 ∧
      packetCount 0 (s.recAt 1 .out).maxSize ≤ 1023 ∧ s.inFlightAt 1 .out = true) ∧
    (u.accepts = true ∧ (u.epAt 1 .inn).ena = true) ∧ (withRx [0] up).pi.rxq ≠ [] := by decide

theorem witness_StallIdle :
    up.accepts = true ∧ (up.epAt 3 .out).ena = false ∧ (3 : EpNum).val < up.cfg.maxEndpoints ∧
    up.cfg.maxEndpoints ≤ (4 : EpNum).val := by decide

theorem witness_StallInFlight :
    let s := armed1 0 150 up
    s.accepts = true ∧ (1 : EpNum).val < s.cfg.maxEndpoints ∧ s.cfg.stallPollLimit = none ∧
    (s.epAt 1 .inn).ena = true ∧ (s.epAt 1 .inn).nakEff = false ∧
    ((s.setEp 1 .inn { held with ena := true, nakEff := true }).epAt 1 .inn).nakEff = true ∧
    ((s.setEp 1 .inn { held with ena := true, nakEff := true }).epAt 1 .inn).ena = true := by decide

theorem witness_StallTimeout :
    let s := withCfg (fun c => { c with stallPollLimit := some 1 }) (armed1 0 150 up)
    let u := { s with
      ctx := .cmd ⟨.stall 1 .inn, [.stallWaitFlush, .respondOk], {}⟩
      pi := { s.pi with flushBusy := true } }
    (s.accepts = true ∧ (1 : EpNum).val < s.cfg.maxEndpoints ∧ s.cfg.stallPollLimit = some (0 + 1) ∧
      (s.epAt 1 .inn).ena = true ∧ (s.epAt 1 .inn).nakEff = false) ∧
    (u.halted = false ∧ u.pi.flushBusy = true ∧
      u.ctx = .cmd ⟨.stall 1 .inn, .stallWaitFlush :: [.respondOk], { ({} : CmdLocals) with polls := 0 }⟩)
    := by decide

theorem witness_ClearStallEffect :
    let s := up.setEp 1 .inn { held with ty := .bulk, stall := true, dpid := .data1 }
    s.accepts = true ∧ (1 : EpNum).val < s.cfg.maxEndpoints ∧ (s.epAt 1 .inn).stall = true ∧
    (up.epAt 1 .inn).stall = false ∧ up.cfg.maxEndpoints ≤ (4 : EpNum).val := by decide

theorem witness_LargestTwo :
    ([8, 512, 64, 512] : List Nat).Perm (512 :: [8, 64, 512]) ∧
    (∀ y ∈ ([8, 64, 512] : List Nat), y ≤ 512) := by decide

/-- V49: the demand is the capacity exactly. -/
theorem witness_CfgAllocCommits :
    let s := withTable [0x03FF0281, 0x003C0882] up
    let t := readTable s.mem 0x20004000 2
    s.accepts = true ∧ 1 ≤ s.cfg.maxEndpoints ∧ s.pi.rxq = [] ∧
    (∀ n : EpNum, n.val < s.cfg.maxEndpoints → (s.epAt n .inn).ena = false) ∧
    (∀ e ∈ t, e.ep.val < s.cfg.maxEndpoints) ∧ planDemand s.cfg t = 320 ∧
    planDemand s.cfg t ≤ s.cfg.fifoCapacityWords := by decide

/-- V43, and V47 over the same table. -/
theorem witness_CfgAllocDeclines :
    let s := withTable [0x03FF0281, 0x00400482, 0x00400484] up
    let t := readTable s.mem 0x20004000 2
    let u := readTable s.mem 0x20004000 3
    s.accepts = true ∧ s.pi.rxq = [] ∧
    (∀ n : EpNum, n.val < s.cfg.maxEndpoints → (s.epAt n .inn).ena = false) ∧
    (∃ e ∈ u, s.cfg.maxEndpoints ≤ e.ep.val) ∧
    (∀ e ∈ t, e.ep.val < s.cfg.maxEndpoints) ∧ s.cfg.fifoCapacityWords < planDemand s.cfg t := by
  decide

theorem witness_Ep0PendingLaw :
    let s := up.setPending .inn 128
    s.ep0Pending.get .inn = 128 ∧ (s.recAt 0 .inn).maxSize = 64 ∧ 0 < 64 := by decide

theorem witness_PacketRoundTrip :
    let s := armed1 0x20001000 63 up
    Memory.wf s.mem = true ∧ 63 ≤ 2 ^ 32 ∧ wordsFor 63 ≤ txFree s.pi 1 := by decide

theorem witness_CommandFrame :
    (after .init up).isSome = true ∧ Instr.init ≠ .irqEntry ∧ (after .irqEntry up).isSome = true := by
  decide

theorem witness_FaultsByCommand :
    up.accepts = true ∧ (after (.stall 4 .out) up).map (fun t => t.halted) = some true := by decide

theorem witness_BusStateMoves :
    up.accepts = true ∧ Instr.connect ≠ .irqEntry ∧
    (after .connect up).map (fun t => t.halted) = some false := by decide

theorem witness_HaltedForGood :
    { up with halted := true }.halted = true ∧ { up with halted := true }.turns = [] ∧
    (nextOf (step { up with halted := true, turns := [.present 5] })).isSome = true ∧
    Turn.present 5 ≠ .powerOn Pi.reset ∧ Turn.present 5 ≠ .store 0 0 := by decide

theorem witness_FaultRecordedKept :
    (up.halted = true ↔ up.faultCause ≠ .noFault) ∧
    (nextOf (step { up with turns := [.present 5] })).isSome = true := by decide

theorem witness_PowerOnState :
    { up with halted := true, turns := [.powerOn up.pi] }.turns = [.powerOn up.pi] := by decide

theorem witness_MemoryFormKept :
    Memory.wf up.mem = true ∧ (nextOf (step { up with turns := [.store 5 7] })).isSome = true := by
  decide

theorem witness_EnvironmentKeepsBlock :
    let s := withGint ⟨true, true, true, true, true⟩ (up.setEp 1 .inn { held with xferDone := true })
    s.pi.rxq.length ≤ s.pi.rxfDepth ∧
    s.pi.gint.reset = true ∧ s.pi.gint.disconnect = true ∧ (s.epAt 1 .inn).xferDone = true := by
  decide

theorem witness_EntryAndReturn :
    let s := { (withRx [0x00020000] up) with irqEn := true, turns := [.irq] }
    let u := { s with ctx := .cmd ⟨.connect, connectOps, {}⟩ }
    let v := { u with ctx := .irq (.steps [] {}) none }
    canEnterRun s = true ∧ canEnterRun u = true ∧ canEnterRun v = false ∧
    (v.halted = false ∧ v.ctx = .irq (.steps [] {}) none) := by decide

theorem witness_PreemptionReturns :
    let s := { (withRx [0x00020000] up) with irqEn := true }
    canEnterRun s = true ∧ (runInterrupt s).halted = false := by decide

/-! ### Witnesses of the invariants -/

/-- A property of every endpoint and direction. -/
theorem forall_dir {p : EpNum → Dir → Prop} (ho : ∀ n, p n .out) (hi : ∀ n, p n .inn) :
    ∀ n d, p n d := by
  intro n d
  cases d with
  | out => exact ho n
  | inn => exact hi n

theorem witness_WidthsKept : up.cfg.ok = true ∧ Fits up ∧ Instr.init.wellFormed = true :=
  ⟨by decide,
   { totalLen := forall_dir (by decide) (by decide)
     maxSize := forall_dir (by decide) (by decide)
     pending := by intro d; cases d <;> decide
     allocWords := by decide
     rxfDepth := by decide
     txf := by decide
     pktcnt := forall_dir (by decide) (by decide)
     xfrsiz := forall_dir (by decide) (by decide)
     mps := forall_dir (by decide) (by decide)
     setupcnt := by decide },
   by decide⟩

/-- The bring-up layout is sound. -/
theorem witness_LayoutKept :
    1 ≤ up.cfg.maxEndpoints ∧ LayoutOk up ∧
    (after (.openEp 1 .inn .bulk 64) up).map (fun t => t.halted) = some false := by
  have key : ∀ n w, up.inTxFifo n w ↔ n = 0 ∧ 55 ≤ w ∧ w < 71 := by
    have h : ∀ n : EpNum, n.val < 4 ∧ up.txfValid[n] = true ↔ n = 0 := by decide
    intro n w
    constructor
    · rintro ⟨h1, h2, h3, h4⟩
      obtain rfl := (h n).mp ⟨h1, h2⟩
      exact ⟨rfl, h3, h4⟩
    · rintro ⟨rfl, h3, h4⟩
      exact ⟨by decide, by decide, h3, h4⟩
  have hr : up.pi.rxfDepth = 55 := rfl
  have ha : up.allocWords = 71 := rfl
  refine ⟨by decide, ⟨by decide, ?_, ?_, ?_⟩, by decide⟩
  · intro w
    simp only [key, hr, ha]
    constructor
    · intro h
      by_cases h1 : w < 55
      · exact .inl h1
      · exact .inr ⟨0, rfl, by omega, h⟩
    · rintro (h | ⟨n, rfl, h1, h2⟩) <;> omega
  · intro n w h
    rw [hr]
    exact ((key n w).mp h).2.1
  · intro m n w hm hn
    rw [((key m w).mp hm).1, ((key n w).mp hn).1]

end Sys2Proof.Tests
end

section
/-! The commands by their lists of numbered steps (30_encoding.md R110). -/

namespace Sys2Proof.Machine

open Sys2Proof

variable {i : Instr} {s : State}

/-- A command that has numbered steps is these steps. -/
theorem exec_with_steps (h : opsOf s.cfg.maxEndpoints i ≠ []) :
    exec i s = runCommand i (opsOf s.cfg.maxEndpoints i) s := by
  cases i with
  | reservedE high low => exact absurd rfl h
  | reservedF high low => exact absurd rfl h
  | _ => rfl

/-- A command without numbered steps is a reserved opcode. -/
theorem exec_without_steps (h : opsOf s.cfg.maxEndpoints i = []) : exec i s = illegalCommand s := by
  cases i with
  | reservedE high low => rfl
  | reservedF high low => rfl
  | _ => cases h

theorem exec_busy (h : s.accepts = false) : exec i s = .next s := by
  by_cases hops : opsOf s.cfg.maxEndpoints i = []
  · rw [exec_without_steps hops, illegalCommand_busy h]
  · rw [exec_with_steps hops, runCommand_busy h]

end Sys2Proof.Machine
end

section
/-! The width invariant of 00_scope.md R14 and 41_endpoint_ops.md R199, kept by every shared operation
and by a dispatcher run taken whole. -/

namespace Sys2Proof.Machine

open Sys2Proof

/-! ## The invariant at a fixed configuration -/

/-- The quantities of a transfer record fit their fields (10_state.md R23, R24). -/
structure Record.InWidth (r : Record) : Prop where
  totalLen : r.totalLen < 2 ^ 16
  maxSize : r.maxSize ≤ 1024

/-- The quantities of an endpoint's registers fit their fields (10_state.md R54). -/
structure EpRegs.InWidth (r : EpRegs) : Prop where
  pktcnt : r.pktcnt < 2 ^ 10
  xfrsiz : r.xfrsiz < 2 ^ 19
  mps : r.mps < 2 ^ 11

/-- `Fits`, gathered by record and by endpoint, together with the configuration, which no step writes
and against which the operands of the steps still to come are measured. -/
structure FitsIn (c : Config) (s : State) : Prop where
  cfg : s.cfg = c
  recs : ∀ n d, (s.recAt n d).InWidth
  pending : ∀ d, s.ep0Pending.get d < 2 ^ 16
  allocWords : s.allocWords < 2 ^ 16
  rxfDepth : s.pi.rxfDepth < 2 ^ 16
  txf : ∀ n : EpNum, s.pi.txf[n].start < 2 ^ 16 ∧ s.pi.txf[n].depth < 2 ^ 16
  eps : ∀ n d, (s.epAt n d).InWidth
  setupcnt : s.pi.setupcnt < 4

theorem Fits.fitsIn {s : State} (h : Fits s) : FitsIn s.cfg s where
  cfg := rfl
  recs n d := ⟨h.totalLen n d, h.maxSize n d⟩
  pending := h.pending
  allocWords := h.allocWords
  rxfDepth := h.rxfDepth
  txf := h.txf
  eps n d := ⟨h.pktcnt n d, h.xfrsiz n d, h.mps n d⟩
  setupcnt := h.setupcnt

theorem FitsIn.fits {c : Config} {s : State} (h : FitsIn c s) : Fits s where
  totalLen n d := (h.recs n d).totalLen
  maxSize n d := (h.recs n d).maxSize
  pending := h.pending
  allocWords := h.allocWords
  rxfDepth := h.rxfDepth
  txf := h.txf
  pktcnt n d := (h.eps n d).pktcnt
  xfrsiz n d := (h.eps n d).xfrsiz
  mps n d := (h.eps n d).mps
  setupcnt := h.setupcnt

/-- What admissible parameters bound (00_scope.md R14, 10_state.md R24). -/
theorem Config.ok_bounds {c : Config} (hc : c.ok = true) :
    c.fifoCapacityWords < 2 ^ 16 ∧ ∀ sp, ep0Mps c sp ≤ 1024 := by
  simp only [Config.ok, Bool.and_eq_true, decide_eq_true_eq] at hc
  obtain ⟨⟨⟨-, hcap⟩, hfull⟩, hhigh⟩ := hc
  refine ⟨by omega, fun sp => ?_⟩
  cases sp
  · exact hfull
  · exact hhigh

/-- Every packet size a speed allows fits a record (00_scope.md R13). -/
theorem ceiling_le (ty : XferType) (sp : Speed) : ceiling ty sp ≤ 1024 := by
  cases ty <;> cases sp <;> decide

/-- A property of every cell is kept by a change of the cells that exist. -/
theorem Both.forall_mapBelow {α : Type} {P : α → Prop} {b : Both (Bank α)} (m : Nat)
    {f : EpNum → α → α} (hb : ∀ (n : EpNum) d, P ((b.get d)[n])) (hf : ∀ n x, P x → P (f n x))
    (n : EpNum) (d : Dir) :
    P (((⟨Bank.mapBelow m f b.out, Bank.mapBelow m f b.inn⟩ : Both (Bank α)).get d)[n]) := by
  have hcell : ∀ v : Bank α, P v[n] → P (Bank.mapBelow m f v)[n] := by
    intro v hv
    rw [Bank.get_mapBelow]
    split
    · exact hf n _ hv
    · exact hv
  cases d with
  | out => exact hcell _ (hb n .out)
  | inn => exact hcell _ (hb n .inn)

variable {c : Config} {s : State}

/-! ## The writes of the shared operations -/

namespace FitsIn

/-- A write to nothing the invariant speaks of but the endpoints' registers. -/
theorem frameEps {t : State} (h : FitsIn c s) (heps : ∀ n d, (t.epAt n d).InWidth)
    (hcfg : t.cfg = s.cfg := by simp)
    (hxfer : t.xfer = s.xfer := by simp) (hpend : t.ep0Pending = s.ep0Pending := by simp)
    (halloc : t.allocWords = s.allocWords := by simp)
    (hrx : t.pi.rxfDepth = s.pi.rxfDepth := by simp) (htxf : t.pi.txf = s.pi.txf := by simp)
    (hsetup : t.pi.setupcnt = s.pi.setupcnt := by simp) : FitsIn c t where
  cfg := hcfg.trans h.cfg
  recs n d := by simpa only [State.recAt, hxfer] using h.recs n d
  pending := by simpa only [hpend] using h.pending
  allocWords := by simpa only [halloc] using h.allocWords
  rxfDepth := by simpa only [hrx] using h.rxfDepth
  txf := by simpa only [htxf] using h.txf
  eps := heps
  setupcnt := by simpa only [hsetup] using h.setupcnt

/-- A write to nothing the invariant speaks of. -/
theorem frame {t : State} (h : FitsIn c s) (hcfg : t.cfg = s.cfg := by simp)
    (hxfer : t.xfer = s.xfer := by simp) (hpend : t.ep0Pending = s.ep0Pending := by simp)
    (halloc : t.allocWords = s.allocWords := by simp)
    (hrx : t.pi.rxfDepth = s.pi.rxfDepth := by simp) (htxf : t.pi.txf = s.pi.txf := by simp)
    (hep : t.pi.ep = s.pi.ep := by simp) (hsetup : t.pi.setupcnt = s.pi.setupcnt := by simp) :
    FitsIn c t :=
  h.frameEps (fun n d => by simpa only [State.epAt, Pi.epAt, hep] using h.eps n d) hcfg hxfer hpend
    halloc hrx htxf hsetup

theorem setRec (h : FitsIn c s) (n : EpNum) (d : Dir) {r : Record} (hr : r.InWidth) :
    FitsIn c (s.setRec n d r) where
  __ := h
  recs m e := by
    rw [recAt_setRec]
    split
    · exact hr
    · exact h.recs m e

theorem setEp (h : FitsIn c s) (n : EpNum) (d : Dir) {r : EpRegs} (hr : r.InWidth) :
    FitsIn c (s.setEp n d r) where
  __ := h
  eps m e := by
    rw [epAt_setEp]
    split
    · exact hr
    · exact h.eps m e

theorem setPending (h : FitsIn c s) (d : Dir) {v : Nat} (hv : v < 2 ^ 16) :
    FitsIn c (s.setPending d v) where
  __ := h
  pending e := by
    simp only [State.setPending_ep0Pending, Both.get_set]
    split
    · exact hv
    · exact h.pending e

theorem setAllocWords (h : FitsIn c s) {v : Nat} (hv : v < 2 ^ 16) :
    FitsIn c (s.setAllocWords v) where
  __ := h
  allocWords := hv

theorem setRxDepth (h : FitsIn c s) {v : Nat} (hv : v < 2 ^ 16) : FitsIn c (s.setRxDepth v) where
  __ := h
  rxfDepth := hv

theorem setTxf (h : FitsIn c s) (n : EpNum) {a k : Nat} (ha : a < 2 ^ 16) (hk : k < 2 ^ 16) :
    FitsIn c (s.setTxf n a k) where
  __ := h
  txf m := by
    simp only [State.setTxf_pi, Bank.get_set]
    split
    · exact ⟨ha, hk⟩
    · exact h.txf m

theorem assignTxFifo (h : FitsIn c s) (n : EpNum) {a k : Nat} (ha : a < 2 ^ 16) (hk : k < 2 ^ 16) :
    FitsIn c (s.assignTxFifo n a k) :=
  (h.setTxf n ha hk).frame

theorem armSize (h : FitsIn c s) (n : EpNum) (d : Dir) {pk by_ : Nat} (hpk : pk < 2 ^ 10)
    (hby : by_ < 2 ^ 19) : FitsIn c (s.armSize n d pk by_) :=
  have hset := h.setEp n d (r := { s.epAt n d with pktcnt := pk, xfrsiz := by_ })
    ⟨hpk, hby, (h.eps n d).mps⟩
  hset.frame

theorem armEnable (h : FitsIn c s) (n : EpNum) (d : Dir) : FitsIn c (s.armEnable n d) :=
  have hset := h.setEp n d (r := { s.epAt n d with stall := false, nak := false, ena := true })
    { h.eps n d with }
  hset.frame

theorem armTxe (h : FitsIn c s) (n : EpNum) (d : Dir) (by_ : Nat) :
    FitsIn c (s.armTxe n d by_) := by
  cases d with
  | out => exact h
  | inn =>
      by_cases hz : by_ = 0
      · rw [hz, armTxe_zero]
        exact h
      · rw [armTxe_in s n by_ hz]
        exact h.frame

theorem arm (h : FitsIn c s) (n : EpNum) (d : Dir) {pk by_ : Nat} (hpk : pk < 2 ^ 10)
    (hby : by_ < 2 ^ 19) : FitsIn c (s.arm n d pk by_) :=
  ((h.armSize n d hpk hby).armEnable n d).armTxe n d by_

theorem signalDone (h : FitsIn c s) (n : EpNum) (d : Dir) (late : Bool) :
    FitsIn c (s.signalDone n d late) :=
  have hset := h.setEp n d (r := { s.epAt n d with xferDone := true }) { h.eps n d with }
  hset.frame

/-- What one push leaves in a transmit endpoint's registers is never more than what they held. -/
theorem pushWord (h : FitsIn c s) (n : EpNum) (w : Word) :
    FitsIn c { s with pi := s.pi.pushWord n w } := by
  by_cases hclose : (s.pi.txq[n].open_ ++ [w]).length =
      wordsFor (min (s.pi.epAt n .inn).xfrsiz (s.pi.epAt n .inn).mps)
  · rw [pushWord_closes s.pi n w _ rfl hclose]
    have hlower (k : Nat) : EpRegs.InWidth
        { s.pi.epAt n .inn with xfrsiz := (s.pi.epAt n .inn).xfrsiz - k } :=
      { h.eps n .inn with
        xfrsiz := Nat.lt_of_le_of_lt (Nat.sub_le _ _) (h.eps n .inn).xfrsiz }
    have hset := h.setEp n .inn (hlower (min (s.pi.epAt n .inn).xfrsiz (s.pi.epAt n .inn).mps))
    exact hset.frame
  · rw [pushWord_open s.pi n w hclose]
    exact h.frame

end FitsIn

/-! ## Actions of the dispatcher's handlers -/

@[simp] theorem IrqRes.state_go (l : IrqLocals) (s : State) : (IrqRes.go l s).state = s := rfl

@[simp] theorem Act.state_ok (s : State) : (Act.ok s).state = s := rfl

@[simp] theorem Act.state_bad (e : FaultCause) (s : State) : (Act.bad e s).state = s := rfl

@[simp] theorem IrqRes.state_ofAct (l : IrqLocals) (a : Act) :
    (IrqRes.ofAct l a).state = a.state := by
  cases a <;> rfl

/-- What must be known before a step of `BringUp`: the later steps write the layout its first step has
found room for (40_fifo_allocator.md R141). -/
def bringUpReady (c : Config) (k : BringUpStep) : Prop :=
  k = .check ∨ bringUpWords c ≤ c.fifoCapacityWords

theorem bringUpWrite_fits (hc : c.ok = true) (h : FitsIn c s) {k : BringUpStep}
    (hk : bringUpReady c k) : FitsIn c (bringUpWrite k s) := by
  rcases hk with rfl | hroom
  · exact h
  · have hcap := (Config.ok_bounds hc).1
    simp only [bringUpWords] at hroom
    cases k with
    | check => exact h
    | rxDepth =>
        refine h.setRxDepth ?_
        rw [h.cfg]
        omega
    | ep0Fifo => refine h.setTxf 0 ?_ ?_ <;> (rw [h.cfg]; omega)
    | count =>
        refine h.setAllocWords ?_
        rw [h.cfg, bringUpWords]
        omega
    | valid => exact h.frame (t := bringUpValid s)

theorem bringUpStep_fits (hc : c.ok = true) (h : FitsIn c s) {k : BringUpStep}
    (hk : bringUpReady c k) : FitsIn c (bringUpStep k s).state := by
  unfold bringUpStep
  split
  · exact h
  · exact bringUpWrite_fits hc h hk

theorem clearRecords_fits (h : FitsIn c s) : FitsIn c (clearRecords s) where
  cfg := by simpa using h.cfg
  recs := Both.forall_mapBelow (P := Record.InWidth) (b := s.xfer) s.cfg.maxEndpoints
    (f := fun _ _ => Record.zero) h.recs fun _ _ _ => ⟨by decide, by decide⟩
  pending d := by cases d <;> simp [Both.get]
  allocWords := by simpa using h.allocWords
  rxfDepth := by simpa using h.rxfDepth
  txf := by simpa using h.txf
  eps n d := by simpa [State.epAt] using h.eps n d
  setupcnt := by simpa using h.setupcnt

theorem setEp0MaxSize_fits (h : FitsIn c s) {m : Nat} (hm : m ≤ 1024) :
    FitsIn c (setEp0MaxSize m s) := by
  have hout := h.setRec 0 .out (r := { s.recAt 0 .out with maxSize := m })
    ⟨(h.recs 0 .out).totalLen, hm⟩
  exact hout.setRec 0 .inn ⟨(hout.recs 0 .inn).totalLen, hm⟩

theorem setEp0Size_fits (hc : c.ok = true) (h : FitsIn c s) (sp : Speed) :
    FitsIn c (setEp0Size sp s) := by
  have hm : ep0Mps s.cfg sp ≤ 1024 := h.cfg ▸ (Config.ok_bounds hc).2 sp
  have hmps (r : EpRegs) (hr : r.InWidth) : { r with mps := ep0Mps s.cfg sp }.InWidth :=
    ⟨hr.pktcnt, hr.xfrsiz, lt_of_le_of_lt hm (by decide)⟩
  have hrec := setEp0MaxSize_fits h hm
  have hout := hrec.setEp 0 .out (hmps _ (hrec.eps 0 .out))
  exact hout.setEp 0 .inn (hmps _ (hout.eps 0 .inn))

theorem nakAll_fits (h : FitsIn c s) : FitsIn c (nakAll s) :=
  h.frameEps <| Both.forall_mapBelow (P := EpRegs.InWidth) (b := s.pi.ep) s.cfg.maxEndpoints
    (f := fun _ r => { r with nak := true }) h.eps fun _ _ hr => { hr with }

theorem rearmSetup_fits (h : FitsIn c s) : FitsIn c (rearmSetup s) where
  __ := h
  setupcnt := by simp

theorem busResetStep_fits (hc : c.ok = true) (h : FitsIn c s) {k : BusResetStep}
    (hk : ∀ b, k = .bringUp b → bringUpReady c b) : FitsIn c (busResetStep k s).state := by
  cases k with
  | clearRecords => exact clearRecords_fits h
  | ep0Size => exact setEp0MaxSize_fits h (by decide)
  | nakAll => exact nakAll_fits h
  | clearTxe => exact h.frame (t := clearTxe s)
  | clearAddr => exact h.frame (t := s.setDevaddr 0)
  | bringUp b => exact bringUpStep_fits hc h (hk b rfl)
  | setupCount => exact rearmSetup_fits h
  | epMasks => exact h.frame (t := resetEpMasks s)
  | srcMasks => exact h.frame (t := unmaskSources s)
  | globalMask => exact h.frame (t := unmaskEndpoints s)
  | busState => exact h.frame (t := s.setBusState .resetInProgress)

theorem handleSignal_fits (h : FitsIn c s) (k : Signal) : FitsIn c (handleSignal k s) := h.frame

theorem ep0Continue_fits (h : FitsIn c s) (d : Dir) : FitsIn c (ep0Continue s d) := by
  have hp := h.pending d
  have hb : ep0Bytes s d ≤ s.ep0Pending.get d := Nat.min_le_left _ _
  by_cases hz : s.ep0Pending.get d = 0
  · rw [ep0Continue_done hz]
    exact h.frame
  · rw [ep0Continue_more hz]
    have htake : FitsIn c (ep0Take s d) := h.setPending d (by omega)
    exact htake.arm 0 d (by decide) (by omega)

theorem transferComplete_fits (h : FitsIn c s) (n : EpNum) (d : Dir) :
    FitsIn c (transferComplete n d s) := by
  have hack := h.setEp n d (r := { s.epAt n d with xferDone := false }) { h.eps n d with }
  unfold transferComplete
  split
  · dsimp only
    split
    · exact hack
    · split
      · exact ep0Continue_fits hack d
      · exact hack.frame
  · exact h

/-! ## The receive drain -/

theorem Act.andThen_fits {a : Act} {f : State → Act} (ha : FitsIn c a.state)
    (hf : ∀ t, FitsIn c t → FitsIn c (f t).state) : FitsIn c (a.andThen f).state := by
  cases a with
  | ok t => exact hf t ha
  | bad e t => exact ha

theorem fifoReadPacket_fits (h : FitsIn c s) (dst : Word) (len : Nat) :
    FitsIn c (fifoReadPacket dst len s).state := by
  unfold fifoReadPacket
  dsimp only
  split <;> exact h.frame

/-- The trims only lower the recorded length (44_dispatcher.md R234). -/
theorem shortPacketTrim_fits (h : FitsIn c s) (n : EpNum) :
    FitsIn c (shortPacketTrim n s).state := by
  have hlower {t : State} (ht : FitsIn c t) (m : EpNum) (k : Nat) :
      FitsIn c (t.setRec m .out
        { t.recAt m .out with totalLen := (t.recAt m .out).totalLen - k }) :=
    ht.setRec m .out ⟨Nat.lt_of_le_of_lt (Nat.sub_le _ _) (ht.recs m .out).totalLen,
      (ht.recs m .out).maxSize⟩
  have hleft := hlower h n (s.epAt n .out).xfrsiz
  unfold shortPacketTrim
  dsimp only
  split
  · exact h
  · split
    · split
      · exact hleft
      · exact (hlower hleft 0 _).setPending .out (by decide)
    · exact hleft

theorem rxOutData_fits (h : FitsIn c s) (n : EpNum) (bcnt : Nat) :
    FitsIn c (rxOutData n bcnt s).state := by
  unfold rxOutData
  split
  · exact h
  · refine Act.andThen_fits (fifoReadPacket_fits h _ bcnt) fun t ht => ?_
    have hcursor := ht.setRec n .out (r := { t.recAt n .out with
      buffer := (t.recAt n .out).buffer + BitVec.ofNat 32 bcnt }) { ht.recs n .out with }
    dsimp only
    split
    · exact shortPacketTrim_fits hcursor n
    · exact hcursor

theorem rxOutDone_fits (h : FitsIn c s) (n : EpNum) : FitsIn c (rxOutDone n s) := by
  unfold rxOutDone
  split
  · exact h
  · exact (h.signalDone n .out (s.env.lateEntries[n] != 0)).frame

/-- A pop takes a word from the queue and nothing else. -/
theorem rxPop_fits (h : FitsIn c s) {w : Word} {t : State} (hp : s.rxPop = some (w, t)) :
    FitsIn c t := by
  cases hq : s.pi.rxq with
  | nil => simp [rxPop_empty hq] at hp
  | cons x xs =>
      simp only [rxPop_cons hq, Option.some.injEq, Prod.mk.injEq] at hp
      obtain ⟨-, rfl⟩ := hp
      exact h.frame

theorem rxSetupData_fits (h : FitsIn c s) : FitsIn c (rxSetupData s).state := by
  unfold rxSetupData
  split
  · exact h
  · next w0 s1 hp =>
      have h1 : FitsIn c { s1 with setupBuf0 := w0 } := (rxPop_fits h hp).frame
      dsimp only
      split
      · exact h1
      · next w1 s2 hp2 => exact (rxPop_fits h1 hp2).frame

theorem drainEntry_fits (h : FitsIn c s) : FitsIn c (drainEntry s).state := by
  unfold drainEntry
  split
  · exact h
  · next sw s1 hp =>
      have h1 := rxPop_fits h hp
      split
      · exact h1.frame
      · exact rxOutData_fits h1 _ _
      · exact rxOutDone_fits h1 _
      · exact (rearmSetup_fits h1).frame (t := rxSetupDone s1)
      · exact rxSetupData_fits h1
      · exact h1

theorem outSetupPhase_fits (h : FitsIn c s) (n : EpNum) : FitsIn c (outSetupPhase n s) := by
  unfold outSetupPhase
  split
  · exact h.frame
  · exact h

/-! ## The FIFO-empty handler -/

theorem feedEnd_fits (h : FitsIn c s) (n : EpNum) : FitsIn c (feedEnd n s) := by
  unfold feedEnd
  split
  · exact h.frame
  · exact h

theorem txPushAll_fits (n : EpNum) (ws : List Word) (h : FitsIn c s) :
    FitsIn c (txPushAll n ws s).state := by
  induction ws generalizing s with
  | nil => exact h
  | cons w ws ih =>
      refine Act.andThen_fits ?_ fun t ht => ih ht
      by_cases hfull : txFree s.pi n = 0
      · rw [txPush_full w hfull]
        exact h
      · rw [txPush_room w hfull]
        exact h.pushWord n w

/-- The state one evaluation of the FIFO-empty loop leaves. -/
def Feed.state (s : State) : Feed → State
  | .stop => s
  | .pushed t => t
  | .bad _ t => t

theorem feedStep_fits (h : FitsIn c s) (n : EpNum) : FitsIn c ((feedStep n s).state s) := by
  have hwrite := txPushAll_fits n (packWords (memReadBytes s.mem (s.recAt n .inn).buffer
    (min (s.epAt n .inn).xfrsiz (s.recAt n .inn).maxSize))) h
  unfold feedStep
  dsimp only
  split
  · exact h
  · split
    · exact h
    · split
      · exact h
      · split
        · next e t ht =>
            rw [← fifoWritePacket, ht] at hwrite
            exact hwrite
        · next t ht =>
            rw [← fifoWritePacket, ht] at hwrite
            exact hwrite.setRec n .inn { hwrite.recs n .inn with }

/-! ## The steps of a run -/

/-- What the steps before it have established for a step of a run. -/
def IrqOp.Ready (c : Config) : IrqOp → Prop
  | .busReset (.bringUp k) => bringUpReady c k
  | _ => True

theorem irqStep_fits (hc : c.ok = true) (h : FitsIn c s) {op : IrqOp} (hop : op.Ready c)
    (l : IrqLocals) : FitsIn c (irqStep op l s).state := by
  cases op with
  | ack e => exact h.frame (t := s.ackGlobal e)
  | busReset k =>
      rw [irqStep, IrqRes.state_ofAct]
      exact busResetStep_fits hc h fun b hb => by subst hb; exact hop
  | readSpeed => exact h
  | setTurnaround => exact h.frame (t := setTurnaround l.speed s)
  | setEp0Size => exact setEp0Size_fits hc h _
  | emitBusReset => exact h.frame (t := s.emit (.busReset l.speed))
  | setEnumerating => exact h.frame (t := s.setBusState .enumerating)
  | signal k => exact handleSignal_fits h k
  | drainMask => exact h.frame (t := setRxneMask false s)
  | drainLoop =>
      have hentry := drainEntry_fits h
      simp only [irqStep]
      split
      · exact h
      · split <;> (next t ht => rw [ht] at hentry; exact hentry)
  | drainUnmask => exact h.frame (t := setRxneMask true s)
  | outSetup n =>
      simp only [irqStep, IrqRes.state_go]
      split
      · exact outSetupPhase_fits h n
      · exact h
  | outDone n =>
      simp only [irqStep, IrqRes.state_go]
      split
      · exact transferComplete_fits h n .out
      · exact h
  | inDone n =>
      simp only [irqStep, IrqRes.state_go]
      split
      · exact transferComplete_fits h n .inn
      · exact h
  | inTest n => exact h
  | inFeed n =>
      have hfeed := feedStep_fits h n
      simp only [irqStep]
      split
      · split <;> (next ht => rw [ht] at hfeed; exact hfeed)
      · exact h
  | inFeedEnd n =>
      simp only [irqStep, IrqRes.state_go]
      split
      · exact feedEnd_fits h n
      · exact h

theorem repeatStep_fits (hc : c.ok = true) (h : FitsIn c s) {op : IrqOp} (hop : op.Ready c)
    (k : Nat) (l : IrqLocals) : FitsIn c (repeatStep k op l s).state := by
  induction k generalizing l s with
  | zero => exact h
  | succ k ih =>
      have hstep := irqStep_fits hc h hop l
      cases hr : irqStep op l s with
      | go l1 s1 =>
          rw [repeatStep_go hr, ← hr]
          exact hstep
      | again l1 s1 =>
          rw [hr] at hstep
          rw [repeatStep_again hr]
          exact ih hstep l1
      | bad e s1 =>
          rw [repeatStep_bad hr, ← hr]
          exact hstep

/-! ## A run with nothing in between -/

/-- The state a run leaves, however it ends. -/
def IrqRun.state : IrqRun → State
  | .done s => s
  | .held _ _ s => s
  | .bad _ _ _ s => s

/-- Steps that are ready keep the widths up to the step after them. -/
theorem runOps_append_fits (hc : c.ok = true) {pre rest : List IrqOp}
    (hpre : ∀ op ∈ pre, op.Ready c)
    (hrest : ∀ l t, FitsIn c t → FitsIn c (runOps rest l t).state) (h : FitsIn c s) (l : IrqLocals) :
    FitsIn c (runOps (pre ++ rest) l s).state := by
  induction pre generalizing l s with
  | nil => exact hrest l s h
  | cons op ops ih =>
      have hstep := repeatStep_fits hc h (hpre op List.mem_cons_self) (repeatBound op s) l
      simp only [List.cons_append, runOps]
      split
      · next hr =>
          rw [hr] at hstep
          exact ih (fun o ho => hpre o (List.mem_cons_of_mem op ho)) hstep _
      · next hr => rw [hr] at hstep; exact hstep
      · next hr => rw [hr] at hstep; exact hstep

theorem runOps_fits (hc : c.ok = true) {ops : List IrqOp} (hops : ∀ op ∈ ops, op.Ready c)
    (h : FitsIn c s) (l : IrqLocals) : FitsIn c (runOps ops l s).state := by
  simpa using runOps_append_fits hc hops (rest := []) (fun _ _ ht => ht) h l

/-- With room for the bring-up layout no step of a run is in doubt. -/
theorem IrqOp.ready_of_room (hroom : bringUpWords c ≤ c.fifoCapacityWords) (op : IrqOp) :
    op.Ready c := by
  unfold IrqOp.Ready
  split
  · exact .inr hroom
  · trivial

/-- Only a latched bus reset brings the FIFO layout into a run. -/
theorem IrqOp.ready_of_no_reset {latched : GlobalBits} {m : Nat} (hl : latched.reset = false)
    {op : IrqOp} (hop : op ∈ dispatchOps latched m) : op.Ready c := by
  unfold IrqOp.Ready
  split
  · simp [dispatchOps, hl] at hop
  · trivial

theorem dispatchRun_fits (hc : c.ok = true) (h : FitsIn c s) : FitsIn c (dispatchRun s).state := by
  unfold dispatchRun
  by_cases hroom : bringUpWords c ≤ c.fifoCapacityWords
  · exact runOps_fits hc (fun op _ => op.ready_of_room hroom) h {}
  · cases hl : s.pending.reset with
    | false => exact runOps_fits hc (fun op hop => op.ready_of_no_reset hl hop) h {}
    | true =>
        have hops : ∃ rest, dispatchOps s.pending s.cfg.maxEndpoints =
            [.ack .reset, .busReset .clearRecords, .busReset .ep0Size, .busReset .nakAll,
              .busReset .clearTxe, .busReset .clearAddr] ++ .busReset (.bringUp .check) :: rest := by
          simp only [dispatchOps, hl, if_true]
          exact ⟨_, rfl⟩
        obtain ⟨rest, hrest⟩ := hops
        rw [hrest]
        refine runOps_append_fits hc (by simp [IrqOp.Ready]) (fun l t ht => ?_) h {}
        have hfault : irqStep (.busReset (.bringUp .check)) l t = .bad .fifoOverflow t := by
          have hover : t.cfg.fifoCapacityWords < bringUpWords t.cfg := by rw [ht.cfg]; omega
          simp only [irqStep, busResetStep, bringUpStep_bad hover, IrqRes.ofAct]
        rw [runOps_bad hfault]
        exact ht

end Sys2Proof.Machine
end

section
/-! The width invariant, kept by a command run whole (00_scope.md R14, 41_endpoint_ops.md R199). -/

namespace Sys2Proof.Machine

open Sys2Proof

variable {c : Config} {s : State} {l : CmdLocals}

/-! ## The layout CFG_ALLOC commits stays within the capacity (40_fifo_allocator.md R153 to R158) -/

/-- The depths of IN endpoints are their base words and one share for each eligible one. -/
theorem sum_depthIn (c : Config) (t : List DemandEntry) (ns : List EpNum) :
    (ns.map (depthIn c t)).sum =
      (ns.map (baseIn t)).sum + (ns.filter (eligible t)).length * spareShare c t := by
  induction ns with
  | nil => simp
  | cons n ns ih =>
      cases he : eligible t n
      · simp [depthIn, he, ih]
        omega
      · simp [depthIn, he, ih, Nat.add_mul]
        omega

/-- The shares together are no more than the words left over. -/
theorem shares_le_spare (c : Config) (t : List DemandEntry) :
    ((presentIn c t).filter (eligible t)).length * spareShare c t ≤
      c.fifoCapacityWords - planDemand c t := by
  unfold spareShare
  dsimp only
  split
  · next hz => simp [hz]
  · exact Nat.mul_div_le _ _

theorem txEnd_le {t : List DemandEntry} (h : planDemand c t ≤ c.fifoCapacityWords) :
    txEnd c t ≤ c.fifoCapacityWords := by
  have hspare := shares_le_spare c t
  unfold txEnd
  rw [sum_depthIn]
  unfold planDemand at h hspare
  omega

/-- The lines of the commit loop that assign a FIFO are those of the present IN endpoints. -/
theorem filter_present_allocPlan (c : Config) (t : List DemandEntry) :
    ((endpoints c.maxEndpoints).filter (fun n => n != 0)).filter
      (fun n => (allocPlan c t).present[n]) = presentIn c t := by
  rw [List.filter_filter, presentIn]
  refine List.filter_congr fun n hn => ?_
  have hlt := (mem_endpoints _ n).mp hn
  by_cases hz : n = 0 <;> simp [allocPlan, demandPresent, hz, hlt]

/-! ## The steps of a command -/

/-- What the steps before it have established for a step of a command that starts with these locals. -/
def CmdOp.Ready (c : Config) (l : CmdLocals) : CmdOp → Prop
  | .bringUp k => bringUpReady c k
  | .openSize _ _ mps => mps ≤ 1024
  | .openProgram _ _ _ mps => mps ≤ 1024
  | .xferRecord _ _ _ length => length < 2 ^ 16
  | .ep0Pending _ length => length < 2 ^ 16
  | .armSize _ _ => l.pk < 2 ^ 10 ∧ l.by_ < 2 ^ 19
  | .commitRx => l.plan.rx ≤ c.fifoCapacityWords
  | .commitEp0 => l.next + c.ep0TxWords ≤ c.fifoCapacityWords
  | .commitEp n => l.plan.present[n] = true → l.next + l.plan.depth[n] ≤ c.fifoCapacityWords
  | .commitCount => l.next ≤ c.fifoCapacityWords
  | _ => True

/-- A property of the state a numbered step leaves, faulting or not. -/
def CmdRes.Leaves (P : State → Prop) : CmdRes → Prop
  | .go _ s => P s
  | .hold _ s => P s
  | .respond _ s => P s
  | .raise _ s => P s
  | .enter s => P s
  | .refuse _ => True

theorem CmdRes.leaves_ofAct {P : State → Prop} {a : Act} (h : P a.state) :
    (CmdRes.ofAct l a).Leaves P := by
  cases a <;> exact h

theorem waitFor_leaves {P : State → Prop} (h : P s) (b : Bool) : (waitFor b l s).Leaves P := by
  unfold waitFor
  repeat' split
  all_goals exact h

theorem initHolds_fits (h : FitsIn c s) : FitsIn c (initHolds s) :=
  h.frameEps <| Both.forall_mapBelow (P := EpRegs.InWidth) (b := s.pi.ep) s.cfg.maxEndpoints
    (f := fun _ r => { r with stall := false, nak := true }) h.eps fun _ _ hr => { hr with }

theorem initBlock_fits (h : FitsIn c s) : FitsIn c (initBlock s) :=
  clearRecords_fits { h with allocWords := show 0 < 2 ^ 16 by decide }

theorem txBindFifo_fits (hc : c.ok = true) (h : FitsIn c s) (n : EpNum) (mps : Nat) :
    FitsIn c (txBindFifo n mps s).state := by
  have hcap := (Config.ok_bounds hc).1
  unfold txBindFifo
  dsimp only
  split
  · split <;> exact h
  · split
    · exact h
    · next hroom =>
        rw [h.cfg] at hroom
        exact (h.assignTxFifo n h.allocWords (by omega)).setAllocWords (by omega)

theorem commitEndpoint_fits (hc : c.ok = true) (h : FitsIn c s) {p : AllocPlan} {n : EpNum}
    {a : Nat} (ha : p.present[n] = true → a + p.depth[n] ≤ c.fifoCapacityWords) :
    FitsIn c (commitEndpoint p n a s).1 := by
  have hcap := (Config.ok_bounds hc).1
  unfold commitEndpoint
  split
  · next hp =>
      have hroom := ha hp
      exact h.assignTxFifo n (by omega) (by omega)
  · exact h.frame

/-- A numbered step that is ready keeps the widths, however it ends. -/
theorem cmdStep_fits (hc : c.ok = true) (h : FitsIn c s) {op : CmdOp} (hop : op.Ready c l) :
    (cmdStep op l s).Leaves (FitsIn c) := by
  have hcap := (Config.ok_bounds hc).1
  cases op with
  | checkEp n => simp only [cmdStep]; split <;> exact h
  | respondOk => exact h
  | initBlock => exact initBlock_fits h
  | initMaskAll => exact h.frame (t := initMaskAll s)
  | initDisconnect => exact h.frame (t := s.setSoftdisc true)
  | initMasks => exact h.frame (t := initMasks s)
  | initHolds => exact initHolds_fits h
  | initAddr => exact h.frame (t := s.setDevaddr 0)
  | bringUp k => exact CmdRes.leaves_ofAct (bringUpStep_fits hc h hop)
  | initAck => exact h.frame (t := initAck s)
  | initUnmask => exact h.frame (t := initUnmask s)
  | softDisconnect v => exact h.frame (t := softDisconnect v s)
  | busDisconnected => exact h.frame (t := s.setBusState .disconnected)
  | setAddr a => exact h.frame (t := s.setDevaddr a)
  | setIrqEn v => exact h.frame (t := setIrqEn v s)
  | runDispatcher => exact h
  | openCeiling ty mps => simp only [cmdStep]; split <;> exact h
  | openSize n d mps => exact h.setRec n d ⟨(h.recs n d).totalLen, hop⟩
  | openProgram n d ty mps =>
      exact h.setEp n d { h.eps n d with mps := Nat.lt_of_le_of_lt hop (by decide) }
  | txBindFifo n mps => exact CmdRes.leaves_ofAct (txBindFifo_fits hc h n mps)
  | txBindNum n => exact h.frame (t := txBindNum n s)
  | openEpint n d => exact h.frame (t := s.setEpint n d true)
  | openRespond n => exact h.frame (t := openBusState n s)
  | closeActive n d =>
      have hset := h.setEp n d (r := { s.epAt n d with active := false }) { h.eps n d with }
      exact hset.frame (t := closeActive n d s)
  | closeEpint n d => exact h.frame (t := s.setEpint n d false)
  | xferCheck n d length =>
      simp only [cmdStep, xferCheck]
      split
      · exact h
      · split <;> exact h
  | xferRecord n d buffer length =>
      simp only [cmdStep, xferRecord]
      split
      · trivial
      · have hrec := h.setRec n d (r := { s.recAt n d with buffer := buffer, totalLen := length })
          ⟨hop, (h.recs n d).maxSize⟩
        exact hrec.frame (t := startFlight n d _)
  | ep0Pending d length => exact h.setPending d hop
  | ep0Take d =>
      exact h.setPending d (Nat.lt_of_le_of_lt (Nat.sub_le _ _) (h.pending d))
  | armSize n d => exact h.armSize n d hop.1 hop.2
  | armEnable n d => exact h.armEnable n d
  | armTxe n d => exact h.armTxe n d l.by_
  | stallTest n d => exact h
  | stallIdle n d =>
      have hset := h.setEp n d (r := { s.epAt n d with nak := true, stall := true })
        { h.eps n d with }
      simp only [cmdStep]
      split
      · exact hset.frame (t := stallIdle n d s)
      · exact h
  | stallNak n d =>
      have hset := h.setEp n d (r := { s.epAt n d with nak := true }) { h.eps n d with }
      exact hset.frame (t := stallNak n d s)
  | stallWaitNak n d => exact waitFor_leaves h _
  | stallAckNak n d => exact h.setEp n d { h.eps n d with }
  | stallDisable n d =>
      have hset := h.setEp n d (r := { s.epAt n d with disreq := true, stall := true })
        { h.eps n d with }
      exact hset.frame (t := stallDisable n d s)
  | stallFlush n => exact h.frame (t := stallFlush n s)
  | stallWaitFlush => exact waitFor_leaves h _
  | clearTest n d => simp only [cmdStep]; split <;> exact h
  | clearBit n d => exact h.setEp n d { h.eps n d with }
  | clearToggle n d =>
      simp only [cmdStep, CmdRes.Leaves, clearToggle]
      split
      · exact h
      · exact h
      · exact h.setEp n d { h.eps n d with }
      · exact h.setEp n d { h.eps n d with }
  | cfgBegin =>
      simp only [cmdStep]
      split
      · exact h
      · trivial
  | cfgRead table count => simp only [cmdStep, cfgRead]; split <;> exact h
  | cfgPlan => exact h
  | cfgCapacity => simp only [cmdStep, cfgCapacity]; split <;> exact h
  | commitStart => exact h
  | commitRx => exact h.setRxDepth (Nat.lt_of_le_of_lt hop hcap)
  | commitEp0 =>
      simp only [CmdOp.Ready] at hop
      exact h.assignTxFifo 0 (by omega) (by rw [h.cfg]; omega)
  | commitEp n => exact commitEndpoint_fits hc h hop
  | commitCount => exact h.setAllocWords (Nat.lt_of_le_of_lt hop hcap)
  | cfgRespond => exact h.frame (t := cfgBusState s)

/-! ## A command with nothing in between -/

/-- Whatever state the rest of the command ends in, its quantities fit. -/
def RunFits (c : Config) (i : Instr) (todo : List CmdOp) (l : CmdLocals) (s : State) : Prop :=
  ∀ t, runCmd i todo l s = .next t → FitsIn c t

variable {i : Instr} {op : CmdOp} {rest : List CmdOp}

/-- A ready step, and what is left after it: after a step that completes, and after the dispatcher run
that is the step of IRQ_ENTRY. -/
theorem runFits_step (hc : c.ok = true) (h : FitsIn c s) (hop : op.Ready c l)
    (hgo : ∀ l1 s1, cmdStep op l s = .go l1 s1 → FitsIn c s1 → RunFits c i rest l1 s1)
    (henter : op = .runDispatcher → ∀ s1, FitsIn c s1 → RunFits c i rest l s1) :
    RunFits c i (op :: rest) l s := by
  have hstep := cmdStep_fits hc h hop
  intro t ht
  cases hr : cmdStep op l s with
  | go l1 s1 =>
      rw [hr] at hstep
      rw [runCmd_go hr] at ht
      exact hgo l1 s1 hr hstep t ht
  | hold l1 s1 =>
      rw [hr] at hstep
      rw [runCmd_hold hr] at ht
      cases ht
      exact FitsIn.frame (s := s1) hstep
  | respond r s1 =>
      rw [hr] at hstep
      rw [runCmd_respond hr] at ht
      cases ht
      exact FitsIn.frame (s := s1) hstep
  | raise f s1 =>
      rw [hr] at hstep
      rw [runCmd_raise hr] at ht
      cases ht
      exact FitsIn.frame (s := s1) hstep
  | refuse r =>
      rw [runCmd_refuse hr] at ht
      cases ht
  | enter s1 =>
      rw [hr] at hstep
      have hrun := dispatchRun_fits hc
        (FitsIn.frame (s := s1) (t := { s1 with irqDue := false }) hstep)
      simp only [runCmd, hr] at ht
      split at ht
      · next s2 hs2 =>
          rw [hs2] at hrun
          exact henter (cmdStep_enter_iff.mp ⟨s1, hr⟩) s2 hrun t ht
      · next s2 hs2 =>
          rw [hs2] at hrun
          cases ht
          exact FitsIn.frame (s := s2) hrun
      · next s2 hs2 =>
          rw [hs2] at hrun
          cases ht
          exact FitsIn.frame (s := s2) hrun

/-- A ready step of a command other than IRQ_ENTRY. -/
theorem runFits_cons (hc : c.ok = true) (h : FitsIn c s) (hop : op.Ready c l)
    (hgo : ∀ l1 s1, cmdStep op l s = .go l1 s1 → FitsIn c s1 → RunFits c i rest l1 s1)
    (hne : op ≠ .runDispatcher := by simp) : RunFits c i (op :: rest) l s :=
  runFits_step hc h hop hgo fun he => absurd he hne

theorem runFits_nil (h : FitsIn c s) : RunFits c i [] l s := by
  intro t ht
  cases ht
  exact h.frame

/-- Steps that are ready whatever the locals are keep the widths up to the step after them. -/
theorem runFits_append (hc : c.ok = true) {pre : List CmdOp} (h : FitsIn c s)
    (hpre : ∀ op ∈ pre, ∀ l1, op.Ready c l1)
    (hrest : ∀ l1 s1, FitsIn c s1 → RunFits c i rest l1 s1) : RunFits c i (pre ++ rest) l s := by
  induction pre generalizing l s with
  | nil => exact hrest l s h
  | cons op ops ih =>
      have htail {l1 s1} (h1 : FitsIn c s1) : RunFits c i (ops ++ rest) l1 s1 :=
        ih h1 fun o ho => hpre o (List.mem_cons_of_mem op ho)
      exact runFits_step hc h (hpre op List.mem_cons_self l) (fun _ _ _ h1 => htail h1)
        fun _ _ h1 => htail h1

theorem runFits_all (hc : c.ok = true) {ops : List CmdOp} (h : FitsIn c s)
    (hops : ∀ op ∈ ops, ∀ l1, op.Ready c l1) : RunFits c i ops l s := by
  simpa using runFits_append (rest := []) hc h hops fun _ _ h1 => runFits_nil h1

/-! ## The commands -/

/-- INIT writes the bring-up layout only when its check has found room for it. -/
theorem runFits_init (hc : c.ok = true) (h : FitsIn c s) : RunFits c .init initOps l s := by
  refine runFits_append (pre := [.initBlock, .initMaskAll, .initDisconnect, .initMasks, .initHolds,
    .initAddr]) hc h (by simp [CmdOp.Ready]) fun l1 s1 h1 => ?_
  refine runFits_cons hc h1 (.inl rfl) fun l2 s2 hgo h2 => runFits_all hc h2 ?_
  have hroom : bringUpWords c ≤ c.fifoCapacityWords := by
    by_contra hover
    have hs : s1.cfg.fifoCapacityWords < bringUpWords s1.cfg := by rw [h1.cfg]; omega
    simp [cmdStep, bringUpStep_bad hs, CmdRes.ofAct] at hgo
  simp [CmdOp.Ready, bringUpReady, hroom]

/-- OPEN writes a packet size only when it is below the ceiling of its type. -/
theorem runFits_open (hc : c.ok = true) (h : FitsIn c s) (n : EpNum) (d : Dir) (ty : XferType)
    (mps : Nat) : RunFits c i (openOps n d ty mps) l s := by
  refine runFits_cons hc h trivial fun l1 s1 _ h1 => ?_
  refine runFits_cons hc h1 trivial fun l2 s2 hgo h2 => runFits_all hc h2 ?_
  have hmps : mps ≤ 1024 := by
    by_contra hbig
    have hover : mps > ceiling ty s1.pi.speed := by have := ceiling_le ty s1.pi.speed; omega
    simp [cmdStep, hover] at hgo
  cases d <;> simp [CmdOp.Ready, hmps]

/-- XFER arms what its check has counted, and endpoint 0 one packet of what is pending. -/
theorem runFits_xfer (hc : c.ok = true) (h : FitsIn c s) (n : EpNum) (d : Dir) (buffer : Word)
    {length : Nat} (hlen : length < 2 ^ 16) : RunFits c i (xferOps n d buffer length) l s := by
  have harm {l1 : CmdLocals} {s1 : State} (h1 : FitsIn c s1) (hpk : l1.pk < 2 ^ 10)
      (hby : l1.by_ < 2 ^ 19) : RunFits c i (armOps n d ++ [.respondOk]) l1 s1 :=
    runFits_cons hc h1 ⟨hpk, hby⟩ fun _ _ _ h2 => runFits_all hc h2 (by simp [CmdOp.Ready])
  refine runFits_cons hc h trivial fun l1 s1 _ h1 => ?_
  refine runFits_cons hc h1 trivial fun l2 s2 hcheck h2 => ?_
  refine runFits_cons hc h2 hlen fun l3 s3 hrec h3 => ?_
  have hl3 : l3 = l2 := by
    simp only [cmdStep, xferRecord] at hrec
    split at hrec <;> cases hrec
    rfl
  subst hl3
  by_cases hn : n = 0
  · subst hn
    refine runFits_cons hc h3 hlen fun l4 s4 _ h4 => ?_
    refine runFits_cons hc h4 trivial fun l5 s5 htake h5 => ?_
    have hby : l5.by_ ≤ s4.ep0Pending.get d := by
      cases htake
      exact Nat.min_le_left _ _
    have hpk : l5.pk = 1 := by
      cases htake
      rfl
    have := h4.pending d
    exact harm h5 (by omega) (by omega)
  · rw [if_neg hn]
    simp only [cmdStep, xferCheck] at hcheck
    split at hcheck
    · cases hcheck
    · split at hcheck
      · cases hcheck
      · next hfew =>
          cases hcheck
          have hpk : packetCount length (s1.recAt n d).maxSize ≤ maxPktcnt :=
            Nat.le_of_not_gt fun hbig => hfew ⟨hn, hbig⟩
          exact harm h3 (Nat.lt_of_le_of_lt hpk (by decide)) (Nat.lt_trans hlen (by decide))

/-- The commit loop gives each present endpoint its depth and goes past no more than these depths. -/
theorem runFits_commit (hc : c.ok = true) (ns : List EpNum) (h : FitsIn c s)
    (hsum : l.next + ((ns.filter fun n => l.plan.present[n]).map fun n => l.plan.depth[n]).sum ≤
      c.fifoCapacityWords)
    (hrest : ∀ l1 s1, l1.next ≤ c.fifoCapacityWords → FitsIn c s1 → RunFits c i rest l1 s1) :
    RunFits c i (ns.map CmdOp.commitEp ++ rest) l s := by
  induction ns generalizing l s with
  | nil => exact hrest l s (by simpa using hsum) h
  | cons n ns ih =>
      cases hp : l.plan.present[n] with
      | true =>
          simp only [List.filter_cons, hp, if_true, List.map_cons, List.sum_cons] at hsum
          refine runFits_cons hc h (fun _ => by omega) fun l1 s1 hgo h1 => ih h1 ?_
          simp only [cmdStep, commitEpStep, commitEndpoint, hp, if_true] at hgo
          cases hgo
          dsimp only
          omega
      | false =>
          simp only [List.filter_cons, hp, Bool.false_eq_true, if_false] at hsum
          refine runFits_cons hc h (fun ht => by simp [hp] at ht) fun l1 s1 hgo h1 => ih h1 ?_
          simp only [cmdStep, commitEpStep, commitEndpoint, hp] at hgo
          cases hgo
          exact hsum

/-- The commit of a layout whose demand the capacity test has passed (40_fifo_allocator.md R158). -/
theorem runFits_commitLayout (hc : c.ok = true) (h : FitsIn c s) {t : List DemandEntry}
    (hplan : l.plan = allocPlan c t) (hdemand : planDemand c t ≤ c.fifoCapacityWords) :
    RunFits c i (.commitStart :: .commitRx :: .commitEp0 ::
      (((endpoints c.maxEndpoints).filter (fun n => n != 0)).map CmdOp.commitEp ++
        [.commitCount, .cfgRespond])) l s := by
  have hend := txEnd_le hdemand
  have hrx : (allocPlan c t).rx = planRx c t := rfl
  unfold txEnd at hend
  refine runFits_cons hc h trivial fun l1 s1 hstart h1 => ?_
  have hl1 : l1 = { l with next := (allocPlan c t).rx } := by
    cases hstart
    rw [hplan]
  refine runFits_cons hc h1 (by simp only [CmdOp.Ready, hl1, hplan]; omega)
    fun l2 s2 hcommit h2 => ?_
  have hl2 : l2 = l1 := by
    cases hcommit
    rfl
  refine runFits_cons hc h2 (by simp only [CmdOp.Ready, hl2, hl1]; omega) fun l3 s3 hep0 h3 => ?_
  have hl3 : l3 = { l with next := planRx c t + c.ep0TxWords } := by
    simp only [cmdStep, commitEp0, h2.cfg, hl2, hl1] at hep0
    cases hep0
    rfl
  refine runFits_commit hc _ h3 ?_ fun l4 s4 hnext h4 =>
    runFits_cons hc h4 hnext fun _ _ _ h5 => runFits_all hc h5 (by simp [CmdOp.Ready])
  simp only [hl3, hplan, filter_present_allocPlan]
  simpa [allocPlan] using hend

/-- CFG_ALLOC commits only a layout whose demand it has found room for. -/
theorem runFits_cfgAlloc (hc : c.ok = true) (h : FitsIn c s) (table : Word) (count : Nat) :
    RunFits c i (cfgAllocOps c.maxEndpoints table count) l s := by
  simp only [cfgAllocOps, List.cons_append, List.nil_append]
  refine runFits_cons hc h trivial fun l1 s1 _ h1 => ?_
  refine runFits_cons hc h1 trivial fun l2 s2 _ h2 => ?_
  refine runFits_cons hc h2 trivial fun l3 s3 hplan h3 => ?_
  refine runFits_cons hc h3 trivial fun l4 s4 hcapacity h4 => ?_
  have hl3 : l3.plan = allocPlan c l3.entries := by
    simp only [cmdStep, h2.cfg] at hplan
    cases hplan
    rfl
  simp only [cmdStep, cfgCapacity, h3.cfg] at hcapacity
  split at hcapacity
  · cases hcapacity
  · next hdemand =>
      cases hcapacity
      exact runFits_commitLayout hc h4 hl3 (Nat.le_of_not_gt hdemand)

/-- Every well-formed command keeps the widths from its first step on. -/
theorem runFits_opsOf (hc : c.ok = true) (h : FitsIn c s) (hi : i.wellFormed = true) :
    RunFits c i (opsOf c.maxEndpoints i) l s := by
  cases i with
  | init => exact runFits_init hc h
  | connect => exact runFits_all hc h (by simp [opsOf, connectOps, CmdOp.Ready])
  | disconnect => exact runFits_all hc h (by simp [opsOf, disconnectOps, CmdOp.Ready])
  | setAddress a => exact runFits_all hc h (by simp [opsOf, setAddressOps, CmdOp.Ready])
  | remoteWakeup => exact runFits_all hc h (by simp [opsOf, remoteWakeupOps, CmdOp.Ready])
  | irqEnable => exact runFits_all hc h (by simp [opsOf, irqEnableOps, CmdOp.Ready])
  | irqDisable => exact runFits_all hc h (by simp [opsOf, irqDisableOps, CmdOp.Ready])
  | irqEntry => exact runFits_all hc h (by simp [opsOf, irqEntryOps, CmdOp.Ready])
  | openEp n d ty mps => exact runFits_open hc h n d ty mps
  | closeEp n d => exact runFits_all hc h (by simp [opsOf, closeOps, CmdOp.Ready])
  | xfer n d buffer length => exact runFits_xfer hc h n d buffer (of_decide_eq_true hi)
  | stall n d => exact runFits_all hc h (by cases d <;> simp [opsOf, stallOps, CmdOp.Ready])
  | clearStall n d => exact runFits_all hc h (by simp [opsOf, clearStallOps, CmdOp.Ready])
  | cfgAlloc table count => exact runFits_cfgAlloc hc h table count
  | reservedE high low => exact runFits_nil h
  | reservedF high low => exact runFits_nil h

theorem exec_fits (hc : c.ok = true) (h : FitsIn c s) (hi : i.wellFormed = true) {t : State}
    (ht : exec i s = .next t) : FitsIn c t := by
  cases ha : s.accepts with
  | false =>
      rw [exec_busy ha] at ht
      cases ht
      exact h
  | true =>
      by_cases hops : opsOf s.cfg.maxEndpoints i = []
      · rw [exec_without_steps hops, illegalCommand_accepted ha] at ht
        cases ht
        exact h.frame
      · rw [exec_with_steps hops, runCommand_accepted ha, h.cfg] at ht
        exact runFits_opsOf hc h hi t ht

/-- A dispatcher run taken whole keeps the widths. -/
theorem runInterrupt_fits (hc : c.ok = true) (h : FitsIn c s) : FitsIn c (runInterrupt s) := by
  have hrun := dispatchRun_fits hc (h.frame (t := { s with irqDue := false }))
  unfold runInterrupt
  split
  · split
    · next s1 hs1 => rw [hs1] at hrun; exact hrun
    · next s1 hs1 => rw [hs1] at hrun; exact FitsIn.frame (s := s1) hrun
    · next s1 hs1 => rw [hs1] at hrun; exact FitsIn.frame (s := s1) hrun
  · exact h

end Sys2Proof.Machine
end

section
/-! The width invariant, kept by every move of the environment and by a power cycle (00_scope.md R14,
46_environment.md, 70_reset_and_hazards.md R340). -/

namespace Sys2Proof.Machine

open Sys2Proof

variable {c : Config} {s : State}

/-! ## Moves of the environment -/

@[simp] theorem rxPush_rxfDepth (ws : List Word) (p : Pi) :
    (rxPush ws p).rxfDepth = p.rxfDepth := rfl

@[simp] theorem rxPush_txf (ws : List Word) (p : Pi) : (rxPush ws p).txf = p.txf := rfl

@[simp] theorem rxPush_ep (ws : List Word) (p : Pi) : (rxPush ws p).ep = p.ep := rfl

@[simp] theorem rxPush_setupcnt (ws : List Word) (p : Pi) :
    (rxPush ws p).setupcnt = p.setupcnt := rfl

theorem envUsbReset_fits (h : FitsIn c s)
    (ep0Active clearActive clearEna clearDpid emptyTx endSetup : Bool) :
    FitsIn c (envUsbReset ep0Active clearActive clearEna clearDpid emptyTx endSetup s) := by
  unfold envUsbReset
  split
  · exact h
  · exact h.frameEps <| Both.forall_mapBelow (P := EpRegs.InWidth) (b := s.pi.ep) s.cfg.maxEndpoints
      (f := usbResetEp ep0Active clearActive clearEna clearDpid) h.eps fun _ _ hr => { hr with }

theorem envSetSpeed_fits (h : FitsIn c s) (v : Speed) : FitsIn c (envSetSpeed v s) := by
  unfold envSetSpeed
  dsimp only
  split
  · exact h.frame
  · exact h.frame
  · exact h.frame
  · exact h

theorem envEnumDone_fits (h : FitsIn c s) : FitsIn c (envEnumDone s) := by
  unfold envEnumDone
  split
  · exact h
  · exact h
  · exact h.frame
  · exact h

theorem envSetupPacket_fits (h : FitsIn c s) (w0 w1 : Word) : FitsIn c (envSetupPacket w0 w1 s) := by
  have hsc := h.setupcnt
  unfold envSetupPacket
  split
  · exact h
  · have hout := h.setEp 0 .out (r := { s.epAt 0 .out with stall := false }) { h.eps 0 .out with }
    have hinn := hout.setEp 0 .inn (r := { (s.setEp 0 .out
      { s.epAt 0 .out with stall := false }).epAt 0 .inn with stall := false })
      { hout.eps 0 .inn with }
    exact { hinn with setupcnt := show s.pi.setupcnt - 1 < 4 by omega }

theorem envSetupOver_fits (h : FitsIn c s) : FitsIn c (envSetupOver s) := by
  unfold envSetupOver
  split
  · exact h.frame
  · exact h

/-- A packet lowers the packet and byte counts of its endpoint. -/
theorem envOutPacket_fits (h : FitsIn c s) (n : EpNum) (bytes : List Byte) (dpid : BitVec 2)
    (fill : List Byte) : FitsIn c (envOutPacket n bytes dpid fill s) := by
  unfold envOutPacket
  dsimp only
  split
  · have hlow : FitsIn c (s.setEp n .out { s.epAt n .out with
        pktcnt := (s.epAt n .out).pktcnt - 1, xfrsiz := (s.epAt n .out).xfrsiz - bytes.length }) :=
      h.setEp n .out ⟨Nat.lt_of_le_of_lt (Nat.sub_le _ _) (h.eps n .out).pktcnt,
        Nat.lt_of_le_of_lt (Nat.sub_le _ _) (h.eps n .out).xfrsiz, (h.eps n .out).mps⟩
    exact hlow.frame
  · exact h

theorem envOutEnd_fits (h : FitsIn c s) (n : EpNum) : FitsIn c (envOutEnd n s) := by
  unfold envOutEnd
  split
  · have hend := h.setEp n .out (r := { s.epAt n .out with ena := false, nak := true })
      { h.eps n .out with }
    exact hend.frame
  · exact h

theorem envSendIn_fits (h : FitsIn c s) (n : EpNum) : FitsIn c (envSendIn n s) := by
  have hlow : EpRegs.InWidth { s.epAt n .inn with pktcnt := (s.epAt n .inn).pktcnt - 1 } :=
    { h.eps n .inn with pktcnt := Nat.lt_of_le_of_lt (Nat.sub_le _ _) (h.eps n .inn).pktcnt }
  unfold envSendIn
  split
  · dsimp only
    split
    · have hdone := (h.setEp n .inn (r := { s.epAt n .inn with
        pktcnt := (s.epAt n .inn).pktcnt - 1, ena := false, nak := true })
        { hlow with }).signalDone n .inn (!s.env.armed.inn[n])
      exact hdone.frame
    · exact (h.setEp n .inn hlow).frame
  · exact h

theorem envGlobalOutNak_fits (h : FitsIn c s) (n : EpNum) : FitsIn c (envGlobalOutNak n s) := by
  unfold envGlobalOutNak
  split
  · exact h.frame
  · exact h

theorem envNakEffective_fits (h : FitsIn c s) (n : EpNum) (d : Dir) :
    FitsIn c (envNakEffective n d s) := by
  unfold envNakEffective
  dsimp only
  split
  · have hset := h.setEp n d (r := { s.epAt n d with nakEff := true }) { h.eps n d with }
    exact hset.frame
  · exact h

theorem envFlushDone_fits (h : FitsIn c s) (also : List EpNum) : FitsIn c (envFlushDone also s) := by
  unfold envFlushDone
  split
  · exact h.frame
  · exact h

theorem setEpIf_fits (h : FitsIn c s) (n : EpNum) (d : Dir) (allowed : Bool) {r : EpRegs}
    (hr : r.InWidth) : FitsIn c (setEpIf s n d allowed r) := by
  unfold setEpIf
  split
  · exact h.setEp n d hr
  · exact h

theorem envDisableDone_fits (h : FitsIn c s) (n : EpNum) (d : Dir) (complete : Bool) :
    FitsIn c (envDisableDone n d complete s) := by
  have hoff := setEpIf_fits h n d (s.epAt n d).disreq
    (r := { s.epAt n d with ena := false, disreq := false }) { h.eps n d with }
  unfold envDisableDone
  dsimp only
  split
  · exact hoff.signalDone n d true
  · exact hoff

theorem envBreak_fits (h : FitsIn c s) (ws : List Word) : FitsIn c (envBreak ws s) := by
  unfold envBreak
  split
  · exact h.frame
  · exact h

theorem envMove_fits (h : FitsIn c s) (m : EnvMove) : FitsIn c (envMove m s) := by
  cases m with
  | usbReset ep0Active clearActive clearEna clearDpid emptyTx endSetup =>
      exact envUsbReset_fits h ep0Active clearActive clearEna clearDpid emptyTx endSetup
  | setSpeed v => exact envSetSpeed_fits h v
  | enumDone => exact envEnumDone_fits h
  | suspend => simp only [envMove]; exact h.frame
  | resume => simp only [envMove]; exact h.frame
  | sessionEnd => simp only [envMove]; exact h.frame
  | setupPacket w0 w1 => exact envSetupPacket_fits h w0 w1
  | setupOver => exact envSetupOver_fits h
  | outPacket n bytes dpid fill => exact envOutPacket_fits h n bytes dpid fill
  | outEnd n => exact envOutEnd_fits h n
  | sendIn n => exact envSendIn_fits h n
  | globalOutNak n => exact envGlobalOutNak_fits h n
  | nakEffective n d => exact envNakEffective_fits h n d
  | flushDone also => exact envFlushDone_fits h also
  | disableDone n d complete => exact envDisableDone_fits h n d complete
  | dataToggle n d v => exact setEpIf_fits h n d _ { h.eps n d with }
  | clock hz => simp only [envMove]; exact h.frame
  | breakContract ws => exact envBreak_fits h ws

/-! ## Power-on -/

/-- The block's counts are 0 and the peripheral's are cut to their fields, whatever is drawn. -/
theorem powerOn_fits (s : State) (p : Pi) : FitsIn s.cfg (s.powerOn p) where
  cfg := rfl
  recs n d := by
    have hzero : (s.powerOn p).recAt n d = Record.zero := by
      change ((Both.same (Bank.all Record.zero)).get d)[n] = Record.zero
      rw [Both.get_same, Bank.get_all]
    rw [hzero]
    exact ⟨by decide, by decide⟩
  pending d := by
    change (Both.mk 0 0).get d < 2 ^ 16
    cases d <;> decide
  allocWords := show 0 < 2 ^ 16 by decide
  rxfDepth := by
    have hcut : (s.powerOn p).pi.rxfDepth = p.rxfDepth % 2 ^ 16 := rfl
    omega
  txf n := by
    have hcut : (s.powerOn p).pi.txf = Bank.each TxfRegs.cut p.txf := rfl
    rw [hcut, Bank.get_each]
    exact p.txf[n].cut_fits
  eps n d := by
    have hcut : (s.powerOn p).epAt n d = (p.epAt n d).cut := by
      cases d with
      | out => exact Bank.get_each EpRegs.cut p.ep.out n
      | inn => exact Bank.get_each EpRegs.cut p.ep.inn n
    obtain ⟨hmps, hpk, hsz⟩ := (p.epAt n d).cut_fits
    rw [hcut]
    exact ⟨hpk, hsz, hmps⟩
  setupcnt := by
    have hcut : (s.powerOn p).pi.setupcnt = p.setupcnt % 4 := rfl
    omega

/-- Settles O56: the invariant at the state's configuration is kept by each of the four ways to move. -/
theorem widthsKept : Obligations.WidthsKept := by
  unfold Obligations.WidthsKept
  intro s hc h
  exact ⟨fun i t hi ht => (exec_fits hc h.fitsIn hi ht).fits, (runInterrupt_fits hc h.fitsIn).fits,
    fun m => (envMove_fits h.fitsIn m).fits, fun p => (powerOn_fits s p).fits⟩

end Sys2Proof.Machine
end

section
/-! The numbered steps neither read nor write where the block stands: they give the same at every
control state, and only a raised fault halts (00_scope.md R18, 60_exceptions.md R301). -/

namespace Sys2Proof.Machine

open Sys2Proof

/-! ## The running block at a control state -/

/-- The block running with its control state at `x`. -/
def State.inCtx (x : Ctx) (s : State) : State := { s with ctx := x, halted := false }

/-- A map over the state an action leaves. -/
def Act.map (f : State → State) : Act → Act
  | .ok s => .ok (f s)
  | .bad c s => .bad c (f s)

/-- A map over the state a numbered step of a run leaves. -/
def IrqRes.map (f : State → State) : IrqRes → IrqRes
  | .go l s => .go l (f s)
  | .again l s => .again l (f s)
  | .bad c s => .bad c (f s)

/-- A map over the state one evaluation of the FIFO-empty loop leaves. -/
def Feed.map (f : State → State) : Feed → Feed
  | .stop => .stop
  | .pushed s => .pushed (f s)
  | .bad c s => .bad c (f s)

/-- A map over the state a numbered step of a command leaves. -/
def CmdRes.map (f : State → State) : CmdRes → CmdRes
  | .go l s => .go l (f s)
  | .hold l s => .hold l (f s)
  | .respond r s => .respond r (f s)
  | .raise c s => .raise c (f s)
  | .enter s => .enter (f s)
  | .refuse r => .refuse r

variable {s : State} {x : Ctx}

theorem State.inCtx_self (h : s.accepts = true) : s.inCtx .idle = s := by
  obtain ⟨hctx, hhalt⟩ := (accepts_iff s).mp h
  simp [State.inCtx, ← hctx, ← hhalt]

@[simp] theorem inCtx_cfg : (s.inCtx x).cfg = s.cfg := rfl

@[simp] theorem inCtx_pi : (s.inCtx x).pi = s.pi := rfl

@[simp] theorem recAt_inCtx (n : EpNum) (d : Dir) : (s.inCtx x).recAt n d = s.recAt n d := rfl

@[simp] theorem epAt_inCtx (n : EpNum) (d : Dir) : (s.inCtx x).epAt n d = s.epAt n d := rfl

/-! ## Shared operations -/

theorem bringUpStep_inCtx (k : BringUpStep) :
    bringUpStep k (s.inCtx x) = (bringUpStep k s).map (State.inCtx x) := by
  unfold bringUpStep
  rw [apply_ite (Act.map (State.inCtx x))]
  cases k <;> rfl

theorem busResetStep_inCtx (k : BusResetStep) :
    busResetStep k (s.inCtx x) = (busResetStep k s).map (State.inCtx x) := by
  cases k with
  | bringUp b => exact bringUpStep_inCtx b
  | _ => rfl

theorem handleSignal_inCtx (k : Signal) :
    handleSignal k (s.inCtx x) = (handleSignal k s).inCtx x := by
  cases k with
  | suspend => simp only [handleSignal, apply_ite (State.inCtx x)]; rfl
  | resume => simp only [handleSignal, apply_ite (State.inCtx x)]; rfl
  | unplugged => rfl

theorem Act.andThen_inCtx {a : Act} {f : State → Act}
    (hf : ∀ t, f (t.inCtx x) = (f t).map (State.inCtx x)) :
    (a.map (State.inCtx x)).andThen f = (a.andThen f).map (State.inCtx x) := by
  cases a with
  | ok t => exact hf t
  | bad e t => rfl

theorem rxPop_inCtx :
    (s.inCtx x).rxPop = s.rxPop.map (fun p => (p.1, p.2.inCtx x)) := by
  cases hq : s.pi.rxq with
  | nil => rw [rxPop_empty hq, rxPop_empty (s := s.inCtx x) hq]; rfl
  | cons w ws => rw [rxPop_cons hq, rxPop_cons (s := s.inCtx x) hq]; rfl

theorem fifoReadPacket_inCtx (dst : Word) (len : Nat) :
    fifoReadPacket dst len (s.inCtx x) = (fifoReadPacket dst len s).map (State.inCtx x) := by
  simp only [fifoReadPacket, apply_ite (Act.map (State.inCtx x))]
  rfl

theorem shortPacketTrim_inCtx (n : EpNum) :
    shortPacketTrim n (s.inCtx x) = (shortPacketTrim n s).map (State.inCtx x) := by
  unfold shortPacketTrim
  simp only [apply_ite (Act.map (State.inCtx x))]
  rfl

theorem rxOutData_inCtx (n : EpNum) (bcnt : Nat) :
    rxOutData n bcnt (s.inCtx x) = (rxOutData n bcnt s).map (State.inCtx x) := by
  unfold rxOutData
  rw [apply_ite (Act.map (State.inCtx x)), ← Act.andThen_inCtx, ← fifoReadPacket_inCtx]
  · rfl
  · intro t
    dsimp only
    rw [apply_ite (Act.map (State.inCtx x)), ← shortPacketTrim_inCtx]
    rfl

theorem rxOutDone_inCtx (n : EpNum) : rxOutDone n (s.inCtx x) = (rxOutDone n s).inCtx x := by
  simp only [rxOutDone, apply_ite (State.inCtx x)]
  rfl

theorem rxSetupData_inCtx : rxSetupData (s.inCtx x) = (rxSetupData s).map (State.inCtx x) := by
  unfold rxSetupData
  rw [rxPop_inCtx]
  cases s.rxPop with
  | none => rfl
  | some p =>
      have hpop : ({ p.2.inCtx x with setupBuf0 := p.1 } : State).rxPop =
          ({ p.2 with setupBuf0 := p.1 } : State).rxPop.map (fun q => (q.1, q.2.inCtx x)) :=
        rxPop_inCtx (s := { p.2 with setupBuf0 := p.1 })
      simp only [Option.map_some, hpop]
      cases ({ p.2 with setupBuf0 := p.1 } : State).rxPop <;> rfl

theorem drainEntry_inCtx : drainEntry (s.inCtx x) = (drainEntry s).map (State.inCtx x) := by
  unfold drainEntry
  rw [rxPop_inCtx]
  cases s.rxPop with
  | none => rfl
  | some p =>
      simp only [Option.map_some]
      cases rxClass (statusCode p.1) with
      | globalOutNak => rfl
      | outData => exact rxOutData_inCtx _ _
      | outDone => exact congrArg Act.ok (rxOutDone_inCtx _)
      | setupDone => rfl
      | setupData => exact rxSetupData_inCtx
      | unrecognised => rfl

theorem armTxe_inCtx (n : EpNum) (d : Dir) (by_ : Nat) :
    (s.inCtx x).armTxe n d by_ = (s.armTxe n d by_).inCtx x := by
  cases d with
  | out => rfl
  | inn =>
      simp only [State.armTxe, apply_ite (State.inCtx x)]
      rfl

theorem ep0Schedule_inCtx (d : Dir) : ep0Schedule (s.inCtx x) d = (ep0Schedule s d).inCtx x := by
  simp only [ep0Schedule, State.arm, ← armTxe_inCtx]
  cases d <;> rfl

theorem ep0Continue_inCtx (d : Dir) : ep0Continue (s.inCtx x) d = (ep0Continue s d).inCtx x := by
  unfold ep0Continue
  rw [apply_ite (State.inCtx x), ep0Schedule_inCtx]
  rfl

theorem transferComplete_inCtx (n : EpNum) (d : Dir) :
    transferComplete n d (s.inCtx x) = (transferComplete n d s).inCtx x := by
  unfold transferComplete
  simp only [apply_ite (State.inCtx x), ← ep0Continue_inCtx]
  rfl

theorem txPushAll_inCtx (n : EpNum) (ws : List Word) :
    txPushAll n ws (s.inCtx x) = (txPushAll n ws s).map (State.inCtx x) := by
  induction ws generalizing s with
  | nil => rfl
  | cons w ws ih =>
      have hpush : (s.inCtx x).txPush n w = (s.txPush n w).map (State.inCtx x) := by
        simp only [State.txPush, apply_ite (Act.map (State.inCtx x))]
        rfl
      unfold txPushAll
      rw [hpush, Act.andThen_inCtx fun _ => ih]

theorem feedStep_inCtx (n : EpNum) :
    feedStep n (s.inCtx x) = (feedStep n s).map (State.inCtx x) := by
  have hwrite (src : Word) (k : Nat) : fifoWritePacket n src k (s.inCtx x) =
      (fifoWritePacket n src k s).map (State.inCtx x) := txPushAll_inCtx n _
  simp only [feedStep, hwrite, recAt_inCtx, epAt_inCtx, inCtx_pi,
    apply_ite (Feed.map (State.inCtx x))]
  cases fifoWritePacket n (s.recAt n .inn).buffer
    (min (s.epAt n .inn).xfrsiz (s.recAt n .inn).maxSize) s <;> rfl

theorem irqStep_inCtx (op : IrqOp) (l : IrqLocals) :
    irqStep op l (s.inCtx x) = (irqStep op l s).map (State.inCtx x) := by
  cases op with
  | busReset k =>
      simp only [irqStep, busResetStep_inCtx]
      cases busResetStep k s <;> rfl
  | signal k => simp only [irqStep, handleSignal_inCtx, IrqRes.map]
  | drainLoop =>
      simp only [irqStep, drainEntry_inCtx, apply_ite (IrqRes.map (State.inCtx x))]
      cases drainEntry s <;> rfl
  | outSetup n =>
      simp only [irqStep, outSetupPhase, IrqRes.map, apply_ite (State.inCtx x)]
      rfl
  | outDone n =>
      simp only [irqStep, transferComplete_inCtx, IrqRes.map, apply_ite (State.inCtx x)]
  | inDone n =>
      simp only [irqStep, transferComplete_inCtx, IrqRes.map, apply_ite (State.inCtx x)]
      rfl
  | inFeed n =>
      simp only [irqStep, feedStep_inCtx, apply_ite (IrqRes.map (State.inCtx x))]
      cases feedStep n s <;> rfl
  | inFeedEnd n =>
      simp only [irqStep, feedEnd, IrqRes.map, apply_ite (State.inCtx x)]
      rfl
  | _ => rfl

/-! ## Steps of a command -/

theorem txBindFifo_inCtx (n : EpNum) (mps : Nat) :
    txBindFifo n mps (s.inCtx x) = (txBindFifo n mps s).map (State.inCtx x) := by
  simp only [txBindFifo, apply_ite (Act.map (State.inCtx x))]
  rfl

theorem CmdRes.ofAct_map (l : CmdLocals) (a : Act) (f : State → State) :
    CmdRes.ofAct l (a.map f) = (CmdRes.ofAct l a).map f := by
  cases a <;> rfl

theorem waitFor_inCtx (b : Bool) (l : CmdLocals) :
    waitFor b l (s.inCtx x) = (waitFor b l s).map (State.inCtx x) := by
  simp only [waitFor, inCtx_cfg]
  cases s.cfg.stallPollLimit with
  | none => simp only [apply_ite (CmdRes.map (State.inCtx x))]; rfl
  | some limit => simp only [apply_ite (CmdRes.map (State.inCtx x))]; rfl

theorem cmdStep_inCtx (op : CmdOp) (l : CmdLocals) :
    cmdStep op l (s.inCtx x) = (cmdStep op l s).map (State.inCtx x) := by
  cases op with
  | checkEp n => simp only [cmdStep, apply_ite (CmdRes.map (State.inCtx x))]; rfl
  | bringUp k => simp only [cmdStep, bringUpStep_inCtx, CmdRes.ofAct_map]
  | openCeiling ty mps => simp only [cmdStep, apply_ite (CmdRes.map (State.inCtx x))]; rfl
  | txBindFifo n mps => simp only [cmdStep, txBindFifo_inCtx, CmdRes.ofAct_map]
  | openRespond n => simp only [cmdStep, openBusState, CmdRes.map, apply_ite (State.inCtx x)]; rfl
  | xferCheck n d length =>
      simp only [cmdStep, xferCheck, apply_ite (CmdRes.map (State.inCtx x))]
      rfl
  | xferRecord n d buffer length =>
      simp only [cmdStep, xferRecord, apply_ite (CmdRes.map (State.inCtx x))]
      rfl
  | softDisconnect v => cases v <;> rfl
  | armSize n d => cases d <;> rfl
  | armTxe n d => simp only [cmdStep, armTxe_inCtx, CmdRes.map]
  | stallIdle n d => simp only [cmdStep, apply_ite (CmdRes.map (State.inCtx x))]; rfl
  | stallWaitNak n d => exact waitFor_inCtx _ l
  | stallWaitFlush => exact waitFor_inCtx _ l
  | clearTest n d => simp only [cmdStep, apply_ite (CmdRes.map (State.inCtx x))]; rfl
  | clearToggle n d =>
      simp only [cmdStep, clearToggle, epAt_inCtx, CmdRes.map]
      cases (s.epAt n d).ty <;> rfl
  | cfgBegin => simp only [cmdStep, apply_ite (CmdRes.map (State.inCtx x))]; rfl
  | cfgRead table count => simp only [cmdStep, cfgRead, apply_ite (CmdRes.map (State.inCtx x))]; rfl
  | cfgCapacity => simp only [cmdStep, cfgCapacity, apply_ite (CmdRes.map (State.inCtx x))]; rfl
  | commitEp n =>
      simp only [cmdStep, commitEpStep, commitEndpoint]
      cases l.plan.present[n] <;> rfl
  | cfgRespond => simp only [cmdStep, cfgBusState, CmdRes.map, apply_ite (State.inCtx x)]; rfl
  | _ => rfl

end Sys2Proof.Machine
end

section
/-! A command run whole is its numbered steps taken one at a time by the block alone (log entry 5). -/

namespace Sys2Proof.Machine

open Sys2Proof

/-! ## A dispatcher run whole, at any control state -/

/-- A map over the state a run leaves. -/
def IrqRun.map (f : State → State) : IrqRun → IrqRun
  | .done s => .done (f s)
  | .held todo l s => .held todo l (f s)
  | .bad c todo l s => .bad c todo l (f s)

variable {s : State} {x : Ctx}

theorem repeatStep_inCtx (k : Nat) (op : IrqOp) (l : IrqLocals) :
    repeatStep k op l (s.inCtx x) = (repeatStep k op l s).map (State.inCtx x) := by
  induction k generalizing l s with
  | zero => rfl
  | succ k ih =>
      simp only [repeatStep, irqStep_inCtx]
      cases irqStep op l s with
      | go l1 s1 => rfl
      | again l1 s1 => exact ih l1
      | bad e s1 => rfl

theorem runOps_inCtx (ops : List IrqOp) (l : IrqLocals) :
    runOps ops l (s.inCtx x) = (runOps ops l s).map (State.inCtx x) := by
  induction ops generalizing l s with
  | nil => rfl
  | cons op ops ih =>
      have hbound : repeatBound op (s.inCtx x) = repeatBound op s := by cases op <;> rfl
      simp only [runOps, hbound, repeatStep_inCtx]
      cases repeatStep (repeatBound op s) op l s with
      | go l1 s1 => exact ih l1
      | again l1 s1 => rfl
      | bad e s1 => rfl

theorem dispatchRun_inCtx : dispatchRun (s.inCtx x) = (dispatchRun s).map (State.inCtx x) :=
  runOps_inCtx _ _

/-! ## Moves of the block alone -/

theorem blockMoves_succ {k : Nat} {t : State} (h : blockMove s = .next t) :
    blockMoves (k + 1) s = blockMoves k t := by
  simp only [blockMoves, h]

theorem blockMoves_one : blockMoves 1 s = blockMove s := by
  simp only [blockMoves]
  cases blockMove s <;> rfl

theorem blockMoves_add {j k : Nat} {t : State} (h : blockMoves j s = .next t) :
    blockMoves (j + k) s = blockMoves k t := by
  induction j generalizing s with
  | zero =>
      cases h
      rw [Nat.zero_add]
  | succ j ih =>
      rw [Nat.succ_add]
      simp only [blockMoves] at h ⊢
      cases hm : blockMove s with
      | next u => rw [hm] at h; exact ih h
      | fault r => rw [hm] at h; cases h
      | refused r => rw [hm] at h; cases h

/-- The block alone comes from one state to the next in some number of moves. -/
def Reaches (s t : State) : Prop := ∃ k, blockMoves k s = .next t

theorem Reaches.refl (s : State) : Reaches s s := ⟨0, rfl⟩

theorem Reaches.of_move {t : State} (h : blockMove s = .next t) : Reaches s t :=
  ⟨1, blockMoves_one.trans h⟩

theorem Reaches.trans {t u : State} (hst : Reaches s t) (htu : Reaches t u) : Reaches s u := by
  obtain ⟨j, hj⟩ := hst
  obtain ⟨k, hk⟩ := htu
  exact ⟨j + k, (blockMoves_add hj).trans hk⟩

/-! ## The steps of a run one at a time -/

variable {ret : Option CmdPos}

theorem blockMove_irq (p : IrqPos) :
    blockMove (s.inCtx (.irq p ret)) = .next (irqMicro p ret (s.inCtx (.irq p ret))) := rfl

/-- A step that repeats does so with the locals it had. -/
theorem irqStep_again_locals {op : IrqOp} {l l1 : IrqLocals} {s1 : State}
    (h : irqStep op l s = .again l1 s1) : l1 = l := by
  cases op with
  | drainLoop =>
      simp only [irqStep] at h
      split at h
      · cases h
      · split at h <;> cases h
        rfl
  | inFeed n =>
      simp only [irqStep] at h
      split at h
      · split at h <;> cases h
        rfl
      · cases h
  | busReset k =>
      simp only [irqStep] at h
      cases hk : busResetStep k s <;> rw [hk] at h <;> cases h
  | _ => cases h

/-- The machine after the step `op` of a run that began it with the locals `l`. -/
def IrqRes.after (op : IrqOp) (rest : List IrqOp) (l : IrqLocals) (ret : Option CmdPos) :
    IrqRes → State
  | .go l1 s => s.inCtx (.irq (.steps rest l1) ret)
  | .again l1 s => s.inCtx (.irq (.steps (op :: rest) l1) ret)
  | .bad c s => { s with ctx := .irq (.steps (op :: rest) l) ret }.raiseFault c

theorem blockMove_irqStep (op : IrqOp) (rest : List IrqOp) (l : IrqLocals) :
    blockMove (s.inCtx (.irq (.steps (op :: rest) l) ret)) =
      .next ((irqStep op l s).after op rest l ret) := by
  rw [blockMove_irq]
  simp only [irqMicro, irqStep_inCtx]
  cases irqStep op l s <;> rfl

theorem repeatStep_reaches (k : Nat) (op : IrqOp) (rest : List IrqOp) (l : IrqLocals) :
    Reaches (s.inCtx (.irq (.steps (op :: rest) l) ret))
      ((repeatStep k op l s).after op rest l ret) := by
  induction k generalizing s with
  | zero => exact .refl _
  | succ k ih =>
      have hmove := Reaches.of_move (blockMove_irqStep (s := s) (ret := ret) op rest l)
      cases hr : irqStep op l s with
      | go l1 s1 =>
          rw [hr] at hmove
          rw [repeatStep_go hr]
          exact hmove
      | again l1 s1 =>
          obtain rfl := irqStep_again_locals hr
          rw [hr] at hmove
          rw [repeatStep_again hr]
          exact hmove.trans ih
      | bad e s1 =>
          rw [hr] at hmove
          rw [repeatStep_bad hr]
          exact hmove

/-- The machine at the end of a run taken whole. -/
def IrqRun.after (ret : Option CmdPos) : IrqRun → State
  | .done s => s.inCtx (retCtx ret)
  | .held todo l s => s.inCtx (.irq (.steps todo l) ret)
  | .bad c todo l s => { s with ctx := .irq (.steps todo l) ret }.raiseFault c

theorem runOps_reaches (ops : List IrqOp) (l : IrqLocals) :
    Reaches (s.inCtx (.irq (.steps ops l) ret)) ((runOps ops l s).after ret) := by
  induction ops generalizing l s with
  | nil => exact .of_move (blockMove_irq _)
  | cons op ops ih =>
      have hstep := repeatStep_reaches (s := s) (ret := ret) (repeatBound op s) op ops l
      simp only [runOps]
      cases hr : repeatStep (repeatBound op s) op l s with
      | go l1 s1 =>
          rw [hr] at hstep
          exact hstep.trans (ih l1)
      | again l1 s1 =>
          rw [hr] at hstep
          exact hstep
      | bad e s1 =>
          rw [hr] at hstep
          exact hstep

/-- The latch and the steps after it, one at a time. -/
theorem dispatchRun_reaches :
    Reaches (s.inCtx (.irq .entry ret)) ((dispatchRun s).after ret) :=
  (Reaches.of_move (blockMove_irq .entry)).trans
    (runOps_reaches (s := s) (dispatchOps s.pending s.cfg.maxEndpoints) {})

/-! ## The steps of a command one at a time -/

variable {i : Instr}

theorem blockMove_cmd (p : CmdPos) :
    blockMove (s.inCtx (.cmd p)) = cmdMicro p (s.inCtx (.cmd p)) := rfl

/-- The step of IRQ_ENTRY that is a dispatcher run: its entry, its steps and its return. -/
theorem runCmd_enter_moves {op : CmdOp} {rest : List CmdOp} {l : CmdLocals} {s1 : State}
    (hr : cmdStep op l s = .enter s1)
    (ih : ∀ s2 : State, ∃ k, blockMoves k (s2.inCtx (.cmd ⟨i, rest, l⟩)) =
      runCmd i rest l (s2.inCtx .idle)) :
    ∃ k, blockMoves k (s.inCtx (.cmd ⟨i, op :: rest, l⟩)) =
      runCmd i (op :: rest) l (s.inCtx .idle) := by
  have hat (x : Ctx) : cmdStep op l (s.inCtx x) = .enter (s1.inCtx x) := by
    rw [cmdStep_inCtx, hr, CmdRes.map]
  have hentry : blockMove (s.inCtx (.cmd ⟨i, op :: rest, l⟩)) =
      .next (({ s1 with irqDue := false } : State).inCtx (.irq .entry (some ⟨i, rest, l⟩))) := by
    simp only [blockMove_cmd, cmdMicro, hat]
    rfl
  have hrun := (Reaches.of_move hentry).trans dispatchRun_reaches
  have hidle : dispatchRun { s1.inCtx .idle with irqDue := false } =
      (dispatchRun { s1 with irqDue := false }).map (State.inCtx .idle) :=
    dispatchRun_inCtx (s := { s1 with irqDue := false })
  simp only [runCmd, hat, hidle]
  cases hd : dispatchRun { s1 with irqDue := false } with
  | done s2 =>
      rw [hd] at hrun
      obtain ⟨j, hj⟩ := hrun
      obtain ⟨k, hk⟩ := ih s2
      exact ⟨j + k, (blockMoves_add hj).trans hk⟩
  | held todo il s2 =>
      rw [hd] at hrun
      exact hrun
  | bad e todo il s2 =>
      rw [hd] at hrun
      exact hrun

/-- The commuting diagram: what a command run whole from the idle block answers, its steps taken one at
a time answer too. -/
theorem runCmd_moves (todo : List CmdOp) (l : CmdLocals) (s : State) :
    ∃ k, blockMoves k (s.inCtx (.cmd ⟨i, todo, l⟩)) = runCmd i todo l (s.inCtx .idle) := by
  induction todo generalizing l s with
  | nil => exact ⟨1, rfl⟩
  | cons op rest ih =>
      have hat (x : Ctx) : cmdStep op l (s.inCtx x) = (cmdStep op l s).map (State.inCtx x) :=
        cmdStep_inCtx op l
      have hmove := blockMove_cmd (s := s) ⟨i, op :: rest, l⟩
      simp only [cmdMicro, hat] at hmove
      cases hr : cmdStep op l s with
      | go l1 s1 =>
          rw [hr] at hmove hat
          obtain ⟨k, hk⟩ := ih l1 s1
          exact ⟨k + 1, (blockMoves_succ hmove).trans (hk.trans (runCmd_go (hat .idle)).symm)⟩
      | hold l1 s1 =>
          rw [hr] at hmove hat
          exact ⟨1, blockMoves_one.trans (hmove.trans (runCmd_hold (hat .idle)).symm)⟩
      | respond r s1 =>
          rw [hr] at hmove hat
          exact ⟨1, blockMoves_one.trans (hmove.trans (runCmd_respond (hat .idle)).symm)⟩
      | raise f s1 =>
          rw [hr] at hmove hat
          exact ⟨1, blockMoves_one.trans (hmove.trans (runCmd_raise (hat .idle)).symm)⟩
      | refuse r =>
          rw [hr] at hmove hat
          exact ⟨1, blockMoves_one.trans (hmove.trans (runCmd_refuse (hat .idle)).symm)⟩
      | enter s1 => exact runCmd_enter_moves hr (ih l)

/-- Acceptance puts the idle block at the first step of the command. -/
theorem acceptCommand_with_steps (ha : s.accepts = true) (h : opsOf s.cfg.maxEndpoints i ≠ []) :
    acceptCommand i s = s.inCtx (.cmd ⟨i, opsOf s.cfg.maxEndpoints i, {}⟩) := by
  have hhalt := ((accepts_iff s).mp ha).2
  unfold acceptCommand
  cases hops : opsOf s.cfg.maxEndpoints i with
  | nil => exact absurd hops h
  | cons op ops => simp [State.inCtx, ← hhalt]

theorem acceptCommand_without_steps (h : opsOf s.cfg.maxEndpoints i = []) :
    acceptCommand i s = s.raiseFault .illegalCommand := by
  simp only [acceptCommand, h]

theorem exec_eq_moves (ha : s.accepts = true) :
    ∃ k, blockMoves k (acceptCommand i s) = exec i s := by
  by_cases hops : opsOf s.cfg.maxEndpoints i = []
  · rw [acceptCommand_without_steps hops, exec_without_steps hops, illegalCommand_accepted ha]
    exact ⟨0, rfl⟩
  · have hrun := runCmd_moves (i := i) (opsOf s.cfg.maxEndpoints i) {} s
    rw [State.inCtx_self ha] at hrun
    rw [acceptCommand_with_steps ha hops, exec_with_steps hops, runCommand_accepted ha]
    exact hrun

/-- Settles O8, by the diagram `runCmd_moves`, whatever the command answers. -/
theorem commandIsItsSteps : Obligations.CommandIsItsSteps := by
  unfold Obligations.CommandIsItsSteps
  intro i s ha
  have hmoves := exec_eq_moves (i := i) ha
  exact ⟨fun t ht => ht ▸ hmoves, fun r hr => hr ▸ hmoves⟩

end Sys2Proof.Machine
end

section
/-! What a numbered step leaves alone, and that a fault it raises has a cause (10_state.md R20 to R37,
60_exceptions.md R301, R302). -/

namespace Sys2Proof.Machine

open Sys2Proof

/-! ## Parts of the state -/

/-- No numbered step writes the fault record, the control state or the response. -/
structure SameControl (s t : State) : Prop where
  halted : t.halted = s.halted := by simp
  faultCause : t.faultCause = s.faultCause := by simp
  ctx : t.ctx = s.ctx := by simp
  resp : t.resp = s.resp := by simp

/-- The parameters, the command port and the schedule are the same, and the events go on. -/
structure Continues (s t : State) : Prop where
  cfg : t.cfg = s.cfg := by simp
  port : t.port = s.port := by simp
  turns : t.turns = s.turns := by simp
  events : s.events <+: t.events := by simp

/-- The registers the layout invariant speaks of are the same (10_state.md R29). -/
structure SameLayout (s t : State) : Prop where
  allocWords : t.allocWords = s.allocWords := by simp
  txfValid : t.txfValid = s.txfValid := by simp
  rxfDepth : t.pi.rxfDepth = s.pi.rxfDepth := by simp
  txf : t.pi.txf = s.pi.txf := by simp

/-- Buffer memory, the queues and the events are the same. -/
structure SameQueues (s t : State) : Prop where
  mem : t.mem = s.mem := by simp
  rxq : t.pi.rxq = s.pi.rxq := by simp
  txq : t.pi.txq = s.pi.txq := by simp
  events : t.events = s.events := by simp

/-- What every numbered step of a run leaves alone. -/
structure RunFrame (s t : State) : Prop extends SameControl s t, Continues s t where
  irqEn : t.irqEn = s.irqEn := by simp

/-- What every numbered step of a run outside a bus reset leaves alone; `who` are the directions whose
recorded lengths it leaves alone too (R23). -/
structure HandlerFrame (who : Dir → Prop) (s t : State) : Prop
    extends RunFrame s t, SameLayout s t where
  lengths : ∀ d, who d → ∀ n, (t.recAt n d).totalLen = (s.recAt n d).totalLen := by
    simp [State.recAt]

variable {P Q : State → Prop} {who : Dir → Prop} {s0 s t : State}

theorem RunFrame.trans (h : RunFrame s0 s) (g : RunFrame s t) : RunFrame s0 t where
  halted := g.halted.trans h.halted
  faultCause := g.faultCause.trans h.faultCause
  ctx := g.ctx.trans h.ctx
  resp := g.resp.trans h.resp
  cfg := g.cfg.trans h.cfg
  port := g.port.trans h.port
  turns := g.turns.trans h.turns
  events := h.events.trans g.events
  irqEn := g.irqEn.trans h.irqEn

theorem HandlerFrame.trans (h : HandlerFrame who s0 s) (g : HandlerFrame who s t) :
    HandlerFrame who s0 t where
  toRunFrame := h.toRunFrame.trans g.toRunFrame
  allocWords := g.allocWords.trans h.allocWords
  txfValid := g.txfValid.trans h.txfValid
  rxfDepth := g.rxfDepth.trans h.rxfDepth
  txf := g.txf.trans h.txf
  lengths d hd n := (g.lengths d hd n).trans (h.lengths d hd n)

/-! ## What an action or a step leaves -/

/-- The state an action leaves meets `P`, and a fault it raises has a cause (R302). -/
def Act.Meets (P : State → Prop) : Act → Prop
  | .ok s => P s
  | .bad c s => c ≠ .noFault ∧ P s

/-- The same of a numbered step of a run. -/
def IrqRes.Meets (P : State → Prop) : IrqRes → Prop
  | .go _ s => P s
  | .again _ s => P s
  | .bad c s => c ≠ .noFault ∧ P s

/-- The same of an evaluation of the FIFO-empty loop. -/
def Feed.Meets (P : State → Prop) : Feed → Prop
  | .stop => True
  | .pushed s => P s
  | .bad c s => c ≠ .noFault ∧ P s

/-- The same of a run taken whole. -/
def IrqRun.Meets (P : State → Prop) : IrqRun → Prop
  | .done s => P s
  | .held _ _ s => P s
  | .bad c _ _ s => c ≠ .noFault ∧ P s

/-- The same of a numbered step of a command; `CmdRes.Leaves` is this without the cause. -/
def CmdRes.Meets (P : State → Prop) : CmdRes → Prop
  | .go _ s => P s
  | .hold _ s => P s
  | .respond _ s => P s
  | .raise c s => c ≠ .noFault ∧ P s
  | .enter s => P s
  | .refuse _ => True

theorem Act.Meets.andThen {a : Act} {f : State → Act} (ha : a.Meets P)
    (hf : ∀ t, P t → (f t).Meets P) : (a.andThen f).Meets P := by
  cases a with
  | ok t => exact hf t ha
  | bad c t => exact ha

theorem Act.Meets.irq {a : Act} (ha : a.Meets P) (l : IrqLocals) : (IrqRes.ofAct l a).Meets P := by
  cases a <;> exact ha

theorem Act.Meets.cmd {a : Act} (ha : a.Meets P) (l : CmdLocals) : (CmdRes.ofAct l a).Meets P := by
  cases a <;> exact ha

theorem IrqRes.Meets.state {r : IrqRes} (hr : r.Meets P) : P r.state := by
  cases r with
  | go l s => exact hr
  | again l s => exact hr
  | bad c s => exact hr.2

theorem IrqRes.Meets.mono {r : IrqRes} (hr : r.Meets P) (h : ∀ s, P s → Q s) : r.Meets Q := by
  cases r with
  | go l s => exact h s hr
  | again l s => exact h s hr
  | bad c s => exact ⟨hr.1, h s hr.2⟩

theorem IrqRun.Meets.mono {r : IrqRun} (hr : r.Meets P) (h : ∀ s, P s → Q s) : r.Meets Q := by
  cases r with
  | done s => exact h s hr
  | held todo l s => exact h s hr
  | bad c todo l s => exact ⟨hr.1, h s hr.2⟩

theorem CmdRes.Meets.mono {r : CmdRes} (hr : r.Meets P) (h : ∀ s, P s → Q s) : r.Meets Q := by
  cases r with
  | go l s => exact h s hr
  | hold l s => exact h s hr
  | respond r s => exact h s hr
  | raise c s => exact ⟨hr.1, h s hr.2⟩
  | enter s => exact h s hr
  | refuse r => trivial

/-! ## The handlers of a run -/

/-- A record is written with its length kept, where the direction's lengths are to be kept. -/
theorem HandlerFrame.setRec (h : HandlerFrame who s0 s) (n : EpNum) (d : Dir) {r : Record}
    (hr : who d → r.totalLen = (s.recAt n d).totalLen) : HandlerFrame who s0 (s.setRec n d r) :=
  h.trans
    { lengths := fun e he m => by
        rw [recAt_setRec]
        split
        · next hat =>
            obtain ⟨rfl, rfl⟩ := hat
            exact hr he
        · rfl }

theorem HandlerFrame.setEp (h : HandlerFrame who s0 s) (n : EpNum) (d : Dir) (r : EpRegs) :
    HandlerFrame who s0 (s.setEp n d r) :=
  h.trans {}

theorem HandlerFrame.setPending (h : HandlerFrame who s0 s) (d : Dir) (v : Nat) :
    HandlerFrame who s0 (s.setPending d v) :=
  h.trans {}

theorem HandlerFrame.emit (h : HandlerFrame who s0 s) (e : Event) :
    HandlerFrame who s0 (s.emit e) :=
  h.trans { events := List.prefix_append _ _ }

theorem HandlerFrame.emitComplete (h : HandlerFrame who s0 s) (n : EpNum) (d : Dir) :
    HandlerFrame who s0 (s.emitComplete n d) :=
  (h.emit (.xferComplete n d (s.recAt n d).totalLen)).trans {}

theorem HandlerFrame.signalDone (h : HandlerFrame who s0 s) (n : EpNum) (d : Dir) (late : Bool) :
    HandlerFrame who s0 (s.signalDone n d late) :=
  h.trans {}

theorem HandlerFrame.arm (h : HandlerFrame who s0 s) (n : EpNum) (d : Dir) (pk by_ : Nat) :
    HandlerFrame who s0 (s.arm n d pk by_) := by
  have hen : HandlerFrame who s0 ((s.armSize n d pk by_).armEnable n d) := by
    cases d <;> exact h.trans {}
  cases d with
  | out => exact hen
  | inn =>
      unfold State.arm State.armTxe
      dsimp only
      split
      · exact hen
      · exact hen.trans {}

theorem bringUpStep_frame (h : RunFrame s0 s) (k : BringUpStep) :
    (bringUpStep k s).Meets (RunFrame s0) := by
  unfold bringUpStep
  split
  · exact ⟨by decide, h⟩
  · cases k <;> exact h.trans {}

/-- Every step of a bus reset. -/
theorem busResetStep_frame (h : RunFrame s0 s) (k : BusResetStep) :
    (busResetStep k s).Meets (RunFrame s0) := by
  cases k with
  | bringUp b => exact bringUpStep_frame h b
  | _ => exact h.trans {}

theorem setEp0Size_frame (h : HandlerFrame who s0 s) (sp : Speed) :
    HandlerFrame who s0 (setEp0Size sp s) :=
  have hsize := (h.setRec 0 .out (r := { s.recAt 0 .out with maxSize := ep0Mps s.cfg sp })
    fun _ => rfl)
  have hrec : HandlerFrame who s0 (setEp0MaxSize (ep0Mps s.cfg sp) s) :=
    hsize.setRec 0 .inn fun _ => rfl
  (hrec.setEp 0 .out _).setEp 0 .inn _

theorem handleSignal_frame (h : HandlerFrame who s0 s) (k : Signal) :
    HandlerFrame who s0 (handleSignal k s) := by
  have he := h.emit (.busSignal k)
  cases k with
  | unplugged => exact he.trans {}
  | _ =>
      simp only [handleSignal]
      split
      · exact he.trans {}
      · exact he

theorem ep0Continue_frame (h : HandlerFrame who s0 s) (d : Dir) :
    HandlerFrame who s0 (ep0Continue s d) := by
  unfold ep0Continue
  split
  · exact h.emitComplete 0 d
  · have htake : HandlerFrame who s0 (ep0Take s d) := h.trans {}
    exact htake.arm 0 d 1 _

theorem transferComplete_frame (h : HandlerFrame who s0 s) (n : EpNum) (d : Dir) :
    HandlerFrame who s0 (transferComplete n d s) := by
  have hack := h.setEp n d { s.epAt n d with xferDone := false }
  unfold transferComplete
  dsimp only
  split
  · split
    · exact hack
    · split
      · exact ep0Continue_frame hack d
      · exact hack.emitComplete n d
  · exact h

theorem outSetupPhase_frame (h : HandlerFrame who s0 s) (n : EpNum) :
    HandlerFrame who s0 (outSetupPhase n s) := by
  unfold outSetupPhase
  split
  · exact HandlerFrame.emit (h.trans {}) _
  · exact h

/-! ## The receive drain, which writes OUT records only -/

theorem fifoReadPacket_frame (h : HandlerFrame who s0 s) (dst : Word) (len : Nat) :
    (fifoReadPacket dst len s).Meets (HandlerFrame who s0) := by
  unfold fifoReadPacket
  dsimp only
  split
  · exact ⟨by decide, h.trans {}⟩
  · exact h.trans {}

theorem shortPacketTrim_frame (h : HandlerFrame (· = .inn) s0 s) (n : EpNum) :
    (shortPacketTrim n s).Meets (HandlerFrame (· = .inn) s0) := by
  have hleft := h.setRec n .out (r := { s.recAt n .out with
    totalLen := (s.recAt n .out).totalLen - (s.epAt n .out).xfrsiz }) nofun
  unfold shortPacketTrim
  dsimp only
  split
  · exact ⟨by decide, h⟩
  · split
    · split
      · exact ⟨by decide, hleft⟩
      · exact (hleft.setRec 0 .out nofun).setPending .out 0
    · exact hleft

theorem rxOutData_frame (h : HandlerFrame (· = .inn) s0 s) (n : EpNum) (bcnt : Nat) :
    (rxOutData n bcnt s).Meets (HandlerFrame (· = .inn) s0) := by
  unfold rxOutData
  split
  · exact ⟨by decide, h⟩
  · refine (fifoReadPacket_frame h _ bcnt).andThen fun t ht => ?_
    have hcursor := ht.setRec n .out (r := { t.recAt n .out with
      buffer := (t.recAt n .out).buffer + BitVec.ofNat 32 bcnt }) nofun
    dsimp only
    split
    · exact shortPacketTrim_frame hcursor n
    · exact hcursor

theorem rxOutDone_frame (h : HandlerFrame who s0 s) (n : EpNum) :
    HandlerFrame who s0 (rxOutDone n s) := by
  unfold rxOutDone
  split
  · exact h
  · exact (h.signalDone n .out (s.env.lateEntries[n] != 0)).trans {}

theorem rxPop_frame (h : HandlerFrame who s0 s) {w : Word} (hp : s.rxPop = some (w, t)) :
    HandlerFrame who s0 t := by
  cases hq : s.pi.rxq with
  | nil => simp [rxPop_empty hq] at hp
  | cons x xs =>
      simp only [rxPop_cons hq, Option.some.injEq, Prod.mk.injEq] at hp
      obtain ⟨-, rfl⟩ := hp
      exact h.trans {}

theorem rxSetupData_frame (h : HandlerFrame who s0 s) :
    (rxSetupData s).Meets (HandlerFrame who s0) := by
  unfold rxSetupData
  split
  · exact ⟨by decide, h⟩
  · next w0 s1 hp =>
      have h1 : HandlerFrame who s0 { s1 with setupBuf0 := w0 } := (rxPop_frame h hp).trans {}
      dsimp only
      split
      · exact ⟨by decide, h1⟩
      · next w1 s2 hp2 => exact (rxPop_frame h1 hp2).trans {}

theorem drainEntry_frame (h : HandlerFrame (· = .inn) s0 s) :
    (drainEntry s).Meets (HandlerFrame (· = .inn) s0) := by
  unfold drainEntry
  split
  · exact h
  · next sw s1 hp =>
      have h1 := rxPop_frame h hp
      split
      · exact h1.trans {}
      · exact rxOutData_frame h1 _ _
      · exact rxOutDone_frame h1 _
      · exact h1.trans {}
      · exact rxSetupData_frame h1
      · exact ⟨by decide, h1⟩

/-! ## The FIFO-empty handler -/

theorem pushWord_frame (h : HandlerFrame who s0 s) (n : EpNum) (w : Word) :
    HandlerFrame who s0 { s with pi := s.pi.pushWord n w } := by
  unfold Pi.pushWord
  dsimp only
  split <;> exact h.trans {}

theorem txPushAll_frame (n : EpNum) (ws : List Word) (h : HandlerFrame who s0 s) :
    (txPushAll n ws s).Meets (HandlerFrame who s0) := by
  induction ws generalizing s with
  | nil => exact h
  | cons w ws ih =>
      refine Act.Meets.andThen ?_ fun t ht => ih ht
      unfold State.txPush
      split
      · exact ⟨by decide, h⟩
      · exact pushWord_frame h n w

theorem feedStep_frame (h : HandlerFrame who s0 s) (n : EpNum) :
    (feedStep n s).Meets (HandlerFrame who s0) := by
  have hwrite := txPushAll_frame n (packWords (memReadBytes s.mem (s.recAt n .inn).buffer
    (min (s.epAt n .inn).xfrsiz (s.recAt n .inn).maxSize))) h
  unfold feedStep
  dsimp only
  split
  · trivial
  · split
    · exact ⟨by decide, h⟩
    · split
      · trivial
      · rw [fifoWritePacket]
        split
        · next hbad => rw [hbad] at hwrite; exact hwrite
        · next hok =>
            rw [hok] at hwrite
            exact HandlerFrame.setRec hwrite n .inn fun _ => rfl

theorem feedEnd_frame (h : HandlerFrame who s0 s) (n : EpNum) :
    HandlerFrame who s0 (feedEnd n s) := by
  unfold feedEnd
  split
  · exact h.trans {}
  · exact h

/-! ## The numbered steps of a run -/

/-- Every numbered step outside a bus reset; the drain keeps the recorded lengths of IN only. -/
theorem irqStep_handler {op : IrqOp} (hop : ∀ k, op ≠ .busReset k)
    (hwho : op = .drainLoop → who = (· = .inn)) (h : HandlerFrame who s0 s) (l : IrqLocals) :
    (irqStep op l s).Meets (HandlerFrame who s0) := by
  cases op with
  | busReset k => exact absurd rfl (hop k)
  | setEp0Size => exact setEp0Size_frame h _
  | emitBusReset => exact h.emit _
  | signal k => exact handleSignal_frame h k
  | drainLoop =>
      obtain rfl := hwho rfl
      have hentry := drainEntry_frame h
      simp only [irqStep]
      split
      · exact h
      · split <;> (next hr => rw [hr] at hentry; exact hentry)
  | outSetup n =>
      simp only [irqStep]
      split
      · exact outSetupPhase_frame h n
      · exact h
  | outDone n =>
      simp only [irqStep]
      split
      · exact transferComplete_frame h n .out
      · exact h
  | inDone n =>
      simp only [irqStep]
      split
      · exact transferComplete_frame h n .inn
      · exact h
  | inFeed n =>
      have hfeed := feedStep_frame h n
      simp only [irqStep]
      split
      · split
        · exact h
        · next hr => rw [hr] at hfeed; exact hfeed
        · next hr => rw [hr] at hfeed; exact hfeed
      · exact h
  | inFeedEnd n =>
      simp only [irqStep]
      split
      · exact feedEnd_frame h n
      · exact h
  | _ => exact h.trans {}

/-- Every numbered step of a run. -/
theorem irqStep_frame (h : RunFrame s0 s) (op : IrqOp) (l : IrqLocals) :
    (irqStep op l s).Meets (RunFrame s0) := by
  by_cases hop : ∃ k, op = .busReset k
  · obtain ⟨k, rfl⟩ := hop
    exact (busResetStep_frame h k).irq l
  · have hself : HandlerFrame (· = .inn) s s := {}
    exact (irqStep_handler (fun k hk => hop ⟨k, hk⟩) (fun _ => rfl) hself l).mono
      fun t ht => h.trans ht.toRunFrame

end Sys2Proof.Machine
end

section
/-! What a numbered step of a command leaves alone, and a property that every step keeps holds where a
command or a run taken whole ends (10_state.md R20 to R37, 30_encoding.md R110). -/

namespace Sys2Proof.Machine

open Sys2Proof

variable {P : State → Prop} {s t : State} {l : CmdLocals}

/-! ## The numbered steps of a command -/

/-- The steps that write the receive FIFO, a transmit FIFO or ALLOC_WORDS. -/
def CmdOp.placesFifo : CmdOp → Bool
  | .initBlock => true
  | .bringUp _ => true
  | .txBindFifo _ _ => true
  | .commitRx => true
  | .commitEp0 => true
  | .commitEp _ => true
  | .commitCount => true
  | _ => false

/-- The steps that write the recorded length of (n, d) (10_state.md R23). -/
def CmdOp.writesLength (n : EpNum) (d : Dir) : CmdOp → Bool
  | .initBlock => true
  | .xferRecord m e _ _ => decide (n = m ∧ d = e)
  | _ => false

/-- The commands a step belongs to, for the steps that write what few others do. -/
def CmdOp.BelongsTo (i : Instr) : CmdOp → Prop
  | .runDispatcher => i = .irqEntry
  | .setIrqEn _ => i = .irqEnable ∨ i = .irqDisable
  | .initBlock => i = .init
  | .bringUp _ => i = .init
  | .xferRecord n d buffer length => i = .xfer n d buffer length
  | .txBindFifo n mps => ∃ d ty, i = .openEp n d ty mps
  | .commitRx => ∃ table count, i = .cfgAlloc table count
  | .commitEp0 => ∃ table count, i = .cfgAlloc table count
  | .commitEp _ => ∃ table count, i = .cfgAlloc table count
  | .commitCount => ∃ table count, i = .cfgAlloc table count
  | _ => True

theorem belongsTo_of_mem_opsOf {i : Instr} {m : Nat} : ∀ op ∈ opsOf m i, op.BelongsTo i := by
  cases i with
  | init => simp [opsOf, initOps, bringUpOrder, CmdOp.BelongsTo]
  | connect => simp [opsOf, connectOps, CmdOp.BelongsTo]
  | disconnect => simp [opsOf, disconnectOps, CmdOp.BelongsTo]
  | setAddress a => simp [opsOf, setAddressOps, CmdOp.BelongsTo]
  | remoteWakeup => simp [opsOf, remoteWakeupOps, CmdOp.BelongsTo]
  | irqEnable => simp [opsOf, irqEnableOps, CmdOp.BelongsTo]
  | irqDisable => simp [opsOf, irqDisableOps, CmdOp.BelongsTo]
  | irqEntry => simp [opsOf, irqEntryOps, CmdOp.BelongsTo]
  | openEp n d ty mps => cases d <;> simp [opsOf, openOps, CmdOp.BelongsTo]
  | closeEp n d => simp [opsOf, closeOps, CmdOp.BelongsTo]
  | xfer n d buffer length =>
      by_cases hn : n = 0 <;> simp [opsOf, xferOps, armOps, hn, CmdOp.BelongsTo]
  | stall n d => cases d <;> simp [opsOf, stallOps, CmdOp.BelongsTo]
  | clearStall n d => simp [opsOf, clearStallOps, CmdOp.BelongsTo]
  | cfgAlloc table count =>
      have hloop : ∀ op ∈ ((endpoints m).filter (fun n => n != 0)).map CmdOp.commitEp,
          op.BelongsTo (.cfgAlloc table count) := by
        intro op hop
        obtain ⟨n, -, rfl⟩ := List.mem_map.mp hop
        exact ⟨table, count, rfl⟩
      simp only [opsOf, cfgAllocOps, List.forall_mem_append]
      exact ⟨⟨by simp [CmdOp.BelongsTo], hloop⟩, by simp [CmdOp.BelongsTo]⟩
  | reservedE high low => simp [opsOf]
  | reservedF high low => simp [opsOf]

/-- What a numbered step of a command leaves alone. -/
structure CmdFrame (op : CmdOp) (s t : State) : Prop extends SameControl s t, SameQueues s t where
  cfg : t.cfg = s.cfg := by simp
  port : t.port = s.port := by simp
  turns : t.turns = s.turns := by simp
  irqEn : (∀ v, op ≠ .setIrqEn v) → t.irqEn = s.irqEn := by simp
  layout : op.placesFifo = false → SameLayout s t := by exact fun _ => {}
  lengths : ∀ n d, op.writesLength n d = false →
    (t.recAt n d).totalLen = (s.recAt n d).totalLen := by simp [State.recAt]

theorem waitFor_meets (h : P s) (b : Bool) : (waitFor b l s).Meets P := by
  unfold waitFor
  repeat' split
  all_goals exact h

theorem bringUpStep_cmdFrame (k : BringUpStep) :
    (bringUpStep k s).Meets (CmdFrame (.bringUp k) s) := by
  unfold bringUpStep
  split
  · exact ⟨by decide, {}⟩
  · cases k <;> simp only [Act.Meets, bringUpWrite] <;> exact { layout := nofun }

theorem txBindFifo_cmdFrame (n : EpNum) (mps : Nat) :
    (txBindFifo n mps s).Meets (CmdFrame (.txBindFifo n mps) s) := by
  unfold txBindFifo
  dsimp only
  split
  · split
    · exact ⟨by decide, {}⟩
    · exact {}
  · split
    · exact ⟨by decide, {}⟩
    · exact { layout := nofun }

theorem cmdStep_frame (op : CmdOp) (l : CmdLocals) (s : State) :
    (cmdStep op l s).Meets (CmdFrame op s) := by
  cases op with
  | checkEp n =>
      simp only [cmdStep]
      split
      · exact ⟨by decide, {}⟩
      · exact {}
  | initBlock => exact { layout := nofun, lengths := nofun }
  | bringUp k => exact (bringUpStep_cmdFrame k).cmd l
  | setIrqEn v => exact { irqEn := fun h => absurd rfl (h v) }
  | openCeiling ty mps =>
      simp only [cmdStep]
      split
      · exact ⟨by decide, {}⟩
      · exact {}
  | openSize n d mps =>
      simp only [cmdStep, CmdRes.Meets, openSize]
      refine { lengths := fun m e _ => ?_ }
      rw [recAt_setRec]
      split
      · next hat => obtain ⟨rfl, rfl⟩ := hat; rfl
      · rfl
  | openProgram n d ty mps =>
      have hset : CmdFrame (.openProgram n d ty mps) s
        (s.setEp n d { s.epAt n d with active := true, ty := ty, mps := mps }) := {}
      exact hset
  | txBindFifo n mps => exact (txBindFifo_cmdFrame n mps).cmd l
  | xferCheck n d length =>
      simp only [cmdStep, xferCheck]
      split
      · exact ⟨by decide, {}⟩
      · split
        · exact ⟨by decide, {}⟩
        · exact {}
  | xferRecord n d buffer length =>
      simp only [cmdStep, xferRecord]
      split
      · trivial
      · refine { lengths := fun m e hother => ?_ }
        have hrec := recAt_setRec s n m d e
          { s.recAt n d with buffer := buffer, totalLen := length }
        rw [if_neg (of_decide_eq_false hother)] at hrec
        exact congrArg Record.totalLen hrec
  | armTxe n d =>
      cases d with
      | out => exact {}
      | inn =>
          simp only [cmdStep, State.armTxe]
          split <;> exact {}
  | stallIdle n d =>
      simp only [cmdStep]
      split <;> exact {}
  | stallWaitNak n d => exact waitFor_meets {} _
  | stallWaitFlush => exact waitFor_meets {} _
  | clearTest n d =>
      simp only [cmdStep]
      split <;> exact {}
  | clearToggle n d =>
      simp only [cmdStep, clearToggle]
      split <;> exact {}
  | cfgBegin =>
      simp only [cmdStep]
      split
      · exact {}
      · trivial
  | cfgRead table count =>
      simp only [cmdStep, cfgRead]
      split
      · exact {}
      · exact ⟨by decide, {}⟩
  | cfgCapacity =>
      simp only [cmdStep, cfgCapacity]
      split <;> exact {}
  | commitRx => exact { layout := nofun }
  | commitEp0 => exact { layout := nofun }
  | commitEp n =>
      simp only [cmdStep, commitEpStep, commitEndpoint]
      split <;> exact { layout := nofun }
  | commitCount => exact { layout := nofun }
  | _ => exact {}

end Sys2Proof.Machine
end

section
/-! A property that every numbered step keeps holds where a run or a command taken whole ends
(30_encoding.md R110, 60_exceptions.md R301, R324). -/

namespace Sys2Proof.Machine

open Sys2Proof

variable {P : State → Prop} {s t : State}

/-! ## Dispatcher runs -/

theorem repeatStep_meets {op : IrqOp} (hop : ∀ l u, P u → (irqStep op l u).Meets P) (h : P s)
    (k : Nat) (l : IrqLocals) : (repeatStep k op l s).Meets P := by
  induction k generalizing l s with
  | zero => exact h
  | succ k ih =>
      have hstep := hop l s h
      cases hr : irqStep op l s with
      | go l1 s1 =>
          rw [repeatStep_go hr]
          rwa [hr] at hstep
      | again l1 s1 =>
          rw [hr] at hstep
          rw [repeatStep_again hr]
          exact ih hstep l1
      | bad c s1 =>
          rw [repeatStep_bad hr]
          rwa [hr] at hstep

theorem runOps_meets {ops : List IrqOp}
    (hops : ∀ op ∈ ops, ∀ l u, P u → (irqStep op l u).Meets P) (h : P s) (l : IrqLocals) :
    (runOps ops l s).Meets P := by
  induction ops generalizing l s with
  | nil => exact h
  | cons op ops ih =>
      have hstep := repeatStep_meets (hops op List.mem_cons_self) h (repeatBound op s) l
      unfold runOps
      split
      · next l1 s1 hr =>
          rw [hr] at hstep
          exact ih (fun o ho => hops o (List.mem_cons_of_mem op ho)) hstep l1
      · next hr => rwa [hr] at hstep
      · next hr => rwa [hr] at hstep

theorem dispatchRun_frame (s : State) : (dispatchRun s).Meets (RunFrame s) :=
  runOps_meets (fun op _ l _ hu => irqStep_frame hu op l) {} {}

/-! ## Commands -/

/-- A property that does not depend on how a command ends: on the control state it leaves, on the
response, or on a fault with a cause. -/
structure EndsWell (P : State → Prop) : Prop where
  setCtx : ∀ u x, P u → P { u with ctx := x }
  respond : ∀ u r, P u → P (u.respond r)
  raiseFault : ∀ u c, c ≠ .noFault → P u → P (u.raiseFault c)

/-- A property that a dispatcher run taken whole keeps, however it ends. -/
def KeptByRun (P : State → Prop) : Prop :=
  ∀ u, P u → (dispatchRun { u with irqDue := false }).Meets P

theorem keptByRun_of_frame (hP : ∀ u v, P u → RunFrame { u with irqDue := false } v → P v) :
    KeptByRun P := fun u hu => (dispatchRun_frame { u with irqDue := false }).mono (hP u · hu)

/-- Whatever state the rest of the command ends in meets `P`. -/
def RunEnds (P : State → Prop) (i : Instr) (todo : List CmdOp) (l : CmdLocals) (s : State) : Prop :=
  ∀ t, runCmd i todo l s = .next t → P t

variable {i : Instr} {op : CmdOp} {rest : List CmdOp} {l : CmdLocals}

/-- A step that leaves `P`, and what is left after it: after a step that completes, and after the
dispatcher run that is the step of IRQ_ENTRY. -/
theorem runEnds_step (hend : EndsWell P) (hstep : (cmdStep op l s).Meets P)
    (hgo : ∀ l1 s1, cmdStep op l s = .go l1 s1 → P s1 → RunEnds P i rest l1 s1)
    (henter : op = .runDispatcher → KeptByRun P ∧ ∀ s1, P s1 → RunEnds P i rest l s1) :
    RunEnds P i (op :: rest) l s := by
  intro t ht
  cases hr : cmdStep op l s with
  | go l1 s1 =>
      rw [hr] at hstep
      exact hgo l1 s1 hr hstep t ((runCmd_go hr).symm.trans ht)
  | hold l1 s1 =>
      rw [hr] at hstep
      rw [runCmd_hold hr] at ht
      cases ht
      exact hend.setCtx s1 _ hstep
  | respond r s1 =>
      rw [hr] at hstep
      rw [runCmd_respond hr] at ht
      cases ht
      exact hend.respond s1 r hstep
  | raise c s1 =>
      rw [hr] at hstep
      rw [runCmd_raise hr] at ht
      cases ht
      exact hend.raiseFault _ c hstep.1 (hend.setCtx s1 _ hstep.2)
  | refuse r =>
      rw [runCmd_refuse hr] at ht
      cases ht
  | enter s1 =>
      rw [hr] at hstep
      obtain ⟨hrun, hrest⟩ := henter (cmdStep_enter_iff.mp ⟨s1, hr⟩)
      have hd := hrun s1 hstep
      simp only [runCmd, hr] at ht
      split at ht
      · next s2 hs2 =>
          rw [hs2] at hd
          exact hrest s2 hd t ht
      · next s2 hs2 =>
          rw [hs2] at hd
          cases ht
          exact hend.setCtx s2 _ hd
      · next c todo il s2 hs2 =>
          rw [hs2] at hd
          cases ht
          exact hend.raiseFault _ c hd.1 (hend.setCtx s2 _ hd.2)

/-- A step of a command other than IRQ_ENTRY. -/
theorem runEnds_cons (hend : EndsWell P) (hstep : (cmdStep op l s).Meets P)
    (hgo : ∀ l1 s1, cmdStep op l s = .go l1 s1 → P s1 → RunEnds P i rest l1 s1)
    (hne : op ≠ .runDispatcher := by simp) : RunEnds P i (op :: rest) l s :=
  runEnds_step hend hstep hgo fun he => absurd he hne

theorem runEnds_all {ops : List CmdOp} (hend : EndsWell P)
    (hops : ∀ op ∈ ops, ∀ l u, P u → (cmdStep op l u).Meets P)
    (hrun : .runDispatcher ∈ ops → KeptByRun P) (h : P s) : RunEnds P i ops l s := by
  induction ops generalizing l s with
  | nil =>
      intro t ht
      cases ht
      exact hend.setCtx s _ h
  | cons op ops ih =>
      have htail {l1 : CmdLocals} {s1 : State} (h1 : P s1) : RunEnds P i ops l1 s1 :=
        ih (fun o ho => hops o (List.mem_cons_of_mem op ho))
          (fun hd => hrun (List.mem_cons_of_mem op hd)) h1
      exact runEnds_step hend (hops op List.mem_cons_self l s h) (fun _ _ _ h1 => htail h1)
        fun hd => ⟨hrun (hd ▸ List.mem_cons_self), fun _ h1 => htail h1⟩

/-- What every step of a command keeps, the command taken whole keeps, accepted or not. -/
theorem exec_meets (hend : EndsWell P)
    (hops : ∀ op ∈ opsOf s.cfg.maxEndpoints i, ∀ l u, P u → (cmdStep op l u).Meets P)
    (hrun : i = .irqEntry → KeptByRun P) (h : P s) (ht : exec i s = .next t) : P t := by
  cases ha : s.accepts with
  | false =>
      rw [exec_busy ha] at ht
      cases ht
      exact h
  | true =>
      by_cases hnil : opsOf s.cfg.maxEndpoints i = []
      · rw [exec_without_steps hnil, illegalCommand_accepted ha] at ht
        cases ht
        exact hend.raiseFault s _ (by decide) h
      · rw [exec_with_steps hnil, runCommand_accepted ha] at ht
        exact runEnds_all hend hops (fun hd => hrun (belongsTo_of_mem_opsOf _ hd)) h t ht

/-! ## What a command taken whole leaves alone -/

theorem Continues.trans {s0 : State} (h : Continues s0 s) (g : Continues s t) : Continues s0 t where
  cfg := g.cfg.trans h.cfg
  port := g.port.trans h.port
  turns := g.turns.trans h.turns
  events := h.events.trans g.events

theorem SameQueues.trans {s0 : State} (h : SameQueues s0 s) (g : SameQueues s t) :
    SameQueues s0 t where
  mem := g.mem.trans h.mem
  rxq := g.rxq.trans h.rxq
  txq := g.txq.trans h.txq
  events := g.events.trans h.events

theorem CmdFrame.continues {op : CmdOp} (h : CmdFrame op s t) : Continues s t where
  cfg := h.cfg
  port := h.port
  turns := h.turns
  events := h.events ▸ List.prefix_rfl

theorem exec_continues (ht : exec i s = .next t) : Continues s t := by
  have hend : EndsWell (Continues s) :=
    ⟨fun _ _ hu => hu.trans {}, fun _ _ hu => hu.trans {}, fun _ _ _ hu => hu.trans {}⟩
  have hrun : KeptByRun (Continues s) := keptByRun_of_frame fun u v hu hv =>
    Continues.trans (s := { u with irqDue := false }) (hu.trans {}) hv.toContinues
  exact exec_meets hend
    (fun op _ l u hu => (cmdStep_frame op l u).mono fun v hv => hu.trans hv.continues)
    (fun _ => hrun) {} ht

theorem exec_sameQueues (hi : i ≠ .irqEntry) (ht : exec i s = .next t) :
    SameQueues s t := by
  have hend : EndsWell (SameQueues s) :=
    ⟨fun _ _ hu => hu.trans {}, fun _ _ hu => hu.trans {}, fun _ _ _ hu => hu.trans {}⟩
  refine exec_meets hend (fun op _ l u hu => ?_) (fun h => absurd h hi) {} ht
  exact (cmdStep_frame op l u).mono fun v hv => hu.trans hv.toSameQueues

/-- Only IRQ_ENABLE and IRQ_DISABLE have a step that writes IRQ_EN (45_system_ops.md R270, R271). -/
theorem ne_setIrqEn_of_mem {m : Nat} (hen : i ≠ .irqEnable) (hdis : i ≠ .irqDisable)
    (hop : op ∈ opsOf m i) (v : Bool) : op ≠ .setIrqEn v := by
  rintro rfl
  exact (belongsTo_of_mem_opsOf _ hop).elim hen hdis

theorem exec_irqEn (hen : i ≠ .irqEnable) (hdis : i ≠ .irqDisable)
    (ht : exec i s = .next t) : t.irqEn = s.irqEn := by
  refine exec_meets (P := fun u => u.irqEn = s.irqEn)
    ⟨fun _ _ hu => hu, fun _ _ hu => hu, fun _ _ _ hu => hu⟩
    (fun op hop l u hu => ?_) (fun _ => keptByRun_of_frame fun u v hu hv => hv.irqEn.trans hu)
    rfl ht
  exact (cmdStep_frame op l u).mono fun v hv =>
    (hv.irqEn (ne_setIrqEn_of_mem hen hdis hop)).trans hu

/-- Settles O48: each step of a command leaves these alone, and so does the run of IRQ_ENTRY where the
statement speaks of it. -/
theorem commandFrame : Obligations.CommandFrame := by
  unfold Obligations.CommandFrame
  intro i s t ht
  obtain ⟨hcfg, hport, hturns, hevents⟩ := exec_continues ht
  obtain ⟨es, hes⟩ := hevents
  refine ⟨fun hi => ?_, ⟨es, hes.symm⟩, hcfg, hport, hturns, fun hen hdis => exec_irqEn hen hdis ht⟩
  obtain ⟨hmem, hrxq, htxq, hev⟩ := exec_sameQueues hi ht
  exact ⟨fun a => by rw [hmem], hrxq, htxq, hev⟩

/-! ## Recorded lengths (10_state.md R23) -/

/-- Only XFER of (n, d) and INIT have a step that writes the recorded length of (n, d). -/
theorem writesLength_false_of_mem {m : Nat} {n : EpNum} {d : Dir} (hinit : i ≠ .init)
    (hxfer : ∀ buffer length, i ≠ .xfer n d buffer length) (hop : op ∈ opsOf m i) :
    op.writesLength n d = false := by
  have hof := belongsTo_of_mem_opsOf _ hop
  cases op with
  | initBlock => exact absurd hof hinit
  | xferRecord k e buffer length =>
      refine decide_eq_false ?_
      rintro ⟨rfl, rfl⟩
      exact hxfer buffer length hof
  | _ => rfl

theorem exec_totalLen {n : EpNum} {d : Dir} (hinit : i ≠ .init) (hrun : i ≠ .irqEntry)
    (hxfer : ∀ buffer length, i ≠ .xfer n d buffer length) (ht : exec i s = .next t) :
    (t.recAt n d).totalLen = (s.recAt n d).totalLen := by
  refine exec_meets (P := fun u => (u.recAt n d).totalLen = (s.recAt n d).totalLen)
    ⟨fun _ _ hu => hu, fun _ _ hu => hu, fun _ _ _ hu => hu⟩
    (fun op hop l u hu => ?_) (fun h => absurd h hrun) rfl ht
  exact (cmdStep_frame op l u).mono fun v hv =>
    (hv.lengths n d (writesLength_false_of_mem hinit hxfer hop)).trans hu

/-- Settles O27: by the frame of a command's steps, and by that of the steps of a run outside a bus
reset, where the drain keeps the lengths of IN. -/
theorem requestedLengthKept : Obligations.RequestedLengthKept := by
  unfold Obligations.RequestedLengthKept
  refine ⟨fun i s t n d ht hinit hrun hxfer => exec_totalLen hinit hrun hxfer ht,
    fun op l s n d hop hd => ?_⟩
  have hself : HandlerFrame (fun e => e = .inn ∨ op ≠ .drainLoop) s s := {}
  have hwho : op = .drainLoop → (fun e => e = Dir.inn ∨ op ≠ .drainLoop) = (· = Dir.inn) := by
    rintro rfl
    simp
  exact (irqStep_handler hop hwho hself l).state.lengths d hd n

end Sys2Proof.Machine
end

section
/-! A property that every kind of move keeps, every step of the machine keeps; and the fault record, which is
one (10_state.md R34, 60_exceptions.md R301). -/

namespace Sys2Proof.Machine

open Sys2Proof

variable {P : State → Prop} {s t : State}

/-! ## Every step of the machine -/

/-- A property kept by every numbered step, by every move of the other agents, and by a power cycle, that
does not depend on the control state, the response, the schedule, or a fault with a cause. -/
structure KeptByMoves (P : State → Prop) : Prop extends EndsWell P where
  schedule : ∀ u due port turns, P u → P { u with irqDue := due, port := port, turns := turns }
  cmdStep : ∀ op l u, P u → (cmdStep op l u).Meets P
  irqStep : ∀ op l u, P u → (irqStep op l u).Meets P
  envMove : ∀ m u, P u → P (envMove m u)
  store : ∀ u a v, P u → P { u with mem := memWrite u.mem a v }
  consume : ∀ u, P u → P { u with events := u.events.tail }
  powerOn : ∀ u p, P u → P (u.powerOn p)

namespace KeptByMoves

theorem setTurns (hP : KeptByMoves P) (h : P s) (ts : List Turn) : P { s with turns := ts } :=
  hP.schedule s s.irqDue s.port ts h

theorem setPort (hP : KeptByMoves P) (h : P s) (ws : List CmdWord) : P { s with port := ws } :=
  hP.schedule s s.irqDue ws s.turns h

theorem keptByRun (hP : KeptByMoves P) : KeptByRun P := fun u hu =>
  runOps_meets (fun op _ => hP.irqStep op) (hP.schedule u false u.port u.turns hu) {}

theorem exec (hP : KeptByMoves P) {i : Instr} (h : P s) (ht : exec i s = .next t) : P t :=
  exec_meets hP.toEndsWell (fun op _ => hP.cmdStep op) (fun _ => hP.keptByRun) h ht

theorem enterRun (hP : KeptByMoves P) (h : P s) (ret : Option CmdPos) : P (s.enterRun ret) :=
  hP.schedule _ false s.port s.turns (hP.setCtx s (.irq .entry ret) h)

theorem startRun (hP : KeptByMoves P) (h : P s) : P (startRun s) := by
  unfold Machine.startRun
  split
  · exact hP.enterRun h _
  · exact h

theorem acceptCommand (hP : KeptByMoves P) (h : P s) (i : Instr) : P (acceptCommand i s) := by
  unfold Machine.acceptCommand
  split
  · exact hP.raiseFault s _ (by decide) h
  · exact hP.setCtx s _ h

theorem cmdMicro (hP : KeptByMoves P) {p : CmdPos} (h : P s) (ht : cmdMicro p s = .next t) :
    P t := by
  unfold Machine.cmdMicro at ht
  split at ht
  · cases ht
    exact hP.setCtx s _ h
  · next op rest _ =>
      have hstep := hP.cmdStep op p.locals s h
      split at ht
      · next u hr => rw [hr] at hstep; cases ht; exact hP.setCtx u _ hstep
      · next u hr => rw [hr] at hstep; cases ht; exact hP.setCtx u _ hstep
      · next r u hr => rw [hr] at hstep; cases ht; exact hP.respond u r hstep
      · next c u hr => rw [hr] at hstep; cases ht; exact hP.raiseFault u c hstep.1 hstep.2
      · cases ht
      · next hr => rw [hr] at hstep; cases ht; exact hP.enterRun hstep _

theorem irqMicro (hP : KeptByMoves P) (h : P s) (p : IrqPos) (ret : Option CmdPos) :
    P (irqMicro p ret s) := by
  unfold Machine.irqMicro
  split
  · exact hP.setCtx s _ h
  · exact hP.setCtx s _ h
  · next op rest l =>
      have hstep := hP.irqStep op l s h
      split
      · next u hr => rw [hr] at hstep; exact hP.setCtx u _ hstep
      · next u hr => rw [hr] at hstep; exact hP.setCtx u _ hstep
      · next c u hr => rw [hr] at hstep; exact hP.raiseFault u c hstep.1 hstep.2

theorem runInterrupt (hP : KeptByMoves P) (h : P s) : P (runInterrupt s) := by
  have hrun := hP.keptByRun s h
  unfold Machine.runInterrupt
  split
  · split
    · next hr => rw [hr] at hrun; exact hrun
    · next u hr => rw [hr] at hrun; exact hP.setCtx u _ hrun
    · next c todo l u hr =>
        rw [hr] at hrun
        exact hP.raiseFault _ c hrun.1 (hP.setCtx u _ hrun.2)
  · exact h

theorem takeCommand (hP : KeptByMoves P) {run : Instr → State → Host.Outcome State Fault Refusal}
    (hrun : ∀ i u, P u → run i u = .next t → P t) (h : P s)
    (ht : takeCommand run s = .next t) : P t := by
  unfold Machine.takeCommand at ht
  split at ht
  · cases ht
    exact h
  · next w ws _ =>
      have hpop := hP.setPort h ws
      split at ht
      · next ha =>
          split at ht
          · exact hrun _ _ hpop ht
          · rw [illegalCommand_accepted (s := { s with port := ws }) ha] at ht
            cases ht
            exact hP.raiseFault _ _ (by decide) hpop
      · cases ht
        exact h

theorem takeExec (hP : KeptByMoves P) (h : P s) (ht : Machine.takeCommand Machine.exec s = .next t) :
    P t :=
  hP.takeCommand (fun _ _ hu hi => hP.exec hu hi) h ht

theorem blockMove (hP : KeptByMoves P) (h : P s) (ht : blockMove s = .next t) : P t := by
  unfold Machine.blockMove at ht
  split at ht
  · cases ht
    exact h
  · split at ht
    · split at ht
      · cases ht
        exact hP.startRun h
      · refine hP.takeCommand (fun i u hu hi => ?_) h ht
        cases hi
        exact hP.acceptCommand hu i
    · exact hP.cmdMicro h ht
    · cases ht
      exact hP.irqMicro h _ _

theorem moveAlone (hP : KeptByMoves P) (h : P s) (ht : moveAlone s = .next t) : P t := by
  unfold Machine.moveAlone at ht
  split at ht
  · cases ht
  · split at ht
    · split at ht
      · cases ht
        exact hP.startRun h
      · split at ht
        · cases ht
          exact hP.startRun h
        · exact hP.takeExec h ht
    · split at ht
      · cases ht
        exact hP.startRun h
      · exact hP.cmdMicro h ht
    · cases ht
      exact hP.irqMicro h _ _

theorem takeTurn (hP : KeptByMoves P) {turn : Turn} (h : P s) (ht : takeTurn turn s = .next t) :
    P t := by
  cases turn with
  | block => exact hP.blockMove h ht
  | command =>
      simp only [Machine.takeTurn] at ht
      split at ht
      · cases ht
        exact hP.startRun (hP.setTurns h _)
      · exact hP.takeExec h ht
  | irq => cases ht; exact hP.startRun h
  | irqRun => cases ht; exact hP.runInterrupt h
  | env m => cases ht; exact hP.envMove m s h
  | present w => cases ht; exact hP.setPort h _
  | store a v => cases ht; exact hP.store s a v h
  | consume => cases ht; exact hP.consume s h
  | powerOn p => cases ht; exact hP.powerOn s p h

/-- Whoever moves, the property is kept. -/
theorem step (hP : KeptByMoves P) (h : P s) (ht : step s = .next t) : P t := by
  cases hturns : s.turns with
  | nil => exact hP.moveAlone h ((nextMove_alone hturns).symm.trans ht)
  | cons turn ts => exact hP.takeTurn (hP.setTurns h ts) ((nextMove_cons hturns).symm.trans ht)

end KeptByMoves

/-! ## The fault record (10_state.md R34) -/

theorem FaultRecorded.of_control (h : FaultRecorded s) (hc : SameControl s t) : FaultRecorded t := by
  rw [FaultRecorded, hc.halted, hc.faultCause]
  exact h

theorem faultRecorded_raiseFault (s : State) {c : FaultCause} (hc : c ≠ .noFault) :
    FaultRecorded (s.raiseFault c) := by
  simp [FaultRecorded, hc]

/-- No move of the environment touches the fault record, the control state or the response
(46_environment.md R280). -/
theorem envMove_control (m : EnvMove) (s : State) : SameControl s (envMove m s) := by
  cases m with
  | usbReset ep0Active clearActive clearEna clearDpid emptyTx endSetup =>
      simp only [envMove, envUsbReset]
      split <;> exact {}
  | setSpeed v =>
      simp only [envMove, envSetSpeed]
      split <;> exact {}
  | enumDone =>
      simp only [envMove, envEnumDone]
      split <;> exact {}
  | setupPacket w0 w1 =>
      simp only [envMove, envSetupPacket]
      split <;> exact {}
  | setupOver =>
      simp only [envMove, envSetupOver]
      split <;> exact {}
  | outPacket n bytes dpid fill =>
      simp only [envMove, envOutPacket]
      split <;> exact {}
  | outEnd n =>
      simp only [envMove, envOutEnd]
      split <;> exact {}
  | sendIn n =>
      simp only [envMove, envSendIn]
      split
      · split <;> exact {}
      · exact {}
  | globalOutNak n =>
      simp only [envMove, envGlobalOutNak]
      split <;> exact {}
  | nakEffective n d =>
      simp only [envMove, envNakEffective]
      split <;> exact {}
  | flushDone also =>
      simp only [envMove, envFlushDone]
      split <;> exact {}
  | disableDone n d complete =>
      have hoff (r : EpRegs) : SameControl s (setEpIf s n d (s.epAt n d).disreq r) := by
        unfold setEpIf
        split <;> exact {}
      simp only [envMove, envDisableDone]
      split
      · exact { hoff _ with }
      · exact hoff _
  | dataToggle n d v =>
      simp only [envMove, setEpIf]
      split <;> exact {}
  | breakContract ws =>
      simp only [envMove, envBreak]
      split <;> exact {}
  | _ =>
      simp only [envMove]
      exact {}

/-- Only a raised fault halts, it has a cause, and a power cycle clears both. -/
theorem faultRecorded_keptByMoves : KeptByMoves FaultRecorded where
  setCtx _ _ h := h
  respond _ _ h := h
  raiseFault u _ hc _ := faultRecorded_raiseFault u hc
  schedule _ _ _ _ h := h
  cmdStep op l u h := (cmdStep_frame op l u).mono fun _ hv => h.of_control hv.toSameControl
  irqStep op l u h :=
    (irqStep_frame (s0 := u) {} op l).mono fun _ hv => h.of_control hv.toSameControl
  envMove m u h := h.of_control (envMove_control m u)
  store _ _ _ h := h
  consume _ h := h
  powerOn _ _ _ := ⟨nofun, fun hc => absurd rfl hc⟩

/-- Settles O53: the record is kept by every kind of move. -/
theorem faultRecordedKept : Obligations.FaultRecordedKept := by
  unfold Obligations.FaultRecordedKept
  exact fun s t h ht => faultRecorded_keptByMoves.step h ht

end Sys2Proof.Machine
end

section
/-! The runs the model refuses, and the state after reset and after a power cycle (10_state.md R25, R63,
40_fifo_allocator.md R160). -/

namespace Sys2Proof.Machine

open Sys2Proof

variable {s : State}

/-! ## Refused runs -/

/-- XFER that passes its checks over a transfer in flight (93_implementation_defined.md U1). -/
theorem exec_xfer_refused (ha : s.accepts = true) {n : EpNum} {d : Dir} (buffer : Word) (length : Nat)
    (hn : n.val < s.cfg.maxEndpoints) (hm : (s.recAt n d).maxSize ≠ 0)
    (hpk : n = 0 ∨ packetCount length (s.recAt n d).maxSize ≤ 1023)
    (hfly : s.inFlightAt n d = true) :
    exec (.xfer n d buffer length) s = .refused .xferInFlight := by
  have hep : cmdStep (.checkEp n) {} s = .go {} s := by
    simp only [cmdStep, if_neg (Nat.not_le.mpr hn)]
  have hfew : ¬ (n ≠ 0 ∧ packetCount length (s.recAt n d).maxSize > maxPktcnt) := by
    rintro ⟨hn0, hbig⟩
    exact absurd (hpk.resolve_left hn0) (Nat.not_le.mpr hbig)
  have hcheck : cmdStep (.xferCheck n d length) {} s =
      .go { pk := packetCount length (s.recAt n d).maxSize, by_ := length } s := by
    simp only [cmdStep, xferCheck, if_neg hm, if_neg hfew]
  change runCommand _ (xferOps n d buffer length) s = _
  rw [runCommand_accepted ha]
  refine (runCmd_go hep).trans ((runCmd_go hcheck).trans (runCmd_refuse ?_))
  simp only [cmdStep, xferRecord, if_pos hfly]

/-- An enabled IN endpoint or a word in RXQ is what the test of R160 finds. -/
theorem not_quiescent (h : s.pi.rxq ≠ [] ∨
    ∃ n : EpNum, n.val < s.cfg.maxEndpoints ∧ (s.epAt n .inn).ena = true) : quiescent s = false := by
  simp only [quiescent, Bool.and_eq_false_iff, List.all_eq_false]
  rcases h with hq | ⟨n, hn, hena⟩
  · exact .inl (by simpa using hq)
  · exact .inr ⟨n, (mem_endpoints _ n).mpr hn, by simp [hena]⟩

/-- CFG_ALLOC over a block that is not quiescent (93_implementation_defined.md U3). -/
theorem exec_cfgAlloc_refused (ha : s.accepts = true) (table : Word) (count : Nat)
    (hq : quiescent s = false) :
    exec (.cfgAlloc table count) s = .refused .cfgAllocNotQuiescent := by
  change runCommand _ (cfgAllocOps s.cfg.maxEndpoints table count) s = _
  rw [runCommand_accepted ha]
  exact runCmd_refuse (by simp [cmdStep, hq])

/-- Settles O37: the steps before the refusing one pass and write nothing. -/
theorem refusedRuns : Obligations.RefusedRuns := by
  unfold Obligations.RefusedRuns
  intro s ha
  exact ⟨fun n d buffer length hn hm hpk hfly => exec_xfer_refused ha buffer length hn hm hpk hfly,
    fun table count h => exec_cfgAlloc_refused ha table count (not_quiescent h)⟩

/-! ## Power-on and reset (10_state.md R63, 70_reset_and_hazards.md R340) -/

/-- No transfer is recorded after reset. -/
theorem recAt_reset (n : EpNum) (d : Dir) : State.reset.recAt n d = Record.zero := by
  change ((Both.same (Bank.all Record.zero)).get d)[n] = Record.zero
  rw [Both.get_same, Bank.get_all]

theorem txfValid_reset (n : EpNum) : State.reset.txfValid[n] = false := Bank.get_all false n

theorem epAt_reset (n : EpNum) (d : Dir) : State.reset.epAt n d = EpRegs.zero := by
  change ((Both.same (Bank.all EpRegs.zero)).get d)[n] = EpRegs.zero
  rw [Both.get_same, Bank.get_all]

theorem txf_reset (n : EpNum) : State.reset.pi.txf[n] = ⟨0, 0⟩ := Bank.get_all _ n

/-- Settles O54: the block's part of the state after a power cycle is that of the reset state. -/
theorem powerOnState : Obligations.PowerOnState := by
  unfold Obligations.PowerOnState
  intro s p ts hturns
  refine ⟨({ s with turns := ts } : State).powerOn p, nextMove_cons hturns, recAt_reset, rfl, rfl,
    txfValid_reset, rfl, rfl, rfl, rfl, rfl, rfl, rfl, rfl, rfl⟩

theorem fits_reset : Fits State.reset where
  totalLen n d := by rw [recAt_reset]; decide
  maxSize n d := by rw [recAt_reset]; decide
  pending d := by cases d <;> decide
  allocWords := by decide
  rxfDepth := by decide
  txf n := by rw [txf_reset]; decide
  pktcnt n d := by rw [epAt_reset]; decide
  xfrsiz n d := by rw [epAt_reset]; decide
  mps n d := by rw [epAt_reset]; decide
  setupcnt := by decide

/-- No FIFO is placed after reset, and no word of FIFO RAM is counted. -/
theorem layoutOk_reset : LayoutOk State.reset := by
  have hnone (n : EpNum) (w : Nat) : ¬ State.reset.inTxFifo n w := by
    rintro ⟨-, hv, -⟩
    rw [txfValid_reset] at hv
    cases hv
  exact
    { capacity := by decide
      covered := fun w =>
        ⟨fun hw => absurd hw (Nat.not_lt_zero w),
          fun hw => hw.elim (fun hrx => absurd hrx (Nat.not_lt_zero w))
            fun ⟨n, hn⟩ => absurd hn (hnone n w)⟩
      rxLowest := fun n w hn => absurd hn (hnone n w)
      disjoint := fun m n w hm => absurd hm (hnone m w) }

/-- Settles O57. -/
theorem resetInvariants : Obligations.ResetInvariants := by
  unfold Obligations.ResetInvariants
  exact ⟨State.wf_reset_mem, fits_reset, layoutOk_reset, ⟨nofun, fun hc => absurd rfl hc⟩, by decide⟩

end Sys2Proof.Machine
end

section
/-! No numbered step reads BUS_STATE: from a state that differs only in it a step gives the same, and leaves
a state that differs only in it (10_state.md R32, 44_dispatcher.md R250). -/

namespace Sys2Proof.Machine

open Sys2Proof

/-- The state with another BUS_STATE. -/
def State.withBus (b : BusState) (s : State) : State := { s with busState := b }

variable {s : State} {b : BusState}

@[simp] theorem withBus_cfg : (s.withBus b).cfg = s.cfg := rfl

@[simp] theorem withBus_pi : (s.withBus b).pi = s.pi := rfl

@[simp] theorem recAt_withBus (n : EpNum) (d : Dir) : (s.withBus b).recAt n d = s.recAt n d := rfl

@[simp] theorem epAt_withBus (n : EpNum) (d : Dir) : (s.withBus b).epAt n d = s.epAt n d := rfl

@[simp] theorem forgetBus_withBus : (s.withBus b).forgetBus = s.forgetBus := rfl

/-! ## Shared operations -/

theorem bringUpStep_withBus (k : BringUpStep) :
    bringUpStep k (s.withBus b) = (bringUpStep k s).map (State.withBus b) := by
  unfold bringUpStep
  rw [apply_ite (Act.map (State.withBus b))]
  cases k <;> rfl

/-- Only the last step of a bus reset writes BUS_STATE. -/
theorem busResetStep_withBus (k : BusResetStep) :
    ∃ b1, busResetStep k (s.withBus b) = (busResetStep k s).map (State.withBus b1) := by
  cases k with
  | bringUp k => exact ⟨b, bringUpStep_withBus k⟩
  | busState => exact ⟨.resetInProgress, rfl⟩
  | _ => exact ⟨b, rfl⟩

/-- SUSPEND and RESUME test BUS_STATE only to write it (R228, R229). -/
theorem handleSignal_withBus (k : Signal) :
    ∃ b1, handleSignal k (s.withBus b) = (handleSignal k s).withBus b1 := by
  refine ⟨(handleSignal k (s.withBus b)).busState, ?_⟩
  cases k with
  | unplugged => rfl
  | _ =>
      simp only [handleSignal]
      split <;> split <;> rfl

theorem Act.andThen_map {f : State → State} {a : Act} {g : State → Act}
    (hg : ∀ t, g (f t) = (g t).map f) : (a.map f).andThen g = (a.andThen g).map f := by
  cases a with
  | ok t => exact hg t
  | bad e t => rfl

theorem rxPop_withBus :
    (s.withBus b).rxPop = s.rxPop.map (fun p => (p.1, p.2.withBus b)) := by
  cases hq : s.pi.rxq with
  | nil => rw [rxPop_empty hq, rxPop_empty (s := s.withBus b) hq]; rfl
  | cons w ws => rw [rxPop_cons hq, rxPop_cons (s := s.withBus b) hq]; rfl

theorem fifoReadPacket_withBus (dst : Word) (len : Nat) :
    fifoReadPacket dst len (s.withBus b) = (fifoReadPacket dst len s).map (State.withBus b) := by
  simp only [fifoReadPacket, apply_ite (Act.map (State.withBus b))]
  rfl

theorem shortPacketTrim_withBus (n : EpNum) :
    shortPacketTrim n (s.withBus b) = (shortPacketTrim n s).map (State.withBus b) := by
  unfold shortPacketTrim
  simp only [apply_ite (Act.map (State.withBus b))]
  rfl

theorem rxOutData_withBus (n : EpNum) (bcnt : Nat) :
    rxOutData n bcnt (s.withBus b) = (rxOutData n bcnt s).map (State.withBus b) := by
  unfold rxOutData
  rw [apply_ite (Act.map (State.withBus b)), ← Act.andThen_map, ← fifoReadPacket_withBus]
  · rfl
  · intro t
    dsimp only
    rw [apply_ite (Act.map (State.withBus b)), ← shortPacketTrim_withBus]
    rfl

theorem rxOutDone_withBus (n : EpNum) : rxOutDone n (s.withBus b) = (rxOutDone n s).withBus b := by
  simp only [rxOutDone, apply_ite (State.withBus b)]
  rfl

theorem rxSetupData_withBus : rxSetupData (s.withBus b) = (rxSetupData s).map (State.withBus b) := by
  simp only [rxSetupData, State.rxPop, withBus_pi]
  rcases s.pi.rxq with _ | ⟨w0, _ | ⟨w1, ws⟩⟩ <;> rfl

theorem drainEntry_withBus : drainEntry (s.withBus b) = (drainEntry s).map (State.withBus b) := by
  unfold drainEntry
  rw [rxPop_withBus]
  cases s.rxPop with
  | none => rfl
  | some p =>
      simp only [Option.map_some]
      cases rxClass (statusCode p.1) with
      | outData => exact rxOutData_withBus _ _
      | outDone => exact congrArg Act.ok (rxOutDone_withBus _)
      | setupData => exact rxSetupData_withBus
      | _ => rfl

theorem armTxe_withBus (n : EpNum) (d : Dir) (by_ : Nat) :
    (s.withBus b).armTxe n d by_ = (s.armTxe n d by_).withBus b := by
  cases d with
  | out => rfl
  | inn =>
      simp only [State.armTxe, apply_ite (State.withBus b)]
      rfl

theorem ep0Continue_withBus (d : Dir) : ep0Continue (s.withBus b) d = (ep0Continue s d).withBus b := by
  have hsched : ep0Schedule (s.withBus b) d = (ep0Schedule s d).withBus b := by
    simp only [ep0Schedule, State.arm, ← armTxe_withBus]
    cases d <;> rfl
  unfold ep0Continue
  rw [apply_ite (State.withBus b), hsched]
  rfl

theorem transferComplete_withBus (n : EpNum) (d : Dir) :
    transferComplete n d (s.withBus b) = (transferComplete n d s).withBus b := by
  unfold transferComplete
  simp only [apply_ite (State.withBus b), ← ep0Continue_withBus]
  rfl

theorem txPushAll_withBus (n : EpNum) (ws : List Word) :
    txPushAll n ws (s.withBus b) = (txPushAll n ws s).map (State.withBus b) := by
  induction ws generalizing s with
  | nil => rfl
  | cons w ws ih =>
      have hpush : (s.withBus b).txPush n w = (s.txPush n w).map (State.withBus b) := by
        simp only [State.txPush, apply_ite (Act.map (State.withBus b))]
        rfl
      unfold txPushAll
      rw [hpush, Act.andThen_map fun _ => ih]

theorem feedStep_withBus (n : EpNum) :
    feedStep n (s.withBus b) = (feedStep n s).map (State.withBus b) := by
  have hwrite (src : Word) (k : Nat) : fifoWritePacket n src k (s.withBus b) =
      (fifoWritePacket n src k s).map (State.withBus b) := txPushAll_withBus n _
  simp only [feedStep, hwrite, recAt_withBus, epAt_withBus, withBus_pi,
    apply_ite (Feed.map (State.withBus b))]
  cases fifoWritePacket n (s.recAt n .inn).buffer
    (min (s.epAt n .inn).xfrsiz (s.recAt n .inn).maxSize) s <;> rfl

/-! ## The steps of a run -/

theorem irqStep_withBus (op : IrqOp) (l : IrqLocals) :
    ∃ b1, irqStep op l (s.withBus b) = (irqStep op l s).map (State.withBus b1) := by
  cases op with
  | busReset k =>
      obtain ⟨b1, hb⟩ := busResetStep_withBus (s := s) (b := b) k
      refine ⟨b1, ?_⟩
      simp only [irqStep, hb]
      cases busResetStep k s <;> rfl
  | setEnumerating => exact ⟨.enumerating, rfl⟩
  | signal k =>
      obtain ⟨b1, hb⟩ := handleSignal_withBus (s := s) (b := b) k
      exact ⟨b1, congrArg (IrqRes.go l) hb⟩
  | drainLoop =>
      refine ⟨b, ?_⟩
      simp only [irqStep, drainEntry_withBus, apply_ite (IrqRes.map (State.withBus b))]
      cases drainEntry s <;> rfl
  | outSetup n =>
      refine ⟨b, ?_⟩
      simp only [irqStep, outSetupPhase, IrqRes.map, apply_ite (State.withBus b)]
      rfl
  | outDone n =>
      refine ⟨b, ?_⟩
      simp only [irqStep, transferComplete_withBus, IrqRes.map, apply_ite (State.withBus b)]
  | inDone n =>
      refine ⟨b, ?_⟩
      simp only [irqStep, transferComplete_withBus, IrqRes.map, apply_ite (State.withBus b)]
      rfl
  | inFeed n =>
      refine ⟨b, ?_⟩
      simp only [irqStep, feedStep_withBus, apply_ite (IrqRes.map (State.withBus b))]
      cases feedStep n s <;> rfl
  | inFeedEnd n =>
      refine ⟨b, ?_⟩
      simp only [irqStep, feedEnd, IrqRes.map, apply_ite (State.withBus b)]
      rfl
  | _ => exact ⟨b, rfl⟩

theorem repeatStep_withBus (k : Nat) (op : IrqOp) (l : IrqLocals) :
    ∃ b1, repeatStep k op l (s.withBus b) = (repeatStep k op l s).map (State.withBus b1) := by
  induction k generalizing l s b with
  | zero => exact ⟨b, rfl⟩
  | succ k ih =>
      obtain ⟨b1, hb⟩ := irqStep_withBus (s := s) (b := b) op l
      simp only [repeatStep, hb]
      cases irqStep op l s with
      | go l1 s1 => exact ⟨b1, rfl⟩
      | again l1 s1 => exact ih l1
      | bad e s1 => exact ⟨b1, rfl⟩

theorem runOps_withBus (ops : List IrqOp) (l : IrqLocals) :
    ∃ b1, runOps ops l (s.withBus b) = (runOps ops l s).map (State.withBus b1) := by
  induction ops generalizing l s b with
  | nil => exact ⟨b, rfl⟩
  | cons op ops ih =>
      have hbound : repeatBound op (s.withBus b) = repeatBound op s := by cases op <;> rfl
      obtain ⟨b1, hb⟩ := repeatStep_withBus (s := s) (b := b) (repeatBound op s) op l
      simp only [runOps, hbound, hb]
      cases repeatStep (repeatBound op s) op l s with
      | go l1 s1 => exact ih l1
      | again l1 s1 => exact ⟨b1, rfl⟩
      | bad e s1 => exact ⟨b1, rfl⟩

theorem dispatchRun_withBus :
    ∃ b1, dispatchRun (s.withBus b) = (dispatchRun s).map (State.withBus b1) :=
  runOps_withBus _ _

/-! ## The steps of a command -/

theorem txBindFifo_withBus (n : EpNum) (mps : Nat) :
    txBindFifo n mps (s.withBus b) = (txBindFifo n mps s).map (State.withBus b) := by
  simp only [txBindFifo, apply_ite (Act.map (State.withBus b))]
  rfl

theorem waitFor_withBus (c : Bool) (l : CmdLocals) :
    waitFor c l (s.withBus b) = (waitFor c l s).map (State.withBus b) := by
  simp only [waitFor, withBus_cfg]
  cases s.cfg.stallPollLimit <;> (simp only [apply_ite (CmdRes.map (State.withBus b))]; rfl)

/-- OPEN and CFG_ALLOC test BUS_STATE only to write it (R250). -/
theorem openBusState_withBus (n : EpNum) :
    ∃ b1, openBusState n (s.withBus b) = (openBusState n s).withBus b1 := by
  refine ⟨(openBusState n (s.withBus b)).busState, ?_⟩
  simp only [openBusState]
  split <;> split <;> rfl

theorem cfgBusState_withBus : ∃ b1, cfgBusState (s.withBus b) = (cfgBusState s).withBus b1 := by
  refine ⟨(cfgBusState (s.withBus b)).busState, ?_⟩
  simp only [cfgBusState]
  split <;> split <;> rfl

theorem cmdStep_withBus (op : CmdOp) (l : CmdLocals) :
    ∃ b1, cmdStep op l (s.withBus b) = (cmdStep op l s).map (State.withBus b1) := by
  cases op with
  | initBlock => exact ⟨.disconnected, rfl⟩
  | busDisconnected => exact ⟨.disconnected, rfl⟩
  | openRespond n =>
      obtain ⟨b1, hb⟩ := openBusState_withBus (s := s) (b := b) n
      exact ⟨b1, congrArg (CmdRes.respond .ok) hb⟩
  | cfgRespond =>
      obtain ⟨b1, hb⟩ := cfgBusState_withBus (s := s) (b := b)
      exact ⟨b1, congrArg (CmdRes.respond .ok) hb⟩
  | checkEp n =>
      exact ⟨b, by simp only [cmdStep, apply_ite (CmdRes.map (State.withBus b))]; rfl⟩
  | bringUp k => exact ⟨b, by simp only [cmdStep, bringUpStep_withBus, CmdRes.ofAct_map]⟩
  | openCeiling ty mps =>
      exact ⟨b, by simp only [cmdStep, apply_ite (CmdRes.map (State.withBus b))]; rfl⟩
  | txBindFifo n mps => exact ⟨b, by simp only [cmdStep, txBindFifo_withBus, CmdRes.ofAct_map]⟩
  | xferCheck n d length =>
      exact ⟨b, by simp only [cmdStep, xferCheck, apply_ite (CmdRes.map (State.withBus b))]; rfl⟩
  | xferRecord n d buffer length =>
      exact ⟨b, by simp only [cmdStep, xferRecord, apply_ite (CmdRes.map (State.withBus b))]; rfl⟩
  | softDisconnect v => exact ⟨b, by cases v <;> rfl⟩
  | armSize n d => exact ⟨b, by cases d <;> rfl⟩
  | armTxe n d => exact ⟨b, congrArg (CmdRes.go l) (armTxe_withBus n d l.by_)⟩
  | stallIdle n d =>
      exact ⟨b, by simp only [cmdStep, apply_ite (CmdRes.map (State.withBus b))]; rfl⟩
  | stallWaitNak n d => exact ⟨b, waitFor_withBus _ l⟩
  | stallWaitFlush => exact ⟨b, waitFor_withBus _ l⟩
  | clearTest n d =>
      exact ⟨b, by simp only [cmdStep, apply_ite (CmdRes.map (State.withBus b))]; rfl⟩
  | clearToggle n d =>
      refine ⟨b, ?_⟩
      simp only [cmdStep, clearToggle, epAt_withBus, CmdRes.map]
      cases (s.epAt n d).ty <;> rfl
  | cfgBegin =>
      exact ⟨b, by simp only [cmdStep, apply_ite (CmdRes.map (State.withBus b))]; rfl⟩
  | cfgRead table count =>
      exact ⟨b, by simp only [cmdStep, cfgRead, apply_ite (CmdRes.map (State.withBus b))]; rfl⟩
  | cfgCapacity =>
      exact ⟨b, by simp only [cmdStep, cfgCapacity, apply_ite (CmdRes.map (State.withBus b))]; rfl⟩
  | commitEp n =>
      refine ⟨b, ?_⟩
      simp only [cmdStep, commitEpStep, commitEndpoint]
      cases l.plan.present[n] <;> rfl
  | _ => exact ⟨b, rfl⟩

/-! ## A command with nothing in between -/

theorem runCmd_withBus {i : Instr} (ops : List CmdOp) (l : CmdLocals) :
    forgetBusOutcome (runCmd i ops l (s.withBus b)) = forgetBusOutcome (runCmd i ops l s) := by
  induction ops generalizing l s b with
  | nil => rfl
  | cons op ops ih =>
      obtain ⟨b1, hb⟩ := cmdStep_withBus (s := s) (b := b) op l
      simp only [runCmd, hb]
      cases cmdStep op l s with
      | go l1 s1 => exact ih l1
      | enter s1 =>
          obtain ⟨b2, hb2⟩ := dispatchRun_withBus (s := { s1 with irqDue := false }) (b := b1)
          have hrun : dispatchRun { s1.withBus b1 with irqDue := false } =
            (dispatchRun { s1 with irqDue := false }).map (State.withBus b2) := hb2
          simp only [CmdRes.map, hrun]
          cases dispatchRun { s1 with irqDue := false } with
          | done s2 => exact ih l
          | held todo il s2 => rfl
          | bad e todo il s2 => rfl
      | _ => rfl

theorem exec_withBus {i : Instr} :
    forgetBusOutcome (exec i (s.withBus b)) = forgetBusOutcome (exec i s) := by
  have haccepts : (s.withBus b).accepts = s.accepts := rfl
  cases ha : s.accepts with
  | false =>
      rw [exec_busy ha, exec_busy (haccepts.trans ha)]
      rfl
  | true =>
      by_cases hops : opsOf s.cfg.maxEndpoints i = []
      · rw [exec_without_steps hops, exec_without_steps (s := s.withBus b) hops,
          illegalCommand_accepted ha, illegalCommand_accepted (haccepts.trans ha)]
        rfl
      · rw [exec_with_steps hops, exec_with_steps (s := s.withBus b) hops, runCommand_accepted ha,
          runCommand_accepted (haccepts.trans ha)]
        exact runCmd_withBus _ _

/-- Settles O51: no step of any command reads BUS_STATE but to write it. -/
theorem busStateUnread : Obligations.BusStateUnread := by
  unfold Obligations.BusStateUnread
  exact fun i s b => exec_withBus

end Sys2Proof.Machine
end

section
/-! The layout invariant of 10_state.md R29: FIFOs placed one above the other, by OPEN, by the bring-up
layout and by the commit of CFG_ALLOC (40_fifo_allocator.md R141, R145, R158), are a sound layout. -/

namespace Sys2Proof.Machine

open Sys2Proof

/-! ## FIFOs one above the other -/

/-- The receive FIFO of `rx` words is lowest, the FIFOs are disjoint, and their union is the words below
`a`; `fifo n w` says that word `w` belongs to the transmit FIFO of endpoint n. -/
structure Stacked (rx : Nat) (fifo : EpNum → Nat → Prop) (a : Nat) : Prop where
  covered : ∀ w, w < a ↔ w < rx ∨ ∃ n, fifo n w
  rxLowest : ∀ n w, fifo n w → rx ≤ w
  disjoint : ∀ m n w, fifo m w → fifo n w → m = n

variable {rx a k : Nat} {f g : EpNum → Nat → Prop} {n : EpNum} {s t : State}

theorem layoutOk_iff : LayoutOk s ↔
    s.allocWords ≤ s.cfg.fifoCapacityWords ∧ Stacked s.pi.rxfDepth s.inTxFifo s.allocWords :=
  ⟨fun h => ⟨h.capacity, h.covered, h.rxLowest, h.disjoint⟩,
    fun ⟨hcap, h⟩ => ⟨hcap, h.covered, h.rxLowest, h.disjoint⟩⟩

theorem Stacked.congr (h : Stacked rx f a) (hg : ∀ n w, g n w ↔ f n w) : Stacked rx g a := by
  obtain rfl : g = f := funext fun n => funext fun w => propext (hg n w)
  exact h

theorem Stacked.rxOnly (hg : ∀ m w, ¬ g m w) : Stacked rx g rx where
  covered w := ⟨.inl, fun h => h.elim id fun ⟨m, hm⟩ => absurd hm (hg m w)⟩
  rxLowest m w hm := absurd hm (hg m w)
  disjoint m _ w hm := absurd hm (hg m w)

/-- One more FIFO, of `k` words, on top. -/
theorem Stacked.push (h : Stacked rx f a)
    (hg : ∀ m w, g m w ↔ f m w ∨ m = n ∧ a ≤ w ∧ w < a + k) : Stacked rx g (a + k) where
  covered w := by
    have hbelow := h.covered w
    constructor
    · intro hw
      by_cases ha : w < a
      · exact (hbelow.mp ha).imp_right fun ⟨m, hm⟩ => ⟨m, (hg m w).mpr (.inl hm)⟩
      · exact .inr ⟨n, (hg n w).mpr (.inr ⟨rfl, Nat.le_of_not_lt ha, hw⟩)⟩
    · rintro (hw | ⟨m, hm⟩)
      · exact Nat.lt_add_right k (hbelow.mpr (.inl hw))
      · rcases (hg m w).mp hm with hf | ⟨-, -, hw⟩
        · exact Nat.lt_add_right k (hbelow.mpr (.inr ⟨m, hf⟩))
        · exact hw
  rxLowest m w hm := by
    rcases (hg m w).mp hm with hf | ⟨-, ha, -⟩
    · exact h.rxLowest m w hf
    · by_contra hlt
      have := (h.covered w).mpr (.inl (Nat.lt_of_not_le hlt))
      omega
  disjoint i j w hi hj := by
    have hlow (m : EpNum) (hm : f m w) : w < a := (h.covered w).mpr (.inr ⟨m, hm⟩)
    rcases (hg i w).mp hi with hfi | ⟨hin, hai, -⟩ <;> rcases (hg j w).mp hj with hfj | ⟨hjn, haj, -⟩
    · exact h.disjoint i j w hfi hfj
    · exact absurd (hlow i hfi) (Nat.not_lt.mpr haj)
    · exact absurd (hlow j hfj) (Nat.not_lt.mpr hai)
    · exact hin.trans hjn.symm

/-! ## The layout's registers -/

theorem LayoutOk.of_same (hok : LayoutOk s) (h : SameLayout s t) (hc : t.cfg = s.cfg) :
    LayoutOk t := by
  have hfifo : t.inTxFifo = s.inTxFifo := by
    funext n w
    rw [State.inTxFifo, State.inTxFifo, hc, h.txfValid, h.txf]
  rw [layoutOk_iff, hc, h.allocWords, h.rxfDepth, hfifo]
  exact layoutOk_iff.mp hok

theorem not_inTxFifo (hv : s.txfValid[n] = false) (w : Nat) : ¬ s.inTxFifo n w := fun h =>
  absurd (h.2.1.symm.trans hv) nofun

/-- The words of the FIFOs after one is placed: those of the others, and its own. -/
theorem inTxFifo_assignTxFifo (hn : n.val < s.cfg.maxEndpoints) (m : EpNum) (w : Nat) :
    (s.assignTxFifo n a k).inTxFifo m w ↔ m ≠ n ∧ s.inTxFifo m w ∨ m = n ∧ a ≤ w ∧ w < a + k := by
  simp only [State.inTxFifo, State.assignTxFifo_cfg, State.assignTxFifo_txfValid,
    State.assignTxFifo_pi, Bank.get_set]
  by_cases hm : m = n
  · simp [hm, hn]
  · simp [hm]

/-- The layout is sound, at a fixed configuration. -/
structure LayoutIn (c : Config) (s : State) : Prop where
  cfg : s.cfg = c
  ok : LayoutOk s

theorem LayoutIn.of_same {c : Config} (h : LayoutIn c s) (hl : SameLayout s t)
    (hc : t.cfg = s.cfg) : LayoutIn c t :=
  ⟨hc.trans h.cfg, h.ok.of_same hl hc⟩

/-- `TxFifoBind` step 1 places a FIFO at the counter, or re-uses one (40_fifo_allocator.md R145). -/
theorem txBindFifo_layoutIn {c : Config} (h : LayoutIn c s) (hn : n.val < c.maxEndpoints)
    (mps : Nat) : (txBindFifo n mps s).Meets (LayoutIn c) := by
  unfold txBindFifo
  dsimp only
  split
  · split
    · exact ⟨by decide, h⟩
    · exact h
  · next hv =>
      split
      · exact ⟨by decide, h⟩
      · next hroom =>
          have hnone := not_inTxFifo (Bool.eq_false_iff.mpr hv)
          have hstack := (layoutOk_iff.mp h.ok).2
          obtain rfl := h.cfg
          refine ⟨rfl, layoutOk_iff.mpr ⟨Nat.le_of_not_gt hroom, hstack.push (n := n) ?_⟩⟩
          intro m w
          refine (inTxFifo_assignTxFifo hn m w).trans (or_congr_left ?_)
          exact ⟨And.right, fun hm => ⟨fun hmn => hnone w (hmn ▸ hm), hm⟩⟩

/-! ## The bring-up layout (R141) -/

/-- The state after the writes of `BringUp`. -/
def bringUpDone (s : State) : State :=
  bringUpValid (bringUpWrite .count (bringUpWrite .ep0Fifo (bringUpWrite .rxDepth s)))

/-- Whatever the layout was, `BringUp` leaves the receive FIFO and that of endpoint 0. -/
theorem bringUpDone_layoutOk (hm : 1 ≤ s.cfg.maxEndpoints)
    (hroom : bringUpWords s.cfg ≤ s.cfg.fifoCapacityWords) : LayoutOk (bringUpDone s) := by
  have hvalid : (bringUpDone s).txfValid =
      Bank.mapBelow s.cfg.maxEndpoints (fun n _ => n == 0) s.txfValid := rfl
  have htxf : (bringUpDone s).pi.txf =
      s.pi.txf.set (0 : EpNum) ⟨s.cfg.rxBringupWords, s.cfg.ep0TxWords⟩ := rfl
  have hcfg : (bringUpDone s).cfg = s.cfg := rfl
  have hrx : (bringUpDone s).pi.rxfDepth = s.cfg.rxBringupWords := rfl
  have halloc : (bringUpDone s).allocWords = s.cfg.rxBringupWords + s.cfg.ep0TxWords := rfl
  have hfifo (m : EpNum) (w : Nat) : (bringUpDone s).inTxFifo m w ↔ False ∨
      m = 0 ∧ s.cfg.rxBringupWords ≤ w ∧ w < s.cfg.rxBringupWords + s.cfg.ep0TxWords := by
    rw [State.inTxFifo, hvalid, htxf, hcfg, Bank.get_mapBelow, Bank.get_set]
    by_cases hm0 : m = 0
    · simp [hm0]
      omega
    · simp +contextual [hm0]
  rw [layoutOk_iff, halloc, hcfg, hrx]
  exact ⟨hroom, (Stacked.rxOnly fun _ _ => id).push hfifo⟩

end Sys2Proof.Machine
end

section
/-! The layout invariant, kept by every command run whole, the dispatcher run of IRQ_ENTRY included (10_state.md
R29, 40_fifo_allocator.md R161). -/

namespace Sys2Proof.Machine

open Sys2Proof

variable {c : Config} {i : Instr} {n : EpNum} {l : CmdLocals} {s t : State}

theorem layoutIn_endsWell : EndsWell (LayoutIn c) :=
  ⟨fun _ _ h => h.of_same {} rfl, fun _ _ h => h.of_same {} rfl, fun _ _ _ h => h.of_same {} rfl⟩

/-! ## The dispatcher run -/

/-- Every step of a run but those of `BringUp`. -/
theorem irqStep_layoutIn {op : IrqOp} (hop : ∀ k, op ≠ .busReset (.bringUp k)) (h : LayoutIn c s)
    (l : IrqLocals) : (irqStep op l s).Meets (LayoutIn c) := by
  by_cases hreset : ∃ k, op = .busReset k
  · obtain ⟨k, rfl⟩ := hreset
    cases k with
    | bringUp k => exact absurd rfl (hop k)
    | _ => exact h.of_same {} (by simp)
  · have hself : HandlerFrame (· = .inn) s s := {}
    exact (irqStep_handler (fun k hk => hreset ⟨k, hk⟩) (fun _ => rfl) hself l).mono
      fun t ht => h.of_same ht.toSameLayout ht.cfg

theorem irqStep_bringUp (k : BringUpStep) (l : IrqLocals)
    (h : k = .check → bringUpWords s.cfg ≤ s.cfg.fifoCapacityWords) :
    irqStep (.busReset (.bringUp k)) l s = .go l (bringUpWrite k s) := by
  simp only [irqStep, busResetStep, bringUpStep_ok h, IrqRes.ofAct]

/-- `P` holds of the state a run leaves, if it does not fault. -/
def IrqRun.LeavesUnlessFault (P : State → Prop) : IrqRun → Prop
  | .done s => P s
  | .held _ _ s => P s
  | .bad _ _ _ _ => True

theorem IrqRun.Meets.leavesUnlessFault {P : State → Prop} {r : IrqRun} (h : r.Meets P) :
    r.LeavesUnlessFault P := by
  cases r with
  | done s => exact h
  | held todo l s => exact h
  | bad c todo l s => trivial

theorem runOps_layoutIn {ops : List IrqOp} (hops : ∀ op ∈ ops, ∀ k, op ≠ .busReset (.bringUp k))
    (h : LayoutIn c s) (l : IrqLocals) : (runOps ops l s).Meets (LayoutIn c) :=
  runOps_meets (fun op hop l _ hu => irqStep_layoutIn (hops op hop) hu l) h l

/-- A run of the steps of `BringUp` and of others faults for want of room, or leaves a sound layout. -/
theorem runOps_bringUp (hc : s.cfg = c) (hm : 1 ≤ c.maxEndpoints) {rest : List IrqOp}
    (hrest : ∀ op ∈ rest, ∀ k, op ≠ .busReset (.bringUp k)) (l : IrqLocals) :
    (runOps (bringUpOrder.map (fun k => IrqOp.busReset (.bringUp k)) ++ rest) l s).LeavesUnlessFault
      (LayoutIn c) := by
  subst hc
  simp only [bringUpOrder, List.map_cons, List.map_nil, List.cons_append, List.nil_append]
  by_cases hroom : bringUpWords s.cfg ≤ s.cfg.fifoCapacityWords
  · have hdone := bringUpDone_layoutOk hm hroom
    rw [runOps_go (irqStep_bringUp .check l fun _ => hroom),
      runOps_go (irqStep_bringUp .rxDepth l nofun), runOps_go (irqStep_bringUp .ep0Fifo l nofun),
      runOps_go (irqStep_bringUp .count l nofun), runOps_go (irqStep_bringUp .valid l nofun)]
    exact (runOps_layoutIn hrest ⟨rfl, hdone⟩ l).leavesUnlessFault
  · have hfault : irqStep (.busReset (.bringUp .check)) l s = .bad .fifoOverflow s := by
      simp only [irqStep, busResetStep, bringUpStep_bad (Nat.lt_of_not_le hroom), IrqRes.ofAct]
    rw [runOps_bad hfault]
    trivial

theorem ne_bringUp_of_mem {latched : GlobalBits} {m : Nat} (hl : latched.reset = false) :
    ∀ op ∈ dispatchOps latched m, ∀ k, op ≠ .busReset (.bringUp k) := by
  rintro op hop k rfl
  simp [dispatchOps, hl] at hop

/-- A latched bus reset comes before everything else latched (44_dispatcher.md R221, R224). -/
theorem dispatchOps_reset {latched : GlobalBits} {m : Nat} (hl : latched.reset = true) :
    dispatchOps latched m =
      .ack .reset :: .busReset .clearRecords :: .busReset .ep0Size :: .busReset .nakAll ::
        .busReset .clearTxe :: .busReset .clearAddr ::
        (bringUpOrder.map (fun k => IrqOp.busReset (.bringUp k)) ++
          .busReset .setupCount :: .busReset .epMasks :: .busReset .srcMasks ::
          .busReset .globalMask :: .busReset .busState ::
          dispatchOps { latched with reset := false } m) := by
  simp only [dispatchOps, hl]
  rfl

/-- A run that does not fault leaves a sound layout. -/
theorem dispatchRun_layoutIn (hm : 1 ≤ c.maxEndpoints) (h : LayoutIn c s) :
    (dispatchRun s).LeavesUnlessFault (LayoutIn c) := by
  unfold dispatchRun
  cases hl : s.pending.reset with
  | false => exact (runOps_layoutIn (ne_bringUp_of_mem hl) h {}).leavesUnlessFault
  | true =>
      rw [dispatchOps_reset hl, runOps_go rfl, runOps_go rfl, runOps_go rfl, runOps_go rfl,
        runOps_go rfl, runOps_go rfl]
      refine runOps_bringUp (by simp [h.cfg]) hm ?_ _
      simpa using ne_bringUp_of_mem rfl

/-! ## Commands -/

/-- Every step of a command that places no FIFO. -/
theorem cmdStep_layoutIn {op : CmdOp} (hop : op.placesFifo = false) (h : LayoutIn c s)
    (l : CmdLocals) : (cmdStep op l s).Meets (LayoutIn c) :=
  (cmdStep_frame op l s).mono fun _ ht => h.of_same (ht.layout hop) ht.cfg

theorem runEnds_layoutIn {ops : List CmdOp} (hops : ∀ op ∈ ops, op.placesFifo = false)
    (hrun : .runDispatcher ∉ ops) (h : LayoutIn c s) : RunEnds (LayoutIn c) i ops l s :=
  runEnds_all layoutIn_endsWell (fun op hop l _ hu => cmdStep_layoutIn (hops op hop) hu l)
    (fun hd => absurd hd hrun) h

/-- The steps of `BringUp` in a command: it ends halted for want of room, or leaves a sound layout. -/
theorem runCmd_bringUp (hc : s.cfg = c) (hm : 1 ≤ c.maxEndpoints) {rest : List CmdOp}
    (hrest : ∀ op ∈ rest, op.placesFifo = false) (hrun : .runDispatcher ∉ rest)
    (ht : runCmd i (bringUpOrder.map CmdOp.bringUp ++ rest) l s = .next t) (hh : t.halted = false) :
    LayoutIn c t := by
  subst hc
  simp only [bringUpOrder, List.map_cons, List.map_nil, List.cons_append, List.nil_append] at ht
  have hgo (k : BringUpStep) (u : State)
      (h : k = .check → bringUpWords u.cfg ≤ u.cfg.fifoCapacityWords) :
      cmdStep (.bringUp k) l u = .go l (bringUpWrite k u) := by
    simp only [cmdStep, bringUpStep_ok h, CmdRes.ofAct]
  by_cases hroom : bringUpWords s.cfg ≤ s.cfg.fifoCapacityWords
  · rw [runCmd_go (hgo .check _ fun _ => hroom), runCmd_go (hgo .rxDepth _ nofun),
      runCmd_go (hgo .ep0Fifo _ nofun), runCmd_go (hgo .count _ nofun),
      runCmd_go (hgo .valid _ nofun)] at ht
    exact runEnds_layoutIn hrest hrun ⟨rfl, bringUpDone_layoutOk hm hroom⟩ t ht
  · have hfault : cmdStep (.bringUp .check) l s = .raise .fifoOverflow s := by
      simp only [cmdStep, bringUpStep_bad (Nat.lt_of_not_le hroom), CmdRes.ofAct]
    rw [runCmd_raise hfault] at ht
    cases ht
    cases hh

/-- INIT leaves the bring-up layout, whatever was there. -/
theorem runCmd_init_layoutIn (hc : s.cfg = c) (hm : 1 ≤ c.maxEndpoints)
    (ht : runCmd i initOps l s = .next t) (hh : t.halted = false) : LayoutIn c t := by
  simp only [initOps, List.cons_append, List.nil_append] at ht
  rw [runCmd_go rfl, runCmd_go rfl, runCmd_go rfl, runCmd_go rfl, runCmd_go rfl,
    runCmd_go rfl] at ht
  exact runCmd_bringUp (by simp [hc]) hm (by simp [CmdOp.placesFifo]) (by simp) ht hh

/-- OPEN places one FIFO at the counter, for an endpoint that exists. -/
theorem runEnds_open_layoutIn (h : LayoutIn c s) (n : EpNum) (d : Dir) (ty : XferType) (mps : Nat) :
    RunEnds (LayoutIn c) i (openOps n d ty mps) l s := by
  refine runEnds_cons layoutIn_endsWell (cmdStep_layoutIn rfl h l) fun l1 s1 hgo h1 => ?_
  have hn : n.val < c.maxEndpoints := by
    by_contra hbig
    have hbig : s.cfg.maxEndpoints ≤ n.val := by rw [h.cfg]; omega
    simp [cmdStep, hbig] at hgo
  have hops : ∀ op ∈ openOps n d ty mps, op = .txBindFifo n mps ∨ op.placesFifo = false := by
    cases d <;> simp [openOps, CmdOp.placesFifo]
  refine runEnds_all layoutIn_endsWell (fun op hop l2 u hu => ?_) (by cases d <;> simp) h1
  rcases hops op (List.mem_cons_of_mem _ hop) with rfl | hkeep
  · exact (txBindFifo_layoutIn hu hn mps).cmd l2
  · exact cmdStep_layoutIn hkeep hu l2

/-- IRQ_ENTRY leaves the layout its dispatcher run leaves. -/
theorem runCmd_irqEntry_layoutIn (hm : 1 ≤ c.maxEndpoints) (h : LayoutIn c s)
    (ht : runCmd i irqEntryOps l s = .next t) (hh : t.halted = false) : LayoutIn c t := by
  have hrun := dispatchRun_layoutIn hm (h.of_same (t := { s with irqDue := false }) {} rfl)
  have henter : cmdStep .runDispatcher l s = .enter s := rfl
  simp only [irqEntryOps, runCmd, henter] at ht
  split at ht
  · next u hu =>
      rw [hu] at hrun
      cases ht
      exact hrun.of_same {} rfl
  · next u hu =>
      rw [hu] at hrun
      cases ht
      exact hrun.of_same {} rfl
  · cases ht
    cases hh

/-! ## The commit of CFG_ALLOC -/

/-- Word `w` belongs to the transmit FIFO of endpoint n, which is not still to be placed. -/
def State.placed (s : State) (todo : List EpNum) (n : EpNum) (w : Nat) : Prop :=
  n ∉ todo ∧ s.inTxFifo n w

/-- One line of the commit loop places the endpoint's FIFO at the top, or leaves it without one. -/
theorem commitEndpoint_stacked {p : AllocPlan} {todo : List EpNum} {a : Nat}
    (hn : n.val < s.cfg.maxEndpoints) (hnew : n ∉ todo)
    (h : Stacked s.pi.rxfDepth (s.placed (n :: todo)) a) :
    Stacked (commitEndpoint p n a s).1.pi.rxfDepth ((commitEndpoint p n a s).1.placed todo)
      (commitEndpoint p n a s).2 := by
  unfold commitEndpoint
  split
  · refine h.push (n := n) fun m w => ?_
    simp only [State.placed, inTxFifo_assignTxFifo hn, List.mem_cons, not_or]
    by_cases hm : m = n
    · simp [hm, hnew]
    · simp [hm]
  · refine h.congr fun m w => ?_
    by_cases hm : m = n
    · have hnone : ¬ State.inTxFifo { s with txfValid := s.txfValid.set n false } m w :=
        not_inTxFifo (by simp [hm]) w
      simp [State.placed, hm, hm ▸ hnone]
    · have hsame : State.inTxFifo { s with txfValid := s.txfValid.set n false } m w ↔
          s.inTxFifo m w := by
        simp only [State.inTxFifo, Bank.get_set, if_neg hm]
      simp [State.placed, hm, hsame]

/-- Each line of the loop takes from what is still to be placed the depth it gives. -/
theorem commitEndpoint_sum (p : AllocPlan) (n : EpNum) (ns : List EpNum) (a : Nat) (s : State) :
    (commitEndpoint p n a s).2 + ((ns.filter fun n => p.present[n]).map fun n => p.depth[n]).sum =
      a + (((n :: ns).filter fun n => p.present[n]).map fun n => p.depth[n]).sum := by
  unfold commitEndpoint
  cases hp : p.present[n]
  · simp only [List.filter_cons, hp, Bool.false_eq_true, if_false]
  · simp only [List.filter_cons, hp, if_true, List.map_cons, List.sum_cons, Nat.add_assoc]

theorem commitEndpoint_cfg (p : AllocPlan) (n : EpNum) (a : Nat) (s : State) :
    (commitEndpoint p n a s).1.cfg = s.cfg := by
  unfold commitEndpoint
  split <;> rfl

/-- The commit loop, and what follows it once every FIFO is placed. -/
theorem runEnds_commit {P : State → Prop} {rest : List CmdOp} (ns : List EpNum) (hnd : ns.Nodup)
    (hex : ∀ n ∈ ns, n.val < c.maxEndpoints) (hc : s.cfg = c)
    (h : Stacked s.pi.rxfDepth (s.placed ns) l.next)
    (hsum : l.next + ((ns.filter fun n => l.plan.present[n]).map fun n => l.plan.depth[n]).sum ≤
      c.fifoCapacityWords)
    (hrest : ∀ l1 s1, s1.cfg = c → l1.next ≤ c.fifoCapacityWords →
      Stacked s1.pi.rxfDepth s1.inTxFifo l1.next → RunEnds P i rest l1 s1) :
    RunEnds P i (ns.map CmdOp.commitEp ++ rest) l s := by
  induction ns generalizing l s with
  | nil => exact hrest l s hc (by simpa using hsum) (h.congr fun n w => by simp [State.placed])
  | cons n ns ih =>
      obtain ⟨hnew, hnd⟩ := List.nodup_cons.mp hnd
      have hn : n.val < s.cfg.maxEndpoints := hc ▸ hex n List.mem_cons_self
      have hstep : cmdStep (.commitEp n) l s =
        .go { l with next := (commitEndpoint l.plan n l.next s).2 }
          (commitEndpoint l.plan n l.next s).1 := rfl
      intro t ht
      rw [List.map_cons, List.cons_append, runCmd_go hstep] at ht
      exact ih hnd (fun m hm => hex m (List.mem_cons_of_mem n hm))
        ((commitEndpoint_cfg _ _ _ _).trans hc) (commitEndpoint_stacked hn hnew h)
        ((commitEndpoint_sum _ _ _ _ _).trans_le hsum) t ht

/-- Endpoint 0's FIFO lies on the receive FIFO, the other endpoints' still to be placed. -/
theorem assignTxFifo_zero_stacked (hm : 1 ≤ s.cfg.maxEndpoints) (k : Nat) :
    Stacked s.pi.rxfDepth
      ((s.assignTxFifo 0 s.pi.rxfDepth k).placed
        ((endpoints s.cfg.maxEndpoints).filter (fun n => n != 0)))
      (s.pi.rxfDepth + k) := by
  refine (Stacked.rxOnly (g := fun _ _ => False) fun _ _ => id).push (n := 0) fun m w => ?_
  have hzero : (0 : EpNum).val < s.cfg.maxEndpoints := hm
  simp only [State.placed, inTxFifo_assignTxFifo hzero, false_or]
  by_cases hm0 : m = 0
  · simp [hm0]
  · have hleft : ¬ (m ∉ (endpoints s.cfg.maxEndpoints).filter (fun n => n != 0) ∧
        s.inTxFifo m w) := by
      rintro ⟨hmem, hexists, -⟩
      exact hmem (by simp [mem_endpoints, hexists, hm0])
    simpa [hm0] using hleft

/-- The commit of a layout whose demand the capacity test has passed (40_fifo_allocator.md R158). -/
theorem runEnds_commitLayout (hc : s.cfg = c) (hm : 1 ≤ c.maxEndpoints) {t : List DemandEntry}
    (hplan : l.plan = allocPlan c t) (hdemand : planDemand c t ≤ c.fifoCapacityWords) :
    RunEnds (LayoutIn c) i (.commitStart :: .commitRx :: .commitEp0 ::
      (((endpoints c.maxEndpoints).filter (fun n => n != 0)).map CmdOp.commitEp ++
        [.commitCount, .cfgRespond])) l s := by
  subst hc
  intro v hv
  rw [runCmd_go rfl, runCmd_go rfl, runCmd_go rfl] at hv
  refine runEnds_commit _ ((endpoints_nodup _).filter _) (fun n hn => ?_) rfl
    (assignTxFifo_zero_stacked (s := s.setRxDepth l.plan.rx) hm s.cfg.ep0TxWords) ?_
    (fun l1 s1 hc1 hnext hstack => ?_) v hv
  · exact (mem_endpoints _ n).mp (List.mem_filter.mp hn).1
  · have hend := txEnd_le hdemand
    simp only [hplan, filter_present_allocPlan]
    simpa [txEnd, allocPlan] using hend
  · intro u hu
    have hdone : LayoutIn s.cfg (s1.setAllocWords l1.next) :=
      ⟨hc1, layoutOk_iff.mpr ⟨hc1 ▸ hnext, hstack⟩⟩
    rw [runCmd_go rfl, runCmd_respond rfl] at hu
    cases hu
    exact hdone.of_same {} (by simp)

/-- CFG_ALLOC writes a layout whose demand it has found room for, or none. -/
theorem runEnds_cfgAlloc_layoutIn (h : LayoutIn c s) (hm : 1 ≤ c.maxEndpoints) (table : Word)
    (count : Nat) : RunEnds (LayoutIn c) i (cfgAllocOps c.maxEndpoints table count) l s := by
  simp only [cfgAllocOps, List.cons_append, List.nil_append]
  refine runEnds_cons layoutIn_endsWell (cmdStep_layoutIn rfl h _) fun l1 s1 _ h1 => ?_
  refine runEnds_cons layoutIn_endsWell (cmdStep_layoutIn rfl h1 _) fun l2 s2 _ h2 => ?_
  refine runEnds_cons layoutIn_endsWell (cmdStep_layoutIn rfl h2 _) fun l3 s3 hplan h3 => ?_
  refine runEnds_cons layoutIn_endsWell (cmdStep_layoutIn rfl h3 _) fun l4 s4 hcapacity h4 => ?_
  have hl3 : l3.plan = allocPlan c l3.entries := by
    simp only [cmdStep, h2.cfg] at hplan
    cases hplan
    rfl
  simp only [cmdStep, cfgCapacity, h3.cfg] at hcapacity
  split at hcapacity
  · cases hcapacity
  · next hdemand =>
      cases hcapacity
      exact runEnds_commitLayout h4.cfg hm hl3 (Nat.le_of_not_gt hdemand)

/-! ## Every command -/

/-- Only INIT, OPEN and CFG_ALLOC have steps that place FIFOs. -/
theorem placesFifo_false_of_mem {m : Nat} {op : CmdOp} (hinit : i ≠ .init)
    (hopen : ∀ n d ty mps, i ≠ .openEp n d ty mps)
    (halloc : ∀ table count, i ≠ .cfgAlloc table count) (hop : op ∈ opsOf m i) :
    op.placesFifo = false := by
  have hof := belongsTo_of_mem_opsOf _ hop
  have hcommit : ¬ ∃ table count, i = .cfgAlloc table count :=
    fun ⟨table, count, h⟩ => halloc table count h
  cases op with
  | initBlock => exact absurd hof hinit
  | bringUp k => exact absurd hof hinit
  | txBindFifo n mps =>
      obtain ⟨d, ty, h⟩ := hof
      exact absurd h (hopen n d ty mps)
  | commitRx => exact absurd hof hcommit
  | commitEp0 => exact absurd hof hcommit
  | commitEp n => exact absurd hof hcommit
  | commitCount => exact absurd hof hcommit
  | _ => rfl

theorem runCmd_opsOf_layoutIn (h : LayoutIn c s) (hm : 1 ≤ c.maxEndpoints)
    (ht : runCmd i (opsOf c.maxEndpoints i) l s = .next t) (hh : t.halted = false) :
    LayoutIn c t := by
  have hother (hkeep : ∀ op ∈ opsOf c.maxEndpoints i, op.placesFifo = false)
      (hrun : i ≠ .irqEntry) : LayoutIn c t :=
    runEnds_layoutIn hkeep (fun hd => hrun (belongsTo_of_mem_opsOf _ hd)) h t ht
  cases i with
  | init => exact runCmd_init_layoutIn h.cfg hm ht hh
  | irqEntry => exact runCmd_irqEntry_layoutIn hm h ht hh
  | openEp n d ty mps => exact runEnds_open_layoutIn h n d ty mps t ht
  | cfgAlloc table count => exact runEnds_cfgAlloc_layoutIn h hm table count t ht
  | _ => exact hother (fun _ => placesFifo_false_of_mem (by simp) (by simp) (by simp)) (by simp)

/-- Settles O45: the FIFOs are placed one above the other by INIT, OPEN, CFG_ALLOC and a bus reset, and
no other step touches the layout. -/
theorem layoutKept : Obligations.LayoutKept := by
  unfold Obligations.LayoutKept
  intro i s t hm h ht hh
  cases ha : s.accepts with
  | false =>
      rw [exec_busy ha] at ht
      cases ht
      exact h
  | true =>
      by_cases hops : opsOf s.cfg.maxEndpoints i = []
      · rw [exec_without_steps hops, illegalCommand_accepted ha] at ht
        cases ht
        cases hh
      · rw [exec_with_steps hops, runCommand_accepted ha] at ht
        exact (runCmd_opsOf_layoutIn ⟨rfl, h⟩ hm ht hh).ok

end Sys2Proof.Machine
end

section
/-! Buffer memory is written by the receive drain, which stores a packet's bytes at its endpoint's cursor, and
by the upper stack; both keep its canonical form (20_memory.md R71 to R73, 44_dispatcher.md R233). -/

namespace Sys2Proof.Machine

open Sys2Proof

variable {P Q : State → Prop} {m : List Host.Cell} {s t : State}

theorem Act.Meets.mono {a : Act} (ha : a.Meets P) (h : ∀ u, P u → Q u) : a.Meets Q := by
  cases a with
  | ok u => exact h u ha
  | bad c u => exact ⟨ha.1, h u ha.2⟩

/-! ## Parts that leave buffer memory alone -/

/-- The state's buffer memory is `m`. -/
def MemIs (m : List Host.Cell) (s : State) : Prop := s.mem = m

theorem MemIs.of_eq (h : MemIs m s) (ht : t.mem = s.mem := by simp) : MemIs m t := ht.trans h

theorem bringUpStep_mem (h : MemIs m s) (k : BringUpStep) : (bringUpStep k s).Meets (MemIs m) := by
  unfold bringUpStep
  split
  · exact ⟨by decide, h⟩
  · exact h.of_eq

theorem busResetStep_mem (h : MemIs m s) (k : BusResetStep) :
    (busResetStep k s).Meets (MemIs m) := by
  cases k with
  | bringUp b => exact bringUpStep_mem h b
  | _ => exact h.of_eq

@[simp] theorem ep0Continue_mem (s : State) (d : Dir) : (ep0Continue s d).mem = s.mem := by
  by_cases hz : s.ep0Pending.get d = 0
  · simp [ep0Continue_done hz]
  · simp [ep0Continue_more hz, ep0Schedule, State.arm]

@[simp] theorem transferComplete_mem (n : EpNum) (d : Dir) (s : State) :
    (transferComplete n d s).mem = s.mem := by
  unfold transferComplete
  dsimp only
  split
  · split
    · simp
    · split <;> simp
  · rfl

theorem MemIs.rxPop {w : Word} (h : MemIs m s) (hp : s.rxPop = some (w, t)) : MemIs m t := by
  cases hq : s.pi.rxq with
  | nil => simp [rxPop_empty hq] at hp
  | cons x xs =>
      simp only [rxPop_cons hq, Option.some.injEq, Prod.mk.injEq] at hp
      obtain ⟨-, rfl⟩ := hp
      exact h

theorem rxSetupData_mem (h : MemIs m s) : (rxSetupData s).Meets (MemIs m) := by
  unfold rxSetupData
  split
  · exact ⟨by decide, h⟩
  · next w0 s1 hp =>
      have hfirst := h.rxPop hp
      have h1 : MemIs m { s1 with setupBuf0 := w0 } := hfirst
      dsimp only
      split
      · exact ⟨by decide, h1⟩
      · next w1 s2 hp2 =>
          have hsecond := h1.rxPop hp2
          exact hsecond

theorem txPushAll_mem (n : EpNum) (ws : List Word) (h : MemIs m s) :
    (txPushAll n ws s).Meets (MemIs m) := by
  induction ws generalizing s with
  | nil => exact h
  | cons w ws ih =>
      refine Act.Meets.andThen ?_ fun t ht => ih ht
      unfold State.txPush
      split
      · exact ⟨by decide, h⟩
      · exact h

theorem feedStep_mem (h : MemIs m s) (n : EpNum) : (feedStep n s).Meets (MemIs m) := by
  have hwrite : (fifoWritePacket n (s.recAt n .inn).buffer
      (min (s.epAt n .inn).xfrsiz (s.recAt n .inn).maxSize) s).Meets (MemIs m) :=
    txPushAll_mem n _ h
  unfold feedStep
  dsimp only
  split
  · trivial
  · split
    · exact ⟨by decide, h⟩
    · split
      · trivial
      · split
        · next hbad => rw [hbad] at hwrite; exact hwrite
        · next hok => rw [hok] at hwrite; exact hwrite.of_eq

/-- Every numbered step of a run but the drain's (44_dispatcher.md R221). -/
theorem irqStep_mem {op : IrqOp} (hop : op ≠ .drainLoop) (h : MemIs m s) (l : IrqLocals) :
    (irqStep op l s).Meets (MemIs m) := by
  cases op with
  | busReset k => exact (busResetStep_mem h k).irq l
  | drainLoop => exact absurd rfl hop
  | outSetup n =>
      simp only [irqStep]
      split
      · exact h.of_eq
      · exact h
  | outDone n =>
      simp only [irqStep]
      split
      · exact h.of_eq
      · exact h
  | inDone n =>
      simp only [irqStep]
      split
      · exact h.of_eq
      · exact h
  | inFeed n =>
      have hfeed := feedStep_mem h n
      simp only [irqStep]
      split
      · split
        · exact h
        · next hr => rw [hr] at hfeed; exact hfeed
        · next hr => rw [hr] at hfeed; exact hfeed
      · exact h
  | inFeedEnd n =>
      simp only [irqStep]
      split
      · exact h.of_eq
      · exact h
  | _ => exact h.of_eq

/-- A move of the environment writes the peripheral's fields and what the environment remembers, and nothing
else (46_environment.md R280). -/
theorem envMove_eq (e : EnvMove) (s : State) :
    envMove e s = { s with pi := (envMove e s).pi, env := (envMove e s).env } := by
  cases e with
  | usbReset ep0Active clearActive clearEna clearDpid emptyTx endSetup =>
      simp only [envMove, envUsbReset]
      split <;> rfl
  | setSpeed v =>
      simp only [envMove, envSetSpeed]
      split <;> rfl
  | enumDone =>
      simp only [envMove, envEnumDone]
      split <;> rfl
  | setupPacket w0 w1 =>
      simp only [envMove, envSetupPacket]
      split <;> rfl
  | setupOver =>
      simp only [envMove, envSetupOver]
      split <;> rfl
  | outPacket n bytes dpid fill =>
      simp only [envMove, envOutPacket]
      split <;> rfl
  | outEnd n =>
      simp only [envMove, envOutEnd]
      split <;> rfl
  | sendIn n =>
      simp only [envMove, envSendIn]
      split
      · split <;> rfl
      · rfl
  | globalOutNak n =>
      simp only [envMove, envGlobalOutNak]
      split <;> rfl
  | nakEffective n d =>
      simp only [envMove, envNakEffective]
      split <;> rfl
  | flushDone also =>
      simp only [envMove, envFlushDone]
      split <;> rfl
  | disableDone n d complete =>
      simp only [envMove, envDisableDone, setEpIf]
      split <;> split <;> rfl
  | dataToggle n d v =>
      simp only [envMove, setEpIf]
      split <;> rfl
  | breakContract ws =>
      simp only [envMove, envBreak]
      split <;> rfl
  | _ => rfl

theorem envMove_mem (e : EnvMove) (s : State) : (envMove e s).mem = s.mem := by
  rw [envMove_eq]

/-! ## What the receive drain stores (44_dispatcher.md R233) -/

/-- The state's buffer memory is `m` with a run of bytes stored over at most `dst.2` addresses from `dst.1`
up. -/
def StoredIn (m : List Host.Cell) (dst : Word × Nat) (s : State) : Prop :=
  ∃ bs : List Byte, bs.length ≤ dst.2 ∧ s.mem = memWriteBytes m dst.1 bs

variable {dst : Word × Nat}

theorem MemIs.storedIn (h : MemIs m s) : StoredIn m dst s := ⟨[], Nat.zero_le _, h⟩

theorem StoredIn.of_eq (h : StoredIn m dst s) (ht : t.mem = s.mem := by simp) : StoredIn m dst t := by
  obtain ⟨bs, hlen, hmem⟩ := h
  exact ⟨bs, hlen, ht.trans hmem⟩

theorem StoredIn.wf (h : StoredIn m dst s) (hm : Memory.wf m = true) : Memory.wf s.mem = true := by
  obtain ⟨bs, -, hmem⟩ := h
  rw [hmem]
  exact Memory.wf_memWriteBytes bs m dst.1 hm

/-- A packet read stores at most its length, with all its words in RXQ or not. -/
theorem fifoReadPacket_stored (a : Word) (len : Nat) (s : State) :
    (fifoReadPacket a len s).Meets (StoredIn s.mem (a, len)) := by
  have hstore : StoredIn s.mem (a, len)
      { s with
        pi := { s.pi with rxq := s.pi.rxq.drop (wordsFor len) }
        mem := memWriteBytes s.mem a ((unpackWords (s.pi.rxq.take (wordsFor len))).take len) } :=
    ⟨_, List.length_take_le _ _, rfl⟩
  unfold fifoReadPacket
  dsimp only
  split
  · exact ⟨by decide, hstore⟩
  · exact hstore

theorem shortPacketTrim_stored (h : StoredIn m dst s) (n : EpNum) :
    (shortPacketTrim n s).Meets (StoredIn m dst) := by
  unfold shortPacketTrim
  dsimp only
  split
  · exact ⟨by decide, h⟩
  · split
    · split
      · exact ⟨by decide, h.of_eq⟩
      · exact h.of_eq
    · exact h.of_eq

theorem rxOutData_stored (n : EpNum) (bcnt : Nat) (s : State) :
    (rxOutData n bcnt s).Meets (StoredIn s.mem ((s.recAt n .out).buffer, bcnt)) := by
  unfold rxOutData
  split
  · exact ⟨by decide, MemIs.storedIn rfl⟩
  · refine (fifoReadPacket_stored _ bcnt s).andThen fun t ht => ?_
    dsimp only
    split
    · exact shortPacketTrim_stored ht.of_eq n
    · exact ht.of_eq

/-- An entry of the receive drain stores at most what `drainStore` names, also where it faults. -/
theorem drainEntry_stored (s : State) : (drainEntry s).Meets (StoredIn s.mem (drainStore s)) := by
  cases hq : s.pi.rxq with
  | nil =>
      simp only [drainEntry, rxPop_empty hq]
      exact MemIs.storedIn rfl
  | cons sw ws =>
      have hpop : MemIs s.mem { s with pi := { s.pi with rxq := ws } } := rfl
      simp only [drainEntry, rxPop_cons hq, drainStore, hq]
      cases rxClass (statusCode sw) with
      | outData => exact rxOutData_stored _ _ { s with pi := { s.pi with rxq := ws } }
      | globalOutNak => exact (hpop.of_eq (t := rxGlobalOutNak _)).storedIn
      | outDone => exact (hpop.of_eq (t := rxOutDone _ _)).storedIn
      | setupDone => exact (hpop.of_eq (t := rxSetupDone _)).storedIn
      | setupData => exact (rxSetupData_mem hpop).mono fun _ ht => ht.storedIn
      | unrecognised => exact ⟨by decide, hpop.storedIn⟩

theorem drainLoop_stored (l : IrqLocals) (s : State) :
    (irqStep .drainLoop l s).Meets (StoredIn s.mem (drainStore s)) := by
  have hentry := drainEntry_stored s
  simp only [irqStep]
  split
  · exact MemIs.storedIn rfl
  · split <;> (next hr => rw [hr] at hentry; exact hentry)

/-! ## The canonical form (20_memory.md R71, R72) -/

/-- Buffer memory is in canonical form. -/
def CanonicalMem (s : State) : Prop := Memory.wf s.mem = true

theorem CanonicalMem.of_mem (h : CanonicalMem s) (ht : MemIs s.mem t) : CanonicalMem t := by
  rw [CanonicalMem, ht]
  exact h

theorem irqStep_canonicalMem (h : CanonicalMem s) (op : IrqOp) (l : IrqLocals) :
    (irqStep op l s).Meets CanonicalMem := by
  by_cases hop : op = .drainLoop
  · subst hop
    exact (drainLoop_stored l s).mono fun _ ht => ht.wf h
  · exact (irqStep_mem hop rfl l).mono fun _ ht => h.of_mem ht

/-- Only the receive drain and the upper stack store bytes, and a byte store keeps the form. -/
theorem canonicalMem_keptByMoves : KeptByMoves CanonicalMem where
  setCtx _ _ h := h
  respond _ _ h := h
  raiseFault _ _ _ h := h
  schedule _ _ _ _ h := h
  cmdStep op l u h := (cmdStep_frame op l u).mono fun _ hv => h.of_mem hv.mem
  irqStep op l _ h := irqStep_canonicalMem h op l
  envMove e u h := h.of_mem (envMove_mem e u)
  store u a v h := Memory.wf_memWrite u.mem a v h
  consume _ h := h
  powerOn _ _ h := h

/-- Settles O55: the canonical form is kept by every kind of move. -/
theorem memoryFormKept : Obligations.MemoryFormKept := by
  unfold Obligations.MemoryFormKept
  exact fun s t h ht => canonicalMem_keptByMoves.step (s := s) h ht

end Sys2Proof.Machine
end

section
/-! The decoder and the encoder undo each other, and what strict decode refuses (30_encoding.md R100 to
R106). -/

namespace Sys2Proof

variable {w : CmdWord}

theorem decode_eq_some_iff {i : Instr} :
    decode w = some i ↔ (opcodeRow (fieldOp w)).spells w = true ∧ operandsOf w = i := by
  simp [decode]

theorem decode_eq_none_iff : decode w = none ↔ (opcodeRow (fieldOp w)).spells w = false := by
  simp [decode]

/-! ## Words by their parts -/

/-- The low bits of a word are the low bits of its imm16. -/
theorem low_eq_fieldImm {k : Nat} (hk : k ≤ 16) :
    w.extractLsb' 0 k = (fieldImm w).setWidth k := by
  apply BitVec.eq_of_getLsbD_eq
  intro j hj
  simp [fieldImm, hj, show j < 16 by omega]

/-- The word of a reserved opcode: the opcode between an address half and 28 low bits (R106). -/
def reservedWord (high : Word) (op : BitVec 4) (low : BitVec 28) : CmdWord := high ++ (op ++ low)

section
variable (high : Word) (op : BitVec 4) (low : BitVec 28)

@[simp] theorem fieldOp_reservedWord : fieldOp (reservedWord high op low) = op :=
  Laws.fieldOp_reserved high op low

@[simp] theorem fieldAddr_reservedWord : fieldAddr (reservedWord high op low) = high :=
  BitVec.extractLsb'_append_eq_left

@[simp] theorem low_reservedWord : (reservedWord high op low).extractLsb' 0 28 = low := by
  apply BitVec.eq_of_getLsbD_eq
  intro k hk
  rw [reservedWord, BitVec.getLsbD_extractLsb', BitVec.getLsbD_append, BitVec.getLsbD_append]
  simp [hk, show k < 32 by omega]

end

/-- Every word is its address half, its opcode and the 28 bits below it. -/
theorem reservedWord_fields (w : CmdWord) :
    reservedWord (fieldAddr w) (fieldOp w) (w.extractLsb' 0 28) = w := by
  apply BitVec.eq_of_getLsbD_eq
  intro k hk
  simp only [reservedWord, fieldAddr, fieldOp, BitVec.getLsbD_append, BitVec.getLsbD_extractLsb']
  repeat' split
  all_goals exact sliceBit w (by omega) (by omega)

theorem reservedWord_of_op {o : BitVec 4} (ho : fieldOp w = o) :
    reservedWord (fieldAddr w) o (w.extractLsb' 0 28) = w := by
  subst ho
  exact reservedWord_fields w

/-! ## From a command to its word and back -/

theorem encode_spells {i : Instr} (h : i.wellFormed = true) :
    (opcodeRow (fieldOp (encode i))).spells (encode i) = true := by
  cases i with
  | init => exact Laws.OpcodeRow.init h
  | connect => exact Laws.OpcodeRow.connect h
  | disconnect => exact Laws.OpcodeRow.disconnect h
  | setAddress a => exact Laws.OpcodeRow.setAddress a h
  | remoteWakeup => exact Laws.OpcodeRow.remoteWakeup h
  | irqEnable => exact Laws.OpcodeRow.irqEnable h
  | irqDisable => exact Laws.OpcodeRow.irqDisable h
  | irqEntry => exact Laws.OpcodeRow.irqEntry h
  | openEp n d ty mps => exact Laws.OpcodeRow.openEp n d ty mps h
  | closeEp n d => exact Laws.OpcodeRow.closeEp n d h
  | xfer n d buffer length => exact Laws.OpcodeRow.xfer n d buffer length h
  | stall n d => exact Laws.OpcodeRow.stall n d h
  | clearStall n d => exact Laws.OpcodeRow.clearStall n d h
  | cfgAlloc table count => exact Laws.OpcodeRow.cfgAlloc table count h
  | reservedE high low => exact Laws.OpcodeRow.reservedE high low h
  | reservedF high low => exact Laws.OpcodeRow.reservedF high low h

/-- A reserved opcode's other bits come back as they are (R106). -/
theorem operandsOf_reservedWord (high : Word) (low : BitVec 28) :
    operandsOf (reservedWord high 0xE low) = .reservedE high low ∧
      operandsOf (reservedWord high 0xF low) = .reservedF high low := by
  simp [operandsOf]

/-- The operands come back from the fields they were put in (R104). -/
theorem operandsOf_encode {i : Instr} (h : i.wellFormed = true) : operandsOf (encode i) = i := by
  cases i with
  | setAddress a => simp [encode, shortWord, operandsOf, low_eq_fieldImm]
  | openEp n d ty mps =>
      have hmps : mps < 2 ^ 11 := by simpa [Instr.wellFormed] using h
      have hmod : mps % 2 ^ 16 % 2 ^ 11 = mps := by omega
      simpa [encode, shortWord, operandsOf, low_eq_fieldImm] using hmod
  | closeEp n d => simp [encode, shortWord, operandsOf]
  | xfer n d buffer length =>
      have hlen : length < 2 ^ 16 := by simpa [Instr.wellFormed] using h
      simpa [encode, operandsOf] using hlen
  | stall n d => simp [encode, shortWord, operandsOf]
  | clearStall n d => simp [encode, shortWord, operandsOf]
  | cfgAlloc table count =>
      have hcount : count < 2 ^ 16 := by simpa [Instr.wellFormed] using h
      simpa [encode, operandsOf] using hcount
  | reservedE high low => exact (operandsOf_reservedWord high low).1
  | reservedF high low => exact (operandsOf_reservedWord high low).2
  | _ => rfl

/-- Settles O1: the word spells its own row, and its fields hold the operands. -/
theorem decodeEncode : Obligations.DecodeEncode := by
  unfold Obligations.DecodeEncode
  exact fun i h => decode_eq_some_iff.mpr ⟨encode_spells h, operandsOf_encode h⟩

/-! ## From a word to its command and back -/

/-- The operands read from a word fit their fields, whatever the word. -/
theorem operandsOf_wellFormed (w : CmdWord) : (operandsOf w).wellFormed = true := by
  unfold operandsOf
  dsimp only
  split <;> simp only [Instr.wellFormed, decide_eq_true_eq] <;> exact BitVec.isLt _

/-- The word with the given fields is `w` when they are `w`'s. -/
theorem commandWord_eq_iff {a : Word} {o : BitVec 4} {d : BitVec 1} {e : BitVec 4} {t : BitVec 2}
    {r : BitVec 5} {i : BitVec 16} :
    commandWord a o d e t r i = w ↔
      fieldAddr w = a ∧ fieldOp w = o ∧ fieldDir w = d ∧ fieldEp w = e ∧ fieldType w = t ∧
        fieldRsv w = r ∧ fieldImm w = i := by
  constructor
  · rintro rfl
    simp
  · rintro ⟨rfl, rfl, rfl, rfl, rfl, rfl, rfl⟩
    exact commandWord_fields w

/-- A row spells a word when each field of the word, masked, is the row's. -/
theorem spells_fields {a ma : Word} {o mo : BitVec 4} {d md : BitVec 1} {e me : BitVec 4}
    {t mt : BitVec 2} {r mr : BitVec 5} {i mi : BitVec 16} :
    (OpcodeRow.mk (commandWord a o d e t r i) (commandWord ma mo md me mt mr mi)).spells w = true ↔
      fieldAddr w &&& ma = a ∧ fieldOp w &&& mo = o ∧ fieldDir w &&& md = d ∧ fieldEp w &&& me = e ∧
        fieldType w &&& mt = t ∧ fieldRsv w &&& mr = r ∧ fieldImm w &&& mi = i := by
  have hmasked := and_commandWord (fieldAddr w) ma (fieldOp w) mo (fieldDir w) md (fieldEp w) me
    (fieldType w) mt (fieldRsv w) mr (fieldImm w) mi
  rw [commandWord_fields] at hmasked
  simp only [Laws.spells_iff, hmasked, eq_comm (b := commandWord a o d e t r i), commandWord_eq_iff,
    fieldAddr_commandWord, fieldOp_commandWord, fieldDir_commandWord, fieldEp_commandWord,
    fieldType_commandWord, fieldRsv_commandWord, fieldImm_commandWord]

/-- A mask of all bits leaves one word. -/
theorem spells_maskN {v : CmdWord} : (OpcodeRow.mk v maskN).spells w = true ↔ w = v := by
  have hw : w &&& maskN = w := BitVec.and_allOnes
  rw [Laws.spells_iff, hw]

/-! The match and mask columns of R101 by their fields. A field under `allOnes` is fixed, one under 0 is
an operand. -/

theorem opcodeRow_setAddress : opcodeRow 0x3 = ⟨commandWord 0 0x3 0 0 0 0 0,
    commandWord (.allOnes 32) (.allOnes 4) (.allOnes 1) (.allOnes 4) (.allOnes 2) (.allOnes 5) 0xFF80⟩ := by
  decide

theorem opcodeRow_openEp : opcodeRow 0x8 = ⟨commandWord 0 0x8 0 0 0 0 0,
    commandWord (.allOnes 32) (.allOnes 4) 0 0 0 (.allOnes 5) 0xF800⟩ := by
  decide

theorem opcodeRow_xfer : opcodeRow 0xA = ⟨commandWord 0 0xA 0 0 0 0 0,
    commandWord 0 (.allOnes 4) 0 0 (.allOnes 2) (.allOnes 5) 0⟩ := by
  decide

theorem opcodeRow_cfgAlloc : opcodeRow 0xD = ⟨commandWord 0 0xD 0 0 0 0 0,
    commandWord 0 (.allOnes 4) (.allOnes 1) (.allOnes 4) (.allOnes 2) (.allOnes 5) 0⟩ := by
  decide

/-- The rows of format E. -/
theorem opcodeRow_formatE : ∀ o : BitVec 4, o = 0x9 ∨ o = 0xB ∨ o = 0xC → opcodeRow o =
    ⟨commandWord 0 o 0 0 0 0 0,
      commandWord (.allOnes 32) (.allOnes 4) 0 0 (.allOnes 2) (.allOnes 5) (.allOnes 16)⟩ := by
  decide

/-- The rows of format N are one word each. -/
theorem opcodeRow_formatN : ∀ o : BitVec 4, o < 0x8 → o ≠ 0x3 →
    opcodeRow o = ⟨shortWord o 0 0 0 0, maskN⟩ := by
  decide

/-- An operand in the low bits of imm16 is all of imm16 when the bits above it are fixed at zero. -/
theorem fieldImm_of_masked {k : Nat} {m : BitVec 16} (hk : k ≤ 16)
    (hm : ∀ j : Fin 16, k ≤ j → m.getLsbD j = true) (himm : fieldImm w &&& m = 0) :
    fieldImm w = (w.extractLsb' 0 k).setWidth 16 := by
  rw [low_eq_fieldImm hk]
  apply BitVec.eq_of_getLsbD_eq
  intro j hj
  by_cases hjk : j < k
  · simp [hj, hjk]
  · have hbit : (fieldImm w &&& m).getLsbD j = false := by simp [himm]
    rw [BitVec.getLsbD_and, hm ⟨j, hj⟩ (not_lt.mp hjk), Bool.and_true] at hbit
    simp [hjk, hbit]

section
variable (h : (opcodeRow (fieldOp w)).spells w = true)
include h

theorem encode_operandsOf_formatN (hlt : fieldOp w < 0x8) (h3 : fieldOp w ≠ 0x3) :
    encode (operandsOf w) = w := by
  rw [opcodeRow_formatN _ hlt h3, spells_maskN] at h
  have hall : ∀ o : BitVec 4, o < 0x8 → o ≠ 0x3 →
      encode (operandsOf (shortWord o 0 0 0 0)) = shortWord o 0 0 0 0 := by decide
  rw [h]
  exact hall _ hlt h3

theorem encode_operandsOf_setAddress (ho : fieldOp w = 0x3) : encode (operandsOf w) = w := by
  rw [ho, opcodeRow_setAddress, spells_fields] at h
  simp only [BitVec.and_allOnes] at h
  obtain ⟨haddr, -, hdir, hep, hty, hrsv, himm⟩ := h
  have hops : operandsOf w = .setAddress (w.extractLsb' 0 7) := by simp only [operandsOf, ho]; rfl
  rw [hops, encode, shortWord, commandWord_eq_iff]
  exact ⟨haddr, ho, hdir, hep, hty, hrsv, fieldImm_of_masked (by decide) (by decide) himm⟩

theorem encode_operandsOf_openEp (ho : fieldOp w = 0x8) : encode (operandsOf w) = w := by
  rw [ho, opcodeRow_openEp, spells_fields] at h
  simp only [BitVec.and_allOnes] at h
  obtain ⟨haddr, -, -, -, -, hrsv, himm⟩ := h
  have hops : operandsOf w = .openEp (fieldEp w).toFin (.ofCode (fieldDir w))
      (.ofCode (fieldType w)) (w.extractLsb' 0 11).toNat := by simp only [operandsOf, ho]; rfl
  rw [hops, encode, shortWord, commandWord_eq_iff, Dir.code_ofCode, XferType.code_ofCode,
    BitVec.ofNat_toNat]
  exact ⟨haddr, ho, rfl, rfl, rfl, hrsv, fieldImm_of_masked (by decide) (by decide) himm⟩

theorem encode_operandsOf_xfer (ho : fieldOp w = 0xA) : encode (operandsOf w) = w := by
  rw [ho, opcodeRow_xfer, spells_fields] at h
  simp only [BitVec.and_allOnes] at h
  obtain ⟨-, -, -, -, hty, hrsv, -⟩ := h
  have hops : operandsOf w = .xfer (fieldEp w).toFin (.ofCode (fieldDir w)) (fieldAddr w)
      (fieldImm w).toNat := by simp only [operandsOf, ho]; rfl
  rw [hops, encode, commandWord_eq_iff, Dir.code_ofCode, BitVec.ofNat_toNat, BitVec.setWidth_eq]
  exact ⟨rfl, ho, rfl, rfl, hty, hrsv, rfl⟩

theorem encode_operandsOf_cfgAlloc (ho : fieldOp w = 0xD) : encode (operandsOf w) = w := by
  rw [ho, opcodeRow_cfgAlloc, spells_fields] at h
  simp only [BitVec.and_allOnes] at h
  obtain ⟨-, -, hdir, hep, hty, hrsv, -⟩ := h
  have hops : operandsOf w = .cfgAlloc (fieldAddr w) (fieldImm w).toNat := by
    simp only [operandsOf, ho]; rfl
  rw [hops, encode, commandWord_eq_iff, BitVec.ofNat_toNat, BitVec.setWidth_eq]
  exact ⟨rfl, ho, hdir, hep, hty, hrsv, rfl⟩

theorem encode_operandsOf_formatE (ho : fieldOp w = 0x9 ∨ fieldOp w = 0xB ∨ fieldOp w = 0xC) :
    encode (operandsOf w) = w := by
  rw [opcodeRow_formatE _ ho, spells_fields] at h
  simp only [BitVec.and_allOnes] at h
  obtain ⟨haddr, -, -, -, hty, hrsv, himm⟩ := h
  have hword : encode (operandsOf w) =
      shortWord (fieldOp w) (Dir.ofCode (fieldDir w)).code (BitVec.ofFin (fieldEp w).toFin) 0 0 := by
    obtain ho | ho | ho := ho <;> simp only [operandsOf, ho] <;> rfl
  rw [hword, shortWord, commandWord_eq_iff, Dir.code_ofCode]
  exact ⟨haddr, rfl, rfl, rfl, hty, hrsv, himm⟩

end

theorem encode_operandsOf_reserved (ho : fieldOp w = 0xE ∨ fieldOp w = 0xF) :
    encode (operandsOf w) = w := by
  have hword : encode (operandsOf w) =
      reservedWord (fieldAddr w) (fieldOp w) (w.extractLsb' 0 28) := by
    obtain ho | ho := ho <;> simp only [operandsOf, ho] <;> rfl
  rw [hword, reservedWord_fields]

/-- The opcodes by the operands their rows leave open (R101). -/
theorem opcode_cases : ∀ o : BitVec 4,
    (o < 0x8 ∧ o ≠ 0x3) ∨ o = 0x3 ∨ o = 0x8 ∨ o = 0xA ∨ o = 0xD ∨
      (o = 0x9 ∨ o = 0xB ∨ o = 0xC) ∨ (o = 0xE ∨ o = 0xF) := by
  decide

/-- A word that spells the row of its opcode is the word of its operands (R105). -/
theorem encode_operandsOf (h : (opcodeRow (fieldOp w)).spells w = true) :
    encode (operandsOf w) = w := by
  obtain ⟨hlt, h3⟩ | ho | ho | ho | ho | ho | ho := opcode_cases (fieldOp w)
  · exact encode_operandsOf_formatN h hlt h3
  · exact encode_operandsOf_setAddress h ho
  · exact encode_operandsOf_openEp h ho
  · exact encode_operandsOf_xfer h ho
  · exact encode_operandsOf_cfgAlloc h ho
  · exact encode_operandsOf_formatE h ho
  · exact encode_operandsOf_reserved ho

/-- Settles O2: every field of a word that decodes is an operand or fixed by the row it spells. -/
theorem encodeDecode : Obligations.EncodeDecode := by
  unfold Obligations.EncodeDecode
  intro w i hd
  obtain ⟨hspells, rfl⟩ := decode_eq_some_iff.mp hd
  exact ⟨operandsOf_wellFormed w, encode_operandsOf hspells⟩

/-! ## The rows a word spells (R105, R106) -/

theorem fieldOp_and (v : CmdWord) : fieldOp (w &&& v) = fieldOp w &&& fieldOp v :=
  BitVec.extractLsb'_and

/-- A word spells no row but that of its own opcode. -/
theorem fieldOp_of_spells {o : BitVec 4} (h : (opcodeRow o).spells w = true) : fieldOp w = o := by
  have hrow : ∀ o : BitVec 4,
      fieldOp (opcodeRow o).mask = .allOnes 4 ∧ fieldOp (opcodeRow o).value = o := by decide
  obtain ⟨hmask, hvalue⟩ := hrow o
  rw [Laws.spells_iff] at h
  rw [← hvalue, ← h, fieldOp_and, hmask, BitVec.and_allOnes]

theorem decode_reservedE_iff : (∃ h l, decode w = some (.reservedE h l)) ↔ fieldOp w = 0xE := by
  constructor
  · rintro ⟨high, low, hd⟩
    exact (encodeDecode w _ hd).2 ▸ fieldOp_reservedWord high 0xE low
  · intro ho
    have hw := congrArg decode (reservedWord_of_op ho)
    exact ⟨_, _, hw.symm.trans (decodeEncode (.reservedE (fieldAddr w) (w.extractLsb' 0 28)) rfl)⟩

theorem decode_reservedF_iff : (∃ h l, decode w = some (.reservedF h l)) ↔ fieldOp w = 0xF := by
  constructor
  · rintro ⟨high, low, hd⟩
    exact (encodeDecode w _ hd).2 ▸ fieldOp_reservedWord high 0xF low
  · intro ho
    have hw := congrArg decode (reservedWord_of_op ho)
    exact ⟨_, _, hw.symm.trans (decodeEncode (.reservedF (fieldAddr w) (w.extractLsb' 0 28)) rfl)⟩

/-- The fourteen command rows are those of the opcodes below 0xE. -/
theorem spells_no_command_iff :
    (∀ o : BitVec 4, o.toNat < 14 → (opcodeRow o).spells w = false) ↔
      (decode w = none ∨ (∃ h l, decode w = some (.reservedE h l)) ∨
        (∃ h l, decode w = some (.reservedF h l))) := by
  rw [decode_eq_none_iff, decode_reservedE_iff, decode_reservedF_iff]
  constructor
  · intro h
    have hop : ∀ o : BitVec 4, o.toNat < 14 ∨ o = 0xE ∨ o = 0xF := by decide
    exact (hop (fieldOp w)).imp_left (h _)
  · intro h o ho
    by_contra hs
    rw [Bool.not_eq_false] at hs
    have hop := fieldOp_of_spells hs
    subst hop
    obtain hnone | hE | hF := h
    · exact absurd (hnone.symm.trans hs) Bool.false_ne_true
    · rw [hE] at ho
      exact absurd ho (by decide)
    · rw [hF] at ho
      exact absurd ho (by decide)

/-- Settles O4: the decoder, run on each word. -/
theorem decodedWords : Obligations.DecodedWords := by
  unfold Obligations.DecodedWords
  decide

end Sys2Proof
end

section
/-! A turn of the command port: what is accepted, what an accepted command starts, and what an illegal word
does (30_encoding.md R105, R106, R110, 60_exceptions.md R301). -/

namespace Sys2Proof.Machine

open Sys2Proof

variable {s : State} {w : CmdWord} {ws : List CmdWord} {ts : List Turn} {i : Instr}
  {run : Instr → State → Host.Outcome State Fault Refusal}

/-! ## The oldest word of the port -/

theorem takeCommand_busy (ha : s.accepts = false) : takeCommand run s = .next s := by
  unfold takeCommand
  split
  · rfl
  · simp [ha]

theorem takeCommand_decoded (hp : s.port = w :: ws) (ha : s.accepts = true)
    (hd : decode w = some i) : takeCommand run s = run i { s with port := ws } := by
  simp [takeCommand, hp, ha, hd]

theorem takeCommand_undecoded (hp : s.port = w :: ws) (ha : s.accepts = true)
    (hd : decode w = none) : takeCommand run s = illegalCommand { s with port := ws } := by
  simp [takeCommand, hp, ha, hd]

/-! ## Moves that turn to the port -/

theorem takeTurn_command (hr : runOwed s = false) : takeTurn .command s = takeCommand exec s := by
  simp [takeTurn, hr]

/-- The idle block, on its turn, accepts a command. -/
theorem blockMove_idle (ha : s.accepts = true) (hr : runOwed s = false) :
    blockMove s = takeCommand (fun i t => .next (acceptCommand i t)) s := by
  obtain ⟨hctx, hhalt⟩ := (accepts_iff s).mp ha
  simp [blockMove, hctx, hhalt, hr]

theorem moveAlone_idle (hp : s.port = w :: ws) (ha : s.accepts = true) (hr : runOwed s = false) :
    moveAlone s = takeCommand exec s := by
  obtain ⟨hctx, hhalt⟩ := (accepts_iff s).mp ha
  simp [moveAlone, hctx, hhalt, hr, hp]

theorem step_command (ht : s.turns = .command :: ts) (hr : runOwed s = false) :
    step s = takeCommand exec { s with turns := ts } :=
  (nextMove_cons ht).trans (takeTurn_command (s := { s with turns := ts }) hr)

theorem step_block (ht : s.turns = .block :: ts) (ha : s.accepts = true) (hr : runOwed s = false) :
    step s = takeCommand (fun i t => .next (acceptCommand i t)) { s with turns := ts } :=
  (nextMove_cons ht).trans (blockMove_idle (s := { s with turns := ts }) ha hr)

/-- Settles O6: each of the three ways to offer the command turns to the port, whose word decodes. -/
theorem stepRunsCommand : Obligations.StepRunsCommand := by
  unfold Obligations.StepRunsCommand
  refine ⟨fun s w ws i hp ha hr hd => ⟨fun ts ht => ?_, fun ht => ?_⟩, fun s nbits w i hd => ?_⟩
  · rw [step_command ht hr]
    exact takeCommand_decoded hp ha hd
  · exact (nextMove_alone ht).trans ((moveAlone_idle hp ha hr).trans (takeCommand_decoded hp ha hd))
  · obtain ⟨-, hd⟩ := Option.ite_none_right_eq_some.mp hd
    have hstep : step (s.withFetchWord nbits w) =
        takeCommand exec { s.withFetchWord nbits w with turns := s.turns } := step_command rfl rfl
    rw [hstep]
    exact takeCommand_decoded rfl rfl hd

/-! ## Acceptance (R110) -/

/-- The reserved opcodes are the commands without a numbered step. -/
theorem opsOf_eq_nil_iff {m : Nat} :
    opsOf m i = [] ↔ (∃ h l, i = .reservedE h l) ∨ (∃ h l, i = .reservedF h l) := by
  cases i with
  | reservedE high low => exact ⟨fun _ => .inl ⟨high, low, rfl⟩, fun _ => rfl⟩
  | reservedF high low => exact ⟨fun _ => .inr ⟨high, low, rfl⟩, fun _ => rfl⟩
  | _ =>
      constructor
      · intro h
        cases h
      · rintro (⟨_, _, h⟩ | ⟨_, _, h⟩) <;> cases h

theorem acceptCommand_cons {op : CmdOp} {ops : List CmdOp}
    (h : opsOf s.cfg.maxEndpoints i = op :: ops) :
    acceptCommand i s = { s with ctx := .cmd ⟨i, op :: ops, {}⟩ } := by
  simp only [acceptCommand, h]

/-- Settles O7: a busy block leaves the port alone, and an idle one is put where `acceptCommand` says. -/
theorem acceptance : Obligations.Acceptance := by
  unfold Obligations.Acceptance
  refine ⟨fun s ha => ⟨fun i => exec_busy ha, fun ts ht hr => ?_⟩,
    fun s w ws ts i ht hp ha hr hd => ?_⟩
  · rw [step_command ht hr]
    exact takeCommand_busy ha
  · have haccept : step s = .next (acceptCommand i { s with turns := ts, port := ws }) := by
      rw [step_block ht ha hr]
      exact takeCommand_decoded hp ha hd
    exact ⟨fun op ops hops => haccept.trans (congrArg _ (acceptCommand_cons hops)), opsOf_eq_nil_iff,
      fun hops => haccept.trans (congrArg _ (acceptCommand_without_steps hops))⟩

/-! ## Illegal words (R105, R106) -/

/-- A word that spells no command halts the idle block at the turn that takes it from the port. -/
theorem takeCommand_illegal (hp : s.port = w :: ws) (ha : s.accepts = true)
    (hd : decode w = none ∨ (∃ h l, decode w = some (.reservedE h l)) ∨
      (∃ h l, decode w = some (.reservedF h l))) :
    takeCommand exec s = .next (({ s with port := ws } : State).raiseFault .illegalCommand) := by
  have hillegal : takeCommand exec s = illegalCommand { s with port := ws } := by
    obtain hd | ⟨high, low, hd⟩ | ⟨high, low, hd⟩ := hd
    · exact takeCommand_undecoded hp ha hd
    · exact takeCommand_decoded hp ha hd
    · exact takeCommand_decoded hp ha hd
  exact hillegal.trans (illegalCommand_accepted ha)

/-- Settles O3: `spells_no_command_iff` says which words these are, `takeCommand_illegal` what they do. -/
theorem strictDecode : Obligations.StrictDecode := by
  unfold Obligations.StrictDecode
  refine ⟨fun s high low ha => ⟨illegalCommand_accepted ha, illegalCommand_accepted ha⟩, fun w =>
    ⟨spells_no_command_iff, fun hw s ws ts ht hp ha hr => ?_⟩⟩
  rw [step_command ht hr]
  exact takeCommand_illegal hp ha (spells_no_command_iff.mp hw)

end Sys2Proof.Machine
end

section
/-! The two largest elements of a list (40_fifo_allocator.md R153). -/

namespace Sys2Proof.Machine

open Sys2Proof

/-- Two sizes put into the pair may change places, so the order of the list does not matter. -/
theorem insertLargest_comm (p : Nat × Nat) (x y : Nat) :
    insertLargest (insertLargest p x) y = insertLargest (insertLargest p y) x := by
  unfold insertLargest
  grind

theorem insertLargest_below {x b y : Nat} (hb : b ≤ x) (hy : y ≤ x) :
    insertLargest (x, b) y = (x, max b y) := by
  unfold insertLargest
  rcases hy.lt_or_eq with hlt | rfl
  · rw [if_neg (Nat.not_le.mpr hlt)]
    split
    · next hby => rw [Nat.max_eq_right hby]
    · next hby => rw [Nat.max_eq_left (Nat.le_of_not_le hby)]
  · rw [if_pos le_rfl, Nat.max_eq_right hb]

/-- Below a largest element that stays, the second of the pair is the running maximum. -/
theorem foldl_insertLargest {x b : Nat} {l : List Nat} (hb : b ≤ x) (hl : ∀ y ∈ l, y ≤ x) :
    l.foldl insertLargest (x, b) = (x, l.foldl max b) := by
  induction l generalizing b with
  | nil => rfl
  | cons y l ih =>
      obtain ⟨hy, hl⟩ := List.forall_mem_cons.mp hl
      rw [List.foldl_cons, insertLargest_below hb hy, List.foldl_cons,
        ih (Nat.max_le.mpr ⟨hb, hy⟩) hl]

theorem twoLargest_perm {l l' : List Nat} (h : l.Perm l') : twoLargest l = twoLargest l' :=
  h.foldl_eq' (fun x _ y _ p => insertLargest_comm p x y) _

/-- Settles O42: sort the largest element to the front, where the fold takes it first. -/
theorem largestTwo : Obligations.LargestTwo := by
  unfold Obligations.LargestTwo
  refine ⟨fun l rest x hperm hmax => ?_, rfl⟩
  have hfirst : insertLargest (0, 0) x = (x, 0) := if_pos (Nat.zero_le x)
  rw [twoLargest_perm hperm, twoLargest, List.foldl_cons, hfirst]
  exact foldl_insertLargest (Nat.zero_le x) hmax

end Sys2Proof.Machine
end

section
/-! INIT over a capacity that is too small (40_fifo_allocator.md R142). -/

namespace Sys2Proof.Machine

open Sys2Proof

variable {s : State}

/-- The state INIT has reached when `BringUp` starts (45_system_ops.md R261 steps 1 to 6). -/
def beforeBringUp (s : State) : State :=
  (initHolds (initMasks ((initMaskAll (initBlock s)).setSoftdisc true))).setDevaddr 0

/-- What INIT leaves when the check of `BringUp` fails: the writes of its steps 1 to 6, and the fault. -/
theorem exec_init_overflow (ha : s.accepts = true)
    (hover : s.cfg.fifoCapacityWords < bringUpWords s.cfg) :
    ∃ x, exec .init s =
      .next (({ beforeBringUp s with ctx := x } : State).raiseFault .fifoOverflow) := by
  have hover : (beforeBringUp s).cfg.fifoCapacityWords < bringUpWords (beforeBringUp s).cfg := by
    simpa [beforeBringUp] using hover
  have hfault : cmdStep (.bringUp .check) {} (beforeBringUp s) =
      .raise .fifoOverflow (beforeBringUp s) := by
    simp only [cmdStep, bringUpStep_bad hover, CmdRes.ofAct]
  change ∃ x, runCommand .init initOps s = _
  rw [runCommand_accepted ha]
  exact ⟨_, (runCmd_go rfl).trans <| (runCmd_go rfl).trans <| (runCmd_go rfl).trans <|
    (runCmd_go rfl).trans <| (runCmd_go rfl).trans <| (runCmd_go rfl).trans <|
    runCmd_raise hfault⟩

/-- Settles O10: the steps of INIT before the check write neither the layout nor an event. -/
theorem initOverflow : Obligations.InitOverflow := by
  unfold Obligations.InitOverflow
  intro s ha hover
  obtain ⟨x, hrun⟩ := exec_init_overflow ha hover
  refine ⟨_, hrun, ?_⟩
  simp [beforeBringUp]

end Sys2Proof.Machine
end

section
/-! CFG_ALLOC run whole: its table declined or committed (40_fifo_allocator.md R151, R158). -/

namespace Sys2Proof.Machine

open Sys2Proof

variable {c : Instr} {n : EpNum} {l : CmdLocals} {s : State}

/-! ## The endpoints of the commit loop -/

theorem endpoints_ascend (m : Nat) : (endpoints m).Pairwise (· < ·) :=
  List.Pairwise.sublist List.filter_sublist (by decide)

/-- Every endpoint that exists but endpoint 0, ascending (R158). -/
def commitEndpoints (m : Nat) : List EpNum := (endpoints m).filter (fun n => n != 0)

theorem mem_commitEndpoints {m : Nat} : n ∈ commitEndpoints m ↔ n.val < m ∧ n ≠ 0 := by
  simp [commitEndpoints, mem_endpoints]

/-! ## The steps before the commit -/

/-- The commit of CFG_ALLOC and its last step (R158, R151 step 6). -/
def commitOps (maxEndpoints : Nat) : List CmdOp :=
  .commitStart :: .commitRx :: .commitEp0 ::
    ((commitEndpoints maxEndpoints).map CmdOp.commitEp ++ [.commitCount, .cfgRespond])

/-- No word in RXQ and no IN endpoint enabled is what the test of R160 asks for. -/
theorem quiescent_of_idle (hq : s.pi.rxq = [])
    (hena : ∀ n : EpNum, n.val < s.cfg.maxEndpoints → (s.epAt n .inn).ena = false) :
    quiescent s = true := by
  simp only [quiescent, hq, List.isEmpty_nil, Bool.true_and, List.all_eq_true]
  intro n hn
  rw [hena n ((mem_endpoints _ n).mp hn)]
  rfl

theorem tableValid_iff {m : Nat} {t : List DemandEntry} :
    tableValid m t = true ↔ ∀ e ∈ t, e.ep.val < m := by
  simp [tableValid]

/-- The locals of CFG_ALLOC once its table is read and its layout computed (R151 step 3). -/
def plannedLocals (c : Config) (t : List DemandEntry) : CmdLocals :=
  { entries := t, plan := allocPlan c t }

/-- Steps 1 to 3 over a valid table write nothing. -/
theorem exec_cfgAlloc_valid (ha : s.accepts = true) (hq : quiescent s = true) {table : Word}
    {count : Nat} (hvalid : ∀ e ∈ readTable s.mem table count, e.ep.val < s.cfg.maxEndpoints) :
    exec (.cfgAlloc table count) s =
      runCmd (.cfgAlloc table count) (.cfgCapacity :: commitOps s.cfg.maxEndpoints)
        (plannedLocals s.cfg (readTable s.mem table count)) s := by
  have hbegin : cmdStep .cfgBegin {} s = .go {} s := if_pos hq
  have hread : cmdStep (.cfgRead table count) {} s =
      .go { entries := readTable s.mem table count } s := if_pos (tableValid_iff.mpr hvalid)
  change runCommand _ (cfgAllocOps s.cfg.maxEndpoints table count) s = _
  rw [runCommand_accepted ha]
  exact (runCmd_go hbegin).trans <| (runCmd_go hread).trans <| runCmd_go rfl

/-- Step 2 over a table that names an endpoint that does not exist, whatever the table demands. -/
theorem exec_cfgAlloc_invalid (ha : s.accepts = true) (hq : quiescent s = true) {table : Word}
    {count : Nat} (hbad : ∃ e ∈ readTable s.mem table count, s.cfg.maxEndpoints ≤ e.ep.val) :
    ∃ x, exec (.cfgAlloc table count) s =
      .next (({ s with ctx := x } : State).raiseFault .invalidEndpoint) := by
  obtain ⟨e, he, hbig⟩ := hbad
  have hinvalid : ¬ tableValid s.cfg.maxEndpoints (readTable s.mem table count) = true := fun h =>
    absurd (tableValid_iff.mp h e he) (Nat.not_lt.mpr hbig)
  have hbegin : cmdStep .cfgBegin {} s = .go {} s := if_pos hq
  have hread : cmdStep (.cfgRead table count) {} s = .raise .invalidEndpoint s := if_neg hinvalid
  change ∃ x, runCommand _ (cfgAllocOps s.cfg.maxEndpoints table count) s = _
  rw [runCommand_accepted ha]
  exact ⟨_, (runCmd_go hbegin).trans (runCmd_raise hread)⟩

/-- Settles O44: the fault comes before the capacity test, and both before the first write. -/
theorem cfgAllocDeclines : Obligations.CfgAllocDeclines := by
  unfold Obligations.CfgAllocDeclines
  intro s table count t ha hrx hena
  have hq := quiescent_of_idle hrx hena
  refine ⟨fun hbad => ?_, fun hvalid hover => ?_⟩
  · obtain ⟨x, hrun⟩ := exec_cfgAlloc_invalid ha hq hbad
    exact ⟨_, hrun, rfl⟩
  · have hdeclined : cmdStep .cfgCapacity (plannedLocals s.cfg t) s = .respond .declined s :=
      if_pos hover
    have hidle := ((accepts_iff s).mp ha).1
    rw [exec_cfgAlloc_valid ha hq hvalid, runCmd_respond hdeclined, State.respond, ← hidle]

/-! ## The commit loop -/

/-- The lines of the commit loop for the endpoints `ns`, from offset `a` (R158). -/
def commitLoop (p : AllocPlan) (ns : List EpNum) (a : Nat) (s : State) : State × Nat :=
  ns.foldl (fun r n => commitEndpoint p n r.2 r.1) (s, a)

theorem commitLoop_cons (p : AllocPlan) (n : EpNum) (ns : List EpNum) (a : Nat) (s : State) :
    commitLoop p (n :: ns) a s =
      commitLoop p ns (commitEndpoint p n a s).2 (commitEndpoint p n a s).1 := rfl

theorem runCmd_commitLoop (ns : List EpNum) (rest : List CmdOp) :
    runCmd c (ns.map CmdOp.commitEp ++ rest) l s =
      runCmd c rest { l with next := (commitLoop l.plan ns l.next s).2 }
        (commitLoop l.plan ns l.next s).1 := by
  induction ns generalizing l s with
  | nil => rfl
  | cons n ns ih => exact (runCmd_go rfl).trans ih

/-- A state with other transmit FIFO registers. -/
def State.withTxFifos (s : State) (txf : Bank TxfRegs) (valid : Bank Bool) : State :=
  { s with pi := { s.pi with txf := txf }, txfValid := valid }

theorem commitEndpoint_state (p : AllocPlan) (n : EpNum) (a : Nat) (s : State) :
    (commitEndpoint p n a s).1 =
      s.withTxFifos (if p.present[n] then s.pi.txf.set n ⟨a, p.depth[n]⟩ else s.pi.txf)
        (s.txfValid.set n p.present[n]) := by
  unfold commitEndpoint
  cases p.present[n] <;> rfl

/-- The loop writes transmit FIFO registers only. -/
theorem commitLoop_frame (p : AllocPlan) (ns : List EpNum) (a : Nat) (s : State) :
    ∃ txf valid, (commitLoop p ns a s).1 = s.withTxFifos txf valid := by
  induction ns generalizing a s with
  | nil => exact ⟨s.pi.txf, s.txfValid, rfl⟩
  | cons n ns ih =>
      obtain ⟨txf, valid, h⟩ := ih (commitEndpoint p n a s).2 (commitEndpoint p n a s).1
      refine ⟨txf, valid, ?_⟩
      rw [commitLoop_cons, h, commitEndpoint_state]
      rfl

theorem commitEndpoint_other (p : AllocPlan) {m n : EpNum} (hmn : m ≠ n) (a : Nat) (s : State) :
    (commitEndpoint p n a s).1.pi.txf[m] = s.pi.txf[m] ∧
      (commitEndpoint p n a s).1.txfValid[m] = s.txfValid[m] := by
  rw [commitEndpoint_state]
  cases p.present[n] <;> simp [State.withTxFifos, Bank.get_set_other _ _ _ _ hmn]

/-- The loop leaves the FIFOs of other endpoints. -/
theorem commitLoop_other (p : AllocPlan) {m : EpNum} {ns : List EpNum} (hm : m ∉ ns) (a : Nat)
    (s : State) :
    (commitLoop p ns a s).1.pi.txf[m] = s.pi.txf[m] ∧
      (commitLoop p ns a s).1.txfValid[m] = s.txfValid[m] := by
  induction ns generalizing a s with
  | nil => exact ⟨rfl, rfl⟩
  | cons n ns ih =>
      obtain ⟨hmn, hm⟩ := not_or.mp (List.mem_cons.not.mp hm)
      obtain ⟨htxf, hvalid⟩ := commitEndpoint_other p hmn a s
      obtain ⟨ihtxf, ihvalid⟩ := ih hm (commitEndpoint p n a s).2 (commitEndpoint p n a s).1
      exact ⟨ihtxf.trans htxf, ihvalid.trans hvalid⟩

/-- The words the present endpoints among `ns` take. -/
def depthSum (p : AllocPlan) (ns : List EpNum) : Nat :=
  ((ns.filter fun n => p.present[n]).map fun n => p.depth[n]).sum

theorem commitEndpoint_depthSum (p : AllocPlan) (n : EpNum) (ns : List EpNum) (a : Nat) (s : State) :
    (commitEndpoint p n a s).2 + depthSum p ns = a + depthSum p (n :: ns) :=
  commitEndpoint_sum p n ns a s

/-- The offset after the loop. -/
theorem commitLoop_end (p : AllocPlan) (ns : List EpNum) (a : Nat) (s : State) :
    (commitLoop p ns a s).2 = a + depthSum p ns := by
  induction ns generalizing a s with
  | nil => rfl
  | cons n ns ih => rw [commitLoop_cons, ih, commitEndpoint_depthSum]

/-- An endpoint of the loop, whose endpoints ascend, gets its FIFO, if it is to have one, above those of
the endpoints below it. -/
theorem commitLoop_mem (p : AllocPlan) {m : EpNum} {ns : List EpNum} (hm : m ∈ ns)
    (hns : ns.Pairwise (· < ·)) (a : Nat) (s : State) :
    (commitLoop p ns a s).1.txfValid[m] = p.present[m] ∧
      (commitLoop p ns a s).1.pi.txf[m] =
        if p.present[m] then ⟨a + depthSum p (ns.filter fun n => decide (n < m)), p.depth[m]⟩
        else s.pi.txf[m] := by
  induction ns generalizing a s with
  | nil => cases hm
  | cons n ns ih =>
      obtain ⟨habove, hns⟩ := List.pairwise_cons.mp hns
      rw [commitLoop_cons]
      rcases List.mem_cons.mp hm with rfl | hm
      · have hnew : m ∉ ns := fun h => lt_irrefl m (habove m h)
        have hnone : (m :: ns).filter (fun n => decide (n < m)) = [] := by
          rw [List.filter_eq_nil_iff]
          intro n hn
          rcases List.mem_cons.mp hn with rfl | hn
          · simp
          · simpa using (habove n hn).le
        obtain ⟨htxf, hvalid⟩ := commitLoop_other p hnew (commitEndpoint p m a s).2
          (commitEndpoint p m a s).1
        rw [htxf, hvalid, hnone, commitEndpoint_state]
        cases p.present[m] <;> simp [State.withTxFifos, depthSum]
      · have hlt := habove m hm
        obtain ⟨htxf, -⟩ := commitEndpoint_other p hlt.ne' a s
        obtain ⟨ihvalid, ihtxf⟩ := ih hm hns (commitEndpoint p n a s).2 (commitEndpoint p n a s).1
        refine ⟨ihvalid, ?_⟩
        have hbelow : (n :: ns).filter (fun n => decide (n < m)) =
            n :: ns.filter (fun n => decide (n < m)) :=
          List.filter_cons_of_pos (decide_eq_true hlt)
        rw [ihtxf, htxf, commitEndpoint_depthSum, hbelow]

/-! ## CFG_ALLOC of a table that fits -/

/-- The state as the commit loop starts: the receive FIFO and that of endpoint 0 are placed (R158). -/
def commitBase (c : Config) (t : List DemandEntry) (s : State) : State :=
  (s.setRxDepth (planRx c t)).assignTxFifo 0 (planRx c t) c.ep0TxWords

/-- The state after the commit loop for table `t`, and ALLOC_WORDS to be written (R158). -/
def committed (c : Config) (t : List DemandEntry) (s : State) : State × Nat :=
  commitLoop (allocPlan c t) (commitEndpoints c.maxEndpoints) (planRx c t + c.ep0TxWords)
    (commitBase c t s)

/-- The commit writes the receive FIFO's depth and transmit FIFO registers only. -/
theorem committed_frame (c : Config) (t : List DemandEntry) (s : State) :
    ∃ txf valid, (committed c t s).1 = (s.setRxDepth (planRx c t)).withTxFifos txf valid :=
  commitLoop_frame (allocPlan c t) _ _ (commitBase c t s)

/-- The offset after the loop is the end of the last FIFO. -/
theorem committed_end (c : Config) (t : List DemandEntry) (s : State) :
    (committed c t s).2 = txEnd c t := by
  rw [committed, commitLoop_end, depthSum, commitEndpoints, filter_present_allocPlan, txEnd]
  simp [allocPlan]

theorem committed_zero (c : Config) (t : List DemandEntry) (s : State) :
    (committed c t s).1.pi.txf[(0 : EpNum)] = ⟨planRx c t, c.ep0TxWords⟩ ∧
      (committed c t s).1.txfValid[(0 : EpNum)] = true := by
  have hloop : 0 ∉ commitEndpoints c.maxEndpoints := by simp [mem_commitEndpoints]
  obtain ⟨htxf, hvalid⟩ := commitLoop_other (allocPlan c t) hloop (planRx c t + c.ep0TxWords)
    (commitBase c t s)
  exact ⟨htxf.trans (Bank.get_set_same _ 0 _), hvalid.trans (Bank.get_set_same _ 0 _)⟩

theorem committed_absent {c : Config} (hm : 1 ≤ c.maxEndpoints) (hn : c.maxEndpoints ≤ n.val)
    (t : List DemandEntry) (s : State) :
    (committed c t s).1.txfValid[n] = s.txfValid[n] ∧
      (committed c t s).1.pi.txf[n] = s.pi.txf[n] := by
  have hne : n ≠ 0 := by
    rintro rfl
    exact absurd hn (Nat.not_le.mpr hm)
  have hloop : n ∉ commitEndpoints c.maxEndpoints := fun h =>
    absurd (mem_commitEndpoints.mp h).1 (Nat.not_lt.mpr hn)
  obtain ⟨htxf, hvalid⟩ := commitLoop_other (allocPlan c t) hloop (planRx c t + c.ep0TxWords)
    (commitBase c t s)
  exact ⟨hvalid.trans (Bank.get_set_other _ 0 n _ hne), htxf.trans (Bank.get_set_other _ 0 n _ hne)⟩

/-- The FIFO of an endpoint starts where those of the endpoints below it end. -/
theorem add_depthSum_below (c : Config) (t : List DemandEntry) (n : EpNum) :
    planRx c t + c.ep0TxWords +
        depthSum (allocPlan c t) ((commitEndpoints c.maxEndpoints).filter fun m => decide (m < n)) =
      txStart c t n := by
  rw [depthSum, List.filter_comm, commitEndpoints, filter_present_allocPlan, txStart]
  simp [allocPlan]

/-- An endpoint of the loop has a FIFO exactly if the table names it for IN. -/
theorem committed_present {c : Config} (hne : n ≠ 0) (hn : n.val < c.maxEndpoints)
    (t : List DemandEntry) (s : State) :
    (committed c t s).1.txfValid[n] = demandPresent t n .inn ∧
      (committed c t s).1.pi.txf[n] =
        if demandPresent t n .inn = true then ⟨txStart c t n, depthIn c t n⟩ else s.pi.txf[n] := by
  have hpresent : (allocPlan c t).present[n] = demandPresent t n .inn := by simp [allocPlan, hn]
  have hdepth : (allocPlan c t).depth[n] = depthIn c t n := by simp [allocPlan]
  have hbase : (commitBase c t s).pi.txf[n] = s.pi.txf[n] := Bank.get_set_other _ 0 n _ hne
  obtain ⟨hvalid, htxf⟩ := commitLoop_mem (allocPlan c t) (mem_commitEndpoints.mpr ⟨hn, hne⟩)
    ((endpoints_ascend c.maxEndpoints).filter _) (planRx c t + c.ep0TxWords) (commitBase c t s)
  rw [hpresent, hdepth, add_depthSum_below, hbase] at htxf
  exact ⟨hvalid.trans hpresent, htxf⟩

theorem cfgBusState_eq (s : State) :
    cfgBusState s =
      { s with busState := if s.busState = .enumerating then .active else s.busState } := by
  unfold cfgBusState
  split <;> rfl

/-- The lines of the commit in order, and the response. -/
theorem runCmd_commitOps (t : List DemandEntry) (s : State) :
    runCmd c (commitOps s.cfg.maxEndpoints) (plannedLocals s.cfg t) s =
      .next ((cfgBusState ((committed s.cfg t s).1.setAllocWords (txEnd s.cfg t))).respond .ok) := by
  rw [← committed_end s.cfg t s]
  exact (runCmd_go rfl).trans <| (runCmd_go rfl).trans <| (runCmd_go rfl).trans <|
    (runCmd_commitLoop _ _).trans <| (runCmd_go rfl).trans <| runCmd_respond rfl

/-- CFG_ALLOC of a valid table whose demand fits. -/
theorem exec_cfgAlloc_fits (ha : s.accepts = true) (hq : quiescent s = true) {table : Word}
    {count : Nat} {t : List DemandEntry} (ht : readTable s.mem table count = t)
    (hvalid : ∀ e ∈ t, e.ep.val < s.cfg.maxEndpoints)
    (hroom : planDemand s.cfg t ≤ s.cfg.fifoCapacityWords) :
    exec (.cfgAlloc table count) s =
      .next { (committed s.cfg t s).1 with
        allocWords := txEnd s.cfg t
        busState := if s.busState = .enumerating then .active else s.busState
        resp := .ok } := by
  subst ht
  have hcapacity : cmdStep .cfgCapacity (plannedLocals s.cfg (readTable s.mem table count)) s =
      .go (plannedLocals s.cfg (readTable s.mem table count)) s := if_neg (Nat.not_lt.mpr hroom)
  have hidle := ((accepts_iff s).mp ha).1
  rw [exec_cfgAlloc_valid ha hq hvalid, runCmd_go hcapacity, runCmd_commitOps, cfgBusState_eq]
  obtain ⟨txf, valid, hframe⟩ := committed_frame s.cfg (readTable s.mem table count) s
  rw [hframe, State.respond, ← hidle]
  rfl

/-- Settles O43: the loop places the FIFOs one by one, in ascending order of the endpoints. -/
theorem cfgAllocCommits : Obligations.CfgAllocCommits := by
  unfold Obligations.CfgAllocCommits
  intro s table count t ha hm hrx hena hvalid hroom
  have hrun := exec_cfgAlloc_fits ha (quiescent_of_idle hrx hena) rfl hvalid hroom
  obtain ⟨hfifo0, hvalid0⟩ := committed_zero s.cfg t s
  refine ⟨_, hrun, ?_, hfifo0, hvalid0, fun n hne hn => committed_present hne hn t s,
    fun n hn => committed_absent hm hn t s⟩
  obtain ⟨txf, valid, hframe⟩ := committed_frame s.cfg t s
  rw [hframe]
  rfl

end Sys2Proof.Machine
end

section
/-! The endpoint commands: their first step and their last, states that agree up to the model's
bookkeeping, and OPEN and CLOSE (41_endpoint_ops.md R170 to R173). -/

namespace Sys2Proof.Machine

open Sys2Proof

variable {i : Instr} {s t : State} {n : EpNum} {d : Dir} {op : CmdOp} {rest : List CmdOp}
  {l : CmdLocals}

/-! ## The first step and the last -/

theorem exec_accepted (hops : opsOf s.cfg.maxEndpoints i = op :: rest) (ha : s.accepts = true) :
    exec i s = runCmd i (op :: rest) {} s := by
  have hne : opsOf s.cfg.maxEndpoints i ≠ [] := by simp [hops]
  rw [exec_with_steps hne, runCommand_accepted ha, hops]

/-- An endpoint command goes on with its second step on an endpoint that exists (R170). -/
theorem exec_ready (hops : opsOf s.cfg.maxEndpoints i = .checkEp n :: rest) (h : s.ready n) :
    exec i s = runCmd i rest {} s := by
  obtain ⟨ha, hn⟩ := h
  rw [exec_accepted hops ha]
  exact runCmd_go (if_neg (Nat.not_le.mpr hn))

/-- On an endpoint that does not exist it halts with nothing written (R170, 60_exceptions.md R305). -/
theorem exec_absent (hops : opsOf s.cfg.maxEndpoints i = .checkEp n :: rest)
    (ha : s.accepts = true) (hn : s.cfg.maxEndpoints ≤ n.val) :
    ∃ t, exec i s = .next t ∧
      t = { s with halted := true, faultCause := .invalidEndpoint, ctx := t.ctx } := by
  rw [exec_accepted hops ha]
  exact ⟨_, runCmd_raise (if_pos hn), rfl⟩

theorem State.ready.idle (h : s.ready n) : s.ctx = .idle := ((accepts_iff s).mp h.1).1

/-- A command run whole leaves CTX as it found it when it responds. -/
theorem runCmd_responds {r : Resp} (h : cmdStep op l s = .respond r t) (hidle : t.ctx = .idle) :
    runCmd i (op :: rest) l s = .next { t with resp := r } := by
  rw [runCmd_respond h, State.respond, ← hidle]

/-! ## States that agree up to the model's bookkeeping -/

/-- A state that differs in the fields `State.spec` hides only. -/
theorem SpecEq.of_books
    (h : t = { s with inFlight := t.inFlight, irqDue := t.irqDue, env := t.env }) : SpecEq t s :=
  (congrArg State.spec h).trans rfl

theorem SpecEq.trans {u : State} (h : SpecEq s t) (g : SpecEq t u) : SpecEq s u := Eq.trans h g

theorem SpecEq.epAt (h : SpecEq s t) (n : EpNum) (d : Dir) : s.epAt n d = t.epAt n d := by
  have hspec : s.spec.epAt n d = t.spec.epAt n d := congrArg (State.epAt · n d) h
  exact hspec

theorem SpecEq.setEp (h : SpecEq s t) (n : EpNum) (d : Dir) (r : EpRegs) :
    SpecEq (s.setEp n d r) (t.setEp n d r) := congrArg (State.setEp · n d r) h

theorem SpecEq.setPending (h : SpecEq s t) (d : Dir) (v : Nat) :
    SpecEq (s.setPending d v) (t.setPending d v) := congrArg (State.setPending · d v) h

theorem SpecEq.setResp (h : SpecEq s t) (r : Resp) :
    SpecEq { s with resp := r } { t with resp := r } :=
  congrArg (fun u : State => ({ u with resp := r } : State)) h

theorem SpecEq.setCtx (h : SpecEq s t) (x : Ctx) :
    SpecEq { s with ctx := x } { t with ctx := x } :=
  congrArg (fun u : State => ({ u with ctx := x } : State)) h

/-! ## Writes to one cell twice -/

@[simp] theorem Both.set_set {α : Type} (b : Both α) (d : Dir) (x y : α) :
    (b.set d x).set d y = b.set d y := by
  cases d <;> rfl

@[simp] theorem setEp_setEp (s : State) (n : EpNum) (d : Dir) (r r' : EpRegs) :
    (s.setEp n d r).setEp n d r' = s.setEp n d r' := by
  simp [State.setEp, Pi.setEp]

@[simp] theorem setPending_setPending (s : State) (d : Dir) (v v' : Nat) :
    (s.setPending d v).setPending d v' = s.setPending d v' := by
  simp [State.setPending]

/-! ## OPEN (R171) -/

theorem openBusState_eq (n : EpNum) (s : State) :
    openBusState n s =
      { s with busState := if n ≠ 0 ∧ s.busState = .enumerating then .active else s.busState } := by
  unfold openBusState
  split <;> rfl

/-- Steps 3 and 4: the record's packet size and the endpoint's own fields. -/
def openedEp (n : EpNum) (d : Dir) (ty : XferType) (mps : Nat) (s : State) : State :=
  (s.setRec n d { s.recAt n d with maxSize := mps }).setEp n d
    { s.epAt n d with active := true, ty := ty, mps := mps }

/-- Steps 2 to 4 of an OPEN within the ceiling. -/
theorem runCmd_openedEp {ty : XferType} {mps : Nat} (hmps : mps ≤ ceiling ty s.pi.speed) :
    runCmd i (.openCeiling ty mps :: .openSize n d mps :: .openProgram n d ty mps :: rest) l s =
      runCmd i rest l (openedEp n d ty mps s) := by
  have hceiling : cmdStep (.openCeiling ty mps) l s = .go l s := if_neg (Nat.not_lt.mpr hmps)
  exact (runCmd_go hceiling).trans <| (runCmd_go rfl).trans <| runCmd_go rfl

/-- Steps 6 and 7: the endpoint enable, BUS_STATE and the response. -/
theorem runCmd_openEnd (hidle : s.ctx = .idle) :
    runCmd i [.openEpint n d, .openRespond n] l s =
      .next { s.setEpint n d true with
        busState := if n ≠ 0 ∧ s.busState = .enumerating then .active else s.busState
        resp := .ok } := by
  have hrespond : cmdStep (.openRespond n) l (s.setEpint n d true) = .respond .ok _ :=
    congrArg (CmdRes.respond .ok) (openBusState_eq n _)
  exact (runCmd_go rfl).trans <| runCmd_responds hrespond hidle

/-- Step 5, once the FIFO is there, and the end of OPEN. -/
theorem runCmd_openInEnd {mps : Nat} (hbind : txBindFifo n mps s = .ok t) (hidle : t.ctx = .idle) :
    runCmd i [.txBindFifo n mps, .txBindNum n, .openEpint n d, .openRespond n] l s =
      .next { (txBindNum n t).setEpint n d true with
        busState := if n ≠ 0 ∧ t.busState = .enumerating then .active else t.busState
        resp := .ok } := by
  have hstep : cmdStep (.txBindFifo n mps) l s = .go l t := congrArg (CmdRes.ofAct l) hbind
  exact (runCmd_go hstep).trans <| (runCmd_go rfl).trans <| runCmd_openEnd hidle

/-- Settles O30: steps 2 to 4, then the end, with no FIFO to bind. -/
theorem openOut : Obligations.OpenOut := by
  unfold Obligations.OpenOut
  intro s n ty mps h hmps
  rw [exec_ready rfl h]
  exact (runCmd_openedEp hmps).trans (runCmd_openEnd h.idle)

/-- Settles O31: as for OUT, with the two ways in which `txBindFifo` finds or makes room. -/
theorem openIn : Obligations.OpenIn := by
  unfold Obligations.OpenIn
  intro s n ty mps h hmps
  dsimp only
  rw [exec_ready rfl h]
  refine ⟨fun hvalid hdepth => ?_, fun hvalid hroom => ?_⟩
  · have hbind := txBindFifo_reuse (s := openedEp n .inn ty mps s) hvalid hdepth
    exact (runCmd_openedEp hmps).trans (runCmd_openInEnd hbind h.idle)
  · have hbind := txBindFifo_alloc (s := openedEp n .inn ty mps s) hvalid hroom
    exact (runCmd_openedEp hmps).trans (runCmd_openInEnd hbind h.idle)

/-! ## CLOSE (R173) -/

/-- Settles O33: the transfer CLOSE cancels is known to the model's bookkeeping only. -/
theorem closeEffect : Obligations.CloseEffect := by
  unfold Obligations.CloseEffect
  intro s n d ha
  refine ⟨fun hn => ?_, fun hn => exec_absent rfl ha hn⟩
  have h : s.ready n := ⟨ha, hn⟩
  rw [exec_ready rfl h]
  have hend := runCmd_responds (i := .closeEp n d) (op := .respondOk) (rest := []) (l := {})
    (t := (closeActive n d s).setEpint n d false) rfl h.idle
  exact ⟨_, (runCmd_go rfl).trans <| (runCmd_go rfl).trans hend, .of_books rfl⟩

end Sys2Proof.Machine
end

section
/-! XFER: the record, the arming of the endpoint, and its faults (41_endpoint_ops.md R175 to R179,
42_ep0_mux.md R201). -/

namespace Sys2Proof.Machine

open Sys2Proof

variable {i : Instr} {s t : State} {n : EpNum} {d : Dir} {op : CmdOp} {rest : List CmdOp}
  {l : CmdLocals} {buffer : Word} {length : Nat}

/-! ## Arming (R176) -/

/-- Steps a and b: the counts, both holds and the enable; the rest is what the environment notes. -/
theorem armEp_specEq (s : State) (n : EpNum) (d : Dir) (pk by_ : Nat) :
    SpecEq ((s.armSize n d pk by_).armEnable n d)
      (s.setEp n d
        { s.epAt n d with pktcnt := pk, xfrsiz := by_, stall := false, nak := false, ena := true }) := by
  have hsize : SpecEq (s.armSize n d pk by_)
      (s.setEp n d { s.epAt n d with pktcnt := pk, xfrsiz := by_ }) := by
    cases d <;> exact .of_books rfl
  have hread : (s.armSize n d pk by_).epAt n d = { s.epAt n d with pktcnt := pk, xfrsiz := by_ } := by
    cases d <;> exact epAt_setEp_same s n _ _
  have henable (t : State) : SpecEq (t.armEnable n d)
      (t.setEp n d { t.epAt n d with stall := false, nak := false, ena := true }) := .of_books rfl
  have h := (henable (s.armSize n d pk by_)).trans (hsize.setEp n d _)
  rwa [setEp_setEp, hread] at h

/-- Step c. -/
theorem armTxe_eq (s : State) (n : EpNum) (d : Dir) (by_ : Nat) :
    s.armTxe n d by_ = if d = .inn ∧ by_ ≠ 0 then s.setTxe n true else s := by
  cases d with
  | out => rfl
  | inn => by_cases h : by_ = 0 <;> simp [State.armTxe, h]

theorem SpecEq.armTxe {r : Resp} (h : SpecEq { s with resp := r } t) (n : EpNum) (d : Dir)
    (by_ : Nat) :
    SpecEq { s.armTxe n d by_ with resp := r }
      (if d = .inn ∧ by_ ≠ 0 then t.setTxe n true else t) := by
  rw [armTxe_eq]
  split
  · exact congrArg (State.setTxe · n true) h
  · exact h

/-- Arming, and the response: nothing but the endpoint's own fields and the FIFO-empty enable. -/
theorem SpecEq.armed (h : SpecEq s t) (n : EpNum) (d : Dir) (pk by_ : Nat) :
    SpecEq { s.arm n d pk by_ with resp := .ok }
      (let r := { t.setEp n d { t.epAt n d with
          pktcnt := pk, xfrsiz := by_, stall := false, nak := false, ena := true } with resp := .ok }
       if d = .inn ∧ by_ ≠ 0 then r.setTxe n true else r) := by
  have harm := (armEp_specEq s n d pk by_).trans (h.setEp n d _)
  rw [h.epAt n d] at harm
  exact (harm.setResp .ok).armTxe n d by_

/-- The last four steps of XFER. -/
theorem runCmd_arm (hidle : s.ctx = .idle) :
    runCmd i (armOps n d ++ [.respondOk]) l s =
      .next { s.arm n d l.pk l.by_ with resp := .ok } := by
  have hend := runCmd_responds (i := i) (op := .respondOk) (rest := []) (l := l)
    (t := s.arm n d l.pk l.by_) rfl (by simpa [State.arm] using hidle)
  exact (runCmd_go rfl).trans <| (runCmd_go rfl).trans <| (runCmd_go rfl).trans hend

/-! ## The checks and the record (R175 steps 2 and 3) -/

/-- Step 3: the record, and in the model's bookkeeping the transfer. -/
def xferStarted (n : EpNum) (d : Dir) (buffer : Word) (length : Nat) (s : State) : State :=
  startFlight n d (s.setRec n d { s.recAt n d with buffer := buffer, totalLen := length })

theorem xferStarted_specEq (n : EpNum) (d : Dir) (buffer : Word) (length : Nat) (s : State) :
    SpecEq (xferStarted n d buffer length s)
      (s.setRec n d { s.recAt n d with buffer := buffer, totalLen := length }) := .of_books rfl

/-- The locals of XFER once its length has been checked. -/
def xferLocals (length m : Nat) : CmdLocals := { pk := packetCount length m, by_ := length }

/-- Steps 2 and 3 where the checks pass and no transfer is in flight. -/
theorem runCmd_xferStarted (hsize : (s.recAt n d).maxSize ≠ 0)
    (hcount : n = 0 ∨ packetCount length (s.recAt n d).maxSize ≤ maxPktcnt)
    (hfree : s.inFlightAt n d = false) :
    runCmd i (.xferCheck n d length :: .xferRecord n d buffer length :: rest) {} s =
      runCmd i rest (xferLocals length (s.recAt n d).maxSize)
        (xferStarted n d buffer length s) := by
  have hlarge : ¬ (n ≠ 0 ∧ packetCount length (s.recAt n d).maxSize > maxPktcnt) := by
    rintro ⟨hn, hover⟩
    exact absurd (hcount.resolve_left hn) (Nat.not_le.mpr hover)
  have hcheck : cmdStep (.xferCheck n d length) {} s =
      .go (xferLocals length (s.recAt n d).maxSize) s := (if_neg hsize).trans (if_neg hlarge)
  have hrecord (l : CmdLocals) : cmdStep (.xferRecord n d buffer length) l s =
      .go l (xferStarted n d buffer length s) := by
    simp only [cmdStep, xferRecord, hfree]
    rfl
  exact (runCmd_go hcheck).trans (runCmd_go (hrecord _))

/-- Settles O34: the record, then `armedEp` with the packet count of step 2. -/
theorem xferOther : Obligations.XferOther := by
  unfold Obligations.XferOther
  intro s n d buffer length h hn hfree hsize hcount
  have hops : opsOf s.cfg.maxEndpoints (.xfer n d buffer length) =
      .checkEp n :: .xferCheck n d length :: .xferRecord n d buffer length ::
        (armOps n d ++ [.respondOk]) := by
    simp [opsOf, xferOps, hn]
  rw [exec_ready hops h]
  refine ⟨_, (runCmd_xferStarted hsize (.inr hcount) hfree).trans (runCmd_arm h.idle), ?_⟩
  exact (xferStarted_specEq n d buffer length s).armed n d _ length

/-! ## Endpoint 0 (42_ep0_mux.md R201) -/

/-- The first packet is taken from the bytes of the whole transfer (R201 step 1). -/
theorem ep0Take_setPending (s : State) (d : Dir) (length : Nat) :
    ep0Take (s.setPending d length) d =
      s.setPending d (length - min length (s.recAt 0 d).maxSize) := by
  simp [ep0Take, ep0Bytes]

theorem recAt_xferStarted_maxSize (n : EpNum) (d : Dir) (buffer : Word) (length : Nat) (s : State) :
    ((xferStarted n d buffer length s).recAt n d).maxSize = (s.recAt n d).maxSize := by
  have hread : (xferStarted n d buffer length s).recAt n d =
      { s.recAt n d with buffer := buffer, totalLen := length } := recAt_setRec_same s n d _
  rw [hread]

/-- The scheduling of endpoint 0 up to its arming: one packet, the rest left pending. -/
theorem runCmd_ep0Take :
    runCmd i (.ep0Pending d length :: .ep0Take d :: rest) l s =
      runCmd i rest { l with pk := 1, by_ := min length (s.recAt 0 d).maxSize }
        (s.setPending d (length - min length (s.recAt 0 d).maxSize)) := by
  have hbytes : ep0Bytes (s.setPending d length) d = min length (s.recAt 0 d).maxSize := by
    simp [ep0Bytes]
  have htake : cmdStep (.ep0Take d) l (s.setPending d length) =
      .go { l with pk := 1, by_ := min length (s.recAt 0 d).maxSize }
        (s.setPending d (length - min length (s.recAt 0 d).maxSize)) := by
    rw [cmdStep, ep0Take_setPending, hbytes]
  exact (runCmd_go rfl).trans (runCmd_go htake)

/-- Settles O35: the record, then one packet armed by `Ep0Schedule`. -/
theorem xferEp0 : Obligations.XferEp0 := by
  unfold Obligations.XferEp0
  intro s d buffer length h hfree hsize
  have hops : opsOf s.cfg.maxEndpoints (.xfer 0 d buffer length) =
      .checkEp 0 :: .xferCheck 0 d length :: .xferRecord 0 d buffer length ::
        .ep0Pending d length :: .ep0Take d :: (armOps 0 d ++ [.respondOk]) := rfl
  rw [exec_ready hops h, runCmd_xferStarted hsize (.inl rfl) hfree, runCmd_ep0Take,
    recAt_xferStarted_maxSize]
  refine ⟨_, runCmd_arm h.idle, ?_⟩
  exact ((xferStarted_specEq 0 d buffer length s).setPending d _).armed 0 d 1 _

/-! ## The faults (R178, R179) -/

theorem packetCount_le {m : Nat} (hm : 65 ≤ m) (hl : length < 2 ^ 16) :
    packetCount length m ≤ 1023 := by
  unfold packetCount
  split
  · decide
  · have hlt : (length + m - 1) / m < 1024 := (Nat.div_lt_iff_lt_mul (by omega)).mpr (by omega)
    exact Nat.le_of_lt_succ hlt

/-- With the packet size of full speed the last lengths do not fit (R179). -/
theorem packetCount_64 : 1023 < packetCount length 64 ↔ 65472 < length := by
  unfold packetCount ceilDiv
  split <;> omega

/-- XFER on an endpoint that exists ends at step 2 when a check fails. -/
theorem exec_xfer_raises {c : FaultCause} (h : s.ready n)
    (hcheck : xferCheck n d length {} s = .raise c s) :
    ∃ t, exec (.xfer n d buffer length) s = .next t ∧
      t = { s with halted := true, faultCause := c, ctx := t.ctx } := by
  rw [exec_ready rfl h]
  exact ⟨_, runCmd_raise hcheck, rfl⟩

/-- Settles O36: the checks of R170, R178 and R179 in their order, each before the first write. -/
theorem xferFaults : Obligations.XferFaults := by
  unfold Obligations.XferFaults
  refine ⟨fun m length hl => ⟨by omega, fun hm => packetCount_le hm hl, packetCount_64⟩,
    fun s n d buffer length c ha hc hfault => ?_⟩
  by_cases hn : s.cfg.maxEndpoints ≤ n.val
  · rw [hc, if_pos hn]
    exact exec_absent rfl ha hn
  · have h : s.ready n := ⟨ha, Nat.not_le.mp hn⟩
    rw [if_neg hn] at hc
    by_cases hsize : (s.recAt n d).maxSize = 0
    · rw [hc, if_pos hsize]
      exact exec_xfer_raises h (if_pos hsize)
    · rw [hc, if_neg hsize]
      have hlarge := (hfault.resolve_left hn).resolve_left hsize
      exact exec_xfer_raises h ((if_neg hsize).trans (if_pos hlarge))

end Sys2Proof.Machine
end

section
/-! CLEAR_STALL, and STALL from its first step to its response (41_endpoint_ops.md R181 to R188). -/

namespace Sys2Proof.Machine

open Sys2Proof

variable {c : Instr} {s t u : State} {n : EpNum} {d : Dir} {op : CmdOp} {rest : List CmdOp}
  {l l1 : CmdLocals}

/-! ## CLEAR_STALL (R188) -/

/-- Step 4 writes the toggle of bulk and interrupt endpoints. -/
theorem clearToggle_eq (n : EpNum) (d : Dir) (s : State) (r : EpRegs) :
    clearToggle n d (s.setEp n d r) =
      s.setEp n d { r with
        dpid := if r.ty = .bulk ∨ r.ty = .interrupt then .data0 else r.dpid } := by
  obtain ⟨active, ty, mps, stall, nak, ena, disreq, pktcnt, xfrsiz, done, eff, dpid⟩ := r
  cases ty <;> simp [clearToggle]

/-- Settles O41: the test of step 2 parts the endpoint that is stalled from the one that is not. -/
theorem clearStallEffect : Obligations.ClearStallEffect := by
  unfold Obligations.ClearStallEffect
  intro s n d ha
  refine ⟨fun hn => ?_, fun hn => exec_absent rfl ha hn⟩
  have h : s.ready n := ⟨ha, hn⟩
  rw [exec_ready rfl h]
  split
  case isTrue hstall =>
    have htest : cmdStep (.clearTest n d) {} s = .go {} s := if_pos hstall
    have htoggle : cmdStep (.clearToggle n d) {} (s.setEp n d { s.epAt n d with stall := false }) =
        .go {} _ := congrArg (CmdRes.go {}) (clearToggle_eq n d s _)
    exact (runCmd_go htest).trans <| (runCmd_go rfl).trans <| (runCmd_go htoggle).trans <|
      runCmd_responds rfl h.idle
  case isFalse hstall => exact runCmd_responds (if_neg hstall) h.idle

/-! ## A numbered step of the block alone -/

theorem State.inCtx_eq {x : Ctx} (hctx : u.ctx = x) (hhalt : u.halted = false) : u.inCtx x = u := by
  simp [State.inCtx, ← hctx, ← hhalt]

theorem State.inCtx_of_running {x : Ctx} (hhalt : s.halted = false) :
    s.inCtx x = { s with ctx := x } := by
  simp [State.inCtx, ← hhalt]

/-- A step that completes. -/
theorem blockMove_go (h : cmdStep op l s = .go l1 t) :
    blockMove (s.inCtx (.cmd ⟨c, op :: rest, l⟩)) = .next (t.inCtx (.cmd ⟨c, rest, l1⟩)) := by
  simp only [blockMove_cmd, cmdMicro, cmdStep_inCtx, h, CmdRes.map]
  rfl

/-- A wait whose condition is not true. -/
theorem blockMove_hold (h : cmdStep op l s = .hold l1 t) :
    blockMove (s.inCtx (.cmd ⟨c, op :: rest, l⟩)) = .next (t.inCtx (.cmd ⟨c, op :: rest, l1⟩)) := by
  simp only [blockMove_cmd, cmdMicro, cmdStep_inCtx, h, CmdRes.map]
  rfl

/-- The last step. -/
theorem blockMove_respond {r : Resp} (h : cmdStep op l s = .respond r t) :
    blockMove (s.inCtx (.cmd ⟨c, op :: rest, l⟩)) = .next { t.inCtx .idle with resp := r } := by
  simp only [blockMove_cmd, cmdMicro, cmdStep_inCtx, h, CmdRes.map]
  rfl

/-- A wait that goes on, with nothing counted, leaves the block where it is. -/
theorem blockMove_holds (hctx : s.ctx = .cmd ⟨c, op :: rest, l⟩) (hhalt : s.halted = false)
    (h : cmdStep op l s = .hold l s) : blockMove s = .next s := by
  have hmove := blockMove_hold (c := c) (rest := rest) h
  rwa [State.inCtx_eq hctx hhalt] at hmove

theorem blockMove_waits (hhalt : s.halted = false) (h : cmdStep op l s = .hold l s) :
    blockMove { s with ctx := .cmd ⟨c, op :: rest, l⟩ } =
      .next { s with ctx := .cmd ⟨c, op :: rest, l⟩ } := by
  rw [← State.inCtx_of_running hhalt]
  exact blockMove_hold h

/-! ## The ways into STALL (R181 steps 1 to 4) -/

/-- The steps of STALL after the wait for the confirmation. -/
def stallTail (n : EpNum) : Dir → List CmdOp
  | .out => [.stallAckNak n .out, .stallDisable n .out, .respondOk]
  | .inn => [.stallAckNak n .inn, .stallDisable n .inn, .stallFlush n, .stallWaitFlush, .respondOk]

theorem opsOf_stall (m : Nat) (n : EpNum) (d : Dir) :
    opsOf m (.stall n d) =
      .checkEp n :: .stallTest n d :: .stallIdle n d :: .stallNak n d :: .stallWaitNak n d ::
        stallTail n d := by
  cases d <;> rfl

/-- STALL of an enabled endpoint comes to its first wait with NAK forced. -/
theorem exec_stall_enabled (h : s.ready n) (hena : (s.epAt n d).ena = true) :
    exec (.stall n d) s =
      runCmd (.stall n d) (.stallWaitNak n d :: stallTail n d) {} (stallNak n d s) := by
  have htest : cmdStep (.stallTest n d) {} s = .go {} s := by
    rw [cmdStep, hena]
    rfl
  rw [exec_ready (opsOf_stall _ n d) h]
  exact (runCmd_go htest).trans <| (runCmd_go rfl).trans <| runCmd_go rfl

theorem stallNak_specEq (n : EpNum) (d : Dir) (s : State) :
    SpecEq (stallNak n d s) (s.setEp n d { s.epAt n d with nak := true }) := .of_books rfl

theorem epAt_stallNak (n : EpNum) (d : Dir) (s : State) :
    (stallNak n d s).epAt n d = { s.epAt n d with nak := true } := epAt_setEp_same s n d _

/-- Settles O38: without a transfer in flight STALL ends at step 3. -/
theorem stallIdle_effect : Obligations.StallIdle := by
  unfold Obligations.StallIdle
  intro s n d ha
  refine ⟨fun hn hena => ?_, fun hn => exec_absent (opsOf_stall _ n d) ha hn⟩
  have h : s.ready n := ⟨ha, hn⟩
  have htest : cmdStep (.stallTest n d) {} s = .go { idle := true } s := by
    rw [cmdStep, hena]
    rfl
  have hend : cmdStep (.stallIdle n d) { idle := true } s = .respond .ok (stallIdle n d s) := rfl
  rw [exec_ready (opsOf_stall _ n d) h]
  exact ⟨_, (runCmd_go htest).trans (runCmd_responds hend h.idle), .of_books rfl⟩

/-! ## The confirmation (R181 steps 5 to 7) -/

/-- Steps 6 and 7: the confirmation acknowledged, the endpoint disabled and marked. -/
def stallCut (n : EpNum) (d : Dir) (s : State) : State :=
  stallDisable n d (s.setEp n d { s.epAt n d with nakEff := false })

@[simp] theorem stallCut_cfg (n : EpNum) (d : Dir) (s : State) : (stallCut n d s).cfg = s.cfg := by
  simp [stallCut]

@[simp] theorem stallCut_halted (n : EpNum) (d : Dir) (s : State) :
    (stallCut n d s).halted = s.halted := by
  simp [stallCut]

theorem stallCut_specEq (n : EpNum) (d : Dir) (s : State) :
    SpecEq (stallCut n d s)
      (s.setEp n d { s.epAt n d with nakEff := false, disreq := true, stall := true }) := by
  have hdisable (t : State) : SpecEq (stallDisable n d t)
      (t.setEp n d { t.epAt n d with disreq := true, stall := true }) := .of_books rfl
  have h := hdisable (s.setEp n d { s.epAt n d with nakEff := false })
  rwa [setEp_setEp, epAt_setEp_same] at h

/-- Without a limit the confirmation lets step 5 pass. -/
theorem stallWaitNak_passes (hp : s.cfg.stallPollLimit = none) (heff : (s.epAt n d).nakEff = true) :
    cmdStep (.stallWaitNak n d) l s = .go l s := by
  rw [cmdStep, heff, waitFor_true hp]

/-- Without it step 5 holds. -/
theorem stallWaitNak_holds (hp : s.cfg.stallPollLimit = none) (heff : (s.epAt n d).nakEff = false) :
    cmdStep (.stallWaitNak n d) l s = .hold l s := by
  rw [cmdStep, heff, waitFor_false hp]

/-- Without a limit step 9 holds once the flush has begun. -/
theorem stallWaitFlush_holds (hp : s.cfg.stallPollLimit = none) :
    cmdStep .stallWaitFlush l (stallFlush n (stallCut n d s)) =
      .hold l (stallFlush n (stallCut n d s)) := by
  have hp : (stallFlush n (stallCut n d s)).cfg.stallPollLimit = none := by simpa using hp
  exact waitFor_false hp

theorem stallWaitFlush_passes (hp : s.cfg.stallPollLimit = none) (hb : s.pi.flushBusy = false) :
    cmdStep .stallWaitFlush l s = .go l s := by
  rw [cmdStep, hb, Bool.not_false, waitFor_true hp]

/-- Where STALL stands at step 5 and, for IN, at step 9. -/
def stallAtNak (n : EpNum) (d : Dir) : CmdPos :=
  ⟨.stall n d, .stallWaitNak n d :: stallTail n d, {}⟩

def stallAtFlush (n : EpNum) : CmdPos := ⟨.stall n .inn, [.stallWaitFlush, .respondOk], {}⟩

/-- An OUT endpoint: from the confirmation to the response. -/
theorem blockMoves_stallOut (hctx : s.ctx = .cmd (stallAtNak n .out)) (hhalt : s.halted = false)
    (hp : s.cfg.stallPollLimit = none) (heff : (s.epAt n .out).nakEff = true) :
    blockMoves 4 s = .next { stallCut n .out s with ctx := .idle, resp := .ok } := by
  have hmoves : blockMoves 4 (s.inCtx (.cmd (stallAtNak n .out))) =
      .next { (stallCut n .out s).inCtx .idle with resp := .ok } :=
    (blockMoves_succ (blockMove_go (stallWaitNak_passes hp heff))).trans <|
      (blockMoves_succ (blockMove_go rfl)).trans <| (blockMoves_succ (blockMove_go rfl)).trans <|
      blockMoves_succ (blockMove_respond rfl)
  rw [State.inCtx_eq hctx hhalt] at hmoves
  have hhalt : (stallCut n .out s).halted = false := by simpa using hhalt
  rw [hmoves, State.inCtx_of_running hhalt]

/-- An IN endpoint: from the confirmation to the wait for the flush. -/
theorem blockMoves_stallIn (hctx : s.ctx = .cmd (stallAtNak n .inn)) (hhalt : s.halted = false)
    (hp : s.cfg.stallPollLimit = none) (heff : (s.epAt n .inn).nakEff = true) :
    blockMoves 4 s =
      .next { stallFlush n (stallCut n .inn s) with ctx := .cmd (stallAtFlush n) } := by
  have hmoves : blockMoves 4 (s.inCtx (.cmd (stallAtNak n .inn))) =
      .next ((stallFlush n (stallCut n .inn s)).inCtx (.cmd (stallAtFlush n))) :=
    (blockMoves_succ (blockMove_go (stallWaitNak_passes hp heff))).trans <|
      (blockMoves_succ (blockMove_go rfl)).trans <| (blockMoves_succ (blockMove_go rfl)).trans <|
      blockMoves_succ (blockMove_go rfl)
  rw [State.inCtx_eq hctx hhalt] at hmoves
  have hhalt : (stallFlush n (stallCut n .inn s)).halted = false := by simpa using hhalt
  rw [hmoves, State.inCtx_of_running hhalt]

/-- The end of the flush lets STALL respond (R181 step 9). -/
theorem blockMoves_stallFlushed (hctx : s.ctx = .cmd (stallAtFlush n)) (hhalt : s.halted = false)
    (hp : s.cfg.stallPollLimit = none) (hb : s.pi.flushBusy = false) :
    blockMoves 2 s = .next { s with ctx := .idle, resp := .ok } := by
  have hmoves : blockMoves 2 (s.inCtx (.cmd (stallAtFlush n))) =
      .next { s.inCtx .idle with resp := .ok } :=
    (blockMoves_succ (blockMove_go (stallWaitFlush_passes hp hb))).trans <|
      blockMoves_succ (blockMove_respond rfl)
  rw [State.inCtx_eq hctx hhalt] at hmoves
  rw [hmoves, State.inCtx_of_running hhalt]

/-- The flush changes its two registers and nothing else the spec names. -/
theorem SpecEq.flushed (h : SpecEq s t) (n : EpNum) :
    SpecEq (stallFlush n s)
      { t with pi := { t.pi with flushNum := t.pi.txfnum[n], flushBusy := true } } := by
  have hflush : SpecEq (stallFlush n s)
      { s with pi := { s.pi with flushNum := s.pi.txfnum[n], flushBusy := true } } := .of_books rfl
  exact hflush.trans (congrArg (fun u : State =>
    ({ u with pi := { u.pi with flushNum := u.pi.txfnum[n], flushBusy := true } } : State)) h)

/-- From the start of the flush to the response, whatever became of the registers before it. -/
theorem stallFlush_waits {cfg : Config} (hp : cfg.stallPollLimit = none) (hcfg : s.cfg = cfg)
    (hhalt : s.halted = false) (h : SpecEq (stallCut n .inn s) t) :
    SpecEq { stallFlush n (stallCut n .inn s) with ctx := .cmd (stallAtFlush n) }
        { t with
          pi := { t.pi with flushNum := t.pi.txfnum[n], flushBusy := true }
          ctx := .cmd (stallAtFlush n) } ∧
      blockMove { stallFlush n (stallCut n .inn s) with ctx := .cmd (stallAtFlush n) } =
        .next { stallFlush n (stallCut n .inn s) with ctx := .cmd (stallAtFlush n) } ∧
      ∀ w : State, w.ctx = .cmd (stallAtFlush n) → w.halted = false → w.cfg = cfg →
        w.pi.flushBusy = false → blockMoves 2 w = .next { w with ctx := .idle, resp := .ok } := by
  have hps : s.cfg.stallPollLimit = none := hcfg ▸ hp
  exact ⟨(h.flushed n).setCtx _, blockMove_waits (by simpa using hhalt) (stallWaitFlush_holds hps),
    fun w hctx hhalt hcfg hb => blockMoves_stallFlushed hctx hhalt (hcfg ▸ hp) hb⟩

/-- The command run whole where a confirmation stood already, for OUT to its response. -/
theorem runCmd_stallOut (hidle : s.ctx = .idle) (hp : s.cfg.stallPollLimit = none)
    (heff : (s.epAt n .out).nakEff = true) :
    runCmd c (.stallWaitNak n .out :: stallTail n .out) {} s =
      .next { stallCut n .out s with resp := .ok } := by
  have hidle : (stallCut n .out s).ctx = .idle := by simpa [stallCut] using hidle
  have hend := runCmd_responds (i := c) (op := .respondOk) (rest := []) (l := {}) rfl hidle
  exact (runCmd_go (stallWaitNak_passes hp heff)).trans <| (runCmd_go rfl).trans <|
    (runCmd_go rfl).trans hend

/-- For IN to the wait for the flush. -/
theorem runCmd_stallIn (hp : s.cfg.stallPollLimit = none) (heff : (s.epAt n .inn).nakEff = true) :
    runCmd (.stall n .inn) (.stallWaitNak n .inn :: stallTail n .inn) {} s =
      .next { stallFlush n (stallCut n .inn s) with ctx := .cmd (stallAtFlush n) } :=
  (runCmd_go (stallWaitNak_passes hp heff)).trans <| (runCmd_go rfl).trans <|
    (runCmd_go rfl).trans <| (runCmd_go rfl).trans <| runCmd_hold (stallWaitFlush_holds hp)

/-- Where a confirmation stood already the registers are those of steps 4 to 7 together. -/
theorem stallCut_stallNak_specEq (n : EpNum) (d : Dir) (s : State) :
    SpecEq (stallCut n d (stallNak n d s))
      (s.setEp n d
        { s.epAt n d with nak := true, nakEff := false, disreq := true, stall := true }) := by
  have h := (stallCut_specEq n d (stallNak n d s)).trans ((stallNak_specEq n d s).setEp n d _)
  rwa [setEp_setEp, epAt_stallNak] at h

/-- Settles O39: `stallCut` lies between the two waits, taken one step at a time or with the command run
whole. -/
theorem stallInFlight : Obligations.StallInFlight := by
  unfold Obligations.StallInFlight
  intro s n d h hp hena
  have hhalt : s.halted = false := ((accepts_iff s).mp h.1).2
  rw [exec_stall_enabled h hena]
  refine ⟨fun heff => ?_, fun heff => ?_⟩
  · have hhold : cmdStep (.stallWaitNak n d) {} (stallNak n d s) = .hold {} (stallNak n d s) :=
      stallWaitNak_holds hp (by rwa [epAt_stallNak])
    refine ⟨_, stallAtNak n d, runCmd_hold hhold, rfl, (stallNak_specEq n d s).setCtx _,
      fun u hctx hhalt hcfg => ?_⟩
    have hpu : u.cfg.stallPollLimit = none := hcfg ▸ hp
    refine ⟨fun hu => blockMove_holds hctx hhalt (stallWaitNak_holds hpu hu), ?_, ?_⟩
    · rintro hu rfl
      exact ⟨_, blockMoves_stallOut hctx hhalt hpu hu,
        ((stallCut_specEq n .out u).setCtx .idle).setResp .ok⟩
    · rintro hu rfl
      exact ⟨_, stallAtFlush n, blockMoves_stallIn hctx hhalt hpu hu, rfl,
        stallFlush_waits hp hcfg hhalt (stallCut_specEq n .inn u)⟩
  · have heff : ((stallNak n d s).epAt n d).nakEff = true := by rwa [epAt_stallNak]
    have hcut := stallCut_stallNak_specEq n d s
    dsimp only
    refine ⟨?_, ?_⟩
    · rintro rfl
      exact ⟨_, runCmd_stallOut h.idle hp heff, hcut.setResp .ok⟩
    · rintro rfl
      exact ⟨_, stallAtFlush n, runCmd_stallIn hp heff, rfl,
        stallFlush_waits (s := stallNak n .inn s) hp rfl hhalt hcut⟩

/-! ## The poll limit (R186) -/

/-- A wait whose condition stays false: at the last evaluation of the limit STALL ends with TIMEOUT. -/
theorem blockMoves_timeout {k m : Nat} (hlimit : s.cfg.stallPollLimit = some k)
    (hwait : ∀ l, cmdStep op l s = waitFor false l s) (hk : l.polls + (m + 1) = k) :
    blockMoves (m + 1) (s.inCtx (.cmd ⟨c, op :: rest, l⟩)) =
      .next { s.inCtx .idle with resp := .timeout } := by
  induction m generalizing l with
  | zero =>
      have hlast := (hwait l).trans (waitFor_limit_last hlimit hk)
      exact blockMoves_succ (blockMove_respond hlast)
  | succ m ih =>
      have hmore := (hwait l).trans (waitFor_limit_more hlimit (by omega))
      exact (blockMoves_succ (blockMove_hold hmore)).trans (ih (by dsimp only; omega))

/-- Settles O40: the first evaluation of step 5 is made in the command run whole, the others by moves of the
block; those of step 9 all by moves. -/
theorem stallTimeout : Obligations.StallTimeout := by
  unfold Obligations.StallTimeout
  intro s n d k hlimit
  refine ⟨fun h hena heff => ?_, fun l rest hhalt hctx hb => ?_⟩
  · have hhalt : s.halted = false := ((accepts_iff s).mp h.1).2
    have hwait (l : CmdLocals) : cmdStep (.stallWaitNak n d) l (stallNak n d s) =
        waitFor false l (stallNak n d s) := by
      rw [cmdStep, epAt_stallNak]
      exact congrArg (waitFor · l _) heff
    have hhalt : (stallNak n d s).halted = false := hhalt
    have hidle : (stallNak n d s).ctx = .idle := h.idle
    rw [exec_stall_enabled h hena]
    have hspec := (stallNak_specEq n d s).setResp .timeout
    cases k with
    | zero =>
        have hlast := (hwait {}).trans (waitFor_limit_last hlimit rfl)
        exact ⟨_, _, runCmd_responds hlast hidle, rfl, hspec⟩
    | succ k =>
        have hmore := (hwait {}).trans (waitFor_limit_more hlimit (by dsimp only; omega))
        have hmoves := blockMoves_timeout (s := stallNak n d s) (c := .stall n d)
          (rest := stallTail n d) (m := k) (l := { polls := 1 }) hlimit hwait (by dsimp only; omega)
        rw [State.inCtx_of_running hhalt, State.inCtx_of_running hhalt] at hmoves
        refine ⟨_, _, runCmd_hold hmore, hmoves, ?_⟩
        rwa [← hidle]
  · have hwait (l : CmdLocals) : cmdStep .stallWaitFlush l s = waitFor false l s := by
      rw [cmdStep, hb, Bool.not_true]
    have hmoves := blockMoves_timeout (c := .stall n d) (rest := rest)
      (l := { l with polls := 0 }) hlimit hwait (Nat.zero_add _)
    rw [State.inCtx_eq hctx hhalt] at hmoves
    rw [hmoves, State.inCtx_of_running hhalt]

end Sys2Proof.Machine
end

section
/-! Endpoint 0: a control transfer as a run of single-packet schedules (42_ep0_mux.md R203). -/

namespace Sys2Proof.Machine

open Sys2Proof

/-- The last of `k + 1` schedules, peeled off instead of the first. -/
theorem ep0Schedules_succ (k : Nat) (d : Dir) (s : State) :
    ep0Schedules (k + 1) d s = ep0Schedule (ep0Schedules k d s) d := by
  induction k generalizing s with
  | zero => rfl
  | succ k ih => exact ih (ep0Schedule s d)

/-- No schedule moves a record, so all of them see one packet size. -/
@[simp] theorem recAt_ep0Schedules (k : Nat) (d : Dir) (s : State) (n : EpNum) (e : Dir) :
    (ep0Schedules k d s).recAt n e = s.recAt n e := by
  induction k with
  | zero => rfl
  | succ k ih => rw [ep0Schedules_succ, recAt_ep0Schedule, ih]

/-- One schedule takes one packet from the pending counter, or what is left of it. -/
theorem ep0Schedule_pending_get (s : State) (d : Dir) :
    (ep0Schedule s d).ep0Pending.get d = s.ep0Pending.get d - (s.recAt 0 d).maxSize := by
  rw [ep0Schedule_pending, Both.get_set_same, ep0Bytes, tsub_min]

/-- What `k` packets leave of the transfer (R203). -/
theorem ep0Schedules_pending_get (k : Nat) (d : Dir) (s : State) :
    (ep0Schedules k d s).ep0Pending.get d =
      s.ep0Pending.get d - k * (s.recAt 0 d).maxSize := by
  induction k with
  | zero => rw [Nat.zero_mul, Nat.sub_zero, ep0Schedules]
  | succ k ih =>
      rw [ep0Schedules_succ, ep0Schedule_pending_get, recAt_ep0Schedules, ih, Nat.sub_sub,
        ← Nat.succ_mul]

/-- One schedule arms its endpoint for one packet of `ep0Bytes` bytes (R201 step 2). -/
theorem epAt_ep0Schedule (s : State) (d : Dir) :
    (ep0Schedule s d).epAt 0 d =
      { s.epAt 0 d with
        pktcnt := 1, xfrsiz := ep0Bytes s d, stall := false, nak := false, ena := true } := by
  rw [ep0Schedule, epAt_arm, if_pos ⟨rfl, rfl⟩]
  rfl

/-- The bytes of the next packet after `k` schedules (R203). -/
theorem ep0Bytes_ep0Schedules (k : Nat) (d : Dir) (s : State) :
    ep0Bytes (ep0Schedules k d s) d =
      min (s.ep0Pending.get d - k * (s.recAt 0 d).maxSize) (s.recAt 0 d).maxSize := by
  rw [ep0Bytes, ep0Schedules_pending_get, recAt_ep0Schedules]

/-- `j` packets of `M` bytes cover `L` bytes exactly when `j` is at least `ceil(L/M)`. -/
theorem sub_mul_eq_zero_iff_ceilDiv_le {L M : Nat} (hM : 0 < M) (j : Nat) :
    L - j * M = 0 ↔ (L + M - 1) / M ≤ j := by
  rw [Nat.sub_eq_zero_iff_le, Nat.mul_comm, ← Nat.ceilDiv_eq_add_pred_div]
  exact (ceilDiv_le_iff_le_mul hM).symm

/-- Settles O46: the pending counter after `j` schedules in closed form, the packet each schedule arms, and
by the ceiling division the number of schedules that empty the counter. -/
theorem ep0PendingLaw : Obligations.Ep0PendingLaw := by
  unfold Obligations.Ep0PendingLaw
  rintro s d _ _ rfl rfl hM
  refine ⟨fun j => ep0Schedules_pending_get j d s, fun j => ?_, fun j => ?_⟩
  · rw [ep0Schedules_succ, epAt_ep0Schedule]
    exact ⟨rfl, ep0Bytes_ep0Schedules j d s⟩
  · rw [ep0Schedules_pending_get]
    exact sub_mul_eq_zero_iff_ceilDiv_le hM j

end Sys2Proof.Machine
end

section
/-! The packet engine's round trip: what a packet write leaves in a transmit FIFO with room (43_packet_io.md
R212), and what a packet read of those words stores (R211, R214). -/

namespace Sys2Proof.Machine

open Sys2Proof

/-! ## The words of a transmit FIFO -/

/-- The level of R57 counts the words of the content. -/
theorem TxFifo.content_length (q : TxFifo) : q.content.length = q.held := by
  rw [TxFifo.content, List.length_append, List.length_flatMap, TxFifo.held]

/-- A push adds its word at the end, whether or not it completes a packet (R288). -/
theorem pushWord_content (p : Pi) (n : EpNum) (w : Word) :
    ((p.pushWord n w).txq[n]).content = (p.txq[n]).content ++ [w] := by
  by_cases hclose : (p.txq[n].open_ ++ [w]).length =
      wordsFor (min (p.epAt n .inn).xfrsiz (p.epAt n .inn).mps)
  · rw [pushWord_closes p n w _ rfl hclose]
    simp [TxFifo.content]
  · rw [pushWord_open p n w hclose]
    simp [TxFifo.content]

theorem pushWord_txf (p : Pi) (n : EpNum) (w : Word) : (p.pushWord n w).txf = p.txf := by
  unfold Pi.pushWord
  dsimp only
  split <;> rfl

/-- A push takes one word of the room. -/
theorem txFree_pushWord (p : Pi) (n : EpNum) (w : Word) :
    txFree (p.pushWord n w) n = txFree p n - 1 := by
  rw [txFree, txFree, pushWord_txf, ← TxFifo.content_length, pushWord_content, List.length_append,
    TxFifo.content_length, List.length_singleton, Nat.sub_sub]

/-- With room for all of them, words are pushed in order and buffer memory is left alone. -/
theorem txPushAll_room (n : EpNum) (ws : List Word) (s : State) (hroom : ws.length ≤ txFree s.pi n) :
    ∃ t, txPushAll n ws s = .ok t ∧ (t.pi.txq[n]).content = (s.pi.txq[n]).content ++ ws ∧
      t.mem = s.mem := by
  induction ws generalizing s with
  | nil => exact ⟨s, rfl, (List.append_nil _).symm, rfl⟩
  | cons w ws ih =>
      rw [List.length_cons] at hroom
      have hrest : ws.length ≤ txFree (s.pi.pushWord n w) n := by
        rw [txFree_pushWord]; omega
      obtain ⟨t, hpush, hcontent, hmem⟩ := ih { s with pi := s.pi.pushWord n w } hrest
      refine ⟨t, ?_, ?_, hmem⟩
      · rw [txPushAll, txPush_room w (by omega), Act.andThen_ok, hpush]
      · rw [hcontent, pushWord_content, List.append_assoc, List.singleton_append]

/-! ## Reading packed words back -/

/-- A read whose words are a packed packet stores exactly the packet's bytes and empties the queue; the
padding of a final partial word is dropped. -/
theorem fifoReadPacket_packed (dst : Word) (bs : List Byte) (s : State) (h : s.pi.rxq = packWords bs) :
    fifoReadPacket dst bs.length s = .ok
      { s with pi := { s.pi with rxq := [] }, mem := memWriteBytes s.mem dst bs } := by
  have hlen : s.pi.rxq.length = wordsFor bs.length := by rw [h, packWords_length]
  rw [fifoReadPacket_ok dst bs.length s hlen.ge, ← hlen, List.drop_length, List.take_length, h,
    unpackWords_packWords]

/-- A copy of `N` bytes through a list holds the source's old bytes at the destination, overlapping runs
included. -/
theorem memRead_copy_inside {m : List Host.Cell} (w : Memory.wf m = true) (src dst : Word) {N i : Nat}
    (hN : N ≤ 2 ^ 32) (hi : i < N) :
    memRead (memWriteBytes m dst (memReadBytes m src N)) (dst + BitVec.ofNat 32 i) =
      memRead m (src + BitVec.ofNat 32 i) := by
  rw [memRead_memWriteBytes_inside _ m dst i w (by rwa [memReadBytes_length])
    (by rwa [memReadBytes_length]), memReadBytes_get m src N i hi]

/-- Settles O47: the write pushes the packed bytes, the read of those words is a copy from `src` to `dst`. -/
theorem packetRoundTrip : Obligations.PacketRoundTrip := by
  unfold Obligations.PacketRoundTrip
  intro s n src dst N hwf hN hroom
  have hbytes : (memReadBytes s.mem src N).length = N := memReadBytes_length ..
  have hwords : (packWords (memReadBytes s.mem src N)).length = wordsFor N := by
    rw [packWords_length, hbytes]
  obtain ⟨t, hwrite, hcontent, hmem⟩ := txPushAll_room n _ s (hwords.trans_le hroom)
  have hread := fifoReadPacket_packed dst (memReadBytes s.mem src N)
    { t with pi := { t.pi with rxq := packWords (memReadBytes s.mem src N) } } rfl
  rw [hbytes] at hread
  refine ⟨_, t, _, hwords, hwrite, hcontent, hmem, hread, rfl, fun i hi => ?_, fun a ha => ?_⟩
  · dsimp only
    rw [hmem, memRead_copy_inside hwf src dst hN hi]
  · dsimp only
    rw [hmem, memRead_memWriteBytes_outside _ _ _ _ hwf (hbytes.trans_le (not_lt.mp ha))]

end Sys2Proof.Machine
end

section
/-! A dispatcher run made of parts: the steps of each handler take the run from one state to the next, and
IRQ_ENTRY answers where they end (44_dispatcher.md R220, R221, 45_system_ops.md R272). -/

namespace Sys2Proof.Machine

open Sys2Proof

variable {s t u : State} {ops ops' : List IrqOp}

/-! ## Parts of a run -/

/-- The steps `ops` take a run from `s` to `t`, whatever its locals are and whatever steps follow. -/
def Leads (ops : List IrqOp) (s t : State) : Prop :=
  ∀ rest l, ∃ l1, runOps (ops ++ rest) l s = runOps rest l1 t

theorem Leads.nil : Leads [] s s := fun _ l => ⟨l, rfl⟩

theorem Leads.append (h : Leads ops s t) (g : Leads ops' t u) : Leads (ops ++ ops') s u := by
  intro rest l
  obtain ⟨l1, h1⟩ := h (ops' ++ rest) l
  obtain ⟨l2, h2⟩ := g rest l1
  exact ⟨l2, by rw [List.append_assoc, h1, h2]⟩

theorem Leads.ite {b : Bool} (h : Leads ops s t) :
    Leads (if b then ops else []) s (if b then t else s) := by
  cases b
  · exact .nil
  · exact h

/-- Of several endpoints one signals: the others are passed over before it and after it. -/
theorem Leads.one {f : EpNum → List IrqOp} {n : EpNum} {ns : List EpNum} (hn : n ∈ ns)
    (hnodup : ns.Nodup) (hbefore : ∀ m, m ∈ ns → m ≠ n → Leads (f m) s s) (h : Leads (f n) s t)
    (hafter : ∀ m, m ∈ ns → m ≠ n → Leads (f m) t t) : Leads (ns.flatMap f) s t := by
  have hpass (v : State) (ms : List EpNum) (hms : ∀ m ∈ ms, Leads (f m) v v) :
      Leads (ms.flatMap f) v v := by
    induction ms with
    | nil => exact .nil
    | cons m ms ih =>
        rw [List.flatMap_cons]
        exact (hms m List.mem_cons_self).append (ih fun k hk => hms k (List.mem_cons_of_mem m hk))
  obtain ⟨pre, post, rfl⟩ := List.append_of_mem hn
  rw [List.nodup_middle, List.nodup_cons, List.mem_append, not_or] at hnodup
  obtain ⟨⟨hpre, hpost⟩, -⟩ := hnodup
  rw [List.flatMap_append, List.flatMap_cons]
  refine (hpass s pre fun m hm => hbefore m (by simp [hm]) ?_).append
    (h.append (hpass t post fun m hm => hafter m (by simp [hm]) ?_))
  · rintro rfl
    exact hpre hm
  · rintro rfl
    exact hpost hm

/-- The steps of all endpoints where one of them signals, its handlers leaving the others not signalling. -/
theorem Leads.endpoint {f : EpNum → List IrqOp} {signals : Pi → EpNum → Bool} {n : EpNum} {k : Nat}
    (hidle : ∀ {v : State} {m : EpNum}, signals v.pi m = false → Leads (f m) v v) (hn : n.val < k)
    (hsig : ∀ m : EpNum, m.val < k → (signals s.pi m = true ↔ m = n)) (h : Leads (f n) s t)
    (hother : ∀ m, m ≠ n → signals t.pi m = signals s.pi m) :
    Leads ((endpoints k).flatMap f) s t := by
  have hquiet (m : EpNum) (hm : m ∈ endpoints k) (hmn : m ≠ n) : signals s.pi m = false := by
    rw [← Bool.not_eq_true, hsig m ((mem_endpoints k m).mp hm)]
    exact hmn
  exact .one ((mem_endpoints k n).mpr hn) (endpoints_nodup k)
    (fun m hm hmn => hidle (hquiet m hm hmn)) h
    (fun m hm hmn => hidle ((hother m hmn).trans (hquiet m hm hmn)))

/-! ## IRQ_ENTRY -/

/-- The dispatcher run of IRQ_ENTRY starts where no run is owed (A15). -/
def runStart (s : State) : State := { s with irqDue := false }

theorem exec_irqEntry (ha : s.accepts = true) :
    exec .irqEntry s = runCmd .irqEntry [.runDispatcher, .respondOk] {} s :=
  runCommand_accepted ha

/-- A run that ends is followed by the response of the command (R272). -/
theorem exec_irqEntry_done (ha : s.accepts = true) (hrun : dispatchRun (runStart s) = .done t) :
    exec .irqEntry s = .next { t with resp := .ok } := by
  have hframe := dispatchRun_frame (runStart s)
  rw [hrun] at hframe
  have hidle : t.ctx = .idle := hframe.ctx.trans ((accepts_iff s).mp ha).1
  have henter : cmdStep .runDispatcher {} s = .enter s := rfl
  rw [runStart] at hrun
  rw [exec_irqEntry ha, runCmd, henter]
  simp only [hrun]
  exact runCmd_responds rfl hidle

/-- A run that faults halts the block with its cause where it stood (60_exceptions.md R301). -/
theorem exec_irqEntry_bad (ha : s.accepts = true) {c : FaultCause} {l : IrqLocals}
    (hrun : dispatchRun (runStart s) = .bad c ops l t) :
    ∃ x, exec .irqEntry s = .next (({ t with ctx := x } : State).raiseFault c) := by
  have henter : cmdStep .runDispatcher {} s = .enter s := rfl
  rw [runStart] at hrun
  rw [exec_irqEntry ha, runCmd, henter]
  simp only [hrun]
  exact ⟨_, rfl⟩

/-- IRQ_ENTRY answers the state to which the steps of the latched sources lead. -/
theorem exec_irqEntry_leads (ha : s.accepts = true) {g : GlobalBits} (hpend : s.pending = g)
    (h : Leads (dispatchOps g s.cfg.maxEndpoints) (runStart s) t) :
    exec .irqEntry s = .next { t with resp := .ok } := by
  subst hpend
  obtain ⟨l1, h1⟩ := h [] {}
  rw [List.append_nil] at h1
  exact exec_irqEntry_done ha h1

end Sys2Proof.Machine
end

section
/-! The handlers of the bus events (44_dispatcher.md R227 to R230). -/

namespace Sys2Proof.Machine

open Sys2Proof

variable {s : State}

/-! ## Enumeration done (R227) -/

/-- The endpoint-0 sizes of R227 step 3, in the records. -/
theorem recAt_setEp0Size (sp : Speed) (n : EpNum) (d : Dir) :
    (setEp0Size sp s).recAt n d =
      if n = 0 then { s.recAt 0 d with maxSize := ep0Mps s.cfg sp } else s.recAt n d := by
  by_cases hn : n = 0 <;> cases d <;>
    simp [setEp0Size, setEp0MaxSize, recAt_setRec, hn]

/-- The endpoint-0 sizes of R227 step 3, in the peripheral. -/
theorem epAt_setEp0Size (sp : Speed) (n : EpNum) (d : Dir) :
    (setEp0Size sp s).epAt n d =
      if n = 0 then { s.epAt 0 d with mps := ep0Mps s.cfg sp } else s.epAt n d := by
  by_cases hn : n = 0 <;> cases d <;>
    simp [setEp0Size, setEp0MaxSize, epAt_setEp, hn]

/-- What step 3 writes: records and endpoint fields, nothing else. -/
theorem setEp0Size_eq (sp : Speed) (s : State) :
    setEp0Size sp s =
      { s with
        xfer := (setEp0Size sp s).xfer
        pi := { s.pi with ep := (setEp0Size sp s).pi.ep } } := rfl

/-- `HandleEnumDone` with its acknowledgement, its steps in order. -/
def enumDoneHandled (s : State) : State :=
  ((setEp0Size s.pi.speed (setTurnaround s.pi.speed (s.ackGlobal .enumDone))).emit
    (.busReset s.pi.speed)).setBusState .enumerating

theorem enumDoneHandled_eq (s : State) :
    enumDoneHandled s =
      { s with
        xfer := (enumDoneHandled s).xfer
        pi := { s.pi with
          gint := { s.pi.gint with enumDone := false }
          turnaround := trdt s.cfg s.pi.speed s.pi.clkHz.toNat
          ep := (enumDoneHandled s).pi.ep }
        events := s.events ++ [.busReset s.pi.speed]
        busState := .enumerating } := by
  rw [enumDoneHandled, setEp0Size_eq]
  rfl

theorem leads_enumDone (s : State) :
    Leads [.ack .enumDone, .readSpeed, .setTurnaround, .setEp0Size, .emitBusReset, .setEnumerating]
      s (enumDoneHandled s) := fun _ _ =>
  ⟨_, (runOps_go rfl).trans <| (runOps_go rfl).trans <| (runOps_go rfl).trans <|
    (runOps_go rfl).trans <| (runOps_go rfl).trans <| runOps_go rfl⟩

/-- Settles O17: the six steps of the handler, with the sizes they leave in both directions of
endpoint 0. -/
theorem enumDoneState : Obligations.EnumDoneState := by
  unfold Obligations.EnumDoneState
  intro s ha hpend
  have hrun := exec_irqEntry_leads ha hpend (leads_enumDone (runStart s))
  have hrec (n : EpNum) (d : Dir) : (enumDoneHandled (runStart s)).recAt n d = _ :=
    recAt_setEp0Size s.pi.speed n d
  have hep (n : EpNum) (d : Dir) : (enumDoneHandled (runStart s)).epAt n d = _ :=
    epAt_setEp0Size s.pi.speed n d
  refine ⟨_, hrun, fun d => (hrec 0 d).trans (if_pos rfl), fun d => (hep 0 d).trans (if_pos rfl),
    fun n d hn => ⟨(hrec n d).trans (if_neg hn), (hep n d).trans (if_neg hn)⟩, ?_⟩
  exact SpecEq.setResp (congrArg State.spec (enumDoneHandled_eq (runStart s))) .ok

/-! ## Suspend, resume, session end (R228 to R230) -/

/-- The bus event whose handler emits this signal. -/
def Signal.event : Signal → BusEvent
  | .suspend => .suspend
  | .resume => .resume
  | .unplugged => .disconnect

/-- The bit of the handler acknowledged, if it was latched. -/
def Signal.acked (b : Bool) (g : GintStored) : Signal → GintStored
  | .suspend => { g with suspend := g.suspend && !b }
  | .resume => { g with resume := g.resume && !b }
  | .unplugged => { g with disconnect := g.disconnect && !b }

/-- BUS_STATE after the handler, if its bit was latched. -/
def Signal.busAfter (b : Bool) (x : BusState) : Signal → BusState
  | .suspend => if b = true ∧ x = .active then .suspended else x
  | .resume => if b = true ∧ x = .suspended then .active else x
  | .unplugged => if b = true then .disconnected else x

/-- A signal acknowledged and handled, if its bit was latched. -/
def signalHandled (k : Signal) (b : Bool) (s : State) : State :=
  if b then handleSignal k (s.ackGlobal k.event) else s

theorem leads_signalHandled (k : Signal) (b : Bool) (s : State) :
    Leads (if b then [.ack k.event, .signal k] else []) s (signalHandled k b s) := by
  refine Leads.ite fun rest l => ⟨l, ?_⟩
  exact (runOps_go rfl).trans (runOps_go rfl)

theorem handleSignal_eq (k : Signal) (s : State) :
    handleSignal k s =
      { s with
        events := s.events ++ [.busSignal k]
        busState := k.busAfter true s.busState } := by
  cases k with
  | suspend =>
      simp only [handleSignal, Signal.busAfter, true_and]
      split <;> rfl
  | resume =>
      simp only [handleSignal, Signal.busAfter, true_and]
      split <;> rfl
  | unplugged => rfl

theorem ack_event (k : Signal) (g : GintStored) : g.ack k.event = k.acked true g := by
  cases k <;> simp [GintStored.ack, Signal.event, Signal.acked]

theorem signalHandled_eq (k : Signal) (b : Bool) (s : State) :
    signalHandled k b s =
      { s with
        pi := { s.pi with gint := k.acked b s.pi.gint }
        events := s.events ++ (if b then [.busSignal k] else [])
        busState := k.busAfter b s.busState } := by
  cases b with
  | false => cases k <;> simp [signalHandled, Signal.acked, Signal.busAfter]
  | true =>
      rw [← ack_event]
      exact handleSignal_eq k (s.ackGlobal k.event)

/-- Settles O18: the three handlers one after the other, each over the state the one before it leaves. -/
theorem busSignals : Obligations.BusSignals := by
  unfold Obligations.BusSignals
  intro s a b c ha hpend
  have hops : dispatchOps { GlobalBits.none with suspend := a, resume := b, disconnect := c }
      s.cfg.maxEndpoints =
      (if a then [.ack .suspend, .signal .suspend] else []) ++
        (if b then [.ack .resume, .signal .resume] else []) ++
        (if c then [.ack .disconnect, .signal .unplugged] else []) := by
    simp [dispatchOps, GlobalBits.none]
  have hleads := ((leads_signalHandled .suspend a (runStart s)).append
    (leads_signalHandled .resume b _)).append (leads_signalHandled .unplugged c _)
  refine ⟨_, exec_irqEntry_leads ha hpend (by rw [hops]; exact hleads), ?_⟩
  rw [signalHandled_eq, signalHandled_eq, signalHandled_eq]
  rfl

end Sys2Proof.Machine
end

section
/-! The receive drain over one entry: the bytes of an OUT packet, its trim when it is short, and the faults
(44_dispatcher.md R231 to R238, 43_packet_io.md R211). -/

namespace Sys2Proof.Machine

open Sys2Proof

variable {s t : State} {n : EpNum} {bc : Nat}

/-! ## The drain as part of a run -/

theorem drainLoop_again (hne : s.pi.rxq ≠ []) (hentry : drainEntry s = .ok t) (l : IrqLocals) :
    irqStep .drainLoop l s = .again l t := by
  simp [irqStep, hne, hentry]

theorem drainLoop_bad (hne : s.pi.rxq ≠ []) {c : FaultCause} (hentry : drainEntry s = .bad c t)
    (l : IrqLocals) : irqStep .drainLoop l s = .bad c t := by
  simp [irqStep, hne, hentry]

/-- A drain over one entry: the entry handled, the loop left with the queue empty, RXNE masked meanwhile
(R231). -/
theorem leads_drainOne (hne : s.pi.rxq ≠ []) (hentry : drainEntry (setRxneMask false s) = .ok t)
    (hempty : t.pi.rxq = []) :
    Leads [.drainMask, .drainLoop, .drainUnmask] s (setRxneMask true t) := by
  intro rest l
  have hmask : irqStep .drainMask l s = .go l (setRxneMask false s) := rfl
  have hfirst : irqStep .drainLoop l (setRxneMask false s) = .again l t :=
    drainLoop_again (s := setRxneMask false s) hne hentry l
  have hlast : irqStep .drainLoop l t = .go l t := by simp [irqStep, hempty]
  obtain ⟨w, ws, hq⟩ := List.exists_cons_of_ne_nil hne
  have hbound : repeatBound .drainLoop (setRxneMask false s) = ws.length + 1 + 1 :=
    congrArg (fun q => q.length + 1) hq
  have hloop : runOps (.drainLoop :: .drainUnmask :: rest) l (setRxneMask false s) =
      runOps (.drainUnmask :: rest) l t := by
    rw [runOps, hbound, repeatStep_again hfirst, repeatStep_go hlast]
  exact ⟨l, (runOps_go hmask).trans (hloop.trans (runOps_go rfl))⟩

/-- IRQ_ENTRY over one entry: RXNE was unmasked where it is pending, so what the entry leaves with the
source masked is left with the mask as it was. -/
theorem exec_drainOne (ha : s.accepts = true)
    (hpend : s.pending = { GlobalBits.none with rxne := true }) (hne : s.pi.rxq ≠ [])
    (hentry : drainEntry (setRxneMask false (runStart s)) = .ok (setRxneMask false t))
    (hempty : t.pi.rxq = []) (hmask : t.pi.gmsk = s.pi.gmsk) :
    exec .irqEntry s = .next { t with resp := .ok } := by
  have hrx : s.pending.rxne = true := by rw [hpend]
  have hbit : t.pi.gmsk.rxne = true := by
    rw [hmask]
    exact (Bool.and_eq_true_iff.mp hrx).2
  have hsame : setRxneMask true (setRxneMask false t) = t := by
    change ({ t with pi := { t.pi with gmsk := { t.pi.gmsk with rxne := true } } } : State) = t
    rw [← hbit]
  have hleads := leads_drainOne (s := runStart s) hne hentry hempty
  rw [hsame] at hleads
  exact exec_irqEntry_leads ha hpend hleads

/-- The receive queue after the pop of its front word. -/
def State.withRxq (s : State) (ws : List Word) : State := { s with pi := { s.pi with rxq := ws } }

theorem drainEntry_outData {sw : Word} {ws : List Word} (hq : s.pi.rxq = sw :: ws)
    (hclass : rxClass (statusCode sw) = .outData) :
    drainEntry s = rxOutData (statusEp sw) (statusCount sw) (s.withRxq ws) := by
  simp only [drainEntry, rxPop_cons hq, hclass]
  rfl

theorem drainEntry_unrecognised {sw : Word} {ws : List Word} (hq : s.pi.rxq = sw :: ws)
    (hclass : rxClass (statusCode sw) = .unrecognised) :
    drainEntry s = .bad .unknownRxStatus (s.withRxq ws) := by
  simp only [drainEntry, rxPop_cons hq, hclass]
  rfl

/-! ## The fields of a status word (30_encoding.md R117) -/

theorem extract_statusWord (n : EpNum) (count : Nat) (dpid : BitVec 2) (code : BitVec 4)
    {start len : Nat} (h : start + len ≤ 15) :
    (statusWord n count dpid code).extractLsb' start len =
      (BitVec.ofNat 11 count ++ (BitVec.ofFin n : BitVec 4)).extractLsb' start len := by
  have hskip {v w : Nat} (hi : BitVec v) (lo : BitVec w) (hw : 15 ≤ w) :
      (hi ++ lo).extractLsb' start len = lo.extractLsb' start len :=
    BitVec.extractLsb'_append_eq_of_add_le (h.trans hw)
  exact (hskip _ _ (by decide)).trans ((hskip _ _ (by decide)).trans (hskip _ _ (by decide)))

theorem statusEp_statusWord (n : EpNum) (count : Nat) (dpid : BitVec 2) (code : BitVec 4) :
    statusEp (statusWord n count dpid code) = n := by
  rw [statusEp, extract_statusWord n count dpid code (by decide), BitVec.extractLsb'_append_eq_right]

theorem statusCount_statusWord (n : EpNum) (dpid : BitVec 2) (code : BitVec 4) (hbc : bc < 2 ^ 11) :
    statusCount (statusWord n bc dpid code) = bc := by
  rw [statusCount, extract_statusWord n bc dpid code (by decide), BitVec.extractLsb'_append_eq_left,
    BitVec.toNat_ofNat, Nat.mod_eq_of_lt hbc]

theorem statusCode_statusWord (n : EpNum) (count : Nat) (dpid : BitVec 2) (code : BitVec 4) :
    statusCode (statusWord n count dpid code) = code :=
  (BitVec.extractLsb'_append_eq_of_add_le (v := 11) (w := 21) (by decide)).trans
    (BitVec.extractLsb'_append_eq_left (w := 4) (w' := 17))

/-! ## The bytes of a packet (R233, 43_packet_io.md R211) -/

/-- An OUT packet whose words are all of RXQ: its bytes stored, the queue empty, the cursor advanced. -/
def packetStored (n : EpNum) (bc : Nat) (s : State) : State :=
  { (s.setRec n .out
      { s.recAt n .out with buffer := (s.recAt n .out).buffer + BitVec.ofNat 32 bc }) with
    pi := { s.pi with rxq := [] }
    mem := memWriteBytes s.mem (s.recAt n .out).buffer ((unpackWords s.pi.rxq).take bc) }

@[simp] theorem recAt_packetStored (n : EpNum) (bc : Nat) (s : State) :
    (packetStored n bc s).recAt n .out =
      { s.recAt n .out with buffer := (s.recAt n .out).buffer + BitVec.ofNat 32 bc } :=
  recAt_setRec_same s n .out _

theorem rxOutData_eq (hn : n.val < s.cfg.maxEndpoints) (hlen : s.pi.rxq.length = wordsFor bc) :
    rxOutData n bc s =
      if bc < (s.recAt n .out).maxSize then shortPacketTrim n (packetStored n bc s)
      else .ok (packetStored n bc s) := by
  rw [rxOutData, if_neg (Nat.not_le.mpr hn), fifoReadPacket_ok _ _ _ hlen.ge, Act.andThen_ok, ← hlen,
    List.drop_length, List.take_length]
  rfl

theorem drainEntry_packet {dpid : BitVec 2} {ws : List Word}
    (hq : s.pi.rxq = statusWord n bc dpid 2 :: ws) (hn : n.val < s.cfg.maxEndpoints)
    (hbc : bc < 2 ^ 11) (hlen : ws.length = wordsFor bc) :
    drainEntry s =
      if bc < (s.recAt n .out).maxSize then shortPacketTrim n (packetStored n bc (s.withRxq ws))
      else .ok (packetStored n bc (s.withRxq ws)) := by
  have hclass : rxClass (statusCode (statusWord n bc dpid 2)) = .outData := by
    rw [statusCode_statusWord]
    rfl
  rw [drainEntry_outData hq hclass, statusEp_statusWord, statusCount_statusWord n dpid 2 hbc]
  exact rxOutData_eq (s := s.withRxq ws) hn hlen

/-- The bytes of a packet stand at the cursor, in order, and no other byte has changed. -/
theorem memRead_packetStored (hwf : Memory.wf s.mem = true) (hbc : bc < 2 ^ 11)
    (hlen : s.pi.rxq.length = wordsFor bc) :
    (∀ i, i < bc →
      some (memRead (packetStored n bc s).mem ((s.recAt n .out).buffer + BitVec.ofNat 32 i)) =
        (unpackWords s.pi.rxq)[i]?) ∧
    (∀ a, ¬ inBytes (s.recAt n .out).buffer bc a →
      memRead (packetStored n bc s).mem a = memRead s.mem a) := by
  have hbytes : ((unpackWords s.pi.rxq).take bc).length = bc := by
    have hroom := (wordsFor_le_iff bc (wordsFor bc)).mp le_rfl
    rw [List.length_take, unpackWords_length, hlen]
    omega
  refine ⟨fun i hi => ?_, fun a ha => ?_⟩
  · have hi' : i < ((unpackWords s.pi.rxq).take bc).length := hi.trans_eq hbytes.symm
    rw [packetStored, memRead_memWriteBytes_inside _ _ _ i hwf hi' (by omega),
      ← List.getElem?_eq_getElem, List.getElem?_take_of_lt hi]
  · exact memRead_memWriteBytes_outside _ _ _ a hwf (hbytes.trans_le (Nat.not_lt.mp ha))

@[simp] theorem setRec_setRec (s : State) (n : EpNum) (d : Dir) (r r' : Record) :
    (s.setRec n d r).setRec n d r' = s.setRec n d r' := by
  simp [State.setRec]

/-- What a short packet leaves of the recorded length (R234). -/
def trimmedLen (n : EpNum) (s : State) : Nat :=
  (s.recAt n .out).totalLen - (s.epAt n .out).xfrsiz - (if n = 0 then s.ep0Pending.out else 0)

/-- The trim of a short packet within its recorded length (R234). -/
theorem shortPacketTrim_ok
    (h : (s.epAt n .out).xfrsiz + (if n = 0 then s.ep0Pending.out else 0) ≤
      (s.recAt n .out).totalLen) :
    shortPacketTrim n s = .ok
      { (s.setRec n .out { s.recAt n .out with totalLen := trimmedLen n s }) with
        ep0Pending := if n = 0 then ⟨0, s.ep0Pending.inn⟩ else s.ep0Pending } := by
  have hleft : ¬ (s.recAt n .out).totalLen < (s.epAt n .out).xfrsiz := by omega
  refine (if_neg hleft).trans ?_
  by_cases hn : n = 0
  · subst hn
    rw [if_pos rfl] at h
    have hpending : ¬ (s.recAt 0 .out).totalLen - (s.epAt 0 .out).xfrsiz < s.ep0Pending.out := by
      omega
    dsimp only
    rw [if_pos rfl, recAt_setRec_same, setRec_setRec]
    exact if_neg hpending
  · rw [if_neg hn, trimmedLen, if_neg hn, if_neg hn]
    rfl

/-! ## IRQ_ENTRY over one OUT packet -/

/-- Settles O19: the packet is stored, and the drain ends with the queue empty. -/
theorem drainOutPacket : Obligations.DrainOutPacket := by
  unfold Obligations.DrainOutPacket
  intro s n bc dpid ws ha hpend hn hbc hlen hq hsize hwf
  have hne : s.pi.rxq ≠ [] := by simp [hq]
  have hentry : drainEntry (setRxneMask false (runStart s)) =
      .ok (setRxneMask false (packetStored n bc ((runStart s).withRxq ws))) :=
    (drainEntry_packet (s := setRxneMask false (runStart s)) hq hn hbc hlen).trans
      (if_neg (Nat.not_lt.mpr hsize))
  obtain ⟨hinside, houtside⟩ := memRead_packetStored (n := n) (s := (runStart s).withRxq ws) hwf hbc hlen
  exact ⟨_, exec_drainOne ha hpend hne hentry rfl rfl, hinside, houtside, rfl⟩

/-- A short packet: its bytes stored as of a full one, and the recorded length trimmed (R234). -/
def shortPacketStored (n : EpNum) (bc : Nat) (s : State) : State :=
  { packetStored n bc s with
    xfer := (s.setRec n .out
      { s.recAt n .out with
        buffer := (s.recAt n .out).buffer + BitVec.ofNat 32 bc
        totalLen := trimmedLen n s }).xfer
    ep0Pending := if n = 0 then ⟨0, s.ep0Pending.inn⟩ else s.ep0Pending }

theorem setRec_packetStored (n : EpNum) (bc : Nat) (s : State) (r : Record) :
    (packetStored n bc s).setRec n .out r =
      { packetStored n bc s with xfer := (s.setRec n .out r).xfer } := by
  simp [packetStored, State.setRec]

theorem shortPacketTrim_packetStored
    (h : (s.epAt n .out).xfrsiz + (if n = 0 then s.ep0Pending.out else 0) ≤
      (s.recAt n .out).totalLen) :
    shortPacketTrim n (packetStored n bc s) = .ok (shortPacketStored n bc s) := by
  rw [shortPacketTrim_ok (s := packetStored n bc s) (by rwa [recAt_packetStored]), setRec_packetStored,
    trimmedLen, recAt_packetStored]
  rfl

/-- Settles O20: the packet is stored as a full one is, and then trimmed. -/
theorem drainShortPacket : Obligations.DrainShortPacket := by
  unfold Obligations.DrainShortPacket
  intro s n bc dpid ws ha hpend hn hbc hlen hq hsize htrim hwf
  have hne : s.pi.rxq ≠ [] := by simp [hq]
  have hentry : drainEntry (setRxneMask false (runStart s)) =
      .ok (setRxneMask false (shortPacketStored n bc ((runStart s).withRxq ws))) :=
    (drainEntry_packet (s := setRxneMask false (runStart s)) hq hn hbc hlen).trans <|
      (if_pos hsize).trans <|
      shortPacketTrim_packetStored (s := (setRxneMask false (runStart s)).withRxq ws) htrim
  obtain ⟨hinside, houtside⟩ := memRead_packetStored (n := n) (s := (runStart s).withRxq ws) hwf hbc hlen
  exact ⟨_, exec_drainOne ha hpend hne hentry rfl rfl, hinside, houtside, rfl⟩

/-! ## Faults (R233, R238, 60_exceptions.md R305) -/

/-- A drain whose first entry faults halts there, RXNE masked. -/
theorem exec_drainFault (ha : s.accepts = true)
    (hpend : s.pending = { GlobalBits.none with rxne := true }) (hne : s.pi.rxq ≠ [])
    {c : FaultCause} (hentry : drainEntry (setRxneMask false (runStart s)) = .bad c t) :
    ∃ x, exec .irqEntry s = .next (({ t with ctx := x } : State).raiseFault c) := by
  have hops : dispatchRun (runStart s) =
      runOps [.drainMask, .drainLoop, .drainUnmask] {} (runStart s) := by
    rw [dispatchRun, show (runStart s).pending = _ from hpend]
    rfl
  have hmask : irqStep .drainMask {} (runStart s) = .go {} (setRxneMask false (runStart s)) := rfl
  have hloop : irqStep .drainLoop {} (setRxneMask false (runStart s)) = .bad c t :=
    drainLoop_bad (s := setRxneMask false (runStart s)) hne hentry {}
  rw [runOps_go hmask, runOps_bad hloop] at hops
  exact exec_irqEntry_bad ha hops

/-- Settles O23: both causes are found right after the pop of the status word. -/
theorem drainFaults : Obligations.DrainFaults := by
  unfold Obligations.DrainFaults
  intro s sw ws ha hpend hq c hcause
  have hne : s.pi.rxq ≠ [] := by simp [hq]
  have hentry : drainEntry (setRxneMask false (runStart s)) =
      .bad c ((setRxneMask false (runStart s)).withRxq ws) := by
    obtain ⟨hclass, rfl⟩ | ⟨hclass, habsent, rfl⟩ := hcause
    · exact drainEntry_unrecognised (s := setRxneMask false (runStart s)) hq hclass
    · exact (drainEntry_outData (s := setRxneMask false (runStart s)) hq hclass).trans
        (if_pos habsent)
  obtain ⟨x, hrun⟩ := exec_drainFault ha hpend hne hentry
  exact ⟨_, hrun, rfl⟩

/-! ## What a step of a run stores -/

theorem Act.Meets.state {P : State → Prop} {a : Act} (h : a.Meets P) : P a.state := by
  cases a with
  | ok u => exact h
  | bad c u => exact h.2

theorem StoredIn.outside {m : List Host.Cell} {dst : Word × Nat} {a : Word} (h : StoredIn m dst s)
    (hwf : Memory.wf m = true) (ha : ¬ inBytes dst.1 dst.2 a) : memRead s.mem a = memRead m a := by
  obtain ⟨bs, hlen, hmem⟩ := h
  rw [hmem, memRead_memWriteBytes_outside bs m dst.1 a hwf (hlen.trans (Nat.not_lt.mp ha))]

/-- Settles O24: the drain stores at most what `drainStore` names, and no other step of a run writes
buffer memory. -/
theorem runStores : Obligations.RunStores := by
  unfold Obligations.RunStores
  refine ⟨fun s a hwf ha => (drainEntry_stored s).state.outside hwf ha, fun op l s a hop => ?_⟩
  have hmem : (irqStep op l s).state.mem = s.mem := (irqStep_mem hop rfl l).state
  rw [hmem]

end Sys2Proof.Machine
end

section
/-! The endpoint conditions: transfer-complete in either direction, and a run with one OUT endpoint signalling
(44_dispatcher.md R239 to R244, 42_ep0_mux.md R202). -/

namespace Sys2Proof.Machine

open Sys2Proof

variable {s t : State} {n m : EpNum} {d : Dir}

/-! ## The transfer-complete condition (R241, R244) -/

@[simp] theorem setEp_epAt (s : State) (n : EpNum) (d : Dir) : s.setEp n d (s.epAt n d) = s := by
  cases d <;> simp [State.setEp, Pi.setEp, State.epAt, Pi.epAt, Both.get, Both.set]

theorem SpecEq.of_eq (h : s = t) : SpecEq s t := congrArg State.spec h

theorem SpecEq.emitComplete (s : State) (n : EpNum) (d : Dir) :
    SpecEq (s.emitComplete n d)
      { s with events := s.events ++ [.xferComplete n d (s.recAt n d).totalLen] } := .of_books rfl

/-- The condition acknowledged. -/
def doneAcked (n : EpNum) (d : Dir) (s : State) : State :=
  s.setEp n d { s.epAt n d with xferDone := false }

/-- A condition of an abandoned transfer is acknowledged only (70_reset_and_hazards.md R355). -/
theorem transferComplete_drops (h : (s.epAt n d).xferDone = true) (hdrop : s.dropsDone n d = true) :
    SpecEq (transferComplete n d s) (doneAcked n d s) :=
  .of_eq (transferComplete_dropped h hdrop)

/-- Any other is reported, for endpoint 0 once nothing is pending (42_ep0_mux.md R202). -/
theorem transferComplete_reports (h : (s.epAt n d).xferDone = true)
    (hdrop : s.dropsDone n d = false) (hlast : n ≠ 0 ∨ s.ep0Pending.get d = 0) :
    SpecEq (transferComplete n d s)
      { doneAcked n d s with
        events := s.events ++ [.xferComplete n d (s.recAt n d).totalLen] } := by
  have hemit : transferComplete n d s = (doneAcked n d s).emitComplete n d := by
    by_cases hn : n = 0
    · subst hn
      have hzero : s.ep0Pending.get d = 0 := hlast.resolve_left fun hne => hne rfl
      rw [transferComplete_ep0 h hdrop]
      exact ep0Continue_done hzero
    · exact transferComplete_other hn h hdrop
  rw [hemit]
  exact .emitComplete (doneAcked n d s) n d

/-- The last step of arming (41_endpoint_ops.md R176 c). -/
theorem SpecEq.armTxe_step (h : SpecEq s t) (n : EpNum) (d : Dir) (by_ : Nat) :
    SpecEq (s.armTxe n d by_) (if d = .inn ∧ by_ ≠ 0 then t.setTxe n true else t) := by
  rw [armTxe_eq]
  split
  · exact congrArg (State.setTxe · n true) h
  · exact h

/-- With bytes pending endpoint 0 is armed for one more packet (42_ep0_mux.md R201, R202). -/
theorem transferComplete_schedules (h : (s.epAt 0 d).xferDone = true)
    (hdrop : s.dropsDone 0 d = false) (hmore : s.ep0Pending.get d ≠ 0) :
    SpecEq (transferComplete 0 d s)
      (let k := min (s.ep0Pending.get d) (s.recAt 0 d).maxSize
       let t := (s.setEp 0 d
         { s.epAt 0 d with
           xferDone := false, pktcnt := 1, xfrsiz := k, stall := false, nak := false
           ena := true }).setPending d (s.ep0Pending.get d - k)
       if d = .inn ∧ k ≠ 0 then t.setTxe 0 true else t) := by
  have harmed : transferComplete 0 d s =
      ((ep0Take (doneAcked 0 d s) d).arm 0 d 1 (ep0Bytes s d)) := by
    rw [transferComplete_ep0 h hdrop]
    exact ep0Continue_more hmore
  have hep : (ep0Take (doneAcked 0 d s) d).epAt 0 d = { s.epAt 0 d with xferDone := false } :=
    epAt_setEp_same s 0 d _
  have harm := armEp_specEq (ep0Take (doneAcked 0 d s) d) 0 d 1 (ep0Bytes s d)
  have hset (r : EpRegs) : (ep0Take (doneAcked 0 d s) d).setEp 0 d r =
      (s.setEp 0 d r).setPending d (s.ep0Pending.get d - ep0Bytes s d) :=
    congrArg (State.setPending · d _) (setEp_setEp s 0 d _ r)
  rw [hep, hset] at harm
  rw [harmed]
  exact harm.armTxe_step 0 d (ep0Bytes s d)

/-- Settles O26: the three ways of `transferComplete`. -/
theorem transferComplete_effect : Obligations.TransferComplete := by
  unfold Obligations.TransferComplete
  intro s n d h
  refine ⟨transferComplete_drops h, transferComplete_reports h, fun hdrop hn hmore => ?_⟩
  subst hn
  exact transferComplete_schedules h hdrop hmore

/-- The condition, set or not, where it schedules nothing: acknowledged, and reported if there is
something to report. -/
theorem transferComplete_ends
    (h : n ≠ 0 ∨ (s.epAt n d).xferDone = false ∨ s.ep0Pending.get d = 0 ∨ s.dropsDone n d = true) :
    SpecEq (transferComplete n d s)
      { doneAcked n d s with
        events := s.events ++
          (if (s.epAt n d).xferDone = true ∧ s.dropsDone n d = false then
            [.xferComplete n d (s.recAt n d).totalLen] else []) } := by
  cases hdone : (s.epAt n d).xferDone with
  | false =>
      have hacked : doneAcked n d s = s := by
        rw [doneAcked, ← hdone, setEp_epAt]
      rw [transferComplete_idle hdone, hacked, if_neg (by simp), List.append_nil]
      rfl
  | true =>
      cases hdrop : s.dropsDone n d with
      | true =>
          rw [if_neg (by simp), List.append_nil]
          exact transferComplete_drops hdone hdrop
      | false =>
          rw [if_pos ⟨rfl, rfl⟩]
          refine transferComplete_reports hdone hdrop ?_
          simpa [hdone, hdrop] using h

/-! ## The SETUP-phase-done condition (R240) -/

/-- The condition acknowledged, and the staged words reported if it was set. -/
def setupReported (n : EpNum) (s : State) : State :=
  { s with
    pi := { s.pi with setupDone := s.pi.setupDone.set n false }
    events := s.events ++
      (if s.pi.setupDone[n] = true then [.setupReceived s.setupBuf0 s.setupBuf1] else []) }

theorem outSetupPhase_eq (n : EpNum) (s : State) : outSetupPhase n s = setupReported n s := by
  unfold outSetupPhase setupReported
  by_cases h : s.pi.setupDone[n] = true
  · rw [if_pos h, if_pos h]
    rfl
  · have hsame : s.pi.setupDone.set n false = s.pi.setupDone := by
      rw [Bool.not_eq_true] at h
      rw [← h]
      exact Vector.set_getElem_self ..
    rw [if_neg h, if_neg h, hsame, List.append_nil]

/-! ## One OUT endpoint (R239) -/

/-- Both conditions of an OUT endpoint (R239 a, b). -/
def outHandled (n : EpNum) (s : State) : State := transferComplete n .out (setupReported n s)

theorem leads_outHandled (h : epPendOut s.pi n = true) :
    Leads [.outSetup n, .outDone n] s (outHandled n s) := by
  intro rest l
  have hsetup : irqStep (.outSetup n) l s = .go { l with pend := true } (setupReported n s) := by
    simp [irqStep, h, outSetupPhase_eq]
  have hdone : irqStep (.outDone n) { l with pend := true } (setupReported n s) =
      .go { l with pend := true } (outHandled n s) := rfl
  exact ⟨_, (runOps_go hsetup).trans (runOps_go hdone)⟩

theorem leads_outIdle (h : epPendOut s.pi n = false) : Leads [.outSetup n, .outDone n] s s :=
  fun _ _ => ⟨_, runOps_outIdle h⟩

/-- Both handlers write fields of their own endpoint only. -/
theorem epPendOut_other (hmn : m ≠ n) (p : Pi) (r : EpRegs) :
    epPendOut { p.setEp n .out r with setupDone := p.setupDone.set n false } m = epPendOut p m := by
  have hep : (p.ep.out.set n r)[m] = p.ep.out[m] := Bank.get_set_other _ n m r hmn
  have hsetup : (p.setupDone.set n false)[m] = p.setupDone[m] := Bank.get_set_other _ n m false hmn
  simp only [epPendOut, Pi.setEp, Both.set, Both.get, hep, hsetup]

theorem SpecEq.pi (h : SpecEq s t) : s.pi = t.pi := by
  have hspec : s.spec.pi = t.spec.pi := congrArg State.pi h
  exact hspec

/-- IRQ_ENTRY with one OUT endpoint signalling, whose handlers leave what `v` says: the other endpoints
go on not signalling. -/
theorem exec_outHandled (ha : s.accepts = true)
    (hpend : s.pending = { GlobalBits.none with oep := true }) (hn : n.val < s.cfg.maxEndpoints)
    (hsig : ∀ m : EpNum, m.val < s.cfg.maxEndpoints → (epPendOut s.pi m = true ↔ m = n))
    {v : State} (hspec : SpecEq (outHandled n (runStart s)) v) {r : EpRegs}
    (hpi : v.pi = { s.pi.setEp n .out r with setupDone := s.pi.setupDone.set n false }) :
    ∃ t, exec .irqEntry s = .next t ∧ SpecEq t { v with resp := .ok } := by
  have hleads := Leads.endpoint (s := runStart s) (f := fun m => [.outSetup m, .outDone m])
    leads_outIdle hn hsig (leads_outHandled ((hsig n hn).mpr rfl))
    (fun m hmn => by rw [hspec.pi, hpi]; exact epPendOut_other hmn s.pi r)
  have hops : dispatchOps { GlobalBits.none with oep := true } s.cfg.maxEndpoints =
      (endpoints s.cfg.maxEndpoints).flatMap (fun m => [.outSetup m, .outDone m]) := by
    simp [dispatchOps, GlobalBits.none]
  exact ⟨_, exec_irqEntry_leads ha hpend (by rw [hops]; exact hleads), hspec.setResp .ok⟩

/-- Settles O25: the SETUP-phase-done condition first, then the transfer-complete condition over what it
leaves. -/
theorem outCompletion : Obligations.OutCompletion := by
  unfold Obligations.OutCompletion
  intro s n ha hpend hn hsig
  refine ⟨fun hcase => ?_, fun hz hdone hmore hdrop => ?_⟩
  · have hends := transferComplete_ends (s := setupReported n (runStart s)) (d := .out) hcase
    exact exec_outHandled ha hpend hn hsig hends rfl
  · subst hz
    have hmoves := transferComplete_schedules (s := setupReported 0 (runStart s)) (d := .out)
      hdone hdrop hmore
    exact exec_outHandled ha hpend hn hsig hmoves rfl

end Sys2Proof.Machine
end

section
/-! The FIFO-empty handler: one packet pushed, and a run with one IN endpoint signalling
(44_dispatcher.md R243 to R246, 43_packet_io.md R212, 46_environment.md R288). -/

namespace Sys2Proof.Machine

open Sys2Proof

variable {s t : State} {n m : EpNum} {k : Nat}

/-! ## One packet (R245) -/

/-- The transmit FIFO with a packet of `k` bytes complete, and the byte count lowered (R288). -/
def Pi.closePacket (p : Pi) (n : EpNum) (k : Nat) (words : List Word) : Pi :=
  { (p.setEp n .inn { p.epAt n .inn with xfrsiz := (p.epAt n .inn).xfrsiz - k }) with
    txq := p.txq.set n ⟨p.txq[n].packets ++ [⟨k, words⟩], []⟩ }

/-- A word that joins the packet being built. -/
def Pi.joinPacket (p : Pi) (n : EpNum) (w : Word) : Pi :=
  { p with txq := p.txq.set n ⟨p.txq[n].packets, p.txq[n].open_ ++ [w]⟩ }

theorem open_joinPacket (p : Pi) (n : EpNum) (w : Word) :
    (p.joinPacket n w).txq[n].open_ = p.txq[n].open_ ++ [w] := by
  simp [Pi.joinPacket]

theorem closePacket_joinPacket (p : Pi) (n : EpNum) (w : Word) (k : Nat) (words : List Word) :
    (p.joinPacket n w).closePacket n k words = p.closePacket n k words := by
  have htxq (ps : List TxPacket) :
      (p.joinPacket n w).txq.set n ⟨(p.joinPacket n w).txq[n].packets ++ ps, []⟩ =
        p.txq.set n ⟨p.txq[n].packets ++ ps, []⟩ := by
    simp [Pi.joinPacket]
  rw [Pi.closePacket, htxq]
  rfl

/-- Words that make up the rest of a packet close it, the last of them. -/
theorem txPushAll_closes {ws : List Word} (hne : ws ≠ [])
    (hk : k = min (s.epAt n .inn).xfrsiz (s.epAt n .inn).mps)
    (hlen : (s.pi.txq[n].open_ ++ ws).length = wordsFor k) (hroom : ws.length ≤ txFree s.pi n) :
    txPushAll n ws s = .ok { s with pi := s.pi.closePacket n k (s.pi.txq[n].open_ ++ ws) } := by
  induction ws generalizing s with
  | nil => exact absurd rfl hne
  | cons w ws ih =>
      rw [List.length_cons] at hroom
      rw [txPushAll, txPush_room w (by omega), Act.andThen_ok]
      cases ws with
      | nil =>
          rw [pushWord_closes s.pi n w k hk hlen]
          rfl
      | cons w' ws =>
          have hshort : (s.pi.txq[n].open_ ++ [w]).length ≠
              wordsFor (min (s.epAt n .inn).xfrsiz (s.epAt n .inn).mps) := by
            rw [← hk, ← hlen]
            simp
          have hbuilt : (s.pi.joinPacket n w).txq[n].open_ ++ w' :: ws =
              s.pi.txq[n].open_ ++ w :: w' :: ws := by
            rw [open_joinPacket, List.append_assoc, List.singleton_append]
          have hjoin : s.pi.pushWord n w = s.pi.joinPacket n w := pushWord_open s.pi n w hshort
          have hrest : (w' :: ws).length ≤ txFree (s.pi.pushWord n w) n := by
            rw [txFree_pushWord]
            omega
          rw [hjoin] at hrest ⊢
          have hrun := ih (s := { s with pi := s.pi.joinPacket n w }) (by simp) hk
            ((congrArg List.length hbuilt).trans hlen) hrest
          rw [hrun, hbuilt, closePacket_joinPacket]

/-- The packet at the cursor of an IN endpoint pushed, and the cursor advanced (R245). -/
def packetFed (n : EpNum) (k : Nat) (s : State) : State :=
  { (s.setRec n .inn
      { s.recAt n .inn with buffer := (s.recAt n .inn).buffer + BitVec.ofNat 32 k }) with
    pi := s.pi.closePacket n k (packWords (memReadBytes s.mem (s.recAt n .inn).buffer k)) }

theorem feedStep_pushes (hopen : s.pi.txq[n].open_ = [])
    (hmps : (s.epAt n .inn).mps = (s.recAt n .inn).maxSize)
    (hk : k = min (s.epAt n .inn).xfrsiz (s.recAt n .inn).maxSize) (hpos : 0 < k)
    (hroom : k ≤ 4 * txFree s.pi n) : feedStep n s = .pushed (packetFed n k s) := by
  have hlen : (packWords (memReadBytes s.mem (s.recAt n .inn).buffer k)).length = wordsFor k := by
    rw [packWords_length, memReadBytes_length]
  have hpush : fifoWritePacket n (s.recAt n .inn).buffer k s = .ok
      { s with
        pi := s.pi.closePacket n k (packWords (memReadBytes s.mem (s.recAt n .inn).buffer k)) } := by
    have hclose := txPushAll_closes (s := s) (n := n) (k := k)
      (List.ne_nil_of_length_pos (by rw [hlen]; exact wordsFor_pos hpos)) (by rw [hmps, hk])
      (by rw [hopen, List.nil_append, hlen]) (by rw [hlen]; exact (wordsFor_le_iff _ _).mpr hroom)
    rwa [hopen, List.nil_append] at hclose
  unfold feedStep
  dsimp only
  rw [if_neg (by omega), if_neg (by omega), ← hk, if_neg (by omega), hpush]
  rfl

/-- Settles O28: the words of the packet are exactly what closes it. -/
theorem feedPushesPacket : Obligations.FeedPushesPacket := by
  unfold Obligations.FeedPushesPacket
  intro s n k hopen hmps hk hpos hroom
  exact ⟨_, feedStep_pushes hopen hmps hk hpos hroom, rfl⟩

/-! ## One IN endpoint (R243) -/

/-- The loop of an endpoint that has nothing to push, or no room (R245). -/
theorem inFeed_stop {l : IrqLocals} (h : feedStep n s = .stop) :
    irqStep (.inFeed n) l s = .go l s := by
  cases hfeed : l.feed <;> simp [irqStep, hfeed, h]

theorem inFeed_pushed {l : IrqLocals} (hfeed : l.feed = true) (h : feedStep n s = .pushed t) :
    irqStep (.inFeed n) l s = .again l t := by
  simp [irqStep, hfeed, h]

/-- The loop over one packet. -/
theorem runOps_inFeed_once {l : IrqLocals} (hfeed : l.feed = true) (hroom : 0 < txFree s.pi n)
    (hpush : feedStep n s = .pushed t) (hstop : feedStep n t = .stop) (rest : List IrqOp) :
    runOps (.inFeed n :: rest) l s = runOps rest l t := by
  obtain ⟨k, hk⟩ := Nat.exists_eq_add_of_lt hroom
  have hbound : repeatBound (.inFeed n) s = k + 1 + 1 := by
    rw [repeatBound, hk, Nat.zero_add]
  rw [runOps, hbound, repeatStep_again (inFeed_pushed hfeed hpush), repeatStep_go (inFeed_stop hstop)]

/-- Without the transfer-complete condition the signal is that of the empty FIFO (R243 b). -/
theorem txEmpty_of_signal (hsig : epPendIn s.pi n = true) (hdone : (s.epAt n .inn).xferDone = false) :
    txEmpty s.pi n = true ∧ s.pi.txeMsk[n] = true := by
  have hep : s.pi.ep.inn[n].xferDone = false := hdone
  rw [epPendIn, hep, Bool.false_and, Bool.false_or, Bool.and_eq_true, Bool.and_eq_true] at hsig
  exact hsig.2

/-- The handlers of an IN endpoint signalled for its empty FIFO alone: its loop, then the test for the last
packet (R243, R246). -/
theorem leads_inFed (hsig : epPendIn s.pi n = true) (hdone : (s.epAt n .inn).xferDone = false)
    (hfeed : ∀ rest l, l.feed = true → runOps (.inFeed n :: rest) l s = runOps rest l t) :
    Leads [.inDone n, .inTest n, .inFeed n, .inFeedEnd n] s (feedEnd n t) := by
  obtain ⟨hempty, hmsk⟩ := txEmpty_of_signal hsig hdone
  intro rest l
  have hin : irqStep (.inDone n) l s = .go { l with pend := true } s := by
    simp [irqStep, hsig, transferComplete_idle hdone]
  have hfifo : irqStep (.inTest n) { l with pend := true } s =
      .go { l with pend := true, feed := true } s := by
    rw [irqStep, hempty, hmsk]
    rfl
  have hend : irqStep (.inFeedEnd n) { l with pend := true, feed := true } t =
      .go { l with pend := true, feed := true } (feedEnd n t) := rfl
  exact ⟨_, (runOps_go hin).trans <| (runOps_go hfifo).trans <| (hfeed _ _ rfl).trans <|
    runOps_go hend⟩

theorem leads_inIdle (h : epPendIn s.pi n = false) :
    Leads [.inDone n, .inTest n, .inFeed n, .inFeedEnd n] s s := fun _ _ => ⟨_, runOps_inIdle h⟩

/-- The handlers write fields of their own endpoint only. -/
theorem epPendIn_other (hmn : m ≠ n) (p : Pi) (r : EpRegs) (q : TxFifo) (b : Bool) :
    epPendIn { p.setEp n .inn r with txq := p.txq.set n q, txeMsk := p.txeMsk.set n b } m =
      epPendIn p m := by
  have hep : (p.ep.inn.set n r)[m] = p.ep.inn[m] := Bank.get_set_other _ n m r hmn
  have htxq : (p.txq.set n q)[m] = p.txq[m] := Bank.get_set_other _ n m q hmn
  have htxe : (p.txeMsk.set n b)[m] = p.txeMsk[m] := Bank.get_set_other _ n m b hmn
  simp only [epPendIn, txEmpty, Pi.setEp, Both.set, Both.get, hep, htxq, htxe]

/-- IRQ_ENTRY with one IN endpoint signalling, whose handlers leave the others not signalling. -/
theorem exec_inHandled (ha : s.accepts = true)
    (hpend : s.pending = { GlobalBits.none with iep := true }) (hn : n.val < s.cfg.maxEndpoints)
    (hsig : ∀ m : EpNum, m.val < s.cfg.maxEndpoints → (epPendIn s.pi m = true ↔ m = n))
    (hleads : Leads [.inDone n, .inTest n, .inFeed n, .inFeedEnd n] (runStart s) t)
    (hother : ∀ m : EpNum, m ≠ n → epPendIn t.pi m = epPendIn s.pi m) :
    exec .irqEntry s = .next { t with resp := .ok } := by
  have hall := Leads.endpoint (s := runStart s)
    (f := fun m => [.inDone m, .inTest m, .inFeed m, .inFeedEnd m]) leads_inIdle hn hsig hleads hother
  have hops : dispatchOps { GlobalBits.none with iep := true } s.cfg.maxEndpoints =
      (endpoints s.cfg.maxEndpoints).flatMap
        (fun m => [.inDone m, .inTest m, .inFeed m, .inFeedEnd m]) := by
    simp [dispatchOps, GlobalBits.none]
  exact exec_irqEntry_leads ha hpend (by rw [hops]; exact hall)

theorem epAt_packetFed (n : EpNum) (k : Nat) (s : State) :
    (packetFed n k s).epAt n .inn =
      { s.epAt n .inn with xfrsiz := (s.epAt n .inn).xfrsiz - k } :=
  epAt_setEp_same s n .inn _

/-- Settles O29: after the last packet, and where there is no room, the loop stops; the enable goes with the
last packet only. -/
theorem feedLastPacket : Obligations.FeedLastPacket := by
  unfold Obligations.FeedLastPacket
  intro s n ha hpend hn hsig hdone
  have hsignal : epPendIn (runStart s).pi n = true := (hsig n hn).mpr rfl
  refine ⟨fun hopen hmps hpos hsize hroom => ?_, fun hfull => ?_⟩
  · have hfree : 0 < txFree (runStart s).pi n := by
      have hwords : 0 < 4 * txFree s.pi n := hpos.trans_le hroom
      exact Nat.pos_of_mul_pos_left hwords
    have hpush : feedStep n (runStart s) = .pushed (packetFed n (s.epAt n .inn).xfrsiz (runStart s)) :=
      feedStep_pushes hopen hmps (Nat.min_eq_left hsize).symm hpos hroom
    have hzero : ((packetFed n (s.epAt n .inn).xfrsiz (runStart s)).epAt n .inn).xfrsiz = 0 := by
      rw [epAt_packetFed]
      exact Nat.sub_self _
    have hleads := leads_inFed hsignal hdone fun rest l hfeed =>
      runOps_inFeed_once hfeed hfree hpush (feedStep_done hzero) rest
    rw [feedEnd, if_pos hzero] at hleads
    refine ⟨_, exec_inHandled ha hpend hn hsig hleads fun m hmn => epPendIn_other hmn s.pi _ _ false, ?_⟩
    simp only [packetFed, Pi.closePacket, State.epAt, runStart, Nat.sub_self]
    rfl
  · have hleft : 0 < min (s.epAt n .inn).xfrsiz (s.recAt n .inn).maxSize := Nat.zero_lt_of_lt hfull
    obtain ⟨hbytes, hsize⟩ := Nat.lt_min.mp hleft
    have hstop : feedStep n (runStart s) = .stop := feedStep_noRoom hsize.ne' hfull
    have hleads := leads_inFed hsignal hdone fun rest l _ => runOps_go (inFeed_stop hstop)
    have hstays : feedEnd n (runStart s) = runStart s := if_neg hbytes.ne'
    rw [hstays] at hleads
    exact ⟨_, exec_inHandled ha hpend hn hsig hleads fun _ _ => rfl,
      (txEmpty_of_signal hsignal hdone).2, rfl⟩

end Sys2Proof.Machine
end

section
/-! How BUS_STATE moves under the commands (44_dispatcher.md R250). -/

namespace Sys2Proof.Machine

open Sys2Proof

variable {b : BusState} {i : Instr} {op : CmdOp} {rest : List CmdOp} {l : CmdLocals} {s t : State}

/-! ## The steps that leave BUS_STATE alone -/

/-- The state's BUS_STATE is `b`. -/
def BusIs (b : BusState) (s : State) : Prop := s.busState = b

theorem BusIs.of_eq (h : BusIs b s) (ht : t.busState = s.busState := by simp) : BusIs b t := ht.trans h

theorem busIs_endsWell (b : BusState) : EndsWell (BusIs b) :=
  ⟨fun _ _ h => h, fun _ _ h => h, fun _ _ _ h => h⟩

/-- The steps that write BUS_STATE. -/
def CmdOp.writesBus : CmdOp → Bool
  | .initBlock => true
  | .busDisconnected => true
  | .openRespond _ => true
  | .cfgRespond => true
  | _ => false

/-- The commands that have such a step. -/
def movesBus : Instr → Bool
  | .init => true
  | .disconnect => true
  | .openEp _ _ _ _ => true
  | .cfgAlloc _ _ => true
  | _ => false

theorem txBindFifo_busIs (h : BusIs b s) (n : EpNum) (mps : Nat) :
    (txBindFifo n mps s).Meets (BusIs b) := by
  unfold txBindFifo
  dsimp only
  split
  · split
    · exact ⟨by decide, h⟩
    · exact h
  · split
    · exact ⟨by decide, h⟩
    · exact h.of_eq

theorem bringUpStep_busIs (h : BusIs b s) (k : BringUpStep) :
    (bringUpStep k s).Meets (BusIs b) := by
  unfold bringUpStep
  split
  · exact ⟨by decide, h⟩
  · exact h.of_eq

theorem cmdStep_busIs (hop : op.writesBus = false) (h : BusIs b s) (l : CmdLocals) :
    (cmdStep op l s).Meets (BusIs b) := by
  cases op with
  | initBlock => cases hop
  | busDisconnected => cases hop
  | openRespond n => cases hop
  | cfgRespond => cases hop
  | checkEp n =>
      simp only [cmdStep]
      split
      · exact ⟨by decide, h⟩
      · exact h
  | bringUp k => exact (bringUpStep_busIs h k).cmd l
  | openCeiling ty mps =>
      simp only [cmdStep]
      split
      · exact ⟨by decide, h⟩
      · exact h
  | openSize n d mps => exact h
  | openProgram n d ty mps => exact h
  | txBindFifo n mps => exact (txBindFifo_busIs h n mps).cmd l
  | xferCheck n d length =>
      simp only [cmdStep, xferCheck]
      split
      · exact ⟨by decide, h⟩
      · split
        · exact ⟨by decide, h⟩
        · exact h
  | xferRecord n d buffer length =>
      simp only [cmdStep, xferRecord]
      split
      · trivial
      · exact h.of_eq
  | stallIdle n d =>
      simp only [cmdStep]
      split
      · exact h.of_eq
      · exact h
  | stallWaitNak n d => exact waitFor_meets h _
  | stallWaitFlush => exact waitFor_meets h _
  | clearTest n d =>
      simp only [cmdStep]
      split <;> exact h
  | cfgBegin =>
      simp only [cmdStep]
      split
      · exact h
      · trivial
  | cfgRead table count =>
      simp only [cmdStep, cfgRead]
      split
      · exact h
      · exact ⟨by decide, h⟩
  | cfgCapacity =>
      simp only [cmdStep, cfgCapacity]
      split <;> exact h
  | commitEp n =>
      simp only [cmdStep, commitEpStep, commitEndpoint]
      split <;> exact h.of_eq
  | runDispatcher => exact h
  | _ => exact h.of_eq

theorem writesBus_false_of_mem {m : Nat} (hi : movesBus i = false) :
    ∀ op ∈ opsOf m i, op.writesBus = false := by
  cases i with
  | init => cases hi
  | disconnect => cases hi
  | openEp n d ty mps => cases hi
  | cfgAlloc table count => cases hi
  | xfer n d buffer length =>
      by_cases hn : n = 0 <;> simp [opsOf, xferOps, armOps, hn, CmdOp.writesBus]
  | stall n d => cases d <;> simp [opsOf, stallOps, CmdOp.writesBus]
  | connect => simp [opsOf, connectOps, CmdOp.writesBus]
  | setAddress a => simp [opsOf, setAddressOps, CmdOp.writesBus]
  | remoteWakeup => simp [opsOf, remoteWakeupOps, CmdOp.writesBus]
  | irqEnable => simp [opsOf, irqEnableOps, CmdOp.writesBus]
  | irqDisable => simp [opsOf, irqDisableOps, CmdOp.writesBus]
  | irqEntry => simp [opsOf, irqEntryOps, CmdOp.writesBus]
  | closeEp n d => simp [opsOf, closeOps, CmdOp.writesBus]
  | clearStall n d => simp [opsOf, clearStallOps, CmdOp.writesBus]
  | reservedE high low => simp [opsOf]
  | reservedF high low => simp [opsOf]

/-- A command without such a step leaves BUS_STATE alone, however it ends. -/
theorem exec_busState_of_not_moves (hi : movesBus i = false) (hne : i ≠ .irqEntry)
    (ht : exec i s = .next t) : t.busState = s.busState :=
  exec_meets (busIs_endsWell s.busState)
    (fun op hop l _ hu => cmdStep_busIs (writesBus_false_of_mem hi op hop) hu l)
    (fun h => absurd h hne) rfl ht

/-! ## INIT and DISCONNECT (45_system_ops.md R261, R265) -/

theorem exec_init_busState (ha : s.accepts = true) (ht : exec .init s = .next t) :
    t.busState = .disconnected := by
  rw [exec_accepted (i := .init) rfl ha, runCmd_go rfl] at ht
  refine runEnds_all (P := BusIs .disconnected) (busIs_endsWell _) (fun op hop l u hu => ?_)
    (fun h => absurd h (by decide)) (initBlock_busState s) t ht
  refine cmdStep_busIs ?_ hu l
  revert op
  decide

theorem exec_disconnect_busState (ha : s.accepts = true) (ht : exec .disconnect s = .next t) :
    t.busState = .disconnected := by
  rw [exec_accepted (i := .disconnect) rfl ha, runCmd_go rfl, runCmd_go rfl, runCmd_respond rfl] at ht
  cases ht
  rfl

/-! ## OPEN (41_endpoint_ops.md R171) -/

theorem exec_open_busState (ha : s.accepts = true) {n : EpNum} {d : Dir} {ty : XferType} {mps : Nat}
    (ht : exec (.openEp n d ty mps) s = .next t) (hrun : t.halted = false) :
    t.busState = if n ≠ 0 ∧ s.busState = .enumerating then .active else s.busState := by
  by_cases hn : n.val < s.cfg.maxEndpoints
  · have hready : s.ready n := ⟨ha, hn⟩
    by_cases hmps : mps ≤ ceiling ty s.pi.speed
    · cases d with
      | out =>
          rw [openOut s n ty mps hready hmps] at ht
          cases ht
          rfl
      | inn =>
          have hbus := txBindFifo_busIs (s := openedEp n .inn ty mps s) (b := s.busState) rfl n mps
          have hframe := txBindFifo_cmdFrame (s := openedEp n .inn ty mps s) n mps
          have hopened := (exec_ready (i := .openEp n .inn ty mps) rfl hready).trans
            (runCmd_openedEp hmps)
          cases hbind : txBindFifo n mps (openedEp n .inn ty mps s) with
          | ok u =>
              rw [hbind] at hbus hframe
              rw [hopened.trans (runCmd_openInEnd hbind (hframe.ctx.trans hready.idle))] at ht
              cases ht
              rw [← show u.busState = s.busState from hbus]
          | bad c u =>
              have hraise : cmdStep (.txBindFifo n mps) {} (openedEp n .inn ty mps s) = .raise c u :=
                congrArg (CmdRes.ofAct {}) hbind
              rw [hopened.trans (runCmd_raise hraise)] at ht
              cases ht
              cases hrun
    · have hraise : cmdStep (.openCeiling ty mps) {} s = .raise .packetSize s :=
        if_pos (Nat.not_le.mp hmps)
      rw [(exec_ready (i := .openEp n d ty mps) rfl hready).trans (runCmd_raise hraise)] at ht
      cases ht
      cases hrun
  · obtain ⟨u, hu, hhalt⟩ := exec_absent (i := .openEp n d ty mps) rfl ha (Nat.not_lt.mp hn)
    rw [ht] at hu
    cases hu
    rw [hhalt] at hrun
    cases hrun

/-! ## CFG_ALLOC (40_fifo_allocator.md R151) -/

theorem exec_cfgAlloc_busState (ha : s.accepts = true) {table : Word} {count : Nat}
    (ht : exec (.cfgAlloc table count) s = .next t) (hrun : t.halted = false) :
    t.busState = if t.resp = .ok ∧ s.busState = .enumerating then .active else s.busState := by
  cases hq : quiescent s with
  | false =>
      rw [exec_cfgAlloc_refused ha table count hq] at ht
      cases ht
  | true =>
      by_cases hvalid : ∀ e ∈ readTable s.mem table count, e.ep.val < s.cfg.maxEndpoints
      · by_cases hroom : planDemand s.cfg (readTable s.mem table count) ≤ s.cfg.fifoCapacityWords
        · rw [exec_cfgAlloc_fits ha hq rfl hvalid hroom] at ht
          cases ht
          simp
        · have hdeclined : cmdStep .cfgCapacity (plannedLocals s.cfg (readTable s.mem table count)) s =
              .respond .declined s := if_pos (Nat.not_le.mp hroom)
          rw [exec_cfgAlloc_valid ha hq hvalid, runCmd_respond hdeclined] at ht
          cases ht
          rfl
      · push Not at hvalid
        obtain ⟨x, hx⟩ := exec_cfgAlloc_invalid ha hq hvalid
        rw [hx] at ht
        cases ht
        cases hrun

/-- Settles O50: the rows of the table for the four commands that move BUS_STATE, and the frame of the
others. -/
theorem busStateMoves : Obligations.BusStateMoves := by
  unfold Obligations.BusStateMoves
  intro i s t ha hne ht hrun
  cases i with
  | init => exact exec_init_busState ha ht
  | disconnect => exact exec_disconnect_busState ha ht
  | openEp n d ty mps => exact exec_open_busState ha ht hrun
  | cfgAlloc table count => exact exec_cfgAlloc_busState ha ht hrun
  | irqEntry => exact absurd rfl hne
  | _ => exact exec_busState_of_not_moves rfl hne ht

end Sys2Proof.Machine
end

section
/-! The system commands that write one or two fields and respond: CONNECT, DISCONNECT, SET_ADDRESS,
REMOTE_WAKEUP, IRQ_ENABLE and IRQ_DISABLE (45_system_ops.md R264 to R271). -/

namespace Sys2Proof.Machine

open Sys2Proof

variable {i : Instr} {s t : State} {op : CmdOp}

/-- A command of one step before its response. -/
theorem exec_one_step (hops : opsOf s.cfg.maxEndpoints i = [op, .respondOk])
    (hop : cmdStep op {} s = .go {} t) (ha : s.accepts = true) :
    exec i s = .next { t with resp := .ok } := by
  have hframe := cmdStep_frame op {} s
  rw [hop] at hframe
  have hidle : t.ctx = .idle := hframe.ctx.trans ((accepts_iff s).mp ha).1
  rw [exec_accepted hops ha, runCmd_go hop]
  exact runCmd_responds rfl hidle

/-! ## CONNECT, DISCONNECT, REMOTE_WAKEUP (R264, R265, R269) -/

theorem exec_disconnect (ha : s.accepts = true) :
    exec .disconnect s =
      .next { softDisconnect true s with busState := .disconnected, resp := .ok } := by
  have hidle : (softDisconnect true s).ctx = .idle :=
    (softDisconnect_ctx true s).trans ((accepts_iff s).mp ha).1
  rw [exec_accepted (i := .disconnect) rfl ha, runCmd_go rfl, runCmd_go rfl]
  exact runCmd_responds (t := (softDisconnect true s).setBusState .disconnected) rfl hidle

/-- Settles O11: what DISCONNECT parks is known to the model's bookkeeping only. -/
theorem connectDisconnect : Obligations.ConnectDisconnect := by
  unfold Obligations.ConnectDisconnect
  intro s ha
  exact ⟨exec_one_step (t := s.setSoftdisc false) rfl rfl ha, _, exec_disconnect ha, .of_books rfl⟩

/-- Settles O13: the response is the only step. -/
theorem remoteWakeup : Obligations.RemoteWakeup := by
  unfold Obligations.RemoteWakeup
  intro s ha
  rw [exec_accepted (i := .remoteWakeup) rfl ha]
  exact runCmd_responds rfl ((accepts_iff s).mp ha).1

/-! ## SET_ADDRESS (R267) -/

/-- The low seven bits of imm16 are all of it when the nine above them are zero. -/
theorem extend_low_seven {imm : BitVec 16} (h : imm.toNat < 128) :
    (imm.extractLsb' 0 7).zeroExtend 16 = imm := by
  have hmod : imm.toNat % 2 ^ 7 % 2 ^ 16 = imm.toNat := by omega
  apply BitVec.eq_of_toNat_eq
  simpa using hmod

/-- An operand of seven bits leaves the nine above it zero. -/
theorem toNat_lt_of_decode_setAddress {imm : BitVec 16}
    (hd : decode (commandWord 0 0x3 0 0 0 0 imm) = some i) : imm.toNat < 128 := by
  obtain ⟨-, hops⟩ := decode_eq_some_iff.mp hd
  obtain ⟨-, hword⟩ := encodeDecode _ i hd
  have hi : i = .setAddress ((commandWord 0 0x3 0 0 0 0 imm).extractLsb' 0 7) := by
    rw [← hops]
    simp [operandsOf]
  subst hi
  rw [encode, shortWord, commandWord_eq_iff, fieldImm_commandWord] at hword
  obtain ⟨-, -, -, -, -, -, himm⟩ := hword
  rw [himm, BitVec.toNat_setWidth]
  omega

/-- Settles O12: a word with the nine bits zero is the encoder's, and the encoder gives no other. -/
theorem setAddress : Obligations.SetAddress := by
  unfold Obligations.SetAddress
  refine ⟨fun s a ha => exec_one_step (t := s.setDevaddr a) rfl rfl ha, fun imm => ?_⟩
  split
  · next himm =>
      have hround := decodeEncode (.setAddress (imm.extractLsb' 0 7)) rfl
      rwa [encode, shortWord, extend_low_seven himm] at hround
  · next himm =>
      cases hd : decode (commandWord 0 0x3 0 0 0 0 imm) with
      | none => rfl
      | some i => exact absurd (toNat_lt_of_decode_setAddress hd) himm

/-! ## IRQ_ENABLE, IRQ_DISABLE (R270, R271, 60_exceptions.md R320) -/

theorem canEnterRun_idle (ha : s.accepts = true) : canEnterRun s = (s.irqEn && s.irqLine) := by
  obtain ⟨hctx, hhalt⟩ := (accepts_iff s).mp ha
  simp [canEnterRun, interruptible, hctx, hhalt]

/-- A run that is owed takes the turn of the command port from the idle block. -/
theorem step_command_owed {ts : List Turn} (ht : s.turns = .command :: ts) (ha : s.accepts = true)
    (hdue : s.irqDue = true) (hen : s.irqEn = true) (hline : s.irqLine = true) :
    step s = .next { s with ctx := .irq .entry none, irqDue := false } := by
  have henter : canEnterRun s = true := by rw [canEnterRun_idle ha, hen, hline, Bool.true_and]
  have howed : runOwed s = true := by rw [runOwed, hdue, henter, Bool.true_and]
  have hret : retOf s.ctx = none := by rw [((accepts_iff s).mp ha).1, retOf]
  have hturn : takeTurn .command { s with turns := ts } =
      .next (startRun { s with turns := .command :: ts }) := if_pos howed
  rw [step, nextMove_cons ht, hturn, ← ht, startRun, if_pos henter, hret, State.enterRun]

/-- Settles O14: IRQ_ENABLE owes a run where the line is 1 (A15), and the owed run goes first. -/
theorem irqEnableDisable : Obligations.IrqEnableDisable := by
  unfold Obligations.IrqEnableDisable
  intro s ha
  refine ⟨⟨_, exec_one_step rfl rfl ha, .of_books rfl, fun hline ts => ?_⟩,
    _, exec_one_step rfl rfl ha, .of_books rfl, ?_⟩
  · exact step_command_owed rfl ha hline rfl hline
  · exact canEnterRun_idle (s := { setIrqEn false s with resp := .ok }) ha

end Sys2Proof.Machine
end

section
/-! A dispatcher run with nothing in between ends: the loops use up what they run over, and a fault has a
cause of the dispatcher (44_dispatcher.md R231, R245, 45_system_ops.md R272, 60_exceptions.md R303). -/

namespace Sys2Proof.Machine

open Sys2Proof

variable {P Q : State → Prop} {s t : State} {n : EpNum} {k : Nat}

/-! ## Actions -/

/-- The action completes in a state that meets `P`, or faults with a cause of the dispatcher (R303). -/
def Act.Ends (P : State → Prop) : Act → Prop
  | .ok s => P s
  | .bad c _ => c ∈ causesOf .irqEntry

theorem Act.Ends.bad {c : FaultCause} (h : c ∈ causesOf .irqEntry := by decide) :
    (Act.bad c s).Ends P := h

theorem Act.Ends.andThen {a : Act} {f : State → Act} (ha : a.Ends P)
    (hf : ∀ t, P t → (f t).Ends Q) : (a.andThen f).Ends Q := by
  cases a with
  | ok t => exact hf t ha
  | bad c t => exact ha

theorem bringUpStep_ends (b : BringUpStep) (s : State) : (bringUpStep b s).Ends fun _ => True := by
  unfold bringUpStep
  split
  · exact .bad
  · trivial

theorem busResetStep_ends (b : BusResetStep) (s : State) : (busResetStep b s).Ends fun _ => True := by
  cases b with
  | bringUp b => exact bringUpStep_ends b s
  | _ => trivial

/-! ## The receive drain uses up RXQ (R231) -/

/-- RXQ holds at most `k` words. -/
def RxqWithin (k : Nat) (s : State) : Prop := s.pi.rxq.length ≤ k

theorem RxqWithin.of_eq (h : RxqWithin k s) (ht : t.pi.rxq = s.pi.rxq := by simp) : RxqWithin k t := by
  rwa [RxqWithin, ht]

theorem RxqWithin.rxPop {w : Word} (h : RxqWithin k s) (hp : s.rxPop = some (w, t)) :
    RxqWithin k t := by
  cases hq : s.pi.rxq with
  | nil => simp [rxPop_empty hq] at hp
  | cons x xs =>
      simp only [rxPop_cons hq, Option.some.injEq, Prod.mk.injEq] at hp
      obtain ⟨-, rfl⟩ := hp
      rw [RxqWithin, hq, List.length_cons] at h
      exact Nat.le_of_succ_le h

theorem fifoReadPacket_ends (h : RxqWithin k s) (dst : Word) (len : Nat) :
    (fifoReadPacket dst len s).Ends (RxqWithin k) := by
  unfold fifoReadPacket
  dsimp only
  split
  · exact .bad
  · exact (List.drop_sublist _ _).length_le.trans h

theorem shortPacketTrim_ends (h : RxqWithin k s) (n : EpNum) :
    (shortPacketTrim n s).Ends (RxqWithin k) := by
  unfold shortPacketTrim
  dsimp only
  split
  · exact .bad
  · split
    · split
      · exact .bad
      · exact h.of_eq
    · exact h.of_eq

theorem rxOutData_ends (h : RxqWithin k s) (n : EpNum) (bcnt : Nat) :
    (rxOutData n bcnt s).Ends (RxqWithin k) := by
  unfold rxOutData
  split
  · exact .bad
  · refine (fifoReadPacket_ends h _ bcnt).andThen fun t ht => ?_
    dsimp only
    split
    · exact shortPacketTrim_ends ht.of_eq n
    · exact ht.of_eq

theorem rxOutDone_rxqWithin (h : RxqWithin k s) (n : EpNum) : RxqWithin k (rxOutDone n s) := by
  unfold rxOutDone
  split <;> exact h

theorem rxSetupData_ends (h : RxqWithin k s) : (rxSetupData s).Ends (RxqWithin k) := by
  unfold rxSetupData
  split
  · exact .bad
  · next w0 s1 hp =>
      have h1 : RxqWithin k { s1 with setupBuf0 := w0 } := RxqWithin.rxPop (t := s1) h hp
      dsimp only
      split
      · exact .bad
      · next w1 s2 hp2 => exact RxqWithin.rxPop (t := s2) h1 hp2

/-- Every entry takes at least its status word from the queue. -/
theorem drainEntry_ends {w : Word} {ws : List Word} (hq : s.pi.rxq = w :: ws) :
    (drainEntry s).Ends (RxqWithin ws.length) := by
  have hpop : RxqWithin ws.length (s.withRxq ws) := le_rfl
  simp only [drainEntry, rxPop_cons hq]
  split
  · exact hpop
  · exact rxOutData_ends hpop _ _
  · exact rxOutDone_rxqWithin hpop _
  · exact hpop
  · exact rxSetupData_ends hpop
  · exact .bad

/-! ## The FIFO-empty loop uses up the room (R245) -/

/-- An evaluation pushes a word at least, or the loop stops, or it faults as above. -/
def Feed.Ends (n : EpNum) (k : Nat) : Feed → Prop
  | .stop => True
  | .pushed t => txFree t.pi n < k
  | .bad c _ => c ∈ causesOf .irqEntry

/-- Words for which there is room take their number from it. -/
theorem txFree_txPushAll {ws : List Word} (hroom : ws.length ≤ txFree s.pi n) :
    ∃ t, txPushAll n ws s = .ok t ∧ txFree t.pi n = txFree s.pi n - ws.length := by
  obtain ⟨t, hpush, hcontent, -⟩ := txPushAll_room n ws s hroom
  have hframe := txPushAll_frame (who := fun _ => False) n ws (s0 := s) (s := s) {}
  rw [hpush] at hframe
  refine ⟨t, hpush, ?_⟩
  rw [txFree, txFree, hframe.txf, ← TxFifo.content_length, hcontent, List.length_append,
    TxFifo.content_length, Nat.sub_sub]

theorem feedStep_ends (n : EpNum) (s : State) : (feedStep n s).Ends n (txFree s.pi n) := by
  unfold feedStep
  dsimp only
  split
  · trivial
  · next hleft =>
      split
      · exact (by decide : FaultCause.outOfContract ∈ causesOf .irqEntry)
      · next hsize =>
          split
          · trivial
          · next hfull =>
              generalize hk : min (s.epAt n .inn).xfrsiz (s.recAt n .inn).maxSize = k at hfull ⊢
              have hlen : (packWords (memReadBytes s.mem (s.recAt n .inn).buffer k)).length =
                  wordsFor k := by
                rw [packWords_length, memReadBytes_length]
              have hroom : wordsFor k ≤ txFree s.pi n := (wordsFor_le_iff _ _).mpr (by omega)
              have hpos : 0 < wordsFor k := wordsFor_pos (by omega)
              obtain ⟨t, hpush, hfree⟩ := txFree_txPushAll (hlen.trans_le hroom)
              rw [fifoWritePacket, hpush]
              change txFree t.pi n < txFree s.pi n
              omega

/-! ## The steps of a run -/

/-- A step is done, or has fewer repeats to come than `k`, or faults with a cause of the dispatcher. -/
def IrqRes.Proceeds (op : IrqOp) (k : Nat) : IrqRes → Prop
  | .go _ _ => True
  | .again _ t => repeatBound op t < k
  | .bad c _ => c ∈ causesOf .irqEntry

theorem irqStep_proceeds (op : IrqOp) (l : IrqLocals) (s : State) :
    (irqStep op l s).Proceeds op (repeatBound op s) := by
  cases op with
  | busReset b =>
      have hstep := busResetStep_ends b s
      simp only [irqStep]
      cases hb : busResetStep b s <;> rw [hb] at hstep <;> exact hstep
  | drainLoop =>
      simp only [irqStep]
      split
      · trivial
      · next hne =>
          obtain ⟨w, ws, hq⟩ := List.exists_cons_of_ne_nil (mt List.isEmpty_iff.mpr hne)
          have hentry := drainEntry_ends hq
          have hbound : repeatBound .drainLoop s = ws.length + 1 + 1 :=
            congrArg (fun q => q.length + 1) hq
          rw [hbound]
          split
          · next t ht =>
              rw [ht] at hentry
              exact Nat.succ_lt_succ (Nat.lt_succ_of_le hentry)
          · next c t ht => rwa [ht] at hentry
  | inFeed n =>
      have hfeed := feedStep_ends n s
      simp only [irqStep]
      split
      · split
        · trivial
        · next t ht =>
            rw [ht] at hfeed
            exact Nat.succ_lt_succ hfeed
        · next c t ht => rwa [ht] at hfeed
      · trivial
  | _ => trivial

/-- With tries enough a step is done at last, or faults. -/
theorem repeatStep_proceeds {op : IrqOp} (hk : repeatBound op s ≤ k) (l : IrqLocals) :
    (repeatStep k op l s).Proceeds op 0 := by
  induction k generalizing l s with
  | zero =>
      obtain ⟨j, hj⟩ := repeatBound_pos op s
      omega
  | succ k ih =>
      have hstep := irqStep_proceeds op l s
      cases hr : irqStep op l s with
      | go l1 s1 =>
          rw [repeatStep_go hr]
          trivial
      | again l1 s1 =>
          rw [hr] at hstep
          rw [repeatStep_again hr]
          exact ih (Nat.le_of_lt_succ (hstep.trans_le hk)) l1
      | bad c s1 =>
          rw [hr] at hstep
          rwa [repeatStep_bad hr]

/-! ## A run with nothing in between -/

/-- A run has returned, or faulted with a cause of the dispatcher. -/
def IrqRun.Ends : IrqRun → Prop
  | .done _ => True
  | .held _ _ _ => False
  | .bad c _ _ _ => c ∈ causesOf .irqEntry

theorem runOps_ends (ops : List IrqOp) (l : IrqLocals) (s : State) : (runOps ops l s).Ends := by
  induction ops generalizing l s with
  | nil => trivial
  | cons op ops ih =>
      have hstep := repeatStep_proceeds (op := op) (s := s) le_rfl l
      unfold runOps
      split
      · next l1 s1 hr => exact ih l1 s1
      · next l1 s1 hr =>
          rw [hr] at hstep
          exact absurd hstep (Nat.not_lt_zero _)
      · next c s1 hr => rwa [hr] at hstep

theorem GlobalBits.any_eq_false_iff {g : GlobalBits} : g.any = false ↔ g = GlobalBits.none := by
  cases g
  simp [GlobalBits.any, GlobalBits.none, and_assoc]

/-- With nothing pending and unmasked no handler runs (R221). -/
theorem exec_irqEntry_quiet (ha : s.accepts = true) (hline : s.irqLine = false) :
    exec .irqEntry s = .next { runStart s with resp := .ok } :=
  exec_irqEntry_leads ha (GlobalBits.any_eq_false_iff.mp hline) .nil

/-- IRQ_ENTRY ends as its run does, with the control state and the response the command found. -/
theorem exec_irqEntry_ends (ha : s.accepts = true) :
    ∃ t, exec .irqEntry s = .next t ∧
      ((t.halted = false ∧ t.ctx = .idle ∧ t.resp = .ok) ∨
        (t.halted = true ∧ t.resp = s.resp ∧ t.faultCause ∈ causesOf .irqEntry)) := by
  obtain ⟨hidle, hrunning⟩ := (accepts_iff s).mp ha
  have hends : (dispatchRun (runStart s)).Ends := runOps_ends _ _ _
  have hframe := dispatchRun_frame (runStart s)
  cases hrun : dispatchRun (runStart s) with
  | done t =>
      rw [hrun] at hframe
      exact ⟨_, exec_irqEntry_done ha hrun,
        .inl ⟨hframe.halted.trans hrunning, hframe.ctx.trans hidle, rfl⟩⟩
  | held todo l t =>
      rw [hrun] at hends
      exact hends.elim
  | bad c todo l t =>
      rw [hrun] at hframe hends
      obtain ⟨x, hx⟩ := exec_irqEntry_bad ha hrun
      exact ⟨_, hx, .inr ⟨rfl, hframe.2.resp, hends⟩⟩

/-- Settles O15: the run returns or faults, and with the line at 0 it has no step. -/
theorem irqEntryEnds : Obligations.IrqEntryEnds := by
  unfold Obligations.IrqEntryEnds
  intro s ha
  obtain ⟨t, ht, hend⟩ := exec_irqEntry_ends ha
  refine ⟨t, ht, fun hrun => ?_, fun hhalt => ?_, fun hline => ?_⟩
  · obtain ⟨-, hreturned⟩ | ⟨hhalt, -⟩ := hend
    · exact hreturned
    · cases hrun.symm.trans hhalt
  · obtain ⟨hrun, -⟩ | ⟨-, hfaulted⟩ := hend
    · cases hrun.symm.trans hhalt
    · exact hfaulted
  · have hquiet := ht.symm.trans (exec_irqEntry_quiet ha hline)
    cases hquiet
    exact .of_books rfl

end Sys2Proof.Machine
end

section
/-! What no move of the environment changes: everything but the link's and the endpoints' fields that its
contract lets it write, and of those it only sets the latched bits (46_environment.md R280, R282, R295). -/

namespace Sys2Proof.Machine

open Sys2Proof

variable {p q r : Pi} {s : State}

/-! ## What a move keeps -/

/-- No bus-event bit is cleared (R282). -/
structure GintKept (g g' : GintStored) : Prop where
  reset : g.reset = true → g'.reset = true := by exact id
  enumDone : g.enumDone = true → g'.enumDone = true := by exact id
  suspend : g.suspend = true → g'.suspend = true := by exact id
  resume : g.resume = true → g'.resume = true := by exact id
  disconnect : g.disconnect = true → g'.disconnect = true := by exact id

/-- An endpoint's type and packet size stay, and its latched bits are not cleared (R282). -/
structure EpKept (x y : EpRegs) : Prop where
  ty : y.ty = x.ty := by rfl
  mps : y.mps = x.mps := by rfl
  xferDone : x.xferDone = true → y.xferDone = true := by exact id
  nakEff : x.nakEff = true → y.nakEff = true := by exact id

/-- The peripheral's fields before and after a move of the environment. -/
structure EnvKept (p q : Pi) : Prop where
  writes : q = { p with
      gint := q.gint, speed := q.speed, flushBusy := q.flushBusy, clkHz := q.clkHz, ep := q.ep,
      setupcnt := q.setupcnt, rxq := q.rxq, txq := q.txq } := by rfl
  gint : GintKept p.gint q.gint := by exact {}
  eps : ∀ n d, EpKept (p.epAt n d) (q.epAt n d) := by exact fun _ _ => {}
  rxq : p.rxq.length ≤ p.rxfDepth → q.rxq.length ≤ q.rxfDepth := by exact id

theorem GintKept.trans {g g' g'' : GintStored} (h : GintKept g g') (h' : GintKept g' g'') :
    GintKept g g'' where
  reset := h'.reset ∘ h.reset
  enumDone := h'.enumDone ∘ h.enumDone
  suspend := h'.suspend ∘ h.suspend
  resume := h'.resume ∘ h.resume
  disconnect := h'.disconnect ∘ h.disconnect

theorem EpKept.trans {x y z : EpRegs} (h : EpKept x y) (h' : EpKept y z) : EpKept x z where
  ty := h'.ty.trans h.ty
  mps := h'.mps.trans h.mps
  xferDone := h'.xferDone ∘ h.xferDone
  nakEff := h'.nakEff ∘ h.nakEff

theorem EnvKept.trans (h : EnvKept p q) (h' : EnvKept q r) : EnvKept p r where
  writes := h'.writes.trans (by rw [h.writes])
  gint := h.gint.trans h'.gint
  eps n d := (h.eps n d).trans (h'.eps n d)
  rxq := h'.rxq ∘ h.rxq

theorem EnvKept.setupDone (h : EnvKept p q) : q.setupDone = p.setupDone := by rw [h.writes]

theorem EnvKept.sameOwned (h : EnvKept p q) : SameOwned p q where
  gmsk := by rw [h.writes]
  epintMsk := by rw [h.writes]
  srcMsk := by rw [h.writes]; exact ⟨rfl, rfl⟩
  txeMsk := by rw [h.writes]
  turnaround := by rw [h.writes]
  devaddr := by rw [h.writes]
  softdisc := by rw [h.writes]
  rxfDepth := by rw [h.writes]
  txf := by rw [h.writes]
  flushNum := by rw [h.writes]
  txfnum := by rw [h.writes]
  ty n d := (h.eps n d).ty
  mps n d := (h.eps n d).mps

/-! ## The parts moves are made of -/

theorem envKept_setEp (p : Pi) {n : EpNum} {d : Dir} {x : EpRegs} (h : EpKept (p.epAt n d) x) :
    EnvKept p (p.setEp n d x) where
  eps m e := by
    rw [Pi.epAt_setEp]
    split
    · next hme =>
        obtain ⟨rfl, rfl⟩ := hme
        exact h
    · exact {}

theorem envKept_setEpIf (s : State) {n : EpNum} {d : Dir} (allowed : Bool) {x : EpRegs}
    (h : EpKept (s.epAt n d) x) : EnvKept s.pi (setEpIf s n d allowed x).pi := by
  unfold setEpIf
  split
  · exact envKept_setEp s.pi h
  · exact {}

theorem envKept_rxPush {ws : List Word} (h : ws.length ≤ rxFree p) : EnvKept p (rxPush ws p) where
  rxq := rxPush_within h

theorem envKept_signalDone (s : State) (n : EpNum) (d : Dir) (late : Bool) :
    EnvKept s.pi (s.signalDone n d late).pi :=
  envKept_setEp s.pi { xferDone := fun _ => rfl }

theorem EnvKept.setTxq (h : EnvKept p q) (txq : Bank TxFifo) : EnvKept p { q with txq := txq } :=
  h.trans {}

theorem EnvKept.setSetupcnt (h : EnvKept p q) (k : Nat) : EnvKept p { q with setupcnt := k } :=
  h.trans {}

theorem epKept_mapBelow (b : Both (Bank EpRegs)) (m : Nat) {f : EpNum → EpRegs → EpRegs}
    (hf : ∀ n x, EpKept x (f n x)) (n : EpNum) (d : Dir) :
    EpKept (b.get d)[n]
      ((⟨Bank.mapBelow m f b.out, Bank.mapBelow m f b.inn⟩ : Both (Bank EpRegs)).get d)[n] := by
  have hcell (v : Bank EpRegs) : EpKept v[n] (Bank.mapBelow m f v)[n] := by
    rw [Bank.get_mapBelow]
    split
    · exact hf n _
    · exact {}
  cases d with
  | out => exact hcell b.out
  | inn => exact hcell b.inn

/-! ## The moves -/

theorem envUsbReset_kept (ep0Active clearActive clearEna clearDpid emptyTx endSetup : Bool)
    (s : State) :
    EnvKept s.pi (envUsbReset ep0Active clearActive clearEna clearDpid emptyTx endSetup s).pi := by
  unfold envUsbReset
  split
  · exact {}
  · exact
      { gint := { reset := fun _ => rfl }
        eps := epKept_mapBelow s.pi.ep s.cfg.maxEndpoints fun _ _ => {} }

theorem envSetSpeed_kept (v : Speed) (s : State) : EnvKept s.pi (envSetSpeed v s).pi := by
  unfold envSetSpeed
  dsimp only
  split <;> exact {}

theorem envEnumDone_kept (s : State) : EnvKept s.pi (envEnumDone s).pi := by
  unfold envEnumDone
  split
  · exact {}
  · exact {}
  · exact { gint := { enumDone := fun _ => rfl } }
  · exact {}

theorem envSetupPacket_kept (w0 w1 : Word) (s : State) :
    EnvKept s.pi (envSetupPacket w0 w1 s).pi := by
  unfold envSetupPacket
  split
  · exact {}
  · next hguard =>
      have hroom : 3 ≤ rxFree s.pi := by
        simp only [Bool.or_eq_true, decide_eq_true_eq, not_or, Nat.not_lt] at hguard
        exact hguard.1.2
      have hstall (u : State) (d : Dir) :
          EnvKept u.pi (u.setEp 0 d { u.epAt 0 d with stall := false }).pi :=
        envKept_setEp u.pi {}
      have hstalls := (hstall s .out).trans (hstall _ .inn)
      refine (hstalls.trans (envKept_rxPush ?_)).setSetupcnt _
      exact hroom

theorem envSetupOver_kept (s : State) : EnvKept s.pi (envSetupOver s).pi := by
  unfold envSetupOver
  split
  · next hguard =>
      rw [Bool.and_eq_true, decide_eq_true_eq] at hguard
      exact envKept_rxPush hguard.2
  · exact {}

theorem outAllowed_room {n : EpNum} {bc : Nat} (h : outAllowed s n bc = true) :
    1 + wordsFor bc ≤ rxFree s.pi := by
  simp only [outAllowed, Bool.and_eq_true, decide_eq_true_eq] at h
  exact h.2

theorem envOutPacket_kept (n : EpNum) (bytes : List Byte) (dpid : BitVec 2) (fill : List Byte)
    (s : State) : EnvKept s.pi (envOutPacket n bytes dpid fill s).pi := by
  unfold envOutPacket
  dsimp only
  split
  · next hguard =>
      have hroom := outAllowed_room hguard
      have hcount : EnvKept s.pi (s.setEp n .out { s.epAt n .out with
          pktcnt := (s.epAt n .out).pktcnt - 1, xfrsiz := (s.epAt n .out).xfrsiz - bytes.length }).pi :=
        envKept_setEp s.pi {}
      refine hcount.trans (envKept_rxPush ?_)
      rw [List.length_cons, packetWords_length, Nat.add_comm]
      exact hroom
  · exact {}

theorem envOutEnd_kept (n : EpNum) (s : State) : EnvKept s.pi (envOutEnd n s).pi := by
  unfold envOutEnd
  split
  · next hguard =>
      rw [Bool.and_eq_true, decide_eq_true_eq] at hguard
      have hoff : EnvKept s.pi (s.setEp n .out { s.epAt n .out with ena := false, nak := true }).pi :=
        envKept_setEp s.pi {}
      exact hoff.trans (envKept_rxPush hguard.2)
  · exact {}

theorem envSendIn_kept (n : EpNum) (s : State) : EnvKept s.pi (envSendIn n s).pi := by
  have hset {x : EpRegs} (h : EpKept (s.epAt n .inn) x) : EnvKept s.pi (s.setEp n .inn x).pi :=
    envKept_setEp s.pi h
  unfold envSendIn
  split
  · dsimp only
    split
    · refine EnvKept.setTxq ((hset ?_).trans (envKept_signalDone _ n .inn _)) _
      exact {}
    · refine EnvKept.setTxq (hset ?_) _
      exact {}
  · exact {}

theorem envGlobalOutNak_kept (n : EpNum) (s : State) : EnvKept s.pi (envGlobalOutNak n s).pi := by
  unfold envGlobalOutNak
  split
  · next hguard => exact envKept_rxPush hguard.2.2
  · exact {}

theorem envNakEffective_kept (n : EpNum) (d : Dir) (s : State) :
    EnvKept s.pi (envNakEffective n d s).pi := by
  unfold envNakEffective
  dsimp only
  split
  · exact envKept_setEp s.pi { nakEff := fun _ => rfl }
  · exact {}

theorem envFlushDone_kept (also : List EpNum) (s : State) :
    EnvKept s.pi (envFlushDone also s).pi := by
  unfold envFlushDone
  split <;> exact {}

theorem envDisableDone_kept (n : EpNum) (d : Dir) (complete : Bool) (s : State) :
    EnvKept s.pi (envDisableDone n d complete s).pi := by
  have hoff := envKept_setEpIf s (s.epAt n d).disreq
    (show EpKept (s.epAt n d) { s.epAt n d with ena := false, disreq := false } from {})
  unfold envDisableDone
  dsimp only
  split
  · exact hoff.trans (envKept_signalDone _ n d true)
  · exact hoff

theorem envBreak_kept (ws : List Word) (s : State) : EnvKept s.pi (envBreak ws s).pi := by
  unfold envBreak
  split
  · next hguard =>
      rw [Bool.and_eq_true, decide_eq_true_eq] at hguard
      exact envKept_rxPush hguard.2
  · exact {}

theorem envMove_kept (m : EnvMove) (s : State) : EnvKept s.pi (envMove m s).pi := by
  cases m with
  | usbReset ep0Active clearActive clearEna clearDpid emptyTx endSetup =>
      exact envUsbReset_kept ep0Active clearActive clearEna clearDpid emptyTx endSetup s
  | setSpeed v => exact envSetSpeed_kept v s
  | enumDone => exact envEnumDone_kept s
  | suspend => exact { gint := { suspend := fun _ => rfl } }
  | resume => exact { gint := { resume := fun _ => rfl } }
  | sessionEnd => exact { gint := { disconnect := fun _ => rfl } }
  | setupPacket w0 w1 => exact envSetupPacket_kept w0 w1 s
  | setupOver => exact envSetupOver_kept s
  | outPacket n bytes dpid fill => exact envOutPacket_kept n bytes dpid fill s
  | outEnd n => exact envOutEnd_kept n s
  | sendIn n => exact envSendIn_kept n s
  | globalOutNak n => exact envGlobalOutNak_kept n s
  | nakEffective n d => exact envNakEffective_kept n d s
  | flushDone also => exact envFlushDone_kept also s
  | disableDone n d complete => exact envDisableDone_kept n d complete s
  | dataToggle n d v => exact envKept_setEpIf s _ {}
  | clock hz => exact {}
  | breakContract ws => exact envBreak_kept ws s

theorem envMove_sameBlock (m : EnvMove) (s : State) : SameBlock s (envMove m s) := by
  rw [envMove_eq]
  exact ⟨rfl, rfl, rfl, rfl, ⟨rfl, rfl⟩, rfl, rfl, ⟨rfl, rfl⟩, rfl, rfl⟩

theorem envMove_events (m : EnvMove) (s : State) : (envMove m s).events = s.events := by
  rw [envMove_eq]

theorem envMove_cfg (m : EnvMove) (s : State) : (envMove m s).cfg = s.cfg := by
  rw [envMove_eq]

/-- Settles O58: a move writes the peripheral's fields and the environment's memory alone, and each part of
it sets latched bits only and pushes no more than RXQ has room for. -/
theorem environmentKeepsBlock : Obligations.EnvironmentKeepsBlock := by
  unfold Obligations.EnvironmentKeepsBlock
  rintro m s _ rfl
  have hkept := envMove_kept m s
  refine ⟨envMove_sameBlock m s, hkept.sameOwned, envMove_events m s, envMove_mem m s,
    envMove_cfg m s, hkept.rxq, hkept.gint.reset, hkept.gint.enumDone, hkept.gint.suspend,
    hkept.gint.resume, hkept.gint.disconnect,
    fun n d => ⟨(hkept.eps n d).xferDone, (hkept.eps n d).nakEff⟩, fun n hn => ?_⟩
  rw [hkept.setupDone]
  exact hn

end Sys2Proof.Machine
end

section
/-! The faults of OPEN, in their order (41_endpoint_ops.md R171, 40_fifo_allocator.md R146, 60_exceptions.md
R304, R305). -/

namespace Sys2Proof.Machine

open Sys2Proof

variable {s : State} {n : EpNum} {d : Dir} {ty : XferType} {mps : Nat}

/-- An OPEN over the ceiling stops at step 2, with nothing written. -/
theorem exec_open_overCeiling (h : s.ready n) (hmps : ceiling ty s.pi.speed < mps) :
    ∃ x, exec (.openEp n d ty mps) s = .next (({ s with ctx := x } : State).raiseFault .packetSize) := by
  rw [exec_ready (i := .openEp n d ty mps) rfl h]
  exact ⟨_, runCmd_raise (if_pos hmps)⟩

theorem txBindFifo_noRoom
    (hroom : if s.txfValid[n] = true then s.pi.txf[n].depth < wordsFor mps
      else s.cfg.fifoCapacityWords < s.allocWords + wordsFor mps) :
    txBindFifo n mps s = .bad .fifoOverflow s := by
  split at hroom
  · next hvalid => exact txBindFifo_small hvalid hroom
  · next hinvalid => exact txBindFifo_over (Bool.eq_false_of_not_eq_true hinvalid) hroom

/-- An OPEN for IN whose FIFO does not fit stops at step 5, after the writes of steps 3 and 4. -/
theorem exec_open_noRoom (h : s.ready n) (hmps : mps ≤ ceiling ty s.pi.speed)
    (hroom : if s.txfValid[n] = true then s.pi.txf[n].depth < wordsFor mps
      else s.cfg.fifoCapacityWords < s.allocWords + wordsFor mps) :
    ∃ x, exec (.openEp n .inn ty mps) s =
      .next (({ openedEp n .inn ty mps s with ctx := x } : State).raiseFault .fifoOverflow) := by
  have hbind : txBindFifo n mps (openedEp n .inn ty mps s) = .bad .fifoOverflow _ :=
    txBindFifo_noRoom (s := openedEp n .inn ty mps s) hroom
  have hstep : cmdStep (.txBindFifo n mps) {} (openedEp n .inn ty mps s) = .raise .fifoOverflow _ :=
    congrArg (CmdRes.ofAct {}) hbind
  rw [exec_ready rfl h]
  exact ⟨_, (runCmd_openedEp hmps).trans (runCmd_raise hstep)⟩

/-- Settles O32: the three faults are those of steps 1, 2 and 5, and steps 3 and 4 write before the last. -/
theorem openFaults : Obligations.OpenFaults := by
  unfold Obligations.OpenFaults
  intro s n d ty mps ha
  refine ⟨fun hn => exec_absent rfl ha hn, fun hn hmps => ?_, fun hn hmps hd hroom => ?_⟩
  · obtain ⟨x, hx⟩ := exec_open_overCeiling (d := d) ⟨ha, hn⟩ hmps
    exact ⟨_, hx, rfl⟩
  · subst hd
    obtain ⟨x, hx⟩ := exec_open_noRoom ⟨ha, hn⟩ hmps hroom
    exact ⟨_, hx, rfl⟩

end Sys2Proof.Machine
end

section
/-! Which faults each command can raise: every step has its own causes, and a command those of its steps
(60_exceptions.md R302, R303). -/

namespace Sys2Proof.Machine

open Sys2Proof

variable {i : Instr} {op : CmdOp} {l : CmdLocals} {s t : State}

/-- The causes a numbered step of a command can raise. -/
def CmdOp.causes : CmdOp → List FaultCause
  | .checkEp _ => [.invalidEndpoint]
  | .bringUp _ => [.fifoOverflow]
  | .openCeiling _ _ => [.packetSize]
  | .txBindFifo _ _ => [.fifoOverflow]
  | .xferCheck _ _ _ => [.endpointNotOpen, .xferTooLarge]
  | .cfgRead _ _ => [.invalidEndpoint]
  | _ => []

/-- A fault the step raises is one of these. -/
def CmdRes.RaisesIn (cs : List FaultCause) : CmdRes → Prop
  | .raise c _ => c ∈ cs
  | _ => True

theorem bringUpStep_raisesIn (k : BringUpStep) :
    (CmdRes.ofAct l (bringUpStep k s)).RaisesIn [.fifoOverflow] := by
  unfold bringUpStep
  split
  · exact List.mem_singleton_self _
  · trivial

theorem txBindFifo_raisesIn (n : EpNum) (mps : Nat) :
    (CmdRes.ofAct l (txBindFifo n mps s)).RaisesIn [.fifoOverflow] := by
  unfold txBindFifo
  dsimp only
  split <;> split
  · exact List.mem_singleton_self _
  · trivial
  · exact List.mem_singleton_self _
  · trivial

theorem waitFor_raisesIn (b : Bool) (cs : List FaultCause) : (waitFor b l s).RaisesIn cs := by
  unfold waitFor
  repeat' split
  all_goals trivial

theorem cmdStep_raisesIn (op : CmdOp) (l : CmdLocals) (s : State) :
    (cmdStep op l s).RaisesIn op.causes := by
  cases op with
  | checkEp n =>
      simp only [cmdStep]
      split
      · exact List.mem_singleton_self _
      · trivial
  | bringUp k => exact bringUpStep_raisesIn k
  | openCeiling ty mps =>
      simp only [cmdStep]
      split
      · exact List.mem_singleton_self _
      · trivial
  | txBindFifo n mps => exact txBindFifo_raisesIn n mps
  | xferCheck n d length =>
      simp only [cmdStep, xferCheck]
      split
      · simp [CmdRes.RaisesIn, CmdOp.causes]
      · split
        · simp [CmdRes.RaisesIn, CmdOp.causes]
        · trivial
  | xferRecord n d buffer length =>
      simp only [cmdStep, xferRecord]
      split <;> trivial
  | stallIdle n d =>
      simp only [cmdStep]
      split <;> trivial
  | stallWaitNak n d => exact waitFor_raisesIn _ _
  | stallWaitFlush => exact waitFor_raisesIn _ _
  | clearTest n d =>
      simp only [cmdStep]
      split <;> trivial
  | cfgBegin =>
      simp only [cmdStep]
      split <;> trivial
  | cfgRead table count =>
      simp only [cmdStep, cfgRead]
      split
      · trivial
      · exact List.mem_singleton_self _
  | cfgCapacity =>
      simp only [cmdStep, cfgCapacity]
      split <;> trivial
  | _ => trivial

/-- The causes of a command's steps are those R303 lists for it. -/
theorem causes_subset_of_mem {m : Nat} : ∀ op ∈ opsOf m i, op.causes ⊆ causesOf i := by
  cases i with
  | init => simp [opsOf, initOps, bringUpOrder, CmdOp.causes, causesOf]
  | connect => simp [opsOf, connectOps, CmdOp.causes]
  | disconnect => simp [opsOf, disconnectOps, CmdOp.causes]
  | setAddress a => simp [opsOf, setAddressOps, CmdOp.causes]
  | remoteWakeup => simp [opsOf, remoteWakeupOps, CmdOp.causes]
  | irqEnable => simp [opsOf, irqEnableOps, CmdOp.causes]
  | irqDisable => simp [opsOf, irqDisableOps, CmdOp.causes]
  | irqEntry => simp [opsOf, irqEntryOps, CmdOp.causes]
  | openEp n d ty mps => cases d <;> simp [opsOf, openOps, CmdOp.causes, causesOf]
  | closeEp n d => simp [opsOf, closeOps, CmdOp.causes, causesOf]
  | xfer n d buffer length =>
      by_cases hn : n = 0 <;> simp [opsOf, xferOps, armOps, hn, CmdOp.causes, causesOf]
  | stall n d => cases d <;> simp [opsOf, stallOps, CmdOp.causes, causesOf]
  | clearStall n d => simp [opsOf, clearStallOps, CmdOp.causes, causesOf]
  | cfgAlloc table count =>
      have hloop : ∀ op ∈ ((endpoints m).filter (fun n => n != 0)).map CmdOp.commitEp,
          op.causes ⊆ causesOf (.cfgAlloc table count) := by
        intro op hop
        obtain ⟨n, -, rfl⟩ := List.mem_map.mp hop
        exact List.nil_subset _
      simp only [opsOf, cfgAllocOps, List.forall_mem_append]
      exact ⟨⟨by simp [CmdOp.causes, causesOf], hloop⟩, by simp [CmdOp.causes]⟩
  | reservedE high low => simp [opsOf]
  | reservedF high low => simp [opsOf]

/-- Steps that run no dispatcher halt the block only by a fault of their own, and before any response. -/
theorem runCmd_halts {ops : List CmdOp} {cs : List FaultCause} (hcs : ∀ op ∈ ops, op.causes ⊆ cs)
    (hrun : .runDispatcher ∉ ops) (hs : s.halted = false) (ht : runCmd i ops l s = .next t)
    (hh : t.halted = true) : t.faultCause ∈ cs ∧ t.resp = s.resp := by
  induction ops generalizing l s with
  | nil =>
      cases ht
      cases hs.symm.trans hh
  | cons op ops ih =>
      have hframe := cmdStep_frame op l s
      have hcause := cmdStep_raisesIn op l s
      cases hr : cmdStep op l s with
      | go l1 s1 =>
          rw [hr] at hframe
          rw [runCmd_go hr] at ht
          rw [← hframe.resp]
          exact ih (fun o ho => hcs o (List.mem_cons_of_mem op ho))
            (fun hd => hrun (List.mem_cons_of_mem op hd)) (hframe.halted.trans hs) ht
      | hold l1 s1 =>
          rw [hr] at hframe
          rw [runCmd_hold hr] at ht
          cases ht
          cases (hframe.halted.trans hs).symm.trans hh
      | respond r s1 =>
          rw [hr] at hframe
          rw [runCmd_respond hr] at ht
          cases ht
          cases (hframe.halted.trans hs).symm.trans hh
      | raise c s1 =>
          rw [hr] at hframe hcause
          rw [runCmd_raise hr] at ht
          cases ht
          exact ⟨hcs op List.mem_cons_self hcause, hframe.2.resp⟩
      | refuse r =>
          rw [runCmd_refuse hr] at ht
          cases ht
      | enter s1 =>
          obtain rfl := cmdStep_enter_iff.mp ⟨s1, hr⟩
          exact absurd List.mem_cons_self hrun

/-- Settles O49: by the causes of the steps, for IRQ_ENTRY by how its run ends, and for the reserved
opcodes, which have no step, by their fault. -/
theorem faultsByCommand : Obligations.FaultsByCommand := by
  unfold Obligations.FaultsByCommand
  intro i s t ha ht hh
  by_cases hentry : i = .irqEntry
  · subst hentry
    obtain ⟨u, hu, ⟨hrunning, -⟩ | ⟨-, hresp, hcause⟩⟩ := exec_irqEntry_ends ha <;>
      cases ht.symm.trans hu
    · cases hrunning.symm.trans hh
    · exact ⟨hcause, hresp⟩
  · by_cases hnil : opsOf s.cfg.maxEndpoints i = []
    · rw [exec_without_steps hnil, illegalCommand_accepted ha] at ht
      cases ht
      obtain ⟨high, low, rfl⟩ | ⟨high, low, rfl⟩ := opsOf_eq_nil_iff.mp hnil <;>
        exact ⟨List.mem_singleton_self _, rfl⟩
    · rw [exec_with_steps hnil, runCommand_accepted ha] at ht
      exact runCmd_halts causes_subset_of_mem (fun hd => hentry (belongsTo_of_mem_opsOf _ hd))
        ((accepts_iff s).mp ha).2 ht hh

end Sys2Proof.Machine
end

section
/-! A halted block under every turn (60_exceptions.md R301), and the entry to and the return from the
interrupt context (R320 to R325). -/

namespace Sys2Proof.Machine

open Sys2Proof

variable {s t : State} {turn : Turn}

/-! ## The halted block (R301) -/

theorem canEnterRun_halted (h : s.halted = true) : canEnterRun s = false := by simp [canEnterRun, h]

theorem startRun_stays (h : canEnterRun s = false) : startRun s = s := by simp [startRun, h]

theorem runInterrupt_stays (h : canEnterRun s = false) : runInterrupt s = s := by
  simp [runInterrupt, h]

theorem accepts_halted (h : s.halted = true) : s.accepts = false := by
  rw [← Bool.not_eq_true, accepts_iff]
  simp [h]

/-- What a turn other than a power cycle leaves alone in a halted block. -/
structure HaltedKept (turn : Turn) (s t : State) : Prop where
  block : SameBlock s t := by
    exact ⟨rfl, rfl, rfl, rfl, ⟨rfl, rfl⟩, rfl, rfl, ⟨rfl, rfl⟩, rfl, rfl⟩
  owned : SameOwned s.pi t.pi := by
    exact ⟨rfl, rfl, ⟨rfl, rfl⟩, rfl, rfl, rfl, rfl, rfl, rfl, rfl, rfl, fun _ _ => rfl,
      fun _ _ => rfl⟩
  events : t.events = s.events ∨ t.events = s.events.tail := by exact .inl rfl
  port : t.port = s.port ∨ ∃ w, t.port = s.port ++ [w] := by exact .inl rfl
  mem : (∀ a v, turn ≠ .store a v) → t.mem = s.mem := by exact fun _ => rfl

theorem envMove_port (m : EnvMove) (s : State) : (envMove m s).port = s.port := by
  rw [envMove_eq]

/-- The block's own turns pass, and the other agents write what is theirs. -/
theorem takeTurn_halted (h : s.halted = true) (hturn : ∀ p, turn ≠ .powerOn p)
    (ht : takeTurn turn s = .next t) : HaltedKept turn s t := by
  have hrun := canEnterRun_halted h
  cases turn with
  | block =>
      have hpass : blockMove s = .next s := if_pos h
      cases hpass.symm.trans ht
      exact {}
  | command =>
      have howed : runOwed s = false := by rw [runOwed, hrun, Bool.and_false]
      rw [takeTurn_command howed, takeCommand_busy (accepts_halted h)] at ht
      cases ht
      exact {}
  | irq =>
      cases ht
      rw [startRun_stays hrun]
      exact {}
  | irqRun =>
      cases ht
      rw [runInterrupt_stays hrun]
      exact {}
  | env m =>
      cases ht
      exact {
        block := envMove_sameBlock m s
        owned := (envMove_kept m s).sameOwned
        events := .inl (envMove_events m s)
        port := .inl (envMove_port m s)
        mem := fun _ => envMove_mem m s }
  | present w =>
      cases ht
      exact { port := .inr ⟨w, rfl⟩ }
  | store a v =>
      cases ht
      exact { mem := fun hne => absurd rfl (hne a v) }
  | consume =>
      cases ht
      exact { events := .inr rfl }
  | powerOn p => exact absurd rfl (hturn p)

/-- Settles O52: left to itself the block stops, and every turn but a power cycle keeps it as it is. -/
theorem haltedForGood : Obligations.HaltedForGood := by
  unfold Obligations.HaltedForGood
  intro s h
  refine ⟨fun hnone => (nextMove_alone hnone).trans (if_pos h), fun t ht hpower => ?_⟩
  cases hturns : s.turns with
  | nil => cases ((nextMove_alone hturns).trans (if_pos h)).symm.trans ht
  | cons turn ts =>
      have hstep : takeTurn turn { s with turns := ts } = .next t := (nextMove_cons hturns).symm.trans ht
      obtain ⟨hblock, howned, hevents, hport, hmem⟩ :=
        takeTurn_halted (s := { s with turns := ts }) h
          (fun p hp => hpower p ts (by rw [hturns, hp])) hstep
      exact ⟨{ hblock with }, howned, hevents, hport, fun hstore =>
        hmem fun a v hv => hstore a v ts (by rw [← hv])⟩

/-! ## When a run may start (R320, R322, R325) -/

theorem interruptible_iff :
    interruptible s = true ↔
      s.ctx = .idle ∨ ∃ p, s.ctx = .cmd p ∧ s.cfg.cmdPreemptible = true ∧ p.cmd ≠ .irqEntry := by
  unfold interruptible
  cases s.ctx <;> simp

theorem canEnterRun_iff :
    canEnterRun s = true ↔
      s.halted = false ∧ s.irqEn = true ∧ s.irqLine = true ∧
        (s.ctx = .idle ∨ ∃ p, s.ctx = .cmd p ∧ s.cfg.cmdPreemptible = true ∧ p.cmd ≠ .irqEntry) := by
  simp only [canEnterRun, Bool.and_eq_true, Bool.not_eq_true', interruptible_iff, and_assoc]

/-- Inside a run none may start (R325). -/
theorem canEnterRun_inside {p : IrqPos} {ret : Option CmdPos} (h : s.ctx = .irq p ret) :
    canEnterRun s = false := by
  simp [canEnterRun, interruptible, h]

/-! ## Entry and return (R321, R324) -/

/-- A run saves the control state it finds. -/
theorem retOf_of_canEnterRun (h : canEnterRun s = true) :
    retOf s.ctx = none ∧ s.ctx = .idle ∨ ∃ p, retOf s.ctx = some p ∧ s.ctx = .cmd p := by
  obtain ⟨-, -, -, hidle | ⟨p, hcmd, -⟩⟩ := canEnterRun_iff.mp h
  · exact .inl ⟨by rw [hidle, retOf], hidle⟩
  · exact .inr ⟨p, by rw [hcmd, retOf], hcmd⟩

theorem step_irq {ts : List Turn} (ht : s.turns = .irq :: ts) :
    step s = .next (startRun { s with turns := ts }) :=
  nextMove_cons ht

/-- The last step of a run restores the control state and writes nothing else. -/
theorem blockMove_return {l : IrqLocals} {ret : Option CmdPos} (h : s.halted = false)
    (hctx : s.ctx = .irq (.steps [] l) ret) : blockMove s = .next { s with ctx := retCtx ret } := by
  simp [blockMove, h, hctx, irqMicro, State.leaveRun]

/-- Settles O59: the entry condition spelled out, the turn that enters, the return, and no run in a run. -/
theorem entryAndReturn : Obligations.EntryAndReturn := by
  unfold Obligations.EntryAndReturn
  intro s
  refine ⟨canEnterRun_iff, fun ts ht => ?_, fun ret l hh hctx => ?_, fun p ret hctx => ?_⟩
  · rw [step_irq ht]
    refine ⟨fun henter => ⟨retOf s.ctx, retOf_of_canEnterRun henter, ?_⟩, fun hstays => ?_⟩
    · exact congrArg _ (if_pos henter)
    · exact congrArg _ (startRun_stays (s := { s with turns := ts }) hstays)
  · rw [blockMove_return hh hctx]
    cases ret <;> rfl
  · have hno := canEnterRun_inside hctx
    exact ⟨startRun_stays hno, runInterrupt_stays hno⟩

/-! ## A run taken whole (R321, R322, R324) -/

/-- A run that may start returns, leaving what no step of a run writes, or halts the block. -/
theorem runInterrupt_returns (h : canEnterRun s = true) :
    RunFrame (runStart s) (runInterrupt s) ∨ (runInterrupt s).halted = true := by
  have hends : (dispatchRun { s with irqDue := false }).Ends := runOps_ends _ _ _
  have hframe := dispatchRun_frame { s with irqDue := false }
  rw [runInterrupt, if_pos h]
  split
  · next t hd =>
      rw [hd] at hframe
      exact .inl hframe
  · next todo l t hd =>
      rw [hd] at hends
      exact hends.elim
  · exact .inr rfl

/-- Settles O60: no step of a run writes CTX, RESP or IRQ_EN, and one that does not halt returns. -/
theorem preemptionReturns : Obligations.PreemptionReturns := by
  unfold Obligations.PreemptionReturns
  intro s henter hh
  obtain hframe | hhalt := runInterrupt_returns henter
  · exact ⟨hframe.ctx, hframe.resp, hframe.irqEn⟩
  · cases hh.symm.trans hhalt

end Sys2Proof.Machine
end

section
/-! The words of the events and the fields of a receive status word, as arithmetic (30_encoding.md R116,
R117). -/

namespace Sys2Proof.Machine

open Sys2Proof

/-- Bits put above `w` others weigh `2 ^ w` times as much. -/
theorem toNat_append_add {v w : Nat} (x : BitVec v) (y : BitVec w) :
    (x ++ y).toNat = x.toNat * 2 ^ w + y.toNat := by
  rw [BitVec.toNat_append, ← Nat.shiftLeft_add_eq_or_of_lt y.isLt, Nat.shiftLeft_eq]

/-- `E0` of a transfer-complete event: its kind, the direction, the endpoint number and the count. -/
theorem eventWords_xferComplete (n : EpNum) (d : Dir) {count : Nat} (h : count < 2 ^ 16) :
    eventWords (.xferComplete n d count) =
      (BitVec.ofNat 32 (0xC0000000 + d.code.toNat * 2 ^ 27 + n.val * 2 ^ 23 + count), 0, 0) := by
  have hn : n.val < 2 ^ 4 := n.isLt
  have hd : d.code.toNat < 2 ^ 1 := d.code.isLt
  simp only [eventWords, Prod.mk.injEq, and_true]
  apply BitVec.eq_of_toNat_eq
  simp only [toNat_append_add, BitVec.toNat_ofFin, BitVec.toNat_ofNat, BitVec.reduceToNat]
  omega

theorem statusEp_val (w : Word) : (statusEp w).val = w.toNat % 2 ^ 4 := by
  simp [statusEp]

theorem statusCount_eq (w : Word) : statusCount w = w.toNat / 2 ^ 4 % 2 ^ 11 := by
  rw [statusCount, BitVec.extractLsb'_toNat, Nat.shiftRight_eq_div_pow]

theorem statusCode_toNat (w : Word) : (statusCode w).toNat = w.toNat / 2 ^ 17 % 2 ^ 4 := by
  rw [statusCode, BitVec.extractLsb'_toNat, Nat.shiftRight_eq_div_pow]

/-- Settles O5: three kinds of event have a handful of words, and the rest is the weight of each field. -/
theorem eventAndStatusWords : Obligations.EventAndStatusWords := by
  unfold Obligations.EventAndStatusWords
  refine ⟨fun sp => ?_, fun k => ?_, fun w0 w1 => rfl, fun n d count h => ?_,
    fun w => ⟨statusEp_val w, statusCount_eq w, statusCode_toNat w⟩⟩
  · cases sp <;> rfl
  · cases k <;> rfl
  · rw [eventWords_xferComplete n d h]
    cases d <;> rfl

end Sys2Proof.Machine
end

section
/-! The state after INIT and after the bus-reset handler: both clear the records, bring up the layout and
write fields of every endpoint that exists (70_reset_and_hazards.md R342, R343). -/

namespace Sys2Proof.Machine

open Sys2Proof

variable {s : State} {n : EpNum}

/-! ## The cells of every endpoint -/

/-- `for every n`, in both directions. -/
def Both.mapBelow {α : Type} (k : Nat) (f : EpNum → α → α) (b : Both (Bank α)) : Both (Bank α) :=
  ⟨Bank.mapBelow k f b.out, Bank.mapBelow k f b.inn⟩

theorem Both.get_mapBelow {α : Type} (k : Nat) (f : EpNum → α → α) (b : Both (Bank α)) (n : EpNum)
    (d : Dir) :
    ((Both.mapBelow k f b).get d)[n] = if n.val < k then f n (b.get d)[n] else (b.get d)[n] := by
  cases d <;> exact Bank.get_mapBelow k f _ n

/-- Bits that mark endpoint 0 alone. -/
theorem get_onlyEp0 {k : Nat} {b : Bank Bool} (hn : n.val < k) :
    (Bank.mapBelow k (fun n _ => n == 0) b)[n] = decide (n = 0) := by
  rw [Bank.get_mapBelow, if_pos hn]
  rfl

theorem get_allFalse {k : Nat} {b : Bank Bool} (hn : n.val < k) :
    (Bank.mapBelow k (fun _ _ => false) b)[n] = false := by
  rw [Bank.get_mapBelow, if_pos hn]

theorem recAt_clearRecords (hn : n.val < s.cfg.maxEndpoints) (d : Dir) :
    (clearRecords s).recAt n d = Record.zero := by
  rw [State.recAt, clearRecords_xfer, ← Both.mapBelow, Both.get_mapBelow, if_pos hn]

theorem recAt_setEp0MaxSize (m : Nat) (s : State) (n : EpNum) (d : Dir) :
    (setEp0MaxSize m s).recAt n d =
      if n = 0 then { s.recAt 0 d with maxSize := m } else s.recAt n d := by
  by_cases hn : n = 0 <;> cases d <;> simp [setEp0MaxSize, recAt_setRec, hn]

/-- The fields of every endpoint that exists written alike. -/
theorem Pi.epAt_mapBelow {p : Pi} {b : Both (Bank EpRegs)} {k : Nat} {f : EpRegs → EpRegs}
    (hp : p.ep = b.mapBelow k fun _ => f)
    (hn : n.val < k) (d : Dir) : p.epAt n d = f (b.get d)[n] := by
  rw [Pi.epAt, hp, Both.get_mapBelow, if_pos hn]

/-- What `BringUp` writes, whole (40_fifo_allocator.md R141). -/
theorem bringUpDone_eq (s : State) :
    bringUpDone s =
      { s with
        pi := { s.pi with
          rxfDepth := s.cfg.rxBringupWords
          txf := s.pi.txf.set (0 : EpNum) ⟨s.cfg.rxBringupWords, s.cfg.ep0TxWords⟩ }
        allocWords := bringUpWords s.cfg
        txfValid := Bank.mapBelow s.cfg.maxEndpoints (fun n _ => n == 0) s.txfValid } := rfl

/-! ## INIT (R342) -/

/-- The state INIT responds in, when the bring-up layout fits. -/
def initDone (s : State) : State := initUnmask (initAck (bringUpDone (beforeBringUp s)))

theorem initDone_block (s : State) :
    SameBlock
      { s with
        xfer := (clearRecords s).xfer
        ep0Pending := ⟨0, 0⟩
        allocWords := bringUpWords s.cfg
        txfValid := Bank.mapBelow s.cfg.maxEndpoints (fun n _ => n == 0) (initBlock s).txfValid
        setupBuf0 := 0, setupBuf1 := 0
        busState := .disconnected }
      (initDone s) := by
  constructor <;> simp [initDone, bringUpDone_eq, beforeBringUp]

theorem initDone_pi (s : State) :
    (initDone s).pi =
      { s.pi with
        gmsk := ⟨true, true, true, true, true, true, false, false⟩
        gint := ⟨false, false, false, false, false⟩
        epintMsk := Both.mapBelow s.cfg.maxEndpoints (fun _ _ => false) s.pi.epintMsk
        txeMsk := Bank.mapBelow s.cfg.maxEndpoints (fun _ _ => false) s.pi.txeMsk
        oepSrcMsk := ⟨false, false⟩
        iepSrcMsk := false
        softdisc := true
        ep := Both.mapBelow s.cfg.maxEndpoints (fun _ r => { r with stall := false, nak := true }) s.pi.ep
        devaddr := 0
        rxfDepth := s.cfg.rxBringupWords
        txf := s.pi.txf.set (0 : EpNum) ⟨s.cfg.rxBringupWords, s.cfg.ep0TxWords⟩ } := by
  simp [initDone, bringUpDone_eq, beforeBringUp, Both.mapBelow]

theorem cmdStep_bringUp (k : BringUpStep) {l : CmdLocals}
    (h : k = .check → bringUpWords s.cfg ≤ s.cfg.fifoCapacityWords) :
    cmdStep (.bringUp k) l s = .go l (bringUpWrite k s) := by
  simp only [cmdStep, bringUpStep_ok h, CmdRes.ofAct]

theorem exec_init_done (ha : s.accepts = true) (hroom : bringUpWords s.cfg ≤ s.cfg.fifoCapacityWords) :
    exec .init s = .next { initDone s with resp := .ok } := by
  have hcheck : bringUpWords (beforeBringUp s).cfg ≤ (beforeBringUp s).cfg.fifoCapacityWords := by
    simpa [beforeBringUp] using hroom
  have hidle : (initDone s).ctx = .idle := (initDone_block s).ctx.trans ((accepts_iff s).mp ha).1
  rw [exec_accepted (i := .init) rfl ha]
  exact (runCmd_go rfl).trans <| (runCmd_go rfl).trans <| (runCmd_go rfl).trans <|
    (runCmd_go rfl).trans <| (runCmd_go rfl).trans <| (runCmd_go rfl).trans <|
    (runCmd_go (cmdStep_bringUp .check fun _ => hcheck)).trans <|
    (runCmd_go (cmdStep_bringUp .rxDepth nofun)).trans <|
    (runCmd_go (cmdStep_bringUp .ep0Fifo nofun)).trans <|
    (runCmd_go (cmdStep_bringUp .count nofun)).trans <|
    (runCmd_go (cmdStep_bringUp .valid nofun)).trans <|
    (runCmd_go rfl).trans <| (runCmd_go rfl).trans <| runCmd_responds rfl hidle

theorem globalWord_afterInit :
    globalWord ⟨true, true, true, true, true, true, false, false⟩ = 0x80003814 := by decide

/-- Settles O9: the block's own rows, those of the peripheral, and what no command writes. -/
theorem initState : Obligations.InitState := by
  unfold Obligations.InitState
  intro s ha hcauses hroom
  have ht := exec_init_done ha hroom
  obtain ⟨hidle, hrunning⟩ := (accepts_iff s).mp ha
  have hnone : s.faultCause = .noFault := by
    by_contra hc
    cases hrunning.symm.trans (hcauses.mpr hc)
  obtain ⟨hxfer, hpending, halloc, hvalid, ⟨hbuf0, hbuf1⟩, hbus, hen, ⟨hhalt, hcause⟩, hctx, -⟩ :=
    initDone_block s
  obtain ⟨hmem, -, -, hevents⟩ := exec_sameQueues (i := .init) nofun ht
  have hpi := initDone_pi s
  have hrec {n : EpNum} (hn : n.val < s.cfg.maxEndpoints) (d : Dir) :
      ((initDone s).xfer.get d)[n] = Record.zero := by
    rw [hxfer]
    exact recAt_clearRecords hn d
  generalize initDone s = t at *
  refine ⟨_, ht, fun n d hn => hrec hn d, hpending, halloc,
    fun n hn => (congrArg (·[n]) hvalid).trans (get_onlyEp0 hn), hbuf0, hbuf1, hbus, hen, hevents,
    hhalt.trans hrunning, hcause.trans hnone, hctx.trans hidle, rfl, ?_⟩
  dsimp only [State.epAt]
  rw [hpi]
  exact ⟨globalWord_afterInit, rfl, rfl,
    fun n hn => ⟨get_allFalse hn, get_allFalse hn, get_allFalse hn⟩, rfl, rfl,
    fun n d hn => Pi.epAt_mapBelow (f := fun r => { r with stall := false, nak := true }) rfl hn d,
    rfl, rfl, Bank.get_set_same _ _ _,
    fun n hn => Bank.get_set_other _ _ _ _ hn, rfl, rfl, rfl, rfl, rfl, rfl, rfl, rfl, rfl, rfl,
    fun a => by rw [← hmem]⟩

/-! ## The bus reset (R343) -/

/-- The state in which the handler starts `BringUp`, its acknowledgement included (44_dispatcher.md R222,
R224 steps 1 to 5). -/
def beforeResetBringUp (s : State) : State :=
  (clearTxe (nakAll (setEp0MaxSize 64 (clearRecords (s.ackGlobal .reset))))).setDevaddr 0

/-- The state the handler leaves, when the bring-up layout fits (R224). -/
def busResetDone (s : State) : State :=
  (unmaskEndpoints (unmaskSources (resetEpMasks (rearmSetup
    (bringUpDone (beforeResetBringUp s)))))).setBusState .resetInProgress

theorem busResetDone_block (s : State) :
    SameBlock
      { s with
        xfer := (setEp0MaxSize 64 (clearRecords (s.ackGlobal .reset))).xfer
        ep0Pending := ⟨0, 0⟩
        allocWords := bringUpWords s.cfg
        txfValid := Bank.mapBelow s.cfg.maxEndpoints (fun n _ => n == 0) s.txfValid
        busState := .resetInProgress }
      (busResetDone s) := by
  constructor <;> simp [busResetDone, bringUpDone_eq, beforeResetBringUp]

theorem busResetDone_pi (s : State) :
    (busResetDone s).pi =
      { s.pi with
        gint := { s.pi.gint with reset := false }
        gmsk := { s.pi.gmsk with oep := true, iep := true }
        oepSrcMsk := ⟨true, true⟩
        iepSrcMsk := true
        epintMsk := Both.mapBelow s.cfg.maxEndpoints (fun n _ => n == 0) s.pi.epintMsk
        txeMsk := Bank.mapBelow s.cfg.maxEndpoints (fun _ _ => false) s.pi.txeMsk
        devaddr := 0
        ep := Both.mapBelow s.cfg.maxEndpoints (fun _ r => { r with nak := true }) s.pi.ep
        setupcnt := 3
        rxfDepth := s.cfg.rxBringupWords
        txf := s.pi.txf.set (0 : EpNum) ⟨s.cfg.rxBringupWords, s.cfg.ep0TxWords⟩ } := by
  simp [busResetDone, bringUpDone_eq, beforeResetBringUp, GintStored.ack, Both.mapBelow]

theorem leads_busReset (hroom : bringUpWords s.cfg ≤ s.cfg.fifoCapacityWords) (m : Nat) :
    Leads (dispatchOps { GlobalBits.none with reset := true } m) s (busResetDone s) := by
  have hcheck : bringUpWords (beforeResetBringUp s).cfg ≤
      (beforeResetBringUp s).cfg.fifoCapacityWords := by
    simpa [beforeResetBringUp] using hroom
  refine fun rest l => ⟨l, ?_⟩
  exact (runOps_go rfl).trans <| (runOps_go rfl).trans <| (runOps_go rfl).trans <|
    (runOps_go rfl).trans <| (runOps_go rfl).trans <| (runOps_go rfl).trans <|
    (runOps_go (irqStep_bringUp .check l fun _ => hcheck)).trans <|
    (runOps_go (irqStep_bringUp .rxDepth l nofun)).trans <|
    (runOps_go (irqStep_bringUp .ep0Fifo l nofun)).trans <|
    (runOps_go (irqStep_bringUp .count l nofun)).trans <|
    (runOps_go (irqStep_bringUp .valid l nofun)).trans <|
    (runOps_go rfl).trans <| (runOps_go rfl).trans <| (runOps_go rfl).trans <|
    (runOps_go rfl).trans <| runOps_go rfl

/-- The handler emits no event and stores no byte. -/
theorem busResetDone_keeps (s : State) :
    (busResetDone s).events = s.events ∧ (busResetDone s).mem = s.mem := by
  simp [busResetDone, bringUpDone_eq, beforeResetBringUp]

/-- The records are cleared, but for the packet size of endpoint 0. -/
theorem xfer_busResetDone (hn : n.val < s.cfg.maxEndpoints) (d : Dir) :
    ((busResetDone s).xfer.get d)[n] = if n = 0 then ⟨0, 0, 64⟩ else ⟨0, 0, 0⟩ := by
  have hxfer : (busResetDone s).xfer = (setEp0MaxSize 64 (clearRecords (s.ackGlobal .reset))).xfer :=
    (busResetDone_block s).xfer
  have hzero : (clearRecords (s.ackGlobal .reset)).recAt n d = Record.zero := recAt_clearRecords hn d
  rw [hxfer, ← State.recAt, recAt_setEp0MaxSize]
  split
  · next hm =>
      subst hm
      rw [hzero, Record.zero]
  · rw [hzero, Record.zero]

/-- Settles O16: the run is the handler, whose rows are the block's own, its records and the peripheral's. -/
theorem busResetState : Obligations.BusResetState := by
  unfold Obligations.BusResetState
  intro s ha hpend hroom hm
  have ht := exec_irqEntry_leads ha hpend (leads_busReset (s := runStart s) hroom _)
  obtain ⟨-, hpending, halloc, hvalid, ⟨hbuf0, hbuf1⟩, hbus, hen, -, -, -⟩ :=
    busResetDone_block (runStart s)
  obtain ⟨hevents, hmem⟩ := busResetDone_keeps (runStart s)
  have hpi := busResetDone_pi (runStart s)
  have hrec {n : EpNum} (hn : n.val < s.cfg.maxEndpoints) (d : Dir) :
      ((busResetDone (runStart s)).xfer.get d)[n] = _ := xfer_busResetDone (s := runStart s) hn d
  generalize busResetDone (runStart s) = t at *
  refine ⟨_, ht, ?_⟩
  dsimp only [State.recAt, State.epAt]
  rw [hpi]
  exact ⟨rfl, fun d => (hrec (n := 0) hm d).trans (if_pos rfl),
    fun n d hn0 hn => (hrec hn d).trans (if_neg hn0), hpending, halloc,
    fun n hn => (congrArg (·[n]) hvalid).trans (get_onlyEp0 hn), rfl, Bank.get_set_same _ _ _,
    fun n hn => Bank.get_set_other _ _ _ _ hn, hbuf0, hbuf1, hen, hevents, hbus,
    fun n d hn => Pi.epAt_mapBelow (f := fun r => { r with nak := true }) rfl hn d,
    fun n hn => get_allFalse hn, rfl, rfl,
    fun n hn => ⟨get_onlyEp0 hn, get_onlyEp0 hn⟩, rfl, rfl, rfl, rfl, rfl, rfl, rfl, rfl, rfl, rfl, rfl,
    rfl, rfl, fun a => by rw [hmem]; rfl⟩

end Sys2Proof.Machine
end

section
/-! The receive drain over entries that store nothing: GLOBAL_OUT_NAK, OUT_DONE and the setup stage
(44_dispatcher.md R231, R232, R235 to R237). -/

namespace Sys2Proof.Machine

open Sys2Proof

variable {s t u : State} {sw w0 w1 : Word} {ws : List Word}

/-! ## Single entries -/

theorem drainEntry_globalOutNak (hq : s.pi.rxq = sw :: ws)
    (hclass : rxClass (statusCode sw) = .globalOutNak) :
    drainEntry s = .ok (rxGlobalOutNak (s.withRxq ws)) := by
  simp only [drainEntry, rxPop_cons hq, hclass]
  rfl

theorem drainEntry_outDone (hq : s.pi.rxq = sw :: ws)
    (hclass : rxClass (statusCode sw) = .outDone) :
    drainEntry s = .ok (rxOutDone (statusEp sw) (s.withRxq ws)) := by
  simp only [drainEntry, rxPop_cons hq, hclass]
  rfl

theorem drainEntry_setupDone (hq : s.pi.rxq = sw :: ws)
    (hclass : rxClass (statusCode sw) = .setupDone) :
    drainEntry s = .ok (rxSetupDone (s.withRxq ws)) := by
  simp only [drainEntry, rxPop_cons hq, hclass]
  rfl

/-- The two words of a SETUP packet, kept in SETUP_BUF. -/
def State.withSetup (s : State) (w0 w1 : Word) : State := { s with setupBuf0 := w0, setupBuf1 := w1 }

theorem drainEntry_setupData (hq : s.pi.rxq = sw :: w0 :: w1 :: ws)
    (hclass : rxClass (statusCode sw) = .setupData) :
    drainEntry s = .ok ((s.withRxq ws).withSetup w0 w1) := by
  have hdata : rxSetupData (s.withRxq (w0 :: w1 :: ws)) = .ok ((s.withRxq ws).withSetup w0 w1) := by
    simp only [rxSetupData, State.rxPop, State.withRxq]
    rfl
  simp only [drainEntry, rxPop_cons hq, hclass]
  exact hdata

theorem rxOutDone_exists {n : EpNum} (hn : n.val < s.cfg.maxEndpoints) :
    rxOutDone n s =
      { s.setEp n .out { s.epAt n .out with xferDone := true } with env := (rxOutDone n s).env } := by
  rw [rxOutDone, if_neg (Nat.not_le.mpr hn)]
  rfl

theorem rxOutDone_setRxneMask (n : EpNum) (v : Bool) (s : State) :
    rxOutDone n (setRxneMask v s) = setRxneMask v (rxOutDone n s) := by
  unfold rxOutDone
  by_cases hn : s.cfg.maxEndpoints ≤ n.val
  · rw [if_pos hn]
    exact if_pos hn
  · rw [if_neg hn]
    exact if_neg hn

/-- Settles O21: the entry is popped, and what the environment answers is its own but for XFERDONE. -/
theorem drainNakAndDone : Obligations.DrainNakAndDone := by
  unfold Obligations.DrainNakAndDone
  intro s sw ha hpend hq
  have hne : s.pi.rxq ≠ [] := by simp [hq]
  refine ⟨fun hclass => ?_, fun hclass hn => ?_⟩
  · have hentry := drainEntry_globalOutNak (s := setRxneMask false (runStart s)) hq hclass
    exact ⟨_, exec_drainOne (t := rxGlobalOutNak ((runStart s).withRxq [])) ha hpend hne hentry rfl rfl,
      .of_books rfl⟩
  · have hentry := drainEntry_outDone (s := setRxneMask false (runStart s)) hq hclass
    have hmask := rxOutDone_setRxneMask (statusEp sw) false ((runStart s).withRxq [])
    have hdone := rxOutDone_exists (n := statusEp sw) (s := (runStart s).withRxq []) hn
    refine ⟨_, exec_drainOne ha hpend hne (hentry.trans (congrArg _ hmask)) ?_ ?_, ?_⟩
    · rw [hdone]
      rfl
    · rw [hdone]
      rfl
    · rw [hdone]
      exact .of_books rfl

/-! ## Several entries -/

/-- The drain loop takes `s` to `t`, entry by entry, and the queue is empty at the end. -/
inductive Drains : State → State → Prop
  | done {s : State} (hempty : s.pi.rxq = []) : Drains s s
  | entry {s t u : State} (hne : s.pi.rxq ≠ []) (hentry : drainEntry s = .ok u) (h : Drains u t) :
      Drains s t

/-- Every entry shortens the queue, so that the tries the loop has are enough. -/
theorem Drains.repeatStep (h : Drains s t) {k : Nat} (hk : s.pi.rxq.length < k) (l : IrqLocals) :
    repeatStep k .drainLoop l s = .go l t := by
  induction h generalizing k with
  | done hempty =>
      obtain ⟨j, rfl⟩ := Nat.exists_eq_succ_of_ne_zero (Nat.ne_zero_of_lt hk)
      exact repeatStep_go (by simp [irqStep, hempty])
  | @entry s t u hne hentry h ih =>
      obtain ⟨j, rfl⟩ := Nat.exists_eq_succ_of_ne_zero (Nat.ne_zero_of_lt hk)
      obtain ⟨w, ws, hq⟩ := List.exists_cons_of_ne_nil hne
      have hshort := drainEntry_ends hq
      rw [hentry] at hshort
      have hlen : u.pi.rxq.length ≤ ws.length := hshort
      rw [hq, List.length_cons] at hk
      rw [repeatStep_again (drainLoop_again hne hentry l)]
      exact ih (by omega)

/-- The three steps of the drain (R231). -/
theorem Drains.leads (h : Drains (setRxneMask false s) t) :
    Leads [.drainMask, .drainLoop, .drainUnmask] s (setRxneMask true t) := by
  intro rest l
  have hmask : irqStep .drainMask l s = .go l (setRxneMask false s) := rfl
  have hloop : runOps (.drainLoop :: .drainUnmask :: rest) l (setRxneMask false s) =
      runOps (.drainUnmask :: rest) l t := by
    have hbound : repeatBound .drainLoop (setRxneMask false s) = s.pi.rxq.length + 1 := rfl
    rw [runOps, hbound, h.repeatStep (Nat.lt_succ_self s.pi.rxq.length) l]
  exact ⟨l, (runOps_go hmask).trans (hloop.trans (runOps_go rfl))⟩

/-- A source that is pending is unmasked, so that a drain masks it and leaves it as it was (R231). -/
theorem setRxneMask_restores (hpend : s.pending = { GlobalBits.none with rxne := true })
    (hmask : t.pi.gmsk = s.pi.gmsk) : setRxneMask true (setRxneMask false t) = t := by
  have hrx : s.pending.rxne = true := by rw [hpend]
  have hbit : t.pi.gmsk.rxne = true := by
    rw [hmask]
    exact (Bool.and_eq_true_iff.mp hrx).2
  change ({ t with pi := { t.pi with gmsk := { t.pi.gmsk with rxne := true } } } : State) = t
  rw [← hbit]

/-- IRQ_ENTRY over a queue of entries, with nothing else pending. -/
theorem exec_drains (ha : s.accepts = true)
    (hpend : s.pending = { GlobalBits.none with rxne := true })
    (h : Drains (setRxneMask false (runStart s)) (setRxneMask false t))
    (hmask : t.pi.gmsk = s.pi.gmsk) : exec .irqEntry s = .next { t with resp := .ok } := by
  have hleads := h.leads (s := runStart s)
  rw [setRxneMask_restores hpend hmask] at hleads
  exact exec_irqEntry_leads ha hpend hleads

/-! ## The setup stage (R236, R237) -/

@[simp] theorem withRxq_withRxq (s : State) (ws ws' : List Word) :
    (s.withRxq ws).withRxq ws' = s.withRxq ws' := rfl

@[simp] theorem withRxq_withSetup (s : State) (w0 w1 : Word) (ws : List Word) :
    (s.withSetup w0 w1).withRxq ws = (s.withRxq ws).withSetup w0 w1 := rfl

@[simp] theorem withSetup_withSetup (s : State) (v0 v1 w0 w1 : Word) :
    (s.withSetup v0 v1).withSetup w0 w1 = s.withSetup w0 w1 := rfl

/-- Each SETUP packet overwrites the one before it, and SETUP_DONE ends the stage. -/
theorem drains_setup {before : List (Word × Word × Word)} {done : Word}
    (hdata : ∀ e ∈ before ++ [(sw, w0, w1)], rxClass (statusCode e.1) = .setupData)
    (hdone : rxClass (statusCode done) = .setupDone)
    (hq : s.pi.rxq = setupEntries (before ++ [(sw, w0, w1)]) ++ [done]) :
    Drains s (rxSetupDone ((s.withRxq []).withSetup w0 w1)) := by
  have hne : s.pi.rxq ≠ [] := by simp [hq]
  induction before generalizing s with
  | nil =>
      have hsw := hdata (sw, w0, w1) List.mem_cons_self
      have hpacket := drainEntry_setupData (ws := [done]) hq hsw
      have hend := drainEntry_setupDone (s := (s.withRxq [done]).withSetup w0 w1) (ws := []) rfl hdone
      rw [withRxq_withSetup, withRxq_withRxq] at hend
      have hempty : (rxSetupDone ((s.withRxq []).withSetup w0 w1)).pi.rxq = [] := rfl
      have hlast : ((s.withRxq [done]).withSetup w0 w1).pi.rxq ≠ [] := List.cons_ne_nil done []
      exact .entry hne hpacket (.entry hlast hend (.done hempty))
  | cons e before ih =>
      obtain ⟨sw', v0, v1⟩ := e
      generalize hws : setupEntries (before ++ [(sw, w0, w1)]) ++ [done] = ws at ih
      have hq : s.pi.rxq = sw' :: v0 :: v1 :: ws := by rw [hq, ← hws]; rfl
      have hsw' := hdata (sw', v0, v1) List.mem_cons_self
      have hpacket := drainEntry_setupData hq hsw'
      have hrest := ih (s := (s.withRxq ws).withSetup v0 v1)
        (fun e he => hdata e (List.mem_cons_of_mem _ he)) rfl
        (by simp [State.withSetup, State.withRxq, ← hws])
      rw [withRxq_withSetup, withRxq_withRxq, withSetup_withSetup] at hrest
      exact .entry hne hpacket hrest

/-- Settles O22: the drain of the stage, RXNE masked meanwhile. -/
theorem drainSetup : Obligations.DrainSetup := by
  unfold Obligations.DrainSetup
  intro s before sw w0 w1 done ha hpend hdata hdone hq
  have hdrains := drains_setup (s := setRxneMask false (runStart s)) hdata hdone hq
  exact ⟨_, exec_drains (t := rxSetupDone (((runStart s).withRxq []).withSetup w0 w1)) ha hpend hdrains rfl,
    .of_books rfl⟩

end Sys2Proof.Machine
end
